-- ==== Sys2Proof/Word.lean ====
section
/-! DEFINITION. The plain vocabulary of the part: bytes, lane words, tick counts, the four ports, and
one value per port. -/

namespace Sys2Proof

/-- A command byte or payload byte. -/
abbrev Byte := BitVec 8

/-- A 16-bit location of a port window (R183), and a two-byte block field (R189). -/
abbrev Half := BitVec 16

/-- A tick count or a deadline: 32 bits, wrapping (R188; "Time" in the conventions of 00_scope.md). -/
abbrev Tick := BitVec 32

/-- The four host ports A, B, C, D, numbered 0, 1, 2, 3. -/
inductive Port
  | a | b | c | d
  deriving DecidableEq, Repr

/-- The ports in the order A, B, C, D. -/
def Port.all : List Port := [.a, .b, .c, .d]

/-- One of the 64 message descriptors (R1). -/
abbrev DescNo := Fin 64

/-- One of the eight listener groups (R59). -/
abbrev GroupNo := Fin 8

/-- One value for each port. -/
structure PerPort (α : Type) where
  a : α
  b : α
  c : α
  d : α
  deriving DecidableEq, Repr

/-- The same value at every port. -/
def PerPort.replicate {α : Type} (x : α) : PerPort α := ⟨x, x, x, x⟩

/-- The value at port `p`. -/
def PerPort.get {α : Type} (m : PerPort α) (p : Port) : α :=
  match p with
  | .a => m.a
  | .b => m.b
  | .c => m.c
  | .d => m.d

/-- `m` with the value at port `p` replaced. -/
def PerPort.set {α : Type} (m : PerPort α) (p : Port) (x : α) : PerPort α :=
  match p with
  | .a => { m with a := x }
  | .b => { m with b := x }
  | .c => { m with c := x }
  | .d => { m with d := x }

/-- The width of a port, as its strap selects it (R188). -/
inductive Width
  | bits8
  | bits16
  deriving DecidableEq, Repr

/-- The strap levels sampled at the release of the reset pin (R188): each port's width strap (high is
`true`), and the two setup straps, strap 1 being the high bit of the setup port's number. -/
structure Straps where
  width  : PerPort Bool
  setup1 : Bool
  setup0 : Bool
  deriving DecidableEq, Repr

/-- The five enables in the low half of a control write (R185, bits 0 to 4). -/
structure Enables where
  noticeByte   : Bool
  answerPosted : Bool
  laneDone     : Bool
  lapsed       : Bool
  dma          : Bool
  deriving DecidableEq, Repr

/-- A happening that is due before the next tick may be taken: one of the four blocks of a port that
take the tick (R188), or a grant of the pool mover (R160). -/
inductive DueHappening
  | takes   (p : Port)
  | list    (p : Port)
  | framing (p : Port)
  | lane    (p : Port)
  | grant
  deriving DecidableEq, Repr

end Sys2Proof
end

