-- ==== Sys2Proof/Config.lean ====
section
/-! DEFINITION. What the manual leaves open: the order of happenings that fall at one tick. -/

namespace Sys2Proof

/-- The free order (assumption log 8): where TICK finds several happenings still outstanding, the `n`-th
such choice takes them in the order of this list. The manual says that either of two such happenings
may be taken first (R46, R181, R188), so nothing constrains it. -/
opaque Config.tickOrder : Nat → List DueHappening

end Sys2Proof
end

