-- ==== Sys2Proof/Syntax.lean ====
section
/-! DEFINITION. The commands of the part: one constructor per row of spec/opcode_table.json. -/

namespace Sys2Proof

/-- A command: a host access or control write, a request block, a deadline happening of one block, a
tick, a grant or a hard reset. Request operands are the raw fields of the block (R189), so that the
decoder's range checks (R95) have something to refuse. -/
inductive Instr
  /-- GATHERING_WRITE (R138): a write of offset 0; the command byte is the low half (R136). -/
  | gatheringWrite (p : Port) (data : Half)
  /-- CLOSING_WRITE (R140): a write of offset 0 that closes a block. -/
  | closingWrite (p : Port) (data : Half)
  /-- OPEN (R99). -/
  | openPort (p : Port) (answerLimit : Half)
  /-- CLOSE (R100). -/
  | closePort (p : Port)
  /-- SEND (R102). -/
  | send (p : Port) (destination channel : Byte) (length hold label : Half) (options : Byte)
  /-- TAKE (R109). -/
  | take (p : Port) (label : Half) (source value mask : Byte) (capacity timeout : Half)
  /-- CANCEL (R111). -/
  | cancel (p : Port) (label : Half)
  /-- JOIN (R112). -/
  | join (p : Port) (group : Byte)
  /-- LEAVE (R112). -/
  | leave (p : Port) (group : Byte)
  /-- QUERY (R113). -/
  | query (p : Port)
  /-- CONFIGURE (R115): a reserve and a ceiling for each port, and the stall limit. -/
  | configure (p : Port) (reserve ceiling : PerPort Byte) (stallLimit : Half)
  /-- SET_CLOSING_MARK (R139). -/
  | setClosingMark (p : Port)
  /-- ACCEPT (R147, R128). -/
  | accept (p : Port)
  /-- REFUSE (R147, R131). -/
  | refuse (p : Port)
  /-- OUTBOUND_BYTE_READ (R146). -/
  | outboundByteRead (p : Port)
  /-- LANE_WRITE (R157); an 8-bit port uses the low half (R156). -/
  | laneWrite (p : Port) (data : Half)
  /-- LANE_READ (R158). -/
  | laneRead (p : Port)
  /-- WRITE_ENABLES (R185). -/
  | writeEnables (p : Port) (enables : Enables)
  /-- DONE_CLEAR (R159). -/
  | doneClear (p : Port)
  /-- CLEAR_LANE_FLAGS (R159). -/
  | clearLaneFlags (p : Port)
  /-- PURGE (R164). -/
  | purge (p : Port)
  /-- PORT_RESET (R179). -/
  | portReset (p : Port)
  /-- UNDECODED_WRITE (R183): a write to byte address 1, 3 or 7 of an 8-bit port. -/
  | undecodedWrite (p : Port) (address : BitVec 3) (data : Byte)
  /-- TICK (R188). -/
  | tick
  /-- TAKE_DEADLINE (R34), at the take table of port `p`. -/
  | takeDeadline (p : Port)
  /-- HOLD_EXPIRY (R46), at the unclaimed list of port `p`. -/
  | holdExpiry (p : Port)
  /-- HOLD_DEADLINE_MARK (R47), at the unclaimed list of port `p`. -/
  | holdDeadlineMark (p : Port)
  /-- BYTE_DEADLINE (R148), at the framing unit of port `p`. -/
  | byteDeadline (p : Port)
  /-- ANSWER_DEADLINE (R148), at the framing unit of port `p`. -/
  | answerDeadline (p : Port)
  /-- INBOUND_STALL (R166), at the lane of port `p`. -/
  | inboundStall (p : Port)
  /-- OUTBOUND_STALL (R166), at the lane of port `p`. -/
  | outboundStall (p : Port)
  /-- GRANT (R160 to R162): the mover picks the lane. -/
  | grant
  /-- HARD_RESET (R182, R188), with the strap levels at the release of the reset pin. -/
  | hardReset (straps : Straps)
  deriving DecidableEq, Repr

end Sys2Proof
end

