-- ==== Sys2Proof/WellFormed.lean ====
section
/-! DEFINITION. Which commands are well formed. Ports, enables, straps and field widths are right by
their types; the one operand with values the row does not admit is the address of UNDECODED_WRITE. -/

namespace Sys2Proof

/-- The byte addresses of an 8-bit port that are not decoded: 1, 3 and 7 (R183). -/
def undecodedAddress (address : BitVec 3) : Bool :=
  address == 1 || address == 3 || address == 7

/-- An UNDECODED_WRITE names an undecoded address; every other command is well formed. -/
def Instr.wellFormed (i : Instr) : Bool :=
  match i with
  | .undecodedWrite _ address _ => undecodedAddress address
  | .gatheringWrite _ _ => true
  | .closingWrite _ _ => true
  | .openPort _ _ => true
  | .closePort _ => true
  | .send _ _ _ _ _ _ _ => true
  | .take _ _ _ _ _ _ _ => true
  | .cancel _ _ => true
  | .join _ _ => true
  | .leave _ _ => true
  | .query _ => true
  | .configure _ _ _ _ => true
  | .setClosingMark _ => true
  | .accept _ => true
  | .refuse _ => true
  | .outboundByteRead _ => true
  | .laneWrite _ _ => true
  | .laneRead _ => true
  | .writeEnables _ _ => true
  | .doneClear _ => true
  | .clearLaneFlags _ => true
  | .purge _ => true
  | .portReset _ => true
  | .tick => true
  | .takeDeadline _ => true
  | .holdExpiry _ => true
  | .holdDeadlineMark _ => true
  | .byteDeadline _ => true
  | .answerDeadline _ => true
  | .inboundStall _ => true
  | .outboundStall _ => true
  | .grant => true
  | .hardReset _ => true

end Sys2Proof
end

