-- ==== Sys2Proof/Machine/State.lean ====
section
/-! DEFINITION. The state of the part, block by block, and its value after reset. INVENTORY.md lists
every field with the rule that names it. -/

namespace Sys2Proof.Machine

/-! ### Messages -/

/-- The state of a message descriptor (R1). -/
inductive DescState
  | free | gathering | held
  deriving DecidableEq, Repr

/-- The destination of a message: a port or a group (R2). -/
inductive Destination
  | port  (p : Port)
  | group (g : GroupNo)
  deriving DecidableEq, Repr

/-- How a copy ended (R8). -/
inductive CopyOutcome
  | delivered | cut | expired | dropped | undeliverable | stopped
  deriving DecidableEq, Repr

/-- The state of a copy slot (R6); a SETTLED slot records the outcome (R8). -/
inductive SlotState
  | absent | waiting | bound | moving
  | settled (outcome : CopyOutcome)
  deriving DecidableEq, Repr

/-- One copy slot: its state, its hold deadline (R7), and the mark that the deadline has passed while
the copy was BOUND or MOVING (R47). -/
structure CopySlot where
  state    : SlotState
  deadline : Option Tick
  passed   : Bool
  deriving DecidableEq, Repr

/-- The six outcome counts of a message (R8). -/
structure Tally where
  delivered     : Nat
  cut           : Nat
  expired       : Nat
  dropped       : Nat
  undeliverable : Nat
  stopped       : Nat
  deriving DecidableEq, Repr

/-- One message descriptor (R1, R2, R4). -/
structure Descriptor where
  state          : DescState
  sender         : Port
  senderEpoch    : Byte
  destination    : Destination
  channel        : Byte
  length         : Nat
  hold           : Nat
  label          : Half
  receiptWanted  : Bool
  chain          : List Nat
  bytesInPool    : Nat
  completionTick : Tick
  slots          : PerPort CopySlot
  tally          : Tally
  deriving DecidableEq, Repr

/-! ### Notices -/

/-- The fields of an ARRIVAL (R122). -/
structure Arrival where
  takeLabel       : Half
  source          : Port
  group           : Option GroupNo
  channel         : Byte
  senderLabel     : Half
  messageLength   : Nat
  deliveredLength : Nat
  deriving DecidableEq, Repr

/-- The reason of a TAKE_ENDED (R123). -/
inductive EndReason
  | expired | cancelled
  deriving DecidableEq, Repr

/-- The status of a RECEIPT (R124). -/
inductive ReceiptStatus
  | complete | abandoned
  deriving DecidableEq, Repr

/-- The fields of a RECEIPT (R124). -/
structure Receipt where
  senderLabel : Half
  status      : ReceiptStatus
  copiesMade  : Nat
  tally       : Tally
  deriving DecidableEq, Repr

/-- The fields of a REPORT (R113). The group memberships are the groups' numbers in ascending order. -/
structure Report where
  tickCount       : Tick
  epoch           : Byte
  freeSegments    : Nat
  freeDescriptors : Nat
  held            : Nat
  reserve         : Nat
  ceiling         : Nat
  liveTakes       : Nat
  postedTakes     : Nat
  unclaimed       : Nat
  noticesQueued   : Nat
  slotsReserved   : Nat
  memberships     : List GroupNo
  deriving DecidableEq, Repr

/-- A notice (R119). -/
inductive Notice
  | arrival   (n : Arrival)
  | takeEnded (label : Half) (reason : EndReason)
  | receipt   (n : Receipt)
  | report    (n : Report)
  deriving DecidableEq, Repr

/-! ### The blocks of a port column -/

/-- The session state (R170). `opened` is the manual's OPEN. -/
inductive SessionState
  | closed | opened | lapsed
  deriving DecidableEq, Repr

/-- Session control (R170), with the mark of a teardown in progress (R177 step 1). -/
structure SessionControl where
  state       : SessionState
  epoch       : Byte
  answerLimit : Nat
  lapsedCause : Bool
  tearingDown : Bool
  deriving DecidableEq, Repr

/-- The reasons of a refusal, in the order of their codes (R189). -/
inductive Reason
  | framing | unknownCode | badField | notOpen | lapsed | notSetupPort | laneBusy | noDescriptor
  | noSlot | quota | poolFull | destClosed | takeFull | duplicateLabel | notFound | tooLate
  | badConfig | alreadyMember | notMember
  deriving DecidableEq, Repr

/-- The inbound answer (R137). -/
inductive InboundAnswer
  | none | accepted | refused
  deriving DecidableEq, Repr

/-- The inbound side of the framing unit (R137). `ring` holds at most 64 bytes, oldest first; `reason`
is `none` for the reason code 0. -/
structure InboundSide where
  ring         : List Byte
  gathered     : Nat
  overflow     : Nat
  closingMark  : Bool
  answer       : InboundAnswer
  reason       : Option Reason
  stray        : Nat
  answerPosted : Bool
  deriving DecidableEq, Repr

/-- The transmission state (R144) with what it carries: the index of the next byte to place, in DATA,
and the byte or answer deadline. -/
inductive Transmission
  | idle
  | data   (position : Nat) (deadline : Tick)
  | length (deadline : Tick)
  | answer (deadline : Tick)
  deriving DecidableEq, Repr

/-- The outbound side of the framing unit (R144). The full flag is `byte.isSome`. -/
structure OutboundSide where
  byte        : Option Byte
  closingMark : Bool
  tx          : Transmission
  deriving DecidableEq, Repr

/-- The request fields of a take (R20); a source filter of `none` is ANY. -/
structure TakeFields where
  label    : Half
  source   : Option Port
  value    : Byte
  mask     : Byte
  capacity : Nat
  timeout  : Nat
  deriving DecidableEq, Repr

/-- A POSTED take (R19, R24). -/
structure PostedTake where
  fields   : TakeFields
  deadline : Option Tick
  deriving DecidableEq, Repr

/-- A MATCHED take: the descriptor of its bound copy and the delivered length fixed at binding
(R19, R26, R27). -/
structure MatchedTake where
  fields    : TakeFields
  bound     : DescNo
  delivered : Nat
  deriving DecidableEq, Repr

/-- The take table: POSTED takes in posting order, oldest first (R23), and MATCHED takes, whose order
carries no meaning (R19). -/
structure TakeTable where
  posted  : List PostedTake
  matched : List MatchedTake
  deriving DecidableEq, Repr

/-- The notice queue, oldest first, with its two counts (R117). -/
structure NoticeQueue where
  notices         : List Notice
  reserved        : Nat
  receiptReserved : Nat
  deriving DecidableEq, Repr

/-- The owner state of a lane, with the descriptor of its transfer (R154). -/
inductive LaneOwner
  | idle
  | inbound  (d : DescNo)
  | outbound (d : DescNo)
  deriving DecidableEq, Repr

/-- A data lane (R154). `grantDue` is the model's own: the lane was eligible when the last tick was taken
and has had no grant since (R160; assumption log 9). -/
structure Lane where
  owner     : LaneOwner
  fifo      : List Byte
  hostCount : Nat
  poolCount : Nat
  done      : Bool
  overrun   : Bool
  underrun  : Bool
  stall     : Option Tick
  grantDue  : Bool
  deriving DecidableEq, Repr

/-- One port column. `readData` is the model's own: what the port's last read command returned
(assumption log 5). -/
structure PortState where
  session   : SessionControl
  inbound   : InboundSide
  outbound  : OutboundSide
  takes     : TakeTable
  unclaimed : List DescNo
  queue     : NoticeQueue
  lane      : Lane
  enables   : Enables
  width     : Width
  readData  : Half
  deriving DecidableEq, Repr

/-! ### The shared floor -/

/-- The bytes of the segment pool: (address, byte) pairs, address 256 n + k for byte k of segment n
(R74). The canonical form is `Memory.wf` in Machine/Ops.lean. -/
abbrev Memory := List Host.Cell

/-- The segment pool (R74 to R77, R89). `free` is the free list in ascending order. -/
structure Pool where
  free       : List Nat
  held       : PerPort Nat
  reserve    : PerPort Nat
  ceiling    : PerPort Nat
  stallLimit : Nat
  mem        : Memory
  deriving DecidableEq, Repr

/-- The whole part. `resetAsserted` is the reset pin (R188). `draws` and `pending` are the model's own: how many free orders have been drawn
(assumption log 8), and the queue of waiting commands, first in, first out. -/
structure State where
  tickCount : Tick
  ports     : PerPort PortState
  descs     : Vector Descriptor 64
  groups    : Vector (PerPort Bool) 8
  pool      : Pool
  pointer   : Port
  setupPort : Port
  resetAsserted : Bool
  draws     : Nat
  pending   : List Instr
  deriving DecidableEq, Repr

/-- The reasons the model stops with a fault. -/
inductive Fault
  /-- Raised by `execUndecodedWrite` where the command names no undecoded address of an 8-bit port: the
  address is not 1, 3 or 7, or the port is 16 bits wide. R183 knows no such write. Safe: the model
  stops and claims nothing. -/
  | noUndecodedAddress
  deriving DecidableEq, Repr

/-- The reasons the model refuses a command. -/
inductive Refusal
  /-- Raised by `exec` for a command without a meaning; no command of this model is without one. Safe. -/
  | notModelled (mnemonic : String)
  deriving DecidableEq, Repr

/-! ### Reset values -/

/-- An ABSENT slot with no hold deadline (R2). -/
def CopySlot.empty : CopySlot := { state := .absent, deadline := none, passed := false }

/-- All six counts 0. -/
def Tally.zero : Tally :=
  { delivered := 0, cut := 0, expired := 0, dropped := 0, undeliverable := 0, stopped := 0 }

/-- A FREE descriptor after hard reset (R1). The fields that carry no meaning while FREE have the values
of assumption log 3. -/
def Descriptor.reset : Descriptor :=
  { state := .free, sender := .a, senderEpoch := 0, destination := .port .a, channel := 0, length := 0,
    hold := 0, label := 0, receiptWanted := false, chain := [], bytesInPool := 0, completionTick := 0,
    slots := PerPort.replicate CopySlot.empty, tally := Tally.zero }

/-- Session control after hard reset (R170). -/
def SessionControl.reset : SessionControl :=
  { state := .closed, epoch := 0, answerLimit := 250, lapsedCause := false, tearingDown := false }

/-- The inbound side after hard reset and after port reset (R137, R151). -/
def InboundSide.reset : InboundSide :=
  { ring := [], gathered := 0, overflow := 0, closingMark := false, answer := .none, reason := none,
    stray := 0, answerPosted := false }

/-- The outbound side after hard reset, port reset and teardown (R144, R150, R151). -/
def OutboundSide.reset : OutboundSide := { byte := none, closingMark := false, tx := .idle }

/-- A lane after hard reset (R154). -/
def Lane.reset : Lane :=
  { owner := .idle, fifo := [], hostCount := 0, poolCount := 0, done := false, overrun := false,
    underrun := false, stall := none, grantDue := false }

/-- Every enable clear (R185). -/
def Enables.clear : Enables :=
  { noticeByte := false, answerPosted := false, laneDone := false, lapsed := false, dma := false }

/-- A port column after hard reset, with the width its strap gives. -/
def PortState.reset (width : Width) : PortState :=
  { session := SessionControl.reset, inbound := InboundSide.reset, outbound := OutboundSide.reset,
    takes := { posted := [], matched := [] }, unclaimed := [],
    queue := { notices := [], reserved := 0, receiptReserved := 0 },
    lane := Lane.reset, enables := Enables.clear, width := width, readData := 0 }

/-- The pool after hard reset (R89), with nothing listed in its memory (assumption log 2). -/
def Pool.reset : Pool :=
  { free := List.range 96, held := PerPort.replicate 0, reserve := PerPort.replicate 8,
    ceiling := PerPort.replicate 48, stallLimit := 500, mem := [] }

/-- The part right after a hard reset with every strap low (assumption log 1): every port 8 bits wide,
the setup port A, the reset pin released. -/
def State.reset : State :=
  { tickCount := 0, ports := PerPort.replicate (PortState.reset .bits8),
    descs := Vector.replicate 64 Descriptor.reset, groups := Vector.replicate 8 (PerPort.replicate false),
    pool := Pool.reset, pointer := .d, setupPort := .a, resetAsserted := false, draws := 0,
    pending := [] }

end Sys2Proof.Machine
end

