-- ==== Sys2Proof/Machine/Operands.lean ====
section
/-! DEFINITION. Reading operands: port numbers, bytes of an access, ranges of block fields, and the
number of payload bytes a lane access carries. -/

namespace Sys2Proof

/-- A port's number (00_scope.md, "Ports"). -/
def Port.number (p : Port) : Nat :=
  match p with
  | .a => 0
  | .b => 1
  | .c => 2
  | .d => 3

/-- The port after `p` in the rotation A, B, C, D, A (R160). -/
def Port.next (p : Port) : Port :=
  match p with
  | .a => .b
  | .b => .c
  | .c => .d
  | .d => .a

/-- The three ports other than `p`, in order. -/
def Port.others (p : Port) : List Port := Port.all.filter (· != p)

/-- `m` with the value at port `p` changed by `f`. -/
def PerPort.modify {α : Type} (m : PerPort α) (p : Port) (f : α → α) : PerPort α := m.set p (f (m.get p))

/-- A value at each port, changed alike. -/
def PerPort.map {α β : Type} (m : PerPort α) (f : α → β) : PerPort β := ⟨f m.a, f m.b, f m.c, f m.d⟩

/-- The low half of a 16-bit access: the byte at the even address (R183). -/
def lowByte (h : Half) : Byte := h.setWidth 8

/-- The high half of a 16-bit access. -/
def highByte (h : Half) : Byte := (h >>> 8).setWidth 8

/-- A 16-bit value from its low and high bytes (R189: little-endian; R156: low half first). -/
def halfOf (lo hi : Byte) : Half := hi ++ lo

/-- A byte in the low half, with 0 in the high half (R136, R156). -/
def inLowHalf (b : Byte) : Half := b.setWidth 16

/-- The width a strap level selects: low 8 bits, high 16 bits (R188). -/
def widthOfStrap (high : Bool) : Width := if high then .bits16 else .bits8

/-- The setup port the two setup straps name (R188). -/
def setupOfStraps (setup1 setup0 : Bool) : Port :=
  match setup1, setup0 with
  | false, false => .a
  | false, true => .b
  | true, false => .c
  | true, true => .d

/-- A port field of a block: 0 to 3 (R189). -/
def portOfByte (b : Byte) : Option Port :=
  match b.toNat with
  | 0 => some .a
  | 1 => some .b
  | 2 => some .c
  | 3 => some .d
  | _ => none

/-- A SEND destination: 0 to 3 for a port, 10h to 17h for groups 0 to 7 (R95, R189). -/
def destinationOfByte (b : Byte) : Option Machine.Destination :=
  match portOfByte b with
  | some p => some (.port p)
  | none => if h : 0x10 ≤ b.toNat ∧ b.toNat ≤ 0x17 then some (.group ⟨b.toNat - 0x10, by omega⟩) else none

/-- A TAKE source filter: 0 to 3, or FFh for ANY, shown as `some none` (R95, R189). -/
def sourceOfByte (b : Byte) : Option (Option Port) :=
  if b = 0xFF then some none else (portOfByte b).map some

/-- A JOIN or LEAVE group: 0 to 7 (R95). -/
def groupOfByte (b : Byte) : Option GroupNo :=
  if h : b.toNat < 8 then some ⟨b.toNat, h⟩ else none

/-- An OPEN's answer limit is legal: 0, or 10 to 2000 (R95). -/
def answerLimitLegal (f : Half) : Bool := f.toNat == 0 || (10 ≤ f.toNat && f.toNat ≤ 2000)

/-- The answer limit an OPEN sets: 0 stands for 250 ticks (R99). -/
def answerLimitOf (f : Half) : Nat := if f.toNat = 0 then 250 else f.toNat

/-- The number of segments a message of `length` bytes needs: the length divided by 256, rounded up
(R74, R78). -/
def segmentsNeeded (length : Nat) : Nat := (length + 255) / 256

/-- A deadline `n` ticks after the tick count `now`, modulo 2 to the 32nd power. -/
def deadlineAfter (now : Tick) (n : Nat) : Tick := now + BitVec.ofNat 32 n

/-- How many payload bytes a lane access carries (R156). -/
def laneAccessSize (width : Width) (hostCount : Nat) : Nat :=
  match width with
  | .bits8 => 1
  | .bits16 => if hostCount = 1 then 1 else 2

/-- The bytes a lane write of `size` bytes carries, in stream order: low half first (R156). -/
def laneWriteBytes (size : Nat) (data : Half) : List Byte :=
  if size = 1 then [lowByte data] else [lowByte data, highByte data]

/-- The value a lane read returns for the bytes it takes: the first in the low half, the second, if
any, in the high half (R156). -/
def laneReadValue (bytes : List Byte) : Half :=
  match bytes with
  | [] => 0
  | [b] => inLowHalf b
  | lo :: hi :: _ => halfOf lo hi

end Sys2Proof
end

