-- ==== Sys2Proof/Machine/Flags.lean ====
section
/-! DEFINITION. The indications a port computes from its state: lane ready, the interrupt causes and
line, the DMA request line, the status word and the reason register. -/

namespace Sys2Proof.Machine

/-- The code of a refusal reason (R189). -/
def Reason.code (r : Reason) : Nat :=
  match r with
  | .framing => 1
  | .unknownCode => 2
  | .badField => 3
  | .notOpen => 4
  | .lapsed => 5
  | .notSetupPort => 6
  | .laneBusy => 7
  | .noDescriptor => 8
  | .noSlot => 9
  | .quota => 10
  | .poolFull => 11
  | .destClosed => 12
  | .takeFull => 13
  | .duplicateLabel => 14
  | .notFound => 15
  | .tooLate => 16
  | .badConfig => 17
  | .alreadyMember => 18
  | .notMember => 19

/-- A session state's code in the status word (R184). -/
def SessionState.code (x : SessionState) : Nat :=
  match x with
  | .closed => 0
  | .opened => 1
  | .lapsed => 2

/-- An inbound answer's code in the status word (R184). -/
def InboundAnswer.code (x : InboundAnswer) : Nat :=
  match x with
  | .none => 0
  | .accepted => 1
  | .refused => 2

/-- A lane owner's code in the status word (R184). -/
def LaneOwner.code (x : LaneOwner) : Nat :=
  match x with
  | .idle => 0
  | .inbound _ => 1
  | .outbound _ => 2

/-- The outbound byte full flag, which is also the NOTICE BYTE cause (R144, R187). -/
def PortState.byteFull (ps : PortState) : Bool := ps.outbound.byte.isSome

/-- The awaiting-answer indication: set while the transmission state is ANSWER (R144). -/
def PortState.awaitingAnswer (ps : PortState) : Bool :=
  match ps.outbound.tx with
  | .answer _ => true
  | _ => false

/-- The size of the port's next lane access. -/
def PortState.accessSize (ps : PortState) : Nat := laneAccessSize ps.width ps.lane.hostCount

/-- The lane-ready indication: the next access of the port's width would move bytes (R158). -/
def PortState.laneReady (ps : PortState) : Bool :=
  match ps.lane.owner with
  | .idle => false
  | .inbound _ => 0 < ps.lane.hostCount && ps.lane.fifo.length + ps.accessSize ≤ 32
  | .outbound _ => ps.accessSize ≤ ps.lane.fifo.length

/-- Some pending cause has its enable set, so that the interrupt line is active (R187) unless the reset pin is
asserted (Window.lean). -/
def PortState.interruptRaised (ps : PortState) : Bool :=
  (ps.byteFull && ps.enables.noticeByte) || (ps.inbound.answerPosted && ps.enables.answerPosted) ||
    (ps.lane.done && ps.enables.laneDone) || (ps.session.lapsedCause && ps.enables.lapsed)

/-- The DMA enable and lane ready are set, so that the DMA request line is active (R167) unless the reset pin is
asserted (Window.lean). -/
def PortState.dmaRaised (ps : PortState) : Bool := ps.enables.dma && ps.laneReady

/-- The status word (R184). -/
def PortState.statusWord (ps : PortState) : Half :=
  BitVec.ofNat 16
    (ps.session.state.code + 4 * ps.inbound.answer.code + 16 * ps.byteFull.toNat
      + 32 * ps.outbound.closingMark.toNat + 64 * ps.awaitingAnswer.toNat
      + 128 * ps.inbound.answerPosted.toNat + 256 * ps.lane.owner.code + 1024 * ps.laneReady.toNat
      + 2048 * ps.lane.done.toNat + 4096 * ps.lane.overrun.toNat + 8192 * ps.lane.underrun.toNat
      + 16384 * ps.session.lapsedCause.toNat + 32768 * ps.interruptRaised.toNat)

/-- The reason field: 0, or the code of the reason (R137). -/
def InboundSide.reasonCode (x : InboundSide) : Nat :=
  match x.reason with
  | none => 0
  | some r => r.code

/-- The reason register: the reason field in bits 0 to 7, the stray field in bits 8 to 13 (R186). -/
def PortState.reasonWord (ps : PortState) : Half :=
  BitVec.ofNat 16 (ps.inbound.reasonCode + 256 * ps.inbound.stray)

end Sys2Proof.Machine
end

