-- ==== Sys2Proof/Machine/Blocks.lean ====
section
/-! DEFINITION. The layouts of request and notice blocks, and their codes (R189). -/

namespace Sys2Proof.Machine

/-- The two bytes of a 16-bit field, little-endian (R189). -/
def halfBytes (h : Half) : List Byte := [lowByte h, highByte h]

/-- A length or count as a 16-bit field. -/
def natBytes2 (n : Nat) : List Byte := halfBytes (BitVec.ofNat 16 n)

/-- A count as a one-byte field. -/
def natByte (n : Nat) : Byte := BitVec.ofNat 8 n

/-- The four bytes of a tick count, little-endian. -/
def tickBytes (t : Tick) : List Byte := halfBytes (t.setWidth 16) ++ halfBytes ((t >>> 16).setWidth 16)

/-- The code of a notice (R189). -/
def Notice.code (n : Notice) : Byte :=
  match n with
  | .arrival _ => 0x80
  | .takeEnded _ _ => 0x81
  | .receipt _ => 0x88
  | .report _ => 0x90

/-- An ARRIVAL's group field: FFh for none (R189). -/
def groupByte (g : Option GroupNo) : Byte :=
  match g with
  | some g => natByte g.val
  | none => 0xFF

/-- A TAKE_ENDED's reason field (R189). -/
def EndReason.byte (r : EndReason) : Byte :=
  match r with
  | .expired => 1
  | .cancelled => 2

/-- A RECEIPT's status field (R189). -/
def ReceiptStatus.byte (r : ReceiptStatus) : Byte :=
  match r with
  | .complete => 0
  | .abandoned => 1

/-- A set of groups as one byte, with bit g set for group g (R189). -/
def membershipByte (gs : List GroupNo) : Byte := gs.foldl (fun acc g => acc ||| ((1 : Byte) <<< g.val)) 0

/-- The data bytes of a notice, in order (R189). -/
def Notice.data (n : Notice) : List Byte :=
  match n with
  | .arrival x =>
      halfBytes x.takeLabel ++ [natByte x.source.number, groupByte x.group, x.channel] ++ halfBytes x.senderLabel
        ++ natBytes2 x.messageLength ++ natBytes2 x.deliveredLength
  | .takeEnded label reason => halfBytes label ++ [reason.byte]
  | .receipt x =>
      halfBytes x.senderLabel
        ++ [x.status.byte, natByte x.copiesMade, natByte x.tally.delivered, natByte x.tally.cut,
          natByte x.tally.expired, natByte x.tally.dropped, natByte x.tally.undeliverable, natByte x.tally.stopped]
  | .report x =>
      tickBytes x.tickCount
        ++ [x.epoch, natByte x.freeSegments, natByte x.freeDescriptors, natByte x.held, natByte x.reserve,
          natByte x.ceiling, natByte x.liveTakes, natByte x.postedTakes, natByte x.unclaimed,
          natByte x.noticesQueued, natByte x.slotsReserved, membershipByte x.memberships]

/-- The bytes of a notice: its code, its data length, its data (R144, R189). -/
def Notice.bytes (n : Notice) : List Byte := n.code :: natByte n.data.length :: n.data

/-- The length byte that closes a notice: its total length (R144). -/
def Notice.totalLength (n : Notice) : Byte := natByte (n.data.length + 2)

/-- A request as the decoder holds it: the fields, not yet range-checked. -/
inductive Request
  | openPort (answerLimit : Half)
  | closePort
  | send (destination channel : Byte) (length hold label : Half) (options : Byte)
  | take (label : Half) (source value mask : Byte) (capacity timeout : Half)
  | cancel (label : Half)
  | join (group : Byte)
  | leave (group : Byte)
  | query
  | configure (reserve ceiling : PerPort Byte) (stallLimit : Half)
  deriving DecidableEq, Repr

/-- Steps 1 and 2 of the decoder (R92, R93, R94): the code names a request, else UNKNOWN_CODE; the data
length is the one fixed for it, else FRAMING. -/
def parseRequest (code : Byte) (data : List Byte) : Except Reason Request :=
  match code.toNat with
  | 0x10 =>
    match data with
    | [l0, l1] => .ok (.openPort (halfOf l0 l1))
    | _ => .error .framing
  | 0x11 =>
    match data with
    | [] => .ok .closePort
    | _ => .error .framing
  | 0x20 =>
    match data with
    | [dst, ch, n0, n1, h0, h1, l0, l1, opt] =>
        .ok (.send dst ch (halfOf n0 n1) (halfOf h0 h1) (halfOf l0 l1) opt)
    | _ => .error .framing
  | 0x28 =>
    match data with
    | [l0, l1, src, v, m, c0, c1, t0, t1] =>
        .ok (.take (halfOf l0 l1) src v m (halfOf c0 c1) (halfOf t0 t1))
    | _ => .error .framing
  | 0x29 =>
    match data with
    | [l0, l1] => .ok (.cancel (halfOf l0 l1))
    | _ => .error .framing
  | 0x30 =>
    match data with
    | [g] => .ok (.join g)
    | _ => .error .framing
  | 0x31 =>
    match data with
    | [g] => .ok (.leave g)
    | _ => .error .framing
  | 0x38 =>
    match data with
    | [] => .ok .query
    | _ => .error .framing
  | 0x3C =>
    match data with
    | [ra, ca, rb, cb, rc, cc, rd, cd, s0, s1] =>
        .ok (.configure ⟨ra, rb, rc, rd⟩ ⟨ca, cb, cc, cd⟩ (halfOf s0 s1))
    | _ => .error .framing
  | _ => .error .unknownCode

/-- The code of a request (R189). -/
def Request.code (r : Request) : Byte :=
  match r with
  | .openPort _ => 0x10
  | .closePort => 0x11
  | .send _ _ _ _ _ _ => 0x20
  | .take _ _ _ _ _ _ => 0x28
  | .cancel _ => 0x29
  | .join _ => 0x30
  | .leave _ => 0x31
  | .query => 0x38
  | .configure _ _ _ => 0x3C

/-- The data bytes of a request, in order (R189). -/
def Request.data (r : Request) : List Byte :=
  match r with
  | .openPort limit => halfBytes limit
  | .closePort => []
  | .send dst ch len hold label opt => [dst, ch] ++ halfBytes len ++ halfBytes hold ++ halfBytes label ++ [opt]
  | .take label src v m cap timeout => halfBytes label ++ [src, v, m] ++ halfBytes cap ++ halfBytes timeout
  | .cancel label => halfBytes label
  | .join g => [g]
  | .leave g => [g]
  | .query => []
  | .configure r c stall => [r.a, c.a, r.b, c.b, r.c, c.c, r.d, c.d] ++ halfBytes stall

/-- The block of a request: its code, its data length, its data (R189). -/
def Request.block (r : Request) : List Byte := r.code :: natByte r.data.length :: r.data

/-- The request block command of port `p` that carries the request `r`. -/
def Request.command (p : Port) (r : Request) : Instr :=
  match r with
  | .openPort limit => .openPort p limit
  | .closePort => .closePort p
  | .send dst ch len hold label opt => .send p dst ch len hold label opt
  | .take label src v m cap timeout => .take p label src v m cap timeout
  | .cancel label => .cancel p label
  | .join g => .join p g
  | .leave g => .leave p g
  | .query => .query p
  | .configure r c stall => .configure p r c stall

end Sys2Proof.Machine
end

