-- ==== Sys2Proof/Machine/Ops.lean ====
section
/-! DEFINITION. The operations that commands share: the pool memory, the descriptor table and its copies,
takes, notices, settlement and abandonment. -/

namespace Sys2Proof.Machine

/-! ### The segment pool's bytes -/

/-- What an unlisted address reads as (assumption log 2). -/
def Memory.blank : Byte := 0

/-- The byte at an address. -/
def Memory.read (m : Memory) (a : Nat) : Byte :=
  match m with
  | [] => Memory.blank
  | (k, v) :: rest => if k = a then v else Memory.read rest a

/-- `m` with a byte stored, in canonical form. -/
def Memory.write (m : Memory) (a : Nat) (b : Byte) : Memory :=
  match m with
  | [] => if b = Memory.blank then [] else [(a, b)]
  | (k, v) :: rest =>
    if a < k then if b = Memory.blank then (k, v) :: rest else (a, b) :: (k, v) :: rest
    else if a = k then if b = Memory.blank then rest else (a, b) :: rest
    else (k, v) :: Memory.write rest a b

/-- Every address of `m` is above `bound`, addresses rise, and no entry is blank. -/
def Memory.wfAbove (bound : Option Nat) (m : Memory) : Bool :=
  match m with
  | [] => true
  | (k, v) :: rest =>
    (match bound with
      | none => true
      | some n => decide (n < k)) && v != Memory.blank && Memory.wfAbove (some k) rest

/-- The canonical form: addresses strictly rising, and no entry equal to what an unlisted address reads as. -/
def Memory.wf (m : Memory) : Bool := Memory.wfAbove none m

/-- The address of payload byte `k` in a chain: entry k / 256, offset k mod 256 (R3). A position past the
chain has none. -/
def payloadAddress (chain : List Nat) (k : Nat) : Option Nat :=
  (chain[k / 256]?).map (fun seg => 256 * seg + k % 256)

/-- Store `bytes` at the payload positions from `k` on (R3). -/
def Memory.storePayload (m : Memory) (chain : List Nat) (k : Nat) (bytes : List Byte) : Memory :=
  match bytes with
  | [] => m
  | b :: rest =>
    Memory.storePayload (match payloadAddress chain k with
      | some a => Memory.write m a b
      | none => m) chain (k + 1) rest

/-- The payload byte at position `k` of a chain. -/
def Memory.payloadByte (m : Memory) (chain : List Nat) (k : Nat) : Byte :=
  match payloadAddress chain k with
  | some a => Memory.read m a
  | none => Memory.blank

/-- The `n` payload bytes from position `k` on. -/
def Memory.loadPayload (m : Memory) (chain : List Nat) (k n : Nat) : List Byte :=
  (List.range n).map (fun i => Memory.payloadByte m chain (k + i))

/-! ### Reading and changing the blocks of the state -/

/-- The port column of `p`. -/
def State.port (s : State) (p : Port) : PortState := s.ports.get p

/-- Change the port column of `p`. -/
def State.modPort (s : State) (p : Port) (f : PortState → PortState) : State :=
  { s with ports := s.ports.set p (f (s.ports.get p)) }

/-- Descriptor `d`. -/
def State.desc (s : State) (d : DescNo) : Descriptor := s.descs.get d

/-- Change descriptor `d`. -/
def State.modDesc (s : State) (d : DescNo) (f : Descriptor → Descriptor) : State :=
  { s with descs := s.descs.set d.val (f (s.descs.get d)) d.isLt }

/-- Change the pool. -/
def State.modPool (s : State) (f : Pool → Pool) : State := { s with pool := f s.pool }

/-- The member set of group `g` (R59). -/
def State.members (s : State) (g : GroupNo) : PerPort Bool := s.groups.get g

/-- Change the member set of group `g`. -/
def State.modGroup (s : State) (g : GroupNo) (f : PerPort Bool → PerPort Bool) : State :=
  { s with groups := s.groups.set g.val (f (s.groups.get g)) g.isLt }

/-- The copy slot of descriptor `d` for port `p`. -/
def State.slot (s : State) (d : DescNo) (p : Port) : CopySlot := (s.desc d).slots.get p

/-- Change the copy slot of descriptor `d` for port `p`. -/
def State.modSlot (s : State) (d : DescNo) (p : Port) (f : CopySlot → CopySlot) : State :=
  s.modDesc d (fun x => { x with slots := x.slots.modify p f })

/-! ### The reset pin -/

/-- What a happening leaves, `t` being its effect: while the reset pin is asserted the part takes no access and
its blocks do not act (R188; assumption log 23). -/
def State.unlessInReset (s t : State) : State := if s.resetAsserted then s else t

/-- What a read leaves, `t` being its effect: while the reset pin is asserted it returns 0 and does nothing
else (R188). -/
def State.readUnlessInReset (s : State) (p : Port) (t : State) : State :=
  if s.resetAsserted then s.modPort p (fun ps => { ps with readData := 0 }) else t

/-! ### Sessions -/

/-- The port's session is OPEN. -/
def PortState.isOpen (ps : PortState) : Bool := ps.session.state == .opened

/-! ### Notices -/

/-- The lane's owner state is IDLE. -/
def PortState.laneIdle (ps : PortState) : Bool := ps.lane.owner == .idle

/-- A notice is an ARRIVAL. -/
def Notice.isArrival (n : Notice) : Bool :=
  match n with
  | .arrival _ => true
  | .takeEnded _ _ => false
  | .receipt _ => false
  | .report _ => false

/-- The head of the notice queue is an ARRIVAL (R103). -/
def PortState.headIsArrival (ps : PortState) : Bool :=
  match ps.queue.notices with
  | [] => false
  | n :: _ => n.isArrival

/-- A byte or answer deadline started now (R152). -/
def PortState.answerDeadlineFrom (now : Tick) (ps : PortState) : Tick := deadlineAfter now ps.session.answerLimit

/-- Offer the head of the queue for transmission: when the framing unit is IDLE and the head is not an
ARRIVAL held back by a lane in use, its first byte is placed (R126, R127, R145). -/
def PortState.offer (now : Tick) (ps : PortState) : PortState :=
  match ps.outbound.tx, ps.queue.notices with
  | .idle, n :: _ =>
    if n.isArrival && !ps.laneIdle then ps
    else { ps with outbound := { ps.outbound with byte := some n.code, tx := .data 1 (ps.answerDeadlineFrom now) } }
  | _, _ => ps

/-- Append notices at the tail of the queue, in their order, and offer the head (R119, R126). -/
def PortState.append (now : Tick) (ns : List Notice) (ps : PortState) : PortState :=
  PortState.offer now { ps with queue := { ps.queue with notices := ps.queue.notices ++ ns } }

/-- Append one notice at port `p` within this happening. -/
def State.appendNotice (s : State) (p : Port) (n : Notice) : State :=
  s.modPort p (PortState.append s.tickCount [n])

/-- Offer the head of port `p`'s queue within this happening. -/
def State.offer (s : State) (p : Port) : State := s.modPort p (PortState.offer s.tickCount)

/-- Book one notice slot (R118). -/
def PortState.bookSlot (ps : PortState) : PortState :=
  { ps with queue := { ps.queue with reserved := ps.queue.reserved + 1 } }

/-- Book one notice slot for a RECEIPT (R118). -/
def PortState.bookReceipt (ps : PortState) : PortState :=
  { ps with queue := { ps.queue with reserved := ps.queue.reserved + 1, receiptReserved := ps.queue.receiptReserved + 1 } }

/-- Append a RECEIPT: from a receipt reservation when there is one, else from a new slot when the
reservation count is below 24, else not at all (R120). -/
def PortState.appendReceipt (now : Tick) (r : Receipt) (ps : PortState) : PortState :=
  if 0 < ps.queue.receiptReserved then
    PortState.append now [.receipt r]
      { ps with queue := { ps.queue with receiptReserved := ps.queue.receiptReserved - 1 } }
  else if ps.queue.reserved < 24 then PortState.append now [.receipt r] ps.bookSlot
  else ps

/-! ### Descriptors and the pool -/

/-- The slot is live: WAITING, BOUND or MOVING (R6). -/
def SlotState.live (x : SlotState) : Bool :=
  match x with
  | .absent => false
  | .waiting => true
  | .bound => true
  | .moving => true
  | .settled _ => false

/-- The slot is SETTLED. -/
def SlotState.isSettled (x : SlotState) : Bool :=
  match x with
  | .absent => false
  | .waiting => false
  | .bound => false
  | .moving => false
  | .settled _ => true

/-- The live-copy count (R6). -/
def Descriptor.liveCount (x : Descriptor) : Nat := Port.all.countP (fun p => (x.slots.get p).state.live)

/-- The number of SETTLED slots: copies made, at settlement (R11). -/
def Descriptor.settledCount (x : Descriptor) : Nat := Port.all.countP (fun p => (x.slots.get p).state.isSettled)

/-- The tally with one more copy of an outcome (R8). -/
def Tally.count (t : Tally) (o : CopyOutcome) : Tally :=
  match o with
  | .delivered => { t with delivered := t.delivered + 1 }
  | .cut => { t with cut := t.cut + 1 }
  | .expired => { t with expired := t.expired + 1 }
  | .dropped => { t with dropped := t.dropped + 1 }
  | .undeliverable => { t with undeliverable := t.undeliverable + 1 }
  | .stopped => { t with stopped := t.stopped + 1 }

/-- The receipt check (R10). -/
def State.receiptCheck (s : State) (d : DescNo) : Bool :=
  let x := s.desc d
  let c := (s.port x.sender).session
  x.receiptWanted && c.state == .opened && !c.tearingDown && c.epoch == x.senderEpoch

/-- Queue a RECEIPT at the sender of `d` when the receipt check passes (R10, R120). -/
def State.queueReceipt (s : State) (d : DescNo) (status : ReceiptStatus) (copiesMade : Nat) (tally : Tally) : State :=
  if s.receiptCheck d then
    s.modPort (s.desc d).sender
      (PortState.appendReceipt s.tickCount
        { senderLabel := (s.desc d).label, status := status, copiesMade := copiesMade, tally := tally })
  else s

/-- Put a segment number back into the free list, which stays in ascending order. -/
def insertSegment (seg : Nat) (free : List Nat) : List Nat :=
  match free with
  | [] => [seg]
  | x :: rest => if seg ≤ x then seg :: x :: rest else x :: insertSegment seg rest

/-- Put the segments of a chain back into the free list. -/
def releaseSegments (chain free : List Nat) : List Nat := chain.foldr insertSegment free

/-- Release a chain of port `p`'s to the pool: its segments are free again and held[p] falls (R80). -/
def Pool.release (p : Port) (chain : List Nat) (x : Pool) : Pool :=
  { x with free := releaseSegments chain x.free, held := x.held.modify p (fun n => n - chain.length) }

/-- Release the chain of descriptor `d` (R14, R80). -/
def State.releaseChain (s : State) (d : DescNo) : State :=
  s.modPool (Pool.release (s.desc d).sender (s.desc d).chain)

/-- A descriptor that becomes FREE: slots ABSENT, tally 0, chain empty, bytes in pool 0 (R9, R12). The
other fields carry no meaning and stay as they stood (R1; assumption log 3). -/
def Descriptor.freed (x : Descriptor) : Descriptor :=
  { x with state := .free, chain := [], bytesInPool := 0, slots := PerPort.replicate CopySlot.empty, tally := Tally.zero }

/-- Settle descriptor `d`: RECEIPT if due, chain released, FREE (R9, R11). -/
def State.settleDescriptor (s : State) (d : DescNo) : State :=
  let s1 := s.queueReceipt d .complete (s.desc d).settledCount (s.desc d).tally
  let s2 := s1.releaseChain d
  s2.modDesc d Descriptor.freed

/-- Settle descriptor `d` if it is HELD with no live copy (R9). -/
def State.settleIfDone (s : State) (d : DescNo) : State :=
  if (s.desc d).state == .held && (s.desc d).liveCount == 0 then s.settleDescriptor d else s

/-- Abandon the GATHERING descriptor `d`: RECEIPT with status ABANDONED if due, chain released, FREE
(R12, R13). In a teardown of the sender the receipt check fails, so none is queued. -/
def State.abandon (s : State) (d : DescNo) : State :=
  let s1 := s.queueReceipt d .abandoned 0 Tally.zero
  let s2 := s1.releaseChain d
  s2.modDesc d Descriptor.freed

/-- Settle one copy with an outcome: the slot records it and the tally counts it. A slot already SETTLED
keeps its outcome (R8). -/
def Descriptor.settleCopy (p : Port) (o : CopyOutcome) (x : Descriptor) : Descriptor :=
  if (x.slots.get p).state.isSettled then x
  else { x with slots := x.slots.modify p (fun sl => { sl with state := .settled o }), tally := x.tally.count o }

/-- Settle the copy of descriptor `d` at port `p` (R8). -/
def State.settleCopy (s : State) (d : DescNo) (p : Port) (o : CopyOutcome) : State :=
  s.modDesc d (Descriptor.settleCopy p o)

/-! ### Takes, binding and matching -/

/-- A message passes a take's filter (R22): the source filter, and the channel under the mask. -/
def TakeFields.accepts (f : TakeFields) (x : Descriptor) : Bool :=
  (match f.source with
    | none => true
    | some q => q == x.sender) && (x.channel &&& f.mask) == (f.value &&& f.mask)

/-- The port's live takes (R19). -/
def TakeTable.liveCount (t : TakeTable) : Nat := t.posted.length + t.matched.length

/-- The ARRIVAL of a copy of `x` bound to a take (R15, R122). -/
def arrivalOf (f : TakeFields) (x : Descriptor) : Arrival :=
  { takeLabel := f.label, source := x.sender,
    group := match x.destination with
      | .port _ => none
      | .group g => some g,
    channel := x.channel, senderLabel := x.label, messageLength := x.length,
    deliveredLength := min x.length f.capacity }

/-- Bind the copy of descriptor `d` at port `p` to a take with fields `f`: the slot is BOUND, the take is
MATCHED with the delivered length fixed, and its ARRIVAL is appended (R26). The caller has taken the
take out of the posting order and the copy out of the unclaimed list. -/
def State.bindCopy (s : State) (p : Port) (f : TakeFields) (d : DescNo) : State :=
  let s1 := s.modSlot d p (fun sl => { sl with state := .bound })
  let s2 := s1.modPort p (fun ps =>
    { ps with takes := { ps.takes with
        matched := ps.takes.matched ++ [{ fields := f, bound := d, delivered := min (s.desc d).length f.capacity }] } })
  s2.appendNotice p (.arrival (arrivalOf f (s.desc d)))

/-- The MATCHED take of port `p` that names descriptor `d` ends (R30, R31, R32). -/
def PortState.endTake (d : DescNo) (ps : PortState) : PortState :=
  { ps with takes := { ps.takes with matched := ps.takes.matched.filter (fun t => t.bound != d) } }

/-- The hold deadline of a copy of `x` created at the completion tick (R7). -/
def Descriptor.holdDeadline (x : Descriptor) : Option Tick :=
  if 0 < x.hold then some (deadlineAfter x.completionTick x.hold) else none

/-- Create the copy of descriptor `d` for port `q` and match it there (R4 step 3, R28, R44, R45). -/
def State.matchCopy (s : State) (d : DescNo) (q : Port) : State :=
  let s1 := s.modSlot d q (fun sl => { sl with deadline := (s.desc d).holdDeadline, passed := false })
  let ps := s1.port q
  if !ps.isOpen then s1.settleCopy d q .undeliverable
  else
    match ps.takes.posted.find? (fun t => t.fields.accepts (s1.desc d)) with
    | some t =>
      (s1.modPort q (fun x => { x with takes := { x.takes with
        posted := x.takes.posted.eraseP (fun t => t.fields.accepts (s1.desc d)) } })).bindCopy q t.fields d
    | none =>
      if ps.unclaimed.length < 32 then
        (s1.modPort q (fun x => { x with unclaimed := x.unclaimed ++ [d] })).modSlot d q
          (fun sl => { sl with state := .waiting })
      else s1.settleCopy d q .dropped

/-- The recipient ports of descriptor `d` as the group table stands: the destination port, or the members
of the group less the sender, in the order A, B, C, D (R4 step 2, R65). -/
def State.recipients (s : State) (d : DescNo) : List Port :=
  match (s.desc d).destination with
  | .port q => [q]
  | .group g => Port.all.filter (fun q => (s.members g).get q && q != (s.desc d).sender)

/-- The message of descriptor `d` completes (R4). -/
def State.complete (s : State) (d : DescNo) : State :=
  let s1 := s.modDesc d (fun x => { x with completionTick := s.tickCount })
  let s2 := (s1.recipients d).foldl (fun t q => t.matchCopy d q) s1
  if 0 < (s2.desc d).liveCount then s2.modDesc d (fun x => { x with state := .held })
  else s2.settleDescriptor d

/-! ### The end of a transfer -/

/-- The lane becomes IDLE with its FIFO empty, its counts 0 and its stall deadline cancelled. LANE DONE,
OVERRUN and UNDERRUN stay (R163, R164, R166, R169). -/
def PortState.idleLane (ps : PortState) : PortState :=
  { ps with lane := { ps.lane with owner := .idle, fifo := [], hostCount := 0, poolCount := 0, stall := none, grantDue := false } }

/-- The lane of port `p` becomes IDLE, and an ARRIVAL held back at the head is handed over (R127). -/
def State.returnLane (s : State) (p : Port) : State := (s.modPort p PortState.idleLane).offer p

/-- An inbound transfer ends without completing: its descriptor is abandoned and the lane returns to IDLE
(R157, R164, R166). -/
def State.abandonTransfer (s : State) (p : Port) (d : DescNo) : State := (s.abandon d).returnLane p

/-- A delivery ends: the copy is settled, the take ends, the lane returns to IDLE, and the descriptor is
settled if it was its last live copy (R32, R163, R164, R166). -/
def State.endDelivery (s : State) (p : Port) (d : DescNo) (o : CopyOutcome) : State :=
  let s1 := s.settleCopy d p o
  let s2 := s1.modPort p (PortState.endTake d)
  let s3 := s2.modPort p PortState.idleLane
  (s3.settleIfDone d).offer p

/-- A refused copy is handed back to the unclaimed list of port `p` (R49). -/
def State.returnCopy (s : State) (p : Port) (d : DescNo) : State :=
  if (s.slot d p).passed then (s.settleCopy d p .expired).settleIfDone d
  else if 32 ≤ (s.port p).unclaimed.length then (s.settleCopy d p .dropped).settleIfDone d
  else
    (s.modPort p (fun ps => { ps with unclaimed := d :: ps.unclaimed })).modSlot d p
      (fun sl => { sl with state := .waiting })

/-- Claim the lane of port `p` for a transfer of `n` bytes (R155). -/
def State.claimLane (s : State) (p : Port) (owner : LaneOwner) (n : Nat) : State :=
  s.modPort p (fun ps => { ps with lane := { ps.lane with
    owner := owner, hostCount := n, poolCount := n, done := false,
    stall := some (deadlineAfter s.tickCount s.pool.stallLimit) } })

/-- The delivered length of the delivery of descriptor `d` at a port: the one its MATCHED take fixed
(R27, R129). -/
def PortState.deliveredLength (ps : PortState) (d : DescNo) : Nat :=
  match ps.takes.matched.find? (fun t => t.bound == d) with
  | some t => t.delivered
  | none => 0

end Sys2Proof.Machine
end

