-- ==== Sys2Proof/Machine/Session.lean ====
section
/-! DEFINITION. Sessions: teardown, lapse, opening and closing (Section 10 of the manual). -/

namespace Sys2Proof.Machine

/-- Steps 1 and 8 of a teardown: the mark that makes the port fail the receipt check (R177). -/
def PortState.markTearingDown (mark : Bool) (ps : PortState) : PortState :=
  { ps with session := { ps.session with tearingDown := mark } }

/-- Step 2: every notice is discarded, both reservation counts are 0, and the transmission ends
(R134, R150). -/
def PortState.discardNotices (ps : PortState) : PortState :=
  { ps with queue := { notices := [], reserved := 0, receiptReserved := 0 }, outbound := OutboundSide.reset }

/-- Step 3: the port leaves every group (R63). -/
def State.leaveAllGroups (s : State) (p : Port) : State :=
  { s with groups := s.groups.map (fun m => m.set p false) }

/-- Step 4: an INBOUND lane ends its transfer and its GATHERING descriptor is abandoned (R16, R169). -/
def State.endInbound (s : State) (p : Port) : State :=
  match (s.port p).lane.owner with
  | .inbound d => (s.modPort p PortState.idleLane).abandon d
  | .idle => s
  | .outbound _ => s

/-- The copy at port `p` loses the mark that its deadline has passed (R57). -/
def Descriptor.dropMark (p : Port) (x : Descriptor) : Descriptor :=
  { x with slots := x.slots.modify p (fun sl => { sl with passed := false }) }

/-- A teardown ends the copy of descriptor `d` at port `p`: its mark is dropped, and it is settled UNDELIVERABLE
(R17, R41, R57). -/
def State.undeliver (s : State) (d : DescNo) (p : Port) : State :=
  (s.modDesc d (Descriptor.dropMark p)).settleCopy d p .undeliverable

/-- A teardown ends the copies of several descriptors at port `p`. -/
def State.undeliverAll (s : State) (ds : List DescNo) (p : Port) : State := ds.foldl (fun t d => t.undeliver d p) s

/-- Step 5, the table itself: every live take is removed, and an OUTBOUND lane becomes IDLE (R41, R169). -/
def PortState.dropTakes (ps : PortState) : PortState :=
  let cleared : PortState := { ps with takes := { posted := [], matched := [] } }
  match ps.lane.owner with
  | .outbound _ => cleared.idleLane
  | .idle => cleared
  | .inbound _ => cleared

/-- Step 6, the list itself: emptied (R57). -/
def PortState.dropUnclaimed (ps : PortState) : PortState := { ps with unclaimed := [] }

/-- The descriptors whose copies at a port a teardown settles: those bound to its MATCHED takes and those
in its unclaimed list (R17). -/
def PortState.liveCopies (ps : PortState) : List DescNo := ps.takes.matched.map (·.bound) ++ ps.unclaimed

/-- Step 7: of the descriptors `ds`, those left with no live copy are settled in ascending order of number
(R17, R177). -/
def State.settleEmptied (s : State) (ds : List DescNo) : State :=
  ((List.finRange 64).filter (fun d => ds.contains d)).foldl State.settleIfDone s

/-- The teardown of port `p` (R177). -/
def State.teardown (s : State) (p : Port) : State :=
  let s1 := s.modPort p (PortState.markTearingDown true)
  let s2 := s1.modPort p PortState.discardNotices
  let s3 := s2.leaveAllGroups p
  let s4 := s3.endInbound p
  let taken := (s4.port p).takes.matched.map (·.bound)
  let waiting := (s4.port p).unclaimed
  let s5 := (s4.undeliverAll taken p).modPort p PortState.dropTakes
  let s6 := (s5.undeliverAll waiting p).modPort p PortState.dropUnclaimed
  let s7 := s6.settleEmptied (s4.port p).liveCopies
  s7.modPort p (PortState.markTearingDown false)

/-- The teardown of port `p` if its session is OPEN: it runs once for each session that ends (R172). -/
def State.teardownIfOpen (s : State) (p : Port) : State :=
  if (s.port p).isOpen then s.teardown p else s

/-- Change a port's session state. -/
def PortState.setSession (x : SessionState) (ps : PortState) : PortState :=
  { ps with session := { ps.session with state := x } }

/-- Change a port's LAPSED cause. -/
def PortState.setLapsedCause (x : Bool) (ps : PortState) : PortState :=
  { ps with session := { ps.session with lapsedCause := x } }

/-- A lapse handed to session control: cause set, teardown, LAPSED (R176). -/
def State.lapse (s : State) (p : Port) : State :=
  ((s.modPort p (PortState.setLapsedCause true)).teardown p).modPort p (PortState.setSession .lapsed)

/-- A session opens: epoch, answer limit, LAPSED cause, state, in that order (R173). -/
def PortState.opening (limit : Nat) (ps : PortState) : PortState :=
  { ps with session := { ps.session with epoch := ps.session.epoch + 1, answerLimit := limit, lapsedCause := false, state := .opened } }

/-- An accepted OPEN: at an OPEN port the old session is torn down first (R99, R173, R174). -/
def State.openSession (s : State) (p : Port) (limit : Nat) : State :=
  (s.teardownIfOpen p).modPort p (PortState.opening limit)

/-- An accepted CLOSE: an OPEN port is torn down; a LAPSED port only loses its LAPSED cause (R100, R175). -/
def State.closeSession (s : State) (p : Port) : State :=
  (s.teardownIfOpen p).modPort p (fun ps => (ps.setLapsedCause false).setSession .closed)

end Sys2Proof.Machine
end

