-- ==== Sys2Proof/Machine/Lane.lean ====
section
/-! DEFINITION. Data lanes: host accesses, the lane controls, stalls, and the port reset (Sections 9
and 10 of the manual). -/

namespace Sys2Proof.Machine

/-- Change the lane of a port column. -/
def PortState.modLane (f : Lane → Lane) (ps : PortState) : PortState := { ps with lane := f ps.lane }

/-- Restart the stall deadline: the tick count plus the stall limit in force (R165). -/
def State.restartStall (s : State) (p : Port) : State :=
  s.modPort p (PortState.modLane (fun l => { l with stall := some (deadlineAfter s.tickCount s.pool.stallLimit) }))

/-- Set OVERRUN (R157). -/
def State.setOverrun (s : State) (p : Port) : State :=
  s.modPort p (PortState.modLane (fun l => { l with overrun := true }))

/-- Set UNDERRUN, and answer the read with 0 (R158). -/
def State.setUnderrun (s : State) (p : Port) : State :=
  s.modPort p (fun ps => { (ps.modLane (fun l => { l with underrun := true })) with readData := 0 })

/-- Bytes join the FIFO, and the host count falls; at 0 LANE DONE is set (R157). -/
def Lane.takeIn (bytes : List Byte) (l : Lane) : Lane :=
  { l with
    fifo := l.fifo ++ bytes, hostCount := l.hostCount - bytes.length,
    done := l.done || l.hostCount - bytes.length == 0 }

/-- `n` bytes leave the FIFO, and the host count falls; at 0 LANE DONE is set (R158, R163). -/
def Lane.giveOut (n : Nat) (l : Lane) : Lane :=
  { l with
    fifo := l.fifo.drop n, hostCount := l.hostCount - n, done := l.done || l.hostCount - n == 0 }

/-- A host write of offset 2 (R157). -/
def State.writeLane (s : State) (p : Port) (data : Half) : State :=
  let ps := s.port p
  match ps.lane.owner with
  | .idle => s.setOverrun p
  | .outbound _ => (s.setOverrun p).restartStall p
  | .inbound d =>
    if ps.lane.hostCount = 0 then (s.setOverrun p).restartStall p
    else if ps.lane.fifo.length + ps.accessSize ≤ 32 then
      (s.modPort p (PortState.modLane (Lane.takeIn (laneWriteBytes ps.accessSize data)))).restartStall p
    else (s.setOverrun p).abandonTransfer p d

/-- The outcome of a delivery that runs to its end: DELIVERED when the delivered length is the message
length, CUT when it is smaller (R27, R32, R163). -/
def finishOutcome (delivered length : Nat) : CopyOutcome := if delivered = length then .delivered else .cut

/-- A host read of offset 2 (R158). -/
def State.readLane (s : State) (p : Port) : State :=
  let ps := s.port p
  match ps.lane.owner with
  | .idle => s.setUnderrun p
  | .inbound _ => (s.setUnderrun p).restartStall p
  | .outbound d =>
    if ps.accessSize ≤ ps.lane.fifo.length then
      let s1 := s.modPort p (fun x =>
        { (x.modLane (Lane.giveOut ps.accessSize)) with
          readData := laneReadValue (ps.lane.fifo.take ps.accessSize) })
      let s2 := s1.restartStall p
      if ps.lane.hostCount - ps.accessSize = 0 then
        s2.endDelivery p d (finishOutcome (ps.deliveredLength d) (s.desc d).length)
      else s2
    else (s.setUnderrun p).restartStall p

/-- The purge of a lane (R164). -/
def State.purgeLane (s : State) (p : Port) : State :=
  let s1 := s.modPort p (PortState.modLane (fun l => { l with fifo := [], overrun := false, underrun := false }))
  match (s.port p).lane.owner with
  | .idle => s1
  | .inbound d => s1.abandonTransfer p d
  | .outbound d => s1.endDelivery p d .stopped

/-- Clear LANE DONE (R159). -/
def Lane.clearDone (l : Lane) : Lane := { l with done := false }

/-- Clear OVERRUN and UNDERRUN (R159). -/
def Lane.clearFlags (l : Lane) : Lane := { l with overrun := false, underrun := false }

/-- Steps 3 to 5 of a port reset after the purge: the lane flags, LANE DONE, the framing unit and every
enable are cleared (R151, R169, R179). -/
def PortState.clearWindow (ps : PortState) : PortState :=
  { ps with
    lane := ps.lane.clearDone.clearFlags, inbound := InboundSide.reset, outbound := OutboundSide.reset,
    enables := Enables.clear }

/-- The port reset (R179). -/
def State.resetPort (s : State) (p : Port) : State :=
  let s1 := s.teardownIfOpen p
  let s2 := s1.modPort p (fun ps => (ps.setSession .closed).setLapsedCause false)
  let s3 := s2.purgeLane p
  s3.modPort p PortState.clearWindow

/-- The stall deadline of a port's lane equals the tick count. -/
def State.stallReached (s : State) (p : Port) : Bool := (s.port p).lane.stall == some s.tickCount

/-- The inbound stall: the message is abandoned, the port stays OPEN (R166). -/
def State.stallInbound (s : State) (p : Port) : State :=
  match (s.port p).lane.owner with
  | .inbound d => if s.stallReached p then s.abandonTransfer p d else s
  | .idle => s
  | .outbound _ => s

/-- The outbound stall: the copy is settled STOPPED, the lane is IDLE, and the port lapses (R166, R176). -/
def State.stallOutbound (s : State) (p : Port) : State :=
  match (s.port p).lane.owner with
  | .outbound d => if s.stallReached p then (s.endDelivery p d .stopped).lapse p else s
  | .idle => s
  | .inbound _ => s

/-! ### Meanings -/

/-- LANE_WRITE (R157). -/
def execLaneWrite (p : Port) (data : Half) (s : State) : Host.Outcome State Fault Refusal :=
  .next (s.unlessInReset (s.writeLane p data))

/-- LANE_READ (R158). -/
def execLaneRead (p : Port) (s : State) : Host.Outcome State Fault Refusal :=
  .next (s.readUnlessInReset p (s.readLane p))

/-- WRITE_ENABLES: the five enables are written as given (R185). The interrupt and DMA request lines follow
them (R167, R187). -/
def execWriteEnables (p : Port) (enables : Enables) (s : State) : Host.Outcome State Fault Refusal :=
  .next (s.unlessInReset (s.modPort p (fun ps => { ps with enables := enables })))

/-- DONE_CLEAR (R159). -/
def execDoneClear (p : Port) (s : State) : Host.Outcome State Fault Refusal :=
  .next (s.unlessInReset (s.modPort p (PortState.modLane Lane.clearDone)))

/-- CLEAR_LANE_FLAGS (R159). -/
def execClearLaneFlags (p : Port) (s : State) : Host.Outcome State Fault Refusal :=
  .next (s.unlessInReset (s.modPort p (PortState.modLane Lane.clearFlags)))

/-- PURGE (R164). -/
def execPurge (p : Port) (s : State) : Host.Outcome State Fault Refusal :=
  .next (s.unlessInReset (s.purgeLane p))

/-- PORT_RESET (R179). -/
def execPortReset (p : Port) (s : State) : Host.Outcome State Fault Refusal :=
  .next (s.unlessInReset (s.resetPort p))

/-- UNDECODED_WRITE: a write to address 1, 3 or 7 of an 8-bit port changes nothing (R183). Anything else
is no such write and faults (assumption log 14). -/
def execUndecodedWrite (p : Port) (address : BitVec 3) (_data : Byte) (s : State) : Host.Outcome State Fault Refusal :=
  if undecodedAddress address && (s.port p).width == .bits8 then .next s else .fault .noUndecodedAddress

/-- INBOUND_STALL (R166). -/
def execInboundStall (p : Port) (s : State) : Host.Outcome State Fault Refusal :=
  .next (s.unlessInReset (s.stallInbound p))

/-- OUTBOUND_STALL (R166). -/
def execOutboundStall (p : Port) (s : State) : Host.Outcome State Fault Refusal :=
  .next (s.unlessInReset (s.stallOutbound p))

end Sys2Proof.Machine
end

