-- ==== Sys2Proof/Machine/Requests.lean ====
section
/-! DEFINITION. Requests: the decoder's field, session and own checks, and the effect of acceptance
(Section 6 of the manual). Each `accept…` answers the state after the request's effect, or the reason of
the first check that failed (R91, R92). -/

namespace Sys2Proof.Machine

/-- The end of a closing: counts 0, mark clear, answer posted, reason written, ANSWER POSTED pending
(R140, R142). -/
def InboundSide.post (reason : Option Reason) (x : InboundSide) : InboundSide :=
  { x with
    gathered := 0, overflow := 0, closingMark := false,
    answer := match reason with
      | none => .accepted
      | some _ => .refused,
    reason := reason, answerPosted := true }

/-- Post an answer at port `p`. -/
def State.post (s : State) (p : Port) (reason : Option Reason) : State :=
  s.modPort p (fun ps => { ps with inbound := ps.inbound.post reason })

/-- Post the decoder's verdict on a request: the state after its effect, or `s` unchanged with the reason
of the refusal (R91, R92, R142). -/
def State.answerRequest (s : State) (p : Port) (verdict : Except Reason State) : State :=
  match verdict with
  | .ok t => t.post p none
  | .error r => s.post p (some r)

/-- Step 4 of the decoder for every request but OPEN and CLOSE (R96). -/
def PortState.sessionRefusal (ps : PortState) : Option Reason :=
  match ps.session.state with
  | .opened => none
  | .closed => some .notOpen
  | .lapsed => some .lapsed

/-- The port's reservation count is 24: a request that books a slot is refused NO_SLOT (R118). -/
def PortState.noSlot (ps : PortState) : Bool := 24 ≤ ps.queue.reserved

/-! ### OPEN and CLOSE -/

/-- OPEN (R99): the field check, then the session opens. -/
def State.acceptOpen (s : State) (p : Port) (answerLimit : Half) : Except Reason State :=
  if !answerLimitLegal answerLimit then .error .badField
  else .ok (s.openSession p (answerLimitOf answerLimit))

/-- CLOSE (R100): refused NOT_OPEN at a CLOSED port. -/
def State.acceptClose (s : State) (p : Port) : Except Reason State :=
  if (s.port p).session.state = .closed then .error .notOpen else .ok (s.closeSession p)

/-! ### SEND -/

/-- The port's lane is in use, or an ARRIVAL at the head of its queue has the lane first (R103). -/
def PortState.laneBusy (ps : PortState) : Bool := !ps.laneIdle || ps.headIsArrival

/-- The lowest-numbered FREE descriptor (R2). -/
def State.freeDescriptor (s : State) : Option DescNo := (List.finRange 64).find? (fun d => (s.desc d).state == .free)

/-- A port's unmet reserve (R77). -/
def Pool.unmet (x : Pool) (p : Port) : Nat := x.reserve.get p - x.held.get p

/-- The sum of the unmet reserves of the ports other than `p` (R78). -/
def Pool.othersUnmet (x : Pool) (p : Port) : Nat := (p.others.map x.unmet).sum

/-- A unicast destination whose session is not OPEN (R104 check 5, R107); a group never is (R64). -/
def State.destinationClosed (s : State) (dst : Destination) : Bool :=
  match dst with
  | .port q => !(s.port q).isOpen
  | .group _ => false

/-- The fields of a SEND that passed its range checks. -/
structure SendFields where
  destination   : Destination
  channel       : Byte
  length        : Nat
  hold          : Nat
  label         : Half
  receiptWanted : Bool
  deriving DecidableEq, Repr

/-- A SEND's own checks, in the order of R103 and R104: the descriptor it would take, or the reason. -/
def State.checkSend (s : State) (p : Port) (f : SendFields) : Except Reason DescNo :=
  if (s.port p).laneBusy then .error .laneBusy
  else
    match s.freeDescriptor with
    | none => .error .noDescriptor
    | some d =>
      if f.receiptWanted && (s.port p).noSlot then .error .noSlot
      else if s.pool.ceiling.get p < s.pool.held.get p + segmentsNeeded f.length then .error .quota
      else if s.pool.free.length < segmentsNeeded f.length + s.pool.othersUnmet p then .error .poolFull
      else if s.destinationClosed f.destination then .error .destClosed
      else .ok d

/-- The descriptor a SEND allocates (R2). The completion tick, which R2 does not list, stays as it stood
until completion writes it. -/
def Descriptor.allocated (x : Descriptor) (p : Port) (epoch : Byte) (f : SendFields) (chain : List Nat) : Descriptor :=
  { state := .gathering, sender := p, senderEpoch := epoch, destination := f.destination, channel := f.channel,
    length := f.length, hold := f.hold, label := f.label, receiptWanted := f.receiptWanted, chain := chain,
    bytesInPool := 0, completionTick := x.completionTick, slots := PerPort.replicate CopySlot.empty,
    tally := Tally.zero }

/-- Take the `n` lowest-numbered free segments for port `p` (R75, R79). -/
def Pool.reserveSegments (p : Port) (n : Nat) (x : Pool) : Pool :=
  { x with free := x.free.drop n, held := x.held.modify p (fun k => k + n) }

/-- The effect of an accepted SEND (R105, R106). -/
def State.doSend (s : State) (p : Port) (f : SendFields) (d : DescNo) : State :=
  let n := segmentsNeeded f.length
  let s1 := s.modDesc d (fun x => x.allocated p (s.port p).session.epoch f (s.pool.free.take n))
  let s2 := s1.modPool (Pool.reserveSegments p n)
  let s3 := if f.receiptWanted then s2.modPort p PortState.bookReceipt else s2
  if 0 < f.length then s3.claimLane p (.inbound d) f.length else s3.complete d

/-- SEND (R95, R96, R103 to R106). -/
def State.acceptSend (s : State) (p : Port) (destination channel : Byte) (length hold label : Half) (options : Byte) :
    Except Reason State :=
  match destinationOfByte destination with
  | none => .error .badField
  | some dst =>
    if 2048 < length.toNat || 1 < options.toNat then .error .badField
    else
      match (s.port p).sessionRefusal with
      | some r => .error r
      | none =>
        let f : SendFields :=
          { destination := dst, channel := channel, length := length.toNat, hold := hold.toNat, label := label,
            receiptWanted := options.toNat == 1 }
        match s.checkSend p f with
        | .error r => .error r
        | .ok d => .ok (s.doSend p f d)

/-! ### TAKE and CANCEL -/

/-- A live take of the table carries the label (R21). -/
def TakeTable.hasLabel (t : TakeTable) (label : Half) : Bool :=
  t.posted.any (fun x => x.fields.label == label) || t.matched.any (fun x => x.fields.label == label)

/-- A POSTED take's deadline, from its acceptance (R24). -/
def TakeFields.deadline (f : TakeFields) (now : Tick) : Option Tick :=
  if 0 < f.timeout then some (deadlineAfter now f.timeout) else none

/-- The effect of an accepted TAKE: a slot is booked, the unclaimed list is searched from the head, and the
first copy that matches is bound, or the take is POSTED at the tail (R25, R48). -/
def State.doTake (s : State) (p : Port) (f : TakeFields) : State :=
  let s1 := s.modPort p PortState.bookSlot
  match (s.port p).unclaimed.find? (fun d => f.accepts (s.desc d)) with
  | some d => (s1.modPort p (fun ps => { ps with unclaimed := ps.unclaimed.erase d })).bindCopy p f d
  | none =>
    s1.modPort p (fun ps => { ps with takes := { ps.takes with
      posted := ps.takes.posted ++ [{ fields := f, deadline := f.deadline s.tickCount }] } })

/-- TAKE (R95, R96, R110). -/
def State.acceptTake (s : State) (p : Port) (label : Half) (source value mask : Byte) (capacity timeout : Half) :
    Except Reason State :=
  match sourceOfByte source with
  | none => .error .badField
  | some src =>
    if 2048 < capacity.toNat then .error .badField
    else
      match (s.port p).sessionRefusal with
      | some r => .error r
      | none =>
        if 16 ≤ (s.port p).takes.liveCount then .error .takeFull
        else if (s.port p).takes.hasLabel label then .error .duplicateLabel
        else if (s.port p).noSlot then .error .noSlot
        else .ok (s.doTake p
          { label := label, source := src, value := value, mask := mask, capacity := capacity.toNat,
            timeout := timeout.toNat })

/-- Remove the POSTED take with a label from the posting order (R33); labels of live takes differ (R21). -/
def PortState.dropPosted (label : Half) (ps : PortState) : PortState :=
  { ps with takes := { ps.takes with posted := ps.takes.posted.eraseP (fun t => t.fields.label == label) } }

/-- CANCEL (R33, R111): the POSTED take ends, and its TAKE_ENDED is appended. -/
def State.acceptCancel (s : State) (p : Port) (label : Half) : Except Reason State :=
  match (s.port p).sessionRefusal with
  | some r => .error r
  | none =>
    if !(s.port p).takes.hasLabel label then .error .notFound
    else if (s.port p).takes.matched.any (fun t => t.fields.label == label) then .error .tooLate
    else .ok ((s.modPort p (PortState.dropPosted label)).appendNotice p (.takeEnded label .cancelled))

/-! ### JOIN and LEAVE -/

/-- JOIN (R61, R112). -/
def State.acceptJoin (s : State) (p : Port) (group : Byte) : Except Reason State :=
  match groupOfByte group with
  | none => .error .badField
  | some g =>
    match (s.port p).sessionRefusal with
    | some r => .error r
    | none =>
      if (s.members g).get p then .error .alreadyMember else .ok (s.modGroup g (fun m => m.set p true))

/-- LEAVE (R62, R112). -/
def State.acceptLeave (s : State) (p : Port) (group : Byte) : Except Reason State :=
  match groupOfByte group with
  | none => .error .badField
  | some g =>
    match (s.port p).sessionRefusal with
    | some r => .error r
    | none =>
      if (s.members g).get p then .ok (s.modGroup g (fun m => m.set p false)) else .error .notMember

/-! ### QUERY -/

/-- The groups whose member sets hold the port, in ascending order (R72). -/
def State.memberships (s : State) (p : Port) : List GroupNo := (List.finRange 8).filter (fun g => (s.members g).get p)

/-- The REPORT a QUERY of port `p` builds, its slot already booked and itself counted in the queue (R113). -/
def State.reportOf (s : State) (p : Port) : Report :=
  let ps := s.port p
  { tickCount := s.tickCount, epoch := ps.session.epoch, freeSegments := s.pool.free.length,
    freeDescriptors := (List.finRange 64).countP (fun d => (s.desc d).state == .free),
    held := s.pool.held.get p, reserve := s.pool.reserve.get p, ceiling := s.pool.ceiling.get p,
    liveTakes := ps.takes.liveCount, postedTakes := ps.takes.posted.length, unclaimed := ps.unclaimed.length,
    noticesQueued := ps.queue.notices.length + 1, slotsReserved := ps.queue.reserved,
    memberships := s.memberships p }

/-- QUERY (R113). -/
def State.acceptQuery (s : State) (p : Port) : Except Reason State :=
  match (s.port p).sessionRefusal with
  | some r => .error r
  | none =>
    if (s.port p).noSlot then .error .noSlot
    else
      let s1 := s.modPort p PortState.bookSlot
      .ok (s1.appendNotice p (.report (s1.reportOf p)))

/-! ### CONFIGURE -/

/-- The values of a CONFIGURE pass as a whole against the present pool (R83 check 2). -/
def Pool.configLegal (x : Pool) (reserve ceiling : PerPort Nat) (stallLimit : Nat) : Bool :=
  Port.all.all (fun q =>
      reserve.get q ≤ 24 && 1 ≤ ceiling.get q && ceiling.get q ≤ 96 && reserve.get q ≤ ceiling.get q)
    && 50 ≤ stallLimit && stallLimit ≤ 60000
    && (Port.all.map (fun q => reserve.get q - x.held.get q)).sum ≤ x.free.length

/-- CONFIGURE (R83, R84, R115). -/
def State.acceptConfigure (s : State) (p : Port) (reserve ceiling : PerPort Byte) (stallLimit : Half) :
    Except Reason State :=
  match (s.port p).sessionRefusal with
  | some r => .error r
  | none =>
    if p ≠ s.setupPort then .error .notSetupPort
    else if !s.pool.configLegal (reserve.map BitVec.toNat) (ceiling.map BitVec.toNat) stallLimit.toNat then
      .error .badConfig
    else
      .ok (s.modPool (fun x => { x with
        reserve := reserve.map BitVec.toNat, ceiling := ceiling.map BitVec.toNat, stallLimit := stallLimit.toNat }))

/-! ### The decoder -/

/-- Steps 3 to 5 of the decoder and the owner's effect, for a request (R92). -/
def State.acceptRequest (s : State) (p : Port) (r : Request) : Except Reason State :=
  match r with
  | .openPort limit => s.acceptOpen p limit
  | .closePort => s.acceptClose p
  | .send dst ch len hold label opt => s.acceptSend p dst ch len hold label opt
  | .take label src v m cap timeout => s.acceptTake p label src v m cap timeout
  | .cancel label => s.acceptCancel p label
  | .join g => s.acceptJoin p g
  | .leave g => s.acceptLeave p g
  | .query => s.acceptQuery p
  | .configure r c stall => s.acceptConfigure p r c stall

/-- The decoder takes a whole block: a code and its data bytes (R91, R92). -/
def State.decodeBlock (s : State) (p : Port) (code : Byte) (data : List Byte) : Except Reason State :=
  match parseRequest code data with
  | .error r => .error r
  | .ok r => s.acceptRequest p r

/-! ### Meanings. A request as a command is the decoder's part of its closing happening and the posting
of the answer (R91, R142; assumption log 6). -/

/-- OPEN (R99, R173, R174). -/
def execOpenPort (p : Port) (answerLimit : Half) (s : State) : Host.Outcome State Fault Refusal :=
  .next (s.unlessInReset (s.answerRequest p (s.acceptOpen p answerLimit)))

/-- CLOSE (R100, R175). -/
def execClosePort (p : Port) (s : State) : Host.Outcome State Fault Refusal :=
  .next (s.unlessInReset (s.answerRequest p (s.acceptClose p)))

/-- SEND (R102 to R107). -/
def execSend (p : Port) (destination channel : Byte) (length hold label : Half) (options : Byte) (s : State) :
    Host.Outcome State Fault Refusal :=
  .next (s.unlessInReset (s.answerRequest p (s.acceptSend p destination channel length hold label options)))

/-- TAKE (R25, R109, R110). -/
def execTake (p : Port) (label : Half) (source value mask : Byte) (capacity timeout : Half) (s : State) :
    Host.Outcome State Fault Refusal :=
  .next (s.unlessInReset (s.answerRequest p (s.acceptTake p label source value mask capacity timeout)))

/-- CANCEL (R33, R111). -/
def execCancel (p : Port) (label : Half) (s : State) : Host.Outcome State Fault Refusal :=
  .next (s.unlessInReset (s.answerRequest p (s.acceptCancel p label)))

/-- JOIN (R61, R112). -/
def execJoin (p : Port) (group : Byte) (s : State) : Host.Outcome State Fault Refusal :=
  .next (s.unlessInReset (s.answerRequest p (s.acceptJoin p group)))

/-- LEAVE (R62, R112). -/
def execLeave (p : Port) (group : Byte) (s : State) : Host.Outcome State Fault Refusal :=
  .next (s.unlessInReset (s.answerRequest p (s.acceptLeave p group)))

/-- QUERY (R113). -/
def execQuery (p : Port) (s : State) : Host.Outcome State Fault Refusal :=
  .next (s.unlessInReset (s.answerRequest p (s.acceptQuery p)))

/-- CONFIGURE (R83, R84, R115). -/
def execConfigure (p : Port) (reserve ceiling : PerPort Byte) (stallLimit : Half) (s : State) :
    Host.Outcome State Fault Refusal :=
  .next (s.unlessInReset (s.answerRequest p (s.acceptConfigure p reserve ceiling stallLimit)))

end Sys2Proof.Machine
end

