-- ==== Sys2Proof/Machine/Framing.lean ====
section
/-! DEFINITION. The framing unit: gathering and closing, the closing mark, the outbound byte, the host's
answers, and the byte and answer deadlines (Sections 7 and 8 of the manual). -/

namespace Sys2Proof.Machine

/-! ### The inbound side -/

/-- A gathering write of one byte (R138). -/
def InboundSide.gather (b : Byte) (x : InboundSide) : InboundSide :=
  { x with
    ring := (if 64 ≤ x.ring.length then x.ring.drop 1 else x.ring) ++ [b],
    gathered := if x.gathered < 64 then x.gathered + 1 else x.gathered,
    overflow := if x.gathered < 64 then x.overflow else min 63 (x.overflow + 1),
    answer := .none, answerPosted := false }

/-- The start of a closing: the mark and the answer are cleared (R140). -/
def InboundSide.beginClosing (x : InboundSide) : InboundSide :=
  { x with closingMark := false, answer := .none, answerPosted := false }

/-- The stray field with `n` stray bytes: 63 when there are 63 or more (R140, R141). -/
def InboundSide.setStray (n : Nat) (x : InboundSide) : InboundSide := { x with stray := min 63 n }

/-- The block of total length `n`: the last `n` bytes placed in the ring (R141). -/
def InboundSide.block (n : Nat) (x : InboundSide) : List Byte := x.ring.drop (x.ring.length - n)

/-- The block a closing byte `n` cuts when it is whole, as its code and data bytes: `n` is from 2 to 64 and
at most the gathered count, and the block's second byte is n - 2 (R140, R141). -/
def InboundSide.wholeBlock (n : Nat) (x : InboundSide) : Option (Byte × List Byte) :=
  if n < 2 || 64 < n || x.gathered < n then none
  else
    match x.block n with
    | code :: len :: data => if len.toNat = n - 2 then some (code, data) else none
    | _ => none

/-- Change the inbound side of a port. -/
def State.modInbound (s : State) (p : Port) (f : InboundSide → InboundSide) : State :=
  s.modPort p (fun ps => { ps with inbound := f ps.inbound })

/-- A closing write (R140 to R142): FRAMING with every byte of the attempt stray, or the whole block to the
decoder with the bytes before it stray; then the answer. -/
def State.closeBlock (s : State) (p : Port) (b : Byte) : State :=
  let n := b.toNat
  let x := (s.port p).inbound
  let s1 := s.modInbound p InboundSide.beginClosing
  match x.wholeBlock n with
  | none => (s1.modInbound p (InboundSide.setStray (x.gathered + x.overflow))).post p (some .framing)
  | some (code, data) =>
    let s2 := s1.modInbound p (InboundSide.setStray (x.gathered - n + x.overflow))
    s2.answerRequest p (s2.decodeBlock p code data)

/-- A write of offset 0: a closing write while the host closing mark is set, a gathering write while it is
clear (R138, R140). The command byte is the low half (R136). -/
def State.writeCommandByte (s : State) (p : Port) (data : Half) : State :=
  if (s.port p).inbound.closingMark then s.closeBlock p (lowByte data)
  else s.modInbound p (InboundSide.gather (lowByte data))

/-! ### The outbound side -/

/-- A host read of offset 0 (R146): the outbound side after it, and the value returned. -/
def PortState.readByte (now : Tick) (ps : PortState) : OutboundSide × Half :=
  match ps.outbound.tx, ps.outbound.byte, ps.queue.notices with
  | .data position _, some b, n :: _ =>
    match n.bytes[position]? with
    | some next => ({ ps.outbound with byte := some next, tx := .data (position + 1) (ps.answerDeadlineFrom now) }, inLowHalf b)
    | none => ({ byte := some n.totalLength, closingMark := true, tx := .length (ps.answerDeadlineFrom now) }, inLowHalf b)
  | .length _, some b, _ => ({ byte := none, closingMark := false, tx := .answer (ps.answerDeadlineFrom now) }, inLowHalf b)
  | _, _, _ => (ps.outbound, 0)

/-- OUTBOUND_BYTE_READ's effect on port `p`. -/
def State.readCommandByte (s : State) (p : Port) : State :=
  s.modPort p (fun ps => { ps with outbound := (ps.readByte s.tickCount).1, readData := (ps.readByte s.tickCount).2 })

/-! ### The host's answers -/

/-- The MATCHED take a live label names. -/
def PortState.matchedTake (label : Half) (ps : PortState) : Option MatchedTake :=
  ps.takes.matched.find? (fun t => t.fields.label == label)

/-- ACCEPT of an ARRIVAL (R129, R130): a delivery starts, or a delivery of length 0 is settled at once. -/
def State.acceptArrival (s : State) (p : Port) (n : Arrival) : State :=
  match (s.port p).matchedTake n.takeLabel with
  | none => s
  | some t =>
    if 0 < t.delivered then
      (s.modSlot t.bound p (fun sl => { sl with state := .moving })).claimLane p (.outbound t.bound) t.delivered
    else
      let s1 := s.settleCopy t.bound p (finishOutcome 0 (s.desc t.bound).length)
      (s1.modPort p (PortState.endTake t.bound)).settleIfDone t.bound

/-- REFUSE of an ARRIVAL (R131, R30): the take ends and its copy goes back to the list. -/
def State.refuseArrival (s : State) (p : Port) (n : Arrival) : State :=
  match (s.port p).matchedTake n.takeLabel with
  | none => s
  | some t => (s.modPort p (PortState.endTake t.bound)).returnCopy p t.bound

/-- The host's answer to a notice (ACCEPT when `accepted`), by the notice's owner (R128 step 2). -/
def State.answerOwner (s : State) (p : Port) (accepted : Bool) (n : Notice) : State :=
  match n with
  | .arrival a => if accepted then s.acceptArrival p a else s.refuseArrival p a
  | .takeEnded _ _ => s
  | .receipt _ => s
  | .report _ => s

/-- The framing unit leaves ANSWER, the head leaves the queue, and its slot is released (R147, R121). -/
def PortState.removeHead (ps : PortState) : PortState :=
  { ps with
    outbound := { ps.outbound with tx := .idle },
    queue := { ps.queue with notices := ps.queue.notices.tail, reserved := ps.queue.reserved - 1 } }

/-- A write of ACCEPT or REFUSE to the marks location: taken in ANSWER, ignored otherwise (R128, R147). -/
def State.answerNotice (s : State) (p : Port) (accepted : Bool) : State :=
  match (s.port p).outbound.tx, (s.port p).queue.notices with
  | .answer _, n :: _ => ((s.modPort p PortState.removeHead).answerOwner p accepted n).offer p
  | _, _ => s

/-! ### Deadlines -/

/-- The byte deadline of a port is reached now (R148). -/
def State.byteDeadlineReached (s : State) (p : Port) : Bool :=
  match (s.port p).outbound.tx with
  | .data _ t => t == s.tickCount
  | .length t => t == s.tickCount
  | .idle => false
  | .answer _ => false

/-- The answer deadline of a port is reached now (R148). -/
def State.answerDeadlineReached (s : State) (p : Port) : Bool :=
  match (s.port p).outbound.tx with
  | .answer t => t == s.tickCount
  | .idle => false
  | .data _ _ => false
  | .length _ => false

/-- The byte deadline's test at a tick (R148). -/
def State.testByteDeadline (s : State) (p : Port) : State := if s.byteDeadlineReached p then s.lapse p else s

/-- The answer deadline's test at a tick (R148). -/
def State.testAnswerDeadline (s : State) (p : Port) : State := if s.answerDeadlineReached p then s.lapse p else s

/-! ### Meanings -/

/-- GATHERING_WRITE: a write of offset 0 (R138). With the host closing mark set, the same access is a closing
write (assumption log 7). -/
def execGatheringWrite (p : Port) (data : Half) (s : State) : Host.Outcome State Fault Refusal :=
  .next (s.unlessInReset (s.writeCommandByte p data))

/-- CLOSING_WRITE: a write of offset 0 (R140). With the host closing mark clear, the same access is a
gathering write (assumption log 7). -/
def execClosingWrite (p : Port) (data : Half) (s : State) : Host.Outcome State Fault Refusal :=
  .next (s.unlessInReset (s.writeCommandByte p data))

/-- SET_CLOSING_MARK (R139). -/
def execSetClosingMark (p : Port) (s : State) : Host.Outcome State Fault Refusal :=
  .next (s.unlessInReset (s.modInbound p (fun x => { x with closingMark := true })))

/-- ACCEPT (R128 to R130, R132, R147). -/
def execAccept (p : Port) (s : State) : Host.Outcome State Fault Refusal :=
  .next (s.unlessInReset (s.answerNotice p true))

/-- REFUSE (R128, R131, R132, R147). -/
def execRefuse (p : Port) (s : State) : Host.Outcome State Fault Refusal :=
  .next (s.unlessInReset (s.answerNotice p false))

/-- OUTBOUND_BYTE_READ (R146). -/
def execOutboundByteRead (p : Port) (s : State) : Host.Outcome State Fault Refusal :=
  .next (s.readUnlessInReset p (s.readCommandByte p))

/-- BYTE_DEADLINE (R148). -/
def execByteDeadline (p : Port) (s : State) : Host.Outcome State Fault Refusal :=
  .next (s.unlessInReset (s.testByteDeadline p))

/-- ANSWER_DEADLINE (R148). -/
def execAnswerDeadline (p : Port) (s : State) : Host.Outcome State Fault Refusal :=
  .next (s.unlessInReset (s.testAnswerDeadline p))

end Sys2Proof.Machine
end

