-- ==== Sys2Proof/Machine/Mover.lean ====
section
/-! DEFINITION. The pool mover: eligibility, the rotation, and a grant (Section 9.4 of the manual). -/

namespace Sys2Proof.Machine

/-- A lane is eligible for a grant (R161). -/
def Lane.eligible (l : Lane) : Bool :=
  match l.owner with
  | .idle => false
  | .inbound _ => 0 < l.poolCount && (16 ≤ l.fifo.length || l.poolCount ≤ l.fifo.length)
  | .outbound _ => 0 < l.poolCount && (16 ≤ 32 - l.fifo.length || l.poolCount ≤ 32 - l.fifo.length)

/-- The lanes in the order the mover searches them: from the port after the pointer round to the pointer's
own port (R160). -/
def rotationFrom (pointer : Port) : List Port :=
  [pointer.next, pointer.next.next, pointer.next.next.next, pointer]

/-- The lane the next grant serves (R160). -/
def State.grantTarget (s : State) : Option Port :=
  (rotationFrom s.pointer).find? (fun p => (s.port p).lane.eligible)

/-- The chunk of a grant whose first payload byte is at `position`, with `room` bytes in the FIFO (INBOUND)
or free places in it (OUTBOUND) (R162). -/
def chunkSize (poolCount position room : Nat) : Nat := min (min 16 poolCount) (min (256 - position % 256) room)

/-- Bytes of the FIFO have gone to the pool, or the pool's have joined it (R162). A grant makes the lane's
due grant good. -/
def Lane.afterGrant (fifo : List Byte) (n : Nat) (l : Lane) : Lane :=
  { l with fifo := fifo, poolCount := l.poolCount - n, grantDue := false }

/-- A grant to the INBOUND lane of port `p`: a chunk goes into the chain of descriptor `d`, and the last one
completes the message and returns the lane to IDLE (R162, R163). -/
def State.grantInbound (s : State) (p : Port) (d : DescNo) : State :=
  let l := (s.port p).lane
  let x := s.desc d
  let n := chunkSize l.poolCount x.bytesInPool l.fifo.length
  let s1 := s.modPool (fun y => { y with mem := Memory.storePayload y.mem x.chain x.bytesInPool (l.fifo.take n) })
  let s2 := s1.modDesc d (fun y => { y with bytesInPool := y.bytesInPool + n })
  let s3 := s2.modPort p (PortState.modLane (Lane.afterGrant (l.fifo.drop n) n))
  if l.poolCount - n = 0 then (s3.complete d).returnLane p else s3

/-- A grant to the OUTBOUND lane of port `p`: a chunk of the message of descriptor `d` joins the FIFO
(R162). -/
def State.grantOutbound (s : State) (p : Port) (d : DescNo) : State :=
  let l := (s.port p).lane
  let moved := (s.port p).deliveredLength d - l.poolCount
  let n := chunkSize l.poolCount moved (32 - l.fifo.length)
  s.modPort p (PortState.modLane (Lane.afterGrant
    (l.fifo ++ Memory.loadPayload s.pool.mem (s.desc d).chain moved n) n))

/-- A grant to port `p`'s lane; the pointer then names `p` (R160). -/
def State.grantTo (s : State) (p : Port) : State :=
  let s1 : State := { s with pointer := p }
  match (s.port p).lane.owner with
  | .idle => s
  | .inbound d => s1.grantInbound p d
  | .outbound d => s1.grantOutbound p d

/-- One turn of the mover: a grant to the next eligible lane, or none while no lane is eligible (R160). -/
def State.moverTurn (s : State) : State :=
  match s.grantTarget with
  | none => s
  | some p => s.grantTo p

/-- GRANT (R160 to R163). -/
def execGrant (s : State) : Host.Outcome State Fault Refusal := .next (s.unlessInReset s.moverTurn)

end Sys2Proof.Machine
end

