-- ==== Sys2Proof/Machine/Time.lean ====
section
/-! DEFINITION. The time base and the deadlines that blocks test at a tick: takes, holds, and the happenings
that are due before the next tick (R34, R46, R47, R188). -/

namespace Sys2Proof.Machine

/-! ### Takes -/

/-- A POSTED take's deadline is the tick count (R34). -/
def PostedTake.reached (now : Tick) (t : PostedTake) : Bool := t.deadline == some now

/-- The take table of port `p` takes the tick: every POSTED take whose deadline is reached ends, and the
TAKE_ENDEDs join the queue in posting order (R34). -/
def State.expireTakes (s : State) (p : Port) : State :=
  let ended := (s.port p).takes.posted.filter (PostedTake.reached s.tickCount)
  if ended.isEmpty then s
  else
    s.modPort p (fun ps =>
      PortState.append s.tickCount (ended.map (fun t => Notice.takeEnded t.fields.label .expired))
        { ps with takes := { ps.takes with posted := ps.takes.posted.filter (fun t => !t.reached s.tickCount) } })

/-! ### Holds -/

/-- The hold deadline of descriptor `d`'s copy at port `p` is the tick count. -/
def State.holdReached (s : State) (d : DescNo) (p : Port) : Bool := (s.slot d p).deadline == some s.tickCount

/-- One copy leaves the list and is settled EXPIRED; its descriptor is settled at once if it was the last
live copy (R46). -/
def State.expireCopy (s : State) (p : Port) (d : DescNo) : State :=
  ((s.modPort p (fun ps => { ps with unclaimed := ps.unclaimed.erase d })).settleCopy d p .expired).settleIfDone d

/-- The unclaimed list of an OPEN port takes the tick: its copies whose deadline is reached expire, from the
head to the tail (R46). -/
def State.expireHolds (s : State) (p : Port) : State :=
  if (s.port p).isOpen then
    ((s.port p).unclaimed.filter (fun d => s.holdReached d p)).foldl (fun t d => t.expireCopy p d) s
  else s

/-- The copy is BOUND or MOVING at port `p` and its deadline is reached, not yet marked (R47). -/
def CopySlot.markDue (now : Tick) (x : CopySlot) : Bool :=
  (x.state == .bound || x.state == .moving) && x.deadline == some now && !x.passed

/-- Mark a slot of port `p` whose deadline has passed while its copy is BOUND or MOVING (R47). -/
def Descriptor.markPassed (now : Tick) (p : Port) (x : Descriptor) : Descriptor :=
  if (x.slots.get p).markDue now then { x with slots := x.slots.modify p (fun sl => { sl with passed := true }) } else x

/-- The unclaimed list of an OPEN port takes the tick for the copies that are BOUND or MOVING (R47). -/
def State.markHolds (s : State) (p : Port) : State :=
  if (s.port p).isOpen then { s with descs := s.descs.map (Descriptor.markPassed s.tickCount p) } else s

/-! ### Happenings due before the next tick -/

/-- A list happening of port `p` is due: a waiting copy to expire or a bound one to mark. -/
def State.listDue (s : State) (p : Port) : Bool :=
  (s.port p).isOpen &&
    ((s.port p).unclaimed.any (fun d => s.holdReached d p)
      || (List.finRange 64).any (fun d => (s.slot d p).markDue s.tickCount))

/-- A happening of the present tick that has not been taken yet (assumption log 8, 9). -/
def State.isDue (s : State) (h : DueHappening) : Bool :=
  match h with
  | .takes p => (s.port p).takes.posted.any (PostedTake.reached s.tickCount)
  | .list p => s.listDue p
  | .framing p => s.byteDeadlineReached p || s.answerDeadlineReached p
  | .lane p => (s.port p).lane.owner != .idle && s.stallReached p
  | .grant => Port.all.any (fun p => (s.port p).lane.grantDue)

/-- Take one due happening; one that is not due does nothing. -/
def State.takeDue (s : State) (h : DueHappening) : State :=
  if s.isDue h then
    match h with
    | .takes p => s.expireTakes p
    | .list p => (s.expireHolds p).markHolds p
    | .framing p => (s.testByteDeadline p).testAnswerDeadline p
    | .lane p => (s.stallInbound p).stallOutbound p
    | .grant => s.moverTurn
  else s

/-- Every happening that can be due, once each. -/
def allDue : List DueHappening :=
  Port.all.flatMap (fun p => [.takes p, .list p, .framing p, .lane p]) ++ [.grant]

/-- The happenings due now. -/
def State.dueNow (s : State) : List DueHappening := allDue.filter s.isDue

/-- Take happenings one after another, each if it is due when its turn comes. -/
def State.takeAllDue (s : State) (hs : List DueHappening) : State := hs.foldl State.takeDue s

/-- Take every happening that is still due before the next tick. One alone leaves no choice (a lane owed a
grant is served within four grants, R160). Several are taken in the free order `Config.tickOrder`, then
whatever that order left out (assumption log 8). -/
def State.catchUp (s : State) : State :=
  match s.dueNow with
  | [] => s
  | [h] => s.takeAllDue (List.replicate 4 h)
  | _ =>
    ({ s with draws := s.draws + 1 } : State).takeAllDue
      (Config.tickOrder s.draws ++ allDue ++ List.replicate 3 .grant)

/-- A lane that is eligible as a tick is taken is owed a grant before the next (R160). -/
def PortState.oweGrant (ps : PortState) : PortState :=
  ps.modLane (fun l => { l with grantDue := l.eligible })

/-- The tick count rises by 1, wrapping, and the tick is offered to every block (R188). -/
def State.advance (s : State) : State :=
  { s with tickCount := s.tickCount + 1, ports := s.ports.map PortState.oweGrant }

/-! ### Meanings -/

/-- TICK (R188): what the tick before left due is taken first, then the tick count rises by 1. The blocks take
the new tick as happenings of their own (R34, R46, R47, R148, R166). -/
def execTick (s : State) : Host.Outcome State Fault Refusal := .next (s.unlessInReset s.catchUp.advance)

/-- TAKE_DEADLINE (R34). -/
def execTakeDeadline (p : Port) (s : State) : Host.Outcome State Fault Refusal := .next (s.unlessInReset (s.expireTakes p))

/-- HOLD_EXPIRY (R46). -/
def execHoldExpiry (p : Port) (s : State) : Host.Outcome State Fault Refusal := .next (s.unlessInReset (s.expireHolds p))

/-- HOLD_DEADLINE_MARK (R47). -/
def execHoldDeadlineMark (p : Port) (s : State) : Host.Outcome State Fault Refusal := .next (s.unlessInReset (s.markHolds p))

/-- HARD_RESET (R182, R188): every block at its hard-reset values, the straps sampled. The bytes of the
segments, which no rule resets, stay (assumption log 11), and so do the model's own free-order counter and
queue. The command is the release of the reset pin. -/
def execHardReset (straps : Straps) (s : State) : Host.Outcome State Fault Refusal :=
  .next { State.reset with
    ports := straps.width.map (fun high => PortState.reset (widthOfStrap high)),
    setupPort := setupOfStraps straps.setup1 straps.setup0,
    pool := { Pool.reset with mem := s.pool.mem },
    draws := s.draws, pending := s.pending }

end Sys2Proof.Machine
end

