-- ==== Sys2Proof/Machine/Window.lean ====
section
/-! DEFINITION. The port window: which commands a host access amounts to, and what a read returns (R183 to
R187, Section 11 of the manual). -/

namespace Sys2Proof.Machine

/-- A host access at a port: by address (A0 to A2), or under the DMA acknowledge line, which makes it an
access of offset 2 whatever the address lines say (R187). -/
inductive Access
  | read  (address : BitVec 3)
  | write (address : BitVec 3) (data : Half)
  | dmaRead
  | dmaWrite (data : Half)
  deriving DecidableEq, Repr

/-- The enables in the low half of a control write (R185, bits 0 to 4; bits 5 to 7 are ignored). -/
def enablesOf (data : Half) : Enables :=
  { noticeByte := data.getLsbD 0, answerPosted := data.getLsbD 1, laneDone := data.getLsbD 2, lapsed := data.getLsbD 3,
    dma := data.getLsbD 4 }

/-- The actions in the high half of a control write, in the order R185 gives; bits 4 to 7 of the byte are
ignored. -/
def actionsOf (p : Port) (high : Byte) : List Instr :=
  (if high.getLsbD 0 then [.doneClear p] else []) ++ (if high.getLsbD 1 then [.clearLaneFlags p] else [])
    ++ (if high.getLsbD 2 then [.purge p] else []) ++ (if high.getLsbD 3 then [.portReset p] else [])

/-- The commands of a marks write (R186): the closing field, and the answer field, of which 3 is NONE. -/
def marksOf (p : Port) (data : Half) : List Instr :=
  (if data.getLsbD 0 then [.setClosingMark p] else [])
    ++ (if data.getLsbD 1 && !data.getLsbD 2 then [.accept p] else [])
    ++ (if !data.getLsbD 1 && data.getLsbD 2 then [.refuse p] else [])

/-- A write of offset 0: gathering, or closing when the host closing mark is set (R138, R140). -/
def State.commandWrite (s : State) (p : Port) (data : Half) : Instr :=
  if (s.port p).inbound.closingMark then .closingWrite p data else .gatheringWrite p data

/-- A write of a whole location of a 16-bit port, by its offset (R183). -/
def State.locationWrite (s : State) (p : Port) (offset : Nat) (data : Half) : List Instr :=
  match offset with
  | 0 => [s.commandWrite p data]
  | 2 => [.laneWrite p data]
  | 4 => .writeEnables p (enablesOf data) :: actionsOf p (highByte data)
  | _ => marksOf p data

/-- A byte write of an 8-bit port, by its address (R183, R185); the byte is the low half of `data`. -/
def State.byteWrite (s : State) (p : Port) (address : BitVec 3) (data : Half) : List Instr :=
  match address.toNat with
  | 0 => [s.commandWrite p data]
  | 2 => [.laneWrite p data]
  | 4 => [.writeEnables p (enablesOf data)]
  | 5 => actionsOf p (lowByte data)
  | 6 => marksOf p data
  | _ => [.undecodedWrite p address (lowByte data)]

/-- The commands an access at port `p` amounts to, taken one after another. A 16-bit port does not use A0
(Section 11.6). A read of status, of the reason register or of an undecoded address is no command: it
changes nothing (R183). While the reset pin is asserted the part takes no access (R188). -/
def State.commandsOf (s : State) (p : Port) (x : Access) : List Instr :=
  if s.resetAsserted then [] else
  match x with
  | .dmaRead => [.laneRead p]
  | .dmaWrite data => [.laneWrite p data]
  | .read address =>
    match (s.port p).width with
    | .bits16 =>
      match address.toNat / 2 with
      | 0 => [.outboundByteRead p]
      | 1 => [.laneRead p]
      | _ => []
    | .bits8 =>
      match address.toNat with
      | 0 => [.outboundByteRead p]
      | 2 => [.laneRead p]
      | _ => []
  | .write address data =>
    match (s.port p).width with
    | .bits16 => s.locationWrite p (2 * (address.toNat / 2)) data
    | .bits8 => s.byteWrite p address data

/-- The host of port `p` makes an access: its commands join the queue. -/
def State.hostAccess (s : State) (p : Port) (x : Access) : State :=
  { s with pending := s.pending ++ s.commandsOf p x }

/-- The reset pin is asserted from outside (R188). HARD_RESET is its release. -/
def State.assertResetPin (s : State) : State := { s with resetAsserted := true }

/-- The interrupt line of port `p` is active (R187); while the reset pin is asserted it is not (R188). -/
def State.interruptLine (s : State) (p : Port) : Bool := !s.resetAsserted && (s.port p).interruptRaised

/-- The DMA request line of port `p` is active (R167); while the reset pin is asserted it is not (R188). -/
def State.dmaRequest (s : State) (p : Port) : Bool := !s.resetAsserted && (s.port p).dmaRaised

/-- The value a read of offset 2 returns now (R158). -/
def PortState.laneValue (ps : PortState) : Half :=
  match ps.lane.owner with
  | .outbound _ => if ps.accessSize ≤ ps.lane.fifo.length then laneReadValue (ps.lane.fifo.take ps.accessSize) else 0
  | .idle => 0
  | .inbound _ => 0

/-- The value a read of offset 0 returns now: the outbound byte while one is presented (R146). -/
def State.commandValue (s : State) (p : Port) : Half := ((s.port p).readByte s.tickCount).2

/-- The value a read returns (R183, R184, R186): a full location on a 16-bit port; on an 8-bit port one byte,
0 at the addresses 1, 3 and 7; and 0 everywhere while the reset pin is asserted (R188). -/
def State.readValue (s : State) (p : Port) (address : BitVec 3) : Half :=
  if s.resetAsserted then 0 else
  match (s.port p).width with
  | .bits16 =>
    match address.toNat / 2 with
    | 0 => s.commandValue p
    | 1 => (s.port p).laneValue
    | 2 => (s.port p).statusWord
    | _ => (s.port p).reasonWord
  | .bits8 =>
    match address.toNat with
    | 0 => s.commandValue p
    | 2 => (s.port p).laneValue
    | 4 => inLowHalf (lowByte (s.port p).statusWord)
    | 5 => inLowHalf (highByte (s.port p).statusWord)
    | 6 => inLowHalf (lowByte (s.port p).reasonWord)
    | _ => 0

end Sys2Proof.Machine
end

