-- ==== Sys2Proof/Machine/Dispatch.lean ====
section
/-! DEFINITION. The meaning of each command, one arm per row of the table. -/

namespace Sys2Proof.Machine

def exec (i : Instr) (s : State) : Host.Outcome State Fault Refusal :=
  match i with
  | .gatheringWrite p data => Sys2Proof.Machine.execGatheringWrite p data s
  | .closingWrite p data => Sys2Proof.Machine.execClosingWrite p data s
  | .openPort p answerLimit => Sys2Proof.Machine.execOpenPort p answerLimit s
  | .closePort p => Sys2Proof.Machine.execClosePort p s
  | .send p destination channel length hold label options => Sys2Proof.Machine.execSend p destination channel length hold label options s
  | .take p label source value mask capacity timeout => Sys2Proof.Machine.execTake p label source value mask capacity timeout s
  | .cancel p label => Sys2Proof.Machine.execCancel p label s
  | .join p group => Sys2Proof.Machine.execJoin p group s
  | .leave p group => Sys2Proof.Machine.execLeave p group s
  | .query p => Sys2Proof.Machine.execQuery p s
  | .configure p reserve ceiling stallLimit => Sys2Proof.Machine.execConfigure p reserve ceiling stallLimit s
  | .setClosingMark p => Sys2Proof.Machine.execSetClosingMark p s
  | .accept p => Sys2Proof.Machine.execAccept p s
  | .refuse p => Sys2Proof.Machine.execRefuse p s
  | .outboundByteRead p => Sys2Proof.Machine.execOutboundByteRead p s
  | .laneWrite p data => Sys2Proof.Machine.execLaneWrite p data s
  | .laneRead p => Sys2Proof.Machine.execLaneRead p s
  | .writeEnables p enables => Sys2Proof.Machine.execWriteEnables p enables s
  | .doneClear p => Sys2Proof.Machine.execDoneClear p s
  | .clearLaneFlags p => Sys2Proof.Machine.execClearLaneFlags p s
  | .purge p => Sys2Proof.Machine.execPurge p s
  | .portReset p => Sys2Proof.Machine.execPortReset p s
  | .undecodedWrite p address data => Sys2Proof.Machine.execUndecodedWrite p address data s
  | .tick => Sys2Proof.Machine.execTick s
  | .takeDeadline p => Sys2Proof.Machine.execTakeDeadline p s
  | .holdExpiry p => Sys2Proof.Machine.execHoldExpiry p s
  | .holdDeadlineMark p => Sys2Proof.Machine.execHoldDeadlineMark p s
  | .byteDeadline p => Sys2Proof.Machine.execByteDeadline p s
  | .answerDeadline p => Sys2Proof.Machine.execAnswerDeadline p s
  | .inboundStall p => Sys2Proof.Machine.execInboundStall p s
  | .outboundStall p => Sys2Proof.Machine.execOutboundStall p s
  | .grant => Sys2Proof.Machine.execGrant s
  | .hardReset straps => Sys2Proof.Machine.execHardReset straps s

end Sys2Proof.Machine
end

