-- ==== Sys2Proof/Safety.lean ====
section
/-! DEFINITION. What a sound state is, block by block: the laws the manual states of every state at the end
of a happening. Statements about invariants are made of these. -/

namespace Sys2Proof.Machine

/-- Every booked slot is accounted for (R117): the reservation count is the notices queued, the slots that
POSTED takes hold and the receipt reservations, and is at most 24; there are at most 16 live takes (R21)
and 32 unclaimed copies (R43). -/
def PortState.slotsBooked (ps : PortState) : Prop :=
  ps.queue.reserved = ps.queue.notices.length + ps.takes.posted.length + ps.queue.receiptReserved
    ∧ ps.queue.reserved ≤ 24 ∧ ps.takes.liveCount ≤ 16 ∧ ps.unclaimed.length ≤ 32

/-- Every port's slots are accounted for. -/
def State.slotsBooked (s : State) : Prop := ∀ p, (s.port p).slotsBooked

/-- A lane's counts agree with its FIFO and its owner state (R154), and a lane owed a grant is eligible. -/
def Lane.sound (l : Lane) : Prop :=
  l.fifo.length ≤ 32 ∧ (l.grantDue = true → l.eligible = true) ∧
    match l.owner with
    | .idle => l.fifo = [] ∧ l.hostCount = 0 ∧ l.poolCount = 0 ∧ l.stall = none
    | .inbound _ => l.fifo.length + l.hostCount = l.poolCount ∧ l.stall.isSome
    | .outbound _ => l.fifo.length + l.poolCount = l.hostCount ∧ l.stall.isSome

/-- Every lane is sound, and while an ARRIVAL at the head of a queue is in transmission or awaits its answer
the port's lane is IDLE (R127). -/
def State.lanesSound (s : State) : Prop :=
  ∀ p, (s.port p).lane.sound ∧
    ((s.port p).outbound.tx ≠ .idle → (s.port p).headIsArrival = true → (s.port p).laneIdle = true)

/-- The segments in the chains of all descriptors. -/
def State.chained (s : State) : List Nat := (List.finRange 64).flatMap (fun d => (s.desc d).chain)

/-- The number of segments charged to port `p` by the descriptors (R76). -/
def State.charged (s : State) (p : Port) : Nat :=
  ((List.finRange 64).map (fun d => if (s.desc d).sender = p then (s.desc d).chain.length else 0)).sum

/-- Every segment is in the free list or in exactly one chain; a non-FREE descriptor's chain is as long as
its message needs and a FREE one's is empty (R74); held counts the chains of a sender (R76); the free list
rises; an INBOUND lane's descriptor is a GATHERING one of the lane's port (R154). -/
def State.segmentsSound (s : State) : Prop :=
  (s.pool.free ++ s.chained).Perm (List.range 96) ∧ s.pool.free.Pairwise (· < ·)
    ∧ (∀ d, (s.desc d).chain.length = if (s.desc d).state = .free then 0 else segmentsNeeded (s.desc d).length)
    ∧ (∀ p, s.pool.held.get p = s.charged p)
    ∧ (∀ p d, (s.port p).lane.owner = .inbound d → (s.desc d).state = .gathering ∧ (s.desc d).sender = p)

/-- The limits are in range, and the free segments cover the unmet reserves (R77, R83). -/
def Pool.covered (x : Pool) : Prop :=
  (∀ p, x.reserve.get p ≤ 24 ∧ 1 ≤ x.ceiling.get p ∧ x.ceiling.get p ≤ 96 ∧ x.reserve.get p ≤ x.ceiling.get p)
    ∧ 50 ≤ x.stallLimit ∧ x.stallLimit ≤ 60000 ∧ (Port.all.map x.unmet).sum ≤ x.free.length

/-- The inbound side is as R137 gives its ranges; ANSWER POSTED is pending while an answer stands, and a
reason stands beside REFUSED alone (R138, R142). -/
def InboundSide.sound (x : InboundSide) : Prop :=
  x.ring.length ≤ 64 ∧ x.gathered ≤ x.ring.length ∧ x.overflow ≤ 63 ∧ (0 < x.overflow → x.gathered = 64) ∧ x.stray ≤ 63
    ∧ (x.answerPosted = true ↔ x.answer ≠ .none) ∧ (x.answer = .accepted → x.reason = none)
    ∧ (x.answer = .refused → x.reason.isSome)

/-- A port column without a session holds nothing of one (R134, R154, R172). -/
def PortState.sessionless (ps : PortState) : Prop :=
  ps.takes.posted = [] ∧ ps.takes.matched = [] ∧ ps.unclaimed = [] ∧ ps.queue.notices = [] ∧ ps.queue.reserved = 0
    ∧ ps.queue.receiptReserved = 0 ∧ ps.lane.owner = .idle ∧ ps.outbound = OutboundSide.reset

/-- The LAPSED cause is pending exactly while LAPSED (R170), no teardown is in progress between happenings,
the answer limit is in range (R170), and a port that is not OPEN has no session state and no memberships
(R60, R134). -/
def State.sessionsSound (s : State) : Prop :=
  ∀ p, ((s.port p).session.lapsedCause = true ↔ (s.port p).session.state = .lapsed)
    ∧ (s.port p).session.tearingDown = false
    ∧ 10 ≤ (s.port p).session.answerLimit ∧ (s.port p).session.answerLimit ≤ 2000
    ∧ ((s.port p).isOpen = false → (s.port p).sessionless ∧ ∀ g, (s.members g).get p = false)

/-- The outbound side agrees with the queue (R126, R144, R145): with the framing unit IDLE the outbound byte
is empty and a notice at the head waits only as an ARRIVAL held back by a lane in use (R127); in DATA
and LENGTH a byte is presented; in ANSWER none is. -/
def PortState.outboundSound (ps : PortState) : Prop :=
  match ps.outbound.tx with
  | .idle => ps.outbound.byte = none ∧ ps.outbound.closingMark = false
      ∧ (ps.queue.notices ≠ [] → ps.headIsArrival = true ∧ ps.laneIdle = false)
  | .data position _ => ∃ n rest, ps.queue.notices = n :: rest ∧ 1 ≤ position
      ∧ ps.outbound.byte = n.bytes[position - 1]? ∧ position ≤ n.bytes.length ∧ ps.outbound.closingMark = false
  | .length _ => ∃ n rest, ps.queue.notices = n :: rest ∧ ps.outbound.byte = some n.totalLength
      ∧ ps.outbound.closingMark = true
  | .answer _ => ps.queue.notices ≠ [] ∧ ps.outbound.byte = none ∧ ps.outbound.closingMark = false

/-- Every port's outbound side agrees with its queue. -/
def State.outboundSound (s : State) : Prop := ∀ p, (s.port p).outboundSound

/-- The labels of a port's live takes (R21). -/
def TakeTable.labels (t : TakeTable) : List Half := t.posted.map (·.fields.label) ++ t.matched.map (·.fields.label)

/-- The take label of an ARRIVAL. -/
def Notice.arrivalLabel (n : Notice) : Option Half :=
  match n with
  | .arrival a => some a.takeLabel
  | .takeEnded _ _ => none
  | .receipt _ => none
  | .report _ => none

/-- Descriptors, copies, lists, takes, lanes and ARRIVALs agree (R1, R6, R8, R21, R26, R27, R29, R43, R154). -/
structure State.copiesSound (s : State) : Prop where
  /-- A copy is WAITING at a port exactly when the port's list holds it (R43). -/
  waiting_iff : ∀ d p, (s.slot d p).state = .waiting ↔ d ∈ (s.port p).unclaimed
  /-- No descriptor appears twice in a list (R43). -/
  list_nodup : ∀ p, (s.port p).unclaimed.Nodup
  /-- A copy is BOUND or MOVING exactly when a MATCHED take names it (R29). -/
  matched_iff : ∀ d p, ((s.slot d p).state = .bound ∨ (s.slot d p).state = .moving) ↔
    d ∈ (s.port p).takes.matched.map (·.bound)
  /-- Each MATCHED take names its own copy (R29). -/
  matched_nodup : ∀ p, ((s.port p).takes.matched.map (·.bound)).Nodup
  /-- A copy is MOVING exactly when the port's lane delivers it (R154). -/
  moving_iff : ∀ d p, (s.slot d p).state = .moving ↔ (s.port p).lane.owner = .outbound d
  /-- Labels of live takes differ (R21). -/
  labels_nodup : ∀ p, (s.port p).takes.labels.Nodup
  /-- The delivered length is the one fixed at binding (R26, R27). -/
  delivered_eq : ∀ p, ∀ t ∈ (s.port p).takes.matched, t.delivered = min (s.desc t.bound).length t.fields.capacity
  /-- The ARRIVALs queued are those of the takes whose copies are BOUND, one each (R26, R29). -/
  arrivals_iff : ∀ p l, l ∈ (s.port p).queue.notices.filterMap Notice.arrivalLabel ↔
    ∃ t ∈ (s.port p).takes.matched, t.fields.label = l ∧ (s.slot t.bound p).state = .bound
  /-- No take has two ARRIVALs queued (R40). -/
  arrivals_nodup : ∀ p, ((s.port p).queue.notices.filterMap Notice.arrivalLabel).Nodup
  /-- A descriptor is HELD exactly when it has a live copy (R1, R9). -/
  held_iff : ∀ d, (s.desc d).state = .held ↔ 0 < (s.desc d).liveCount
  /-- A descriptor that is not HELD has four ABSENT slots and a tally of 0 (R1, R2). -/
  unheld_blank : ∀ d, (s.desc d).state ≠ .held →
    (s.desc d).slots = PerPort.replicate CopySlot.empty ∧ (s.desc d).tally = Tally.zero
  /-- The six counts add up to the number of SETTLED slots (R8). -/
  tally_sum : ∀ d, (s.desc d).tally.delivered + (s.desc d).tally.cut + (s.desc d).tally.expired
    + (s.desc d).tally.dropped + (s.desc d).tally.undeliverable + (s.desc d).tally.stopped = (s.desc d).settledCount
  /-- A lane is INBOUND exactly for a GATHERING descriptor its port sends (R154). -/
  inbound_iff : ∀ d p, (s.port p).lane.owner = .inbound d ↔
    ((s.desc d).state = .gathering ∧ (s.desc d).sender = p)
  /-- An INBOUND lane's pool count is what the pool still lacks (R154). -/
  inbound_count : ∀ d p, (s.port p).lane.owner = .inbound d →
    (s.desc d).bytesInPool + (s.port p).lane.poolCount = (s.desc d).length

/-- Every law together. -/
structure State.sound (s : State) : Prop where
  /-- A hold fits its 16-bit field (R2, R189). -/
  holds : ∀ d, (s.desc d).hold < 65536
  slots : s.slotsBooked
  lanes : s.lanesSound
  segments : s.segmentsSound
  reserves : s.pool.covered
  inbound : ∀ p, (s.port p).inbound.sound
  sessions : s.sessionsSound
  outbound : s.outboundSound
  copies : s.copiesSound
  memory : Memory.wf s.pool.mem = true

/-! ### The words of statements -/

/-- `s` with the port column of `p` replaced. -/
def State.putPort (s : State) (p : Port) (ps : PortState) : State := { s with ports := s.ports.set p ps }

/-- `s` with descriptor `d` replaced. -/
def State.putDesc (s : State) (d : DescNo) (x : Descriptor) : State := { s with descs := s.descs.set d.val x d.isLt }

/-- `s` with the member set of group `g` replaced. -/
def State.putGroup (s : State) (g : GroupNo) (m : PerPort Bool) : State := { s with groups := s.groups.set g.val m g.isLt }

/-- The port's answer to a closing, as R142 gives it, stands in `x` after the stray field was written. -/
def InboundSide.answered (reason : Option Reason) (x : InboundSide) : InboundSide :=
  { ring := x.ring, gathered := 0, overflow := 0, closingMark := false,
    answer := if reason.isSome then .refused else .accepted, reason := reason, stray := x.stray, answerPosted := true }

/-- `ps` with the answer to a closing posted. -/
def PortState.answered (reason : Option Reason) (ps : PortState) : PortState :=
  { ps with inbound := ps.inbound.answered reason }

/-- One check of a request: whether it fails, and the reason it then gives. -/
structure Check where
  failed : Bool
  reason : Reason
  deriving DecidableEq, Repr

/-- The check that fails when `b` holds. -/
def failsIf (b : Bool) (r : Reason) : Check := { failed := b, reason := r }

/-- The reason of the first check of a list that fails. -/
def firstFailure (checks : List Check) : Option Reason := (checks.find? Check.failed).map Check.reason

/-- The session check of every request but OPEN and CLOSE (R96). -/
def State.sessionChecks (s : State) (p : Port) : List Check :=
  [failsIf ((s.port p).session.state == .closed) .notOpen, failsIf ((s.port p).session.state == .lapsed) .lapsed]

/-- A live take of the port, POSTED or MATCHED, carries the label (R21). -/
def PortState.labelLive (ps : PortState) (label : Half) : Bool :=
  (ps.takes.posted.map (fun t => t.fields.label) ++ ps.takes.matched.map (fun t => t.fields.label)).contains label

/-- The port is a member of the group with the number `n`. -/
def State.isMember (s : State) (p : Port) (n : Nat) : Bool :=
  (List.finRange 8).any (fun g => g.val == n && (s.members g).get p)

/-- The values of a CONFIGURE that R83 calls bad. -/
def State.badConfig (s : State) (reserve ceiling : PerPort Byte) (stallLimit : Half) : Bool :=
  Port.all.any (fun q => 24 < (reserve.get q).toNat || (ceiling.get q).toNat == 0 || 96 < (ceiling.get q).toNat
      || (ceiling.get q).toNat < (reserve.get q).toNat)
    || stallLimit.toNat < 50 || 60000 < stallLimit.toNat
    || s.pool.free.length < (Port.all.map (fun q => (reserve.get q).toNat - s.pool.held.get q)).sum

/-- The unmet reserves of the three ports other than `p`, added up (R78). -/
def State.reservedForOthers (s : State) (p : Port) : Nat :=
  ((Port.all.filter (· != p)).map (fun q => s.pool.reserve.get q - s.pool.held.get q)).sum

/-- The destination byte names a port whose session is not OPEN (R104 check 5). -/
def State.namesClosedPort (s : State) (destination : Byte) : Bool :=
  Port.all.any (fun q => destination.toNat == q.number && (s.port q).session.state != .opened)

/-- Every check of a request after its code and length, in the order of R92: fields (R95), session (R96), own
checks (R83, R103, R104, R110 to R113). -/
def State.checks (s : State) (p : Port) (r : Request) : List Check :=
  let ps := s.port p
  match r with
  | .openPort limit => [failsIf (!(limit.toNat == 0 || (10 ≤ limit.toNat && limit.toNat ≤ 2000))) .badField]
  | .closePort => [failsIf (ps.session.state == .closed) .notOpen]
  | .send destination _ length _ _ options =>
      [failsIf (!(destination.toNat ≤ 3 || (0x10 ≤ destination.toNat && destination.toNat ≤ 0x17))) .badField,
        failsIf (2048 < length.toNat) .badField, failsIf (1 < options.toNat) .badField] ++ s.sessionChecks p ++
      [failsIf (ps.lane.owner != .idle || ps.headIsArrival) .laneBusy,
        failsIf ((List.finRange 64).all (fun d => (s.desc d).state != .free)) .noDescriptor,
        failsIf (options == 1 && 24 ≤ ps.queue.reserved) .noSlot,
        failsIf (s.pool.ceiling.get p < s.pool.held.get p + (length.toNat + 255) / 256) .quota,
        failsIf (s.pool.free.length < (length.toNat + 255) / 256 + s.reservedForOthers p) .poolFull,
        failsIf (s.namesClosedPort destination) .destClosed]
  | .take label source _ _ capacity _ =>
      [failsIf (!(source.toNat ≤ 3 || source.toNat == 0xFF)) .badField, failsIf (2048 < capacity.toNat) .badField]
        ++ s.sessionChecks p ++
      [failsIf (16 ≤ ps.takes.posted.length + ps.takes.matched.length) .takeFull,
        failsIf (ps.labelLive label) .duplicateLabel, failsIf (24 ≤ ps.queue.reserved) .noSlot]
  | .cancel label =>
      s.sessionChecks p ++
      [failsIf (!ps.labelLive label) .notFound,
        failsIf (ps.takes.matched.any (fun t => t.fields.label == label)) .tooLate]
  | .join group =>
      [failsIf (7 < group.toNat) .badField] ++ s.sessionChecks p ++ [failsIf (s.isMember p group.toNat) .alreadyMember]
  | .leave group =>
      [failsIf (7 < group.toNat) .badField] ++ s.sessionChecks p ++ [failsIf (!s.isMember p group.toNat) .notMember]
  | .query => s.sessionChecks p ++ [failsIf (24 ≤ ps.queue.reserved) .noSlot]
  | .configure reserve ceiling stallLimit =>
      s.sessionChecks p ++
      [failsIf (p != s.setupPort) .notSetupPort, failsIf (s.badConfig reserve ceiling stallLimit) .badConfig]

/-- A port column whose session a teardown has removed (R177): the session fields, the inbound side, the flags,
enables and width are kept, and an IDLE lane is left as it is. -/
def PortState.tornDown (ps : PortState) : PortState :=
  { ps with
    session := { ps.session with tearingDown := false }, outbound := OutboundSide.reset,
    takes := { posted := [], matched := [] }, unclaimed := [],
    queue := { notices := [], reserved := 0, receiptReserved := 0 },
    lane := if ps.lane.owner = .idle then ps.lane
      else { ps.lane with owner := .idle, fifo := [], hostCount := 0, poolCount := 0, stall := none, grantDue := false } }

/-- A copy that has ended, by its descriptor, and its outcome. -/
structure EndedCopy where
  desc    : DescNo
  outcome : CopyOutcome
  deriving DecidableEq, Repr

/-- The RECEIPTs that port `q` gets when live copies at `p` end in the order of a list: one for each descriptor that
`q` sent, that has no other live copy, and for which `q` passes the receipt check (R9, R10, R11). -/
def State.receiptsDue (s : State) (p q : Port) (ended : List EndedCopy) : List Receipt :=
  ended.filterMap (fun e =>
    let x := s.desc e.desc
    let c := (s.port q).session
    if x.sender = q ∧ x.receiptWanted = true ∧ c.state = .opened ∧ c.tearingDown = false ∧ c.epoch = x.senderEpoch
        ∧ Port.all.any (fun r => r != p && (x.slots.get r).state.live) = false then
      some { senderLabel := x.label, status := .complete, copiesMade := x.settledCount + 1, tally := x.tally.count e.outcome }
    else none)

/-- `ps` after RECEIPTs have come to its queue one after another, each as R120 gives. -/
def PortState.receive (now : Tick) (receipts : List Receipt) (ps : PortState) : PortState :=
  receipts.foldl (fun x r => x.appendReceipt now r) ps

/-- The copies a teardown of `p` ends, in the order their descriptors are settled (R17). -/
def State.tornCopies (s : State) (p : Port) : List EndedCopy :=
  ((List.finRange 64).filter (fun d => (s.slot d p).state.live)).map (fun d => { desc := d, outcome := .undeliverable })

/-- The copies an outbound stall at `p` ends: the lane's own is settled STOPPED, and the teardown of the lapse follows
(R166, R176). -/
def State.stalledCopies (s : State) (p : Port) (d : DescNo) : List EndedCopy :=
  { desc := d, outcome := .stopped } :: (s.tornCopies p).filter (fun e => e.desc != d)

/-- The segments that the descriptors of `q` which are FREE in `t` and not in `s` give back. -/
def State.freedOf (s t : State) (q : Port) : Nat :=
  ((List.finRange 64).map (fun d =>
    if (s.desc d).sender = q ∧ (s.desc d).state ≠ .free ∧ (t.desc d).state = .free then (s.desc d).chain.length else 0)).sum

/-- From `s` to `t` the pool gets back exactly the chains of the descriptors that became FREE, and each sender's held
count falls by its own (R14, R80). -/
structure State.Releases (s t : State) : Prop where
  /-- The segments free after. -/
  free : ∀ n, n ∈ t.pool.free ↔
    n ∈ s.pool.free ∨ ∃ d, (s.desc d).state ≠ .free ∧ (t.desc d).state = .free ∧ n ∈ (s.desc d).chain
  count : t.pool.free.length = s.pool.free.length + (Port.all.map (s.freedOf t)).sum
  held : ∀ q, t.pool.held.get q = s.pool.held.get q - s.freedOf t q

/-- What the teardown of `p` leaves as it was outside `p` (R177, R178): the floor, the other ports but for RECEIPTs
joining their queues, and every membership but `p`'s own, which all end (R63). Where the copies agree with their takes
and lists, the RECEIPTs are those due for the copies `ended`, in that order, and nothing else of another port's
column changes. -/
structure State.TeardownKeeps (s : State) (p : Port) (ended : List EndedCopy) (t : State) : Prop where
  tickCount : t.tickCount = s.tickCount
  pointer : t.pointer = s.pointer
  setupPort : t.setupPort = s.setupPort
  limits : t.pool.reserve = s.pool.reserve ∧ t.pool.ceiling = s.pool.ceiling ∧ t.pool.stallLimit = s.pool.stallLimit
  bytes : t.pool.mem = s.pool.mem
  memberships : ∀ g q, (t.members g).get q = ((s.members g).get q && q != p)
  others : ∀ q, q ≠ p →
    (t.port q).session = (s.port q).session ∧ (t.port q).inbound = (s.port q).inbound
      ∧ (t.port q).takes = (s.port q).takes ∧ (t.port q).unclaimed = (s.port q).unclaimed
      ∧ (t.port q).lane = (s.port q).lane ∧ (t.port q).enables = (s.port q).enables
      ∧ ∃ receipts : List Receipt, (t.port q).queue.notices = (s.port q).queue.notices ++ receipts.map Notice.receipt
  receipts : s.copiesSound → ∀ q, q ≠ p → t.port q = (s.port q).receive s.tickCount (s.receiptsDue p q ended)

/-- A descriptor of which the live copy at `p` has ended with outcome `o`: settled while another copy is live,
FREE otherwise (R8, R9). -/
def Descriptor.afterCopy (p : Port) (o : CopyOutcome) (x : Descriptor) : Descriptor :=
  if Port.all.any (fun q => q != p && (x.slots.get q).state.live) then
    { x with slots := x.slots.set p { x.slots.get p with state := .settled o }, tally := x.tally.count o }
  else x.freed

/-- A descriptor of which a teardown has ended the live copy at `p`: its mark is dropped, and it is settled
UNDELIVERABLE while another copy is live, FREE otherwise (R17, R57). -/
def Descriptor.afterTeardown (p : Port) (x : Descriptor) : Descriptor :=
  if Port.all.any (fun q => q != p && (x.slots.get q).state.live) then
    { x with
      slots := x.slots.set p { x.slots.get p with state := .settled .undeliverable, passed := false },
      tally := x.tally.count .undeliverable }
  else x.freed

/-- A lane after its transfer has ended: IDLE, empty, no deadline, its flags as they stood. -/
def Lane.ended (l : Lane) : Lane :=
  { owner := .idle, fifo := [], hostCount := 0, poolCount := 0, done := l.done, overrun := l.overrun,
    underrun := l.underrun, stall := none, grantDue := false }

/-- The state after port `p`'s GATHERING message `d` is abandoned (R12, R13) and the lane is left as `lane`: the
chain free again, the descriptor FREE, the RECEIPT with status ABANDONED queued when due, and an ARRIVAL
held back at the head handed over (R127). -/
def State.afterAbandonment (s : State) (p : Port) (d : DescNo) (lane : Lane) : State :=
  let x := s.desc d
  let receipt : Receipt := { senderLabel := x.label, status := .abandoned, copiesMade := 0, tally := Tally.zero }
  let ps := if s.receiptCheck d then (s.port p).appendReceipt s.tickCount receipt else s.port p
  { s with
    descs := s.descs.set d.val x.freed d.isLt,
    ports := s.ports.set p ({ ps with lane := lane }.offer s.tickCount),
    pool := { s.pool with
      free := releaseSegments x.chain s.pool.free,
      held := s.pool.held.set p (s.pool.held.get p - x.chain.length) } }

/-- The state after one command, or the same state where the command stops. -/
def State.after (i : Instr) (s : State) : State :=
  match exec i s with
  | .next t => t
  | .fault _ => s
  | .refused _ => s

/-- The state after a command has been given `n` times. -/
def State.afterTimes (i : Instr) (n : Nat) (s : State) : State :=
  match n with
  | 0 => s
  | n + 1 => (s.after i).afterTimes i n

/-- The state after several commands, one after another. -/
def State.afterAll (cs : List Instr) (s : State) : State := cs.foldl (fun t c => t.after c) s

/-- No deadline of the present tick is left untaken, and no lane is still owed a grant (R34, R46, R47, R148, R160,
R166). -/
structure State.NothingDue (s : State) : Prop where
  takes : ∀ p, ∀ t ∈ (s.port p).takes.posted, t.deadline ≠ some s.tickCount
  holds : ∀ p, (s.port p).session.state = .opened → ∀ d ∈ (s.port p).unclaimed, (s.slot d p).deadline ≠ some s.tickCount
  marks : ∀ p d, (s.port p).session.state = .opened → ((s.slot d p).state = .bound ∨ (s.slot d p).state = .moving) →
    (s.slot d p).deadline = some s.tickCount → (s.slot d p).passed = true
  framing : ∀ p, (∀ n, (s.port p).outbound.tx ≠ .data n s.tickCount) ∧ (s.port p).outbound.tx ≠ .length s.tickCount
    ∧ (s.port p).outbound.tx ≠ .answer s.tickCount
  lanes : ∀ p, (s.port p).lane.owner ≠ .idle → (s.port p).lane.stall ≠ some s.tickCount
  grants : ∀ p, (s.port p).lane.grantDue = false

/-- The rows that test a deadline at port `p`. -/
def deadlineRows (p : Port) : List Instr :=
  [.takeDeadline p, .holdExpiry p, .holdDeadlineMark p, .byteDeadline p, .answerDeadline p, .inboundStall p, .outboundStall p]

/-- The reasons of a refusal in the order of their codes, from 1 (R189). -/
def reasonsByCode : List Reason :=
  [.framing, .unknownCode, .badField, .notOpen, .lapsed, .notSetupPort, .laneBusy, .noDescriptor, .noSlot, .quota,
    .poolFull, .destClosed, .takeFull, .duplicateLabel, .notFound, .tooLate, .badConfig, .alreadyMember, .notMember]

/-- The codes of the nine requests (R189). -/
def requestCodes : List Byte := [0x10, 0x11, 0x20, 0x28, 0x29, 0x30, 0x31, 0x38, 0x3C]

/-- The data length of each request, by its code (R94). -/
def requestLength (code : Byte) : Option Nat :=
  match code.toNat with
  | 0x10 => some 2
  | 0x11 => some 0
  | 0x20 => some 9
  | 0x28 => some 9
  | 0x29 => some 2
  | 0x30 => some 1
  | 0x31 => some 1
  | 0x38 => some 0
  | 0x3C => some 10
  | _ => none

end Sys2Proof.Machine
end

