-- ==== Sys2Proof/Certificates/Slice0/Obligations.lean ====
section
/-! DEFINITION. The statements for the provers. Each cites the rules of spec/ it formalises. -/

open Sys2Proof Sys2Proof.Machine

/-! ### The queue and the floor -/

/-- One step runs the command at the front of the queue with the queue's rest; on an empty queue the part idles
(the model's choice, assumption log 10 and 24). -/
def Obligations.StepTakesTheFrontCommand : Prop :=
  (∀ (c : Instr) (rest : List Instr) (s : State), s.pending = c :: rest → step s = exec c { s with pending := rest }) ∧
  (∀ s : State, s.pending = [] → step s = .next s)

/-- Every command but UNDECODED_WRITE answers a next state in every state; no command touches the queue; and no
command but HARD_RESET changes a port's width, the setup port or the reset pin. While the reset pin is asserted a read
returns 0 and no other command but HARD_RESET does anything (R188). The model's own: the queue (assumption log 24);
the fault of UNDECODED_WRITE (assumption log 14); the field that shows what a read returned (assumption log 5); that
ticks, deadlines and grants do not act under reset (assumption log 23). -/
def Obligations.CommandsCompleteAndKeepTheStraps : Prop :=
  ∀ (c : Instr) (s : State), (∀ p a b, c ≠ .undecodedWrite p a b) →
    ∃ t, exec c s = .next t ∧ t.pending = s.pending
      ∧ ((∀ straps, c ≠ .hardReset straps) →
        t.setupPort = s.setupPort ∧ t.resetAsserted = s.resetAsserted ∧ (∀ p, (t.port p).width = (s.port p).width)
          ∧ (s.resetAsserted = true →
            (∀ p, c = .outboundByteRead p ∨ c = .laneRead p → t = s.putPort p { s.port p with readData := 0 })
              ∧ ((∀ p, c ≠ .outboundByteRead p ∧ c ≠ .laneRead p) → t = s)))

/-- A write to address 1, 3 or 7 of an 8-bit port changes nothing (R183). A command that names no such write
stops with a fault (the model's choice, assumption log 14). -/
def Obligations.UndecodedWriteChangesNothing : Prop :=
  ∀ (s : State) (p : Port) (address : BitVec 3) (data : Byte),
    ((s.port p).width = .bits8 ∧ (address = 1 ∨ address = 3 ∨ address = 7) →
      exec (.undecodedWrite p address data) s = .next s) ∧
    (((s.port p).width ≠ .bits8 ∨ (address ≠ 1 ∧ address ≠ 3 ∧ address ≠ 7)) →
      exec (.undecodedWrite p address data) s = .fault .noUndecodedAddress)

/-! ### Requests -/

/-- With the reset pin released: The first check that fails gives the refusal reason, and a refused request changes
nothing but the answer, the reason, the counts, the mark and the ANSWER POSTED cause of its own framing unit; a
request whose checks all pass is answered ACCEPTED (R92, R95, R96, R142). The model's own: that a request row posts
its answer and leaves the stray field (assumption log 6). -/
def Obligations.FirstFailedCheckRefusesARequest : Prop :=
  ∀ (s : State) (p : Port) (r : Request),
    s.resetAsserted = false →
    match firstFailure (s.checks p r) with
    | some reason => exec (r.command p) s = .next (s.putPort p ((s.port p).answered (some reason)))
    | none => ∃ t, exec (r.command p) s = .next t ∧ (t.port p).inbound = (s.port p).inbound.answered none

/-- With the reset pin released: OPEN at a CLOSED or LAPSED port: epoch, answer limit, cause and state, and nothing
else but the answer (R99, R171, R173). The model's own: that a request row posts its answer and leaves the stray field
(assumption log 6). -/
def Obligations.OpenStartsASession : Prop :=
  ∀ (s : State) (p : Port) (limit : Half),
    s.resetAsserted = false →
    (s.port p).session.state ≠ .opened → (limit = 0 ∨ (10 ≤ limit.toNat ∧ limit.toNat ≤ 2000)) →
    exec (.openPort p limit) s = .next (s.putPort p ({ s.port p with
      session := {
        state := .opened, epoch := (s.port p).session.epoch + 1,
        answerLimit := if limit = 0 then 250 else limit.toNat, lapsedCause := false,
        tearingDown := (s.port p).session.tearingDown } }.answered none))

/-- With the reset pin released: CLOSE of a LAPSED port clears the cause; CLOSE of an OPEN port and OPEN of an OPEN
port tear the session down, which empties the port's queue, table and list, idles its lane and ends its memberships.
Where copies agree with takes and lists, another port gets exactly the RECEIPTs due for the copies ended, in ascending
order of descriptor, and is otherwise as it was (R17, R99, R100, R174, R175, R177, R178). The model's own: that a
request row posts its answer and leaves the stray field (assumption log 6); the mark of a teardown after it has ended
(assumption log 4). -/
def Obligations.CloseAndReopenEndTheSession : Prop :=
  ∀ (s : State) (p : Port),
    s.resetAsserted = false →
    ((s.port p).session.state = .lapsed →
      exec (.closePort p) s = .next (s.putPort p ({ s.port p with
        session := { (s.port p).session with state := .closed, lapsedCause := false } }.answered none))) ∧
    ((s.port p).session.state = .opened →
      (∃ t, exec (.closePort p) s = .next t ∧ s.TeardownKeeps p (s.tornCopies p) t ∧
        t.port p = ({ (s.port p).tornDown with
          session := { (s.port p).session with state := .closed, lapsedCause := false, tearingDown := false } }).answered none) ∧
      ∀ limit : Half, (limit = 0 ∨ (10 ≤ limit.toNat ∧ limit.toNat ≤ 2000)) →
        ∃ t, exec (.openPort p limit) s = .next t ∧ s.TeardownKeeps p (s.tornCopies p) t ∧
          t.port p = ({ (s.port p).tornDown with
            session := {
              state := .opened, epoch := (s.port p).session.epoch + 1,
              answerLimit := if limit = 0 then 250 else limit.toNat, lapsedCause := false, tearingDown := false } }).answered none)

/-- With the reset pin released: what the end of a session does to every descriptor, whether CLOSE, reopen with any
legal answer limit, port reset or a lapse of the framing unit or of the lane ends it: the copy that an outbound stall
stops is settled STOPPED; each other live copy at the port loses its deadline mark and is settled UNDELIVERABLE; a
descriptor is freed if no other copy is live; the GATHERING descriptor of the port is freed; every other descriptor
stays; and the pool gets back exactly the chains of the descriptors that became FREE, with the held counts of their
senders lower by them (R16, R17, R57, R80, R166, R177, R178). The model's own: that a freed descriptor keeps the
fields without meaning (assumption log 3); that a settled slot keeps its deadline, and that a MOVING copy's mark is
dropped as a BOUND one's is (assumption log 25). -/
def Obligations.SessionEndSettlesCopiesUndeliverable : Prop :=
  ∀ (s t : State) (p : Port) (c : Instr),
    s.resetAsserted = false →
    s.copiesSound → (s.port p).session.state = .opened →
    (c = .closePort p ∨ c = .portReset p
      ∨ (∃ limit : Half, c = .openPort p limit ∧ (limit = 0 ∨ (10 ≤ limit.toNat ∧ limit.toNat ≤ 2000)))
      ∨ (c = .byteDeadline p ∧ s.byteDeadlineReached p = true) ∨ (c = .answerDeadline p ∧ s.answerDeadlineReached p = true)
      ∨ (c = .outboundStall p ∧ (∃ d, (s.port p).lane.owner = .outbound d) ∧ (s.port p).lane.stall = some s.tickCount)) →
    exec c s = .next t →
    (∀ d, t.desc d =
      if c = .outboundStall p ∧ (s.port p).lane.owner = .outbound d then (s.desc d).afterCopy p .stopped
      else if (s.slot d p).state.live then (s.desc d).afterTeardown p
      else if (s.port p).lane.owner = .inbound d then (s.desc d).freed
      else s.desc d) ∧
    s.Releases t

/-- With the reset pin released: A SEND of a length above 0 whose checks pass takes the lowest FREE descriptor and the
first free segments, books a slot for a wanted RECEIPT, and claims the lane (R2, R79, R105, R155). The model's own:
that a request row posts its answer and leaves the stray field (assumption log 6); that the completion tick stays
until completion (assumption log 21). -/
def Obligations.SendClaimsTheLane : Prop :=
  ∀ (s : State) (p : Port) (destination channel : Byte) (length hold label : Half) (options : Byte)
    (dst : Destination) (d : DescNo),
    s.resetAsserted = false →
    firstFailure (s.checks p (.send destination channel length hold label options)) = none →
    0 < length.toNat → destinationOfByte destination = some dst →
    (s.desc d).state = .free → (∀ e, e < d → (s.desc e).state ≠ .free) →
    let n := (length.toNat + 255) / 256
    let ps := s.port p
    exec (.send p destination channel length hold label options) s = .next
      { s with
        descs := s.descs.set d.val
          { state := .gathering, sender := p, senderEpoch := ps.session.epoch, destination := dst, channel := channel,
            length := length.toNat, hold := hold.toNat, label := label, receiptWanted := options == 1,
            chain := s.pool.free.take n, bytesInPool := 0, completionTick := (s.desc d).completionTick,
            slots := PerPort.replicate CopySlot.empty, tally := Tally.zero } d.isLt,
        pool := { s.pool with free := s.pool.free.drop n, held := s.pool.held.set p (s.pool.held.get p + n) },
        ports := s.ports.set p ({ ps with
          queue := { ps.queue with
            reserved := ps.queue.reserved + (if options = 1 then 1 else 0),
            receiptReserved := ps.queue.receiptReserved + (if options = 1 then 1 else 0) },
          lane := { ps.lane with
            owner := .inbound d, hostCount := length.toNat, poolCount := length.toNat, done := false,
            stall := some (s.tickCount + BitVec.ofNat 32 s.pool.stallLimit) } }.answered none) }

/-- With the reset pin released: a SEND of length 0 completes in its acceptance, with or without a RECEIPT wanted: the
accepted state is the completion of the allocated message, and the lane is not claimed. So, with a RECEIPT wanted, to
a group with no recipient, the descriptor is FREE again and the RECEIPT is queued with copies made 0; to a port with
no matching take and room in its list, the copy waits there (R67, R105, R106). The model's own: that a request row
posts its answer and leaves the stray field (assumption log 6); that a freed descriptor keeps the fields without
meaning (assumption log 3). -/
def Obligations.ZeroLengthSendCompletesAtOnce : Prop :=
  (∀ (s : State) (p : Port) (destination channel : Byte) (hold label : Half) (options : Byte) (dst : Destination) (d : DescNo),
    s.resetAsserted = false →
    firstFailure (s.checks p (.send destination channel 0 hold label options)) = none →
    destinationOfByte destination = some dst → (s.desc d).state = .free → (∀ e, e < d → (s.desc e).state ≠ .free) →
    let n := if options = 1 then 1 else 0
    let allocated : State :=
      (s.putDesc d
        { state := .gathering, sender := p, senderEpoch := (s.port p).session.epoch, destination := dst, channel := channel,
          length := 0, hold := hold.toNat, label := label, receiptWanted := options == 1, chain := [], bytesInPool := 0,
          completionTick := (s.desc d).completionTick, slots := PerPort.replicate CopySlot.empty, tally := Tally.zero }).putPort p
        { s.port p with queue := { (s.port p).queue with
          reserved := (s.port p).queue.reserved + n, receiptReserved := (s.port p).queue.receiptReserved + n } }
    exec (.send p destination channel 0 hold label options) s =
      .next ((allocated.complete d).modPort p (PortState.answered none))) ∧
  (∀ (s : State) (p : Port) (destination channel : Byte) (hold label : Half) (d : DescNo),
    s.resetAsserted = false →
    firstFailure (s.checks p (.send destination channel 0 hold label 1)) = none →
    (s.desc d).state = .free → (∀ e, e < d → (s.desc e).state ≠ .free) →
    let x : Descriptor :=
      { state := .gathering, sender := p, senderEpoch := (s.port p).session.epoch, destination := .port p,
        channel := channel, length := 0, hold := hold.toNat, label := label, receiptWanted := true, chain := [],
        bytesInPool := 0, completionTick := s.tickCount, slots := PerPort.replicate CopySlot.empty, tally := Tally.zero }
    let booked (ps : PortState) : PortState := { ps with queue := { ps.queue with
      reserved := ps.queue.reserved + 1, receiptReserved := ps.queue.receiptReserved + 1 } }
    (∀ g, destinationOfByte destination = some (.group g) → (∀ q, q ≠ p → (s.members g).get q = false) →
      (s.port p).session.tearingDown = false →
      exec (.send p destination channel 0 hold label 1) s = .next
        ((s.putDesc d { x with state := .free, destination := .group g }).putPort p
          ((PortState.append s.tickCount
            [.receipt { senderLabel := label, status := .complete, copiesMade := 0, tally := Tally.zero }]
            { s.port p with queue := { (s.port p).queue with reserved := (s.port p).queue.reserved + 1 } }).answered none))) ∧
    (∀ q, destinationOfByte destination = some (.port q) →
      (∀ t ∈ (s.port q).takes.posted, t.fields.accepts x = false) → (s.port q).unclaimed.length < 32 →
      exec (.send p destination channel 0 hold label 1) s = .next
        (((s.putDesc d { x with
            state := .held, destination := .port q,
            slots := (PerPort.replicate CopySlot.empty).set q
              { state := .waiting, deadline := if hold = 0 then none else some (s.tickCount + hold.setWidth 32),
                passed := false } }).putPort p
          ((booked (s.port p)).answered none)).modPort q (fun ps => { ps with unclaimed := ps.unclaimed ++ [d] }))))

/-- With the reset pin released: While the free segments cover the unmet reserves, a SEND that stays within its port's
reserve is refused neither POOL_FULL nor QUOTA (R79). -/
def Obligations.SendWithinTheReserveIsNotRefusedForSegments : Prop :=
  ∀ (s : State) (p : Port) (destination channel : Byte) (length hold label : Half) (options : Byte),
    s.resetAsserted = false →
    s.pool.covered → s.pool.held.get p + (length.toNat + 255) / 256 ≤ s.pool.reserve.get p →
    ∃ t, exec (.send p destination channel length hold label options) s = .next t ∧
      (t.port p).inbound.reason ≠ some .poolFull ∧ (t.port p).inbound.reason ≠ some .quota

/-- With the reset pin released: A TAKE whose checks pass and whose search finds no copy is POSTED at the tail, with
its deadline when the timeout is above 0, and books a slot (R20, R24, R25). The model's own: that a request row posts
its answer and leaves the stray field (assumption log 6). -/
def Obligations.TakeIsPosted : Prop :=
  ∀ (s : State) (p : Port) (label : Half) (source value mask : Byte) (capacity timeout : Half) (src : Option Port),
    s.resetAsserted = false →
    firstFailure (s.checks p (.take label source value mask capacity timeout)) = none →
    sourceOfByte source = some src →
    let f : TakeFields :=
      { label := label, source := src, value := value, mask := mask, capacity := capacity.toNat, timeout := timeout.toNat }
    (∀ d ∈ (s.port p).unclaimed, f.accepts (s.desc d) = false) →
    exec (.take p label source value mask capacity timeout) s = .next (s.putPort p (PortState.answered none { s.port p with
      queue := { (s.port p).queue with reserved := (s.port p).queue.reserved + 1 },
      takes := { (s.port p).takes with posted := (s.port p).takes.posted ++
        [{ fields := f, deadline := if timeout = 0 then none else some (s.tickCount + timeout.setWidth 32) }] } }))

/-- With the reset pin released: A TAKE whose checks pass binds the first copy of the list that passes its filter: the
copy leaves its place, the take is MATCHED with the delivered length fixed, and the ARRIVAL is appended (R15, R25,
R26, R48). The model's own: that a request row posts its answer and leaves the stray field (assumption log 6). -/
def Obligations.TakeBindsTheFirstMatchingCopy : Prop :=
  ∀ (s : State) (p : Port) (label : Half) (source value mask : Byte) (capacity timeout : Half) (src : Option Port)
    (ahead behind : List DescNo) (d : DescNo),
    s.resetAsserted = false →
    firstFailure (s.checks p (.take label source value mask capacity timeout)) = none →
    sourceOfByte source = some src →
    let f : TakeFields :=
      { label := label, source := src, value := value, mask := mask, capacity := capacity.toNat, timeout := timeout.toNat }
    let x := s.desc d
    let ps := s.port p
    ps.unclaimed = ahead ++ d :: behind → (∀ e ∈ ahead, f.accepts (s.desc e) = false) → f.accepts x = true →
    exec (.take p label source value mask capacity timeout) s = .next
      ((s.putDesc d { x with slots := x.slots.set p { x.slots.get p with state := .bound } }).putPort p
        ((PortState.append s.tickCount
          [.arrival {
            takeLabel := label, source := x.sender,
            group := match x.destination with
              | .port _ => none
              | .group g => some g,
            channel := x.channel, senderLabel := x.label, messageLength := x.length,
            deliveredLength := min x.length capacity.toNat }]
          { ps with
            queue := { ps.queue with reserved := ps.queue.reserved + 1 },
            unclaimed := ahead ++ behind,
            takes := { ps.takes with matched := ps.takes.matched ++
              [{ fields := f, bound := d, delivered := min x.length capacity.toNat }] } }).answered none))

/-- With the reset pin released: CANCEL of a POSTED take: it leaves the posting order, and its TAKE_ENDED CANCELLED is
appended in the slot it had booked (R33, R111). The model's own: that a request row posts its answer and leaves the
stray field (assumption log 6). -/
def Obligations.CancelEndsAPostedTake : Prop :=
  ∀ (s : State) (p : Port) (label : Half) (ahead behind : List PostedTake) (t : PostedTake),
    s.resetAsserted = false →
    firstFailure (s.checks p (.cancel label)) = none →
    (s.port p).takes.posted = ahead ++ t :: behind → t.fields.label = label → (∀ u ∈ ahead, u.fields.label ≠ label) →
    exec (.cancel p label) s = .next (s.putPort p
      ((PortState.append s.tickCount [.takeEnded label .cancelled]
        { s.port p with takes := { (s.port p).takes with posted := ahead ++ behind } }).answered none))

/-- With the reset pin released: JOIN adds the port to one member set and LEAVE takes it out; nothing else changes but
the answer (R61, R62). The model's own: that a request row posts its answer and leaves the stray field (assumption log
6). -/
def Obligations.JoinAndLeaveChangeOneMembership : Prop :=
  ∀ (s : State) (p : Port) (g : GroupNo),
    s.resetAsserted = false →
    (s.port p).session.state = .opened →
    ((s.members g).get p = false → exec (.join p (BitVec.ofNat 8 g.val)) s = .next
      ((s.putGroup g ((s.members g).set p true)).putPort p ((s.port p).answered none))) ∧
    ((s.members g).get p = true → exec (.leave p (BitVec.ofNat 8 g.val)) s = .next
      ((s.putGroup g ((s.members g).set p false)).putPort p ((s.port p).answered none)))

/-- With the reset pin released: QUERY books a slot and appends a REPORT of the counts of its own happening, itself
counted (R113). The model's own: that a request row posts its answer and leaves the stray field (assumption log 6). -/
def Obligations.QueryAppendsAReport : Prop :=
  ∀ (s : State) (p : Port),
    s.resetAsserted = false →
    (s.port p).session.state = .opened → (s.port p).queue.reserved < 24 →
    let ps := s.port p
    exec (.query p) s = .next (s.putPort p
      ((PortState.append s.tickCount
        [.report {
          tickCount := s.tickCount, epoch := ps.session.epoch, freeSegments := s.pool.free.length,
          freeDescriptors := (List.finRange 64).countP (fun d => (s.desc d).state == .free),
          held := s.pool.held.get p, reserve := s.pool.reserve.get p, ceiling := s.pool.ceiling.get p,
          liveTakes := ps.takes.posted.length + ps.takes.matched.length, postedTakes := ps.takes.posted.length,
          unclaimed := ps.unclaimed.length, noticesQueued := ps.queue.notices.length + 1,
          slotsReserved := ps.queue.reserved + 1,
          memberships := (List.finRange 8).filter (fun g => (s.members g).get p) }]
        { ps with queue := { ps.queue with reserved := ps.queue.reserved + 1 } }).answered none))

/-- With the reset pin released: CONFIGURE from the OPEN setup port with good values replaces the eight limits and the
stall limit at once; no segment moves and no deadline in progress changes (R83, R84). The model's own: that a request
row posts its answer and leaves the stray field (assumption log 6). -/
def Obligations.ConfigureReplacesTheLimits : Prop :=
  ∀ (s : State) (p : Port) (reserve ceiling : PerPort Byte) (stallLimit : Half),
    s.resetAsserted = false →
    (s.port p).session.state = .opened → p = s.setupPort → s.badConfig reserve ceiling stallLimit = false →
    exec (.configure p reserve ceiling stallLimit) s = .next
      ({ s with pool := { s.pool with
          reserve := PerPort.map reserve BitVec.toNat, ceiling := PerPort.map ceiling BitVec.toNat,
          stallLimit := stallLimit.toNat } }.putPort p ((s.port p).answered none))

/-! ### Matching, groups, settlement -/

/-- A take's filter: the source filter is ANY or names the sender, and the channel has the value's bit wherever the
mask has a 1 (R22). -/
def Obligations.FilterTestsTheMaskedChannel : Prop :=
  ∀ (f : TakeFields) (x : Descriptor), f.accepts x = true ↔
    (f.source = none ∨ f.source = some x.sender) ∧
      ∀ i : Nat, i < 8 → f.mask.getLsbD i = true → x.channel.getLsbD i = f.value.getLsbD i

/-- The completion of a unicast message: at a port that is not OPEN its copy is settled UNDELIVERABLE, the first
POSTED take that matches is bound, a copy without a take waits at the tail with its deadline, and a full list settles
it DROPPED (R4, R7, R28, R44, R45). The model's own: that a settled slot keeps its deadline (assumption log 25). -/
def Obligations.CompletionMatchesAUnicastCopy : Prop :=
  ∀ (s : State) (d : DescNo) (q : Port),
    (s.desc d).destination = .port q → (s.desc d).slots = PerPort.replicate CopySlot.empty → (s.desc d).tally = Tally.zero →
    let x : Descriptor := { s.desc d with completionTick := s.tickCount }
    let deadline := if x.hold = 0 then none else some (s.tickCount + BitVec.ofNat 32 x.hold)
    let made (slot : SlotState) (st : DescState) (t : Tally) : State := s.putDesc d { x with
      state := st, slots := x.slots.set q { state := slot, deadline := deadline, passed := false }, tally := t }
    ((s.port q).session.state ≠ .opened → s.complete d =
      (made (.settled .undeliverable) x.state { Tally.zero with undeliverable := 1 }).settleDescriptor d) ∧
    ((s.port q).session.state = .opened →
      (∀ (ahead behind : List PostedTake) (t : PostedTake), (s.port q).takes.posted = ahead ++ t :: behind →
        (∀ u ∈ ahead, u.fields.accepts x = false) → t.fields.accepts x = true →
        s.complete d = (made .bound .held Tally.zero).modPort q (fun ps =>
          PortState.append s.tickCount [.arrival (arrivalOf t.fields x)]
            { ps with takes := { posted := ahead ++ behind, matched := ps.takes.matched ++
              [{ fields := t.fields, bound := d, delivered := min x.length t.fields.capacity }] } })) ∧
      ((∀ u ∈ (s.port q).takes.posted, u.fields.accepts x = false) →
        ((s.port q).unclaimed.length < 32 → s.complete d =
          (made .waiting .held Tally.zero).modPort q (fun ps => { ps with unclaimed := ps.unclaimed ++ [d] })) ∧
        (32 ≤ (s.port q).unclaimed.length → s.complete d =
          (made (.settled .dropped) x.state { Tally.zero with dropped := 1 }).settleDescriptor d)))

/-- The completion of a group message whose members have no matching take and room in their lists: every member but
the sender has a waiting copy with the one deadline, no other port has any, and the descriptor is HELD (R65,
R66). -/
def Obligations.GroupMessageWaitsAtEveryMember : Prop :=
  ∀ (s : State) (d : DescNo) (g : GroupNo),
    (s.desc d).destination = .group g → (s.desc d).slots = PerPort.replicate CopySlot.empty →
    let x : Descriptor := { s.desc d with completionTick := s.tickCount }
    let recipient (q : Port) : Bool := (s.members g).get q && q != x.sender
    (∃ q, recipient q = true) →
    (∀ q, recipient q = true → (s.port q).session.state = .opened ∧ (s.port q).unclaimed.length < 32 ∧
      ∀ u ∈ (s.port q).takes.posted, u.fields.accepts x = false) →
    let slotAt (q : Port) : CopySlot :=
      if recipient q then
        { state := .waiting, passed := false,
          deadline := if x.hold = 0 then none else some (s.tickCount + BitVec.ofNat 32 x.hold) }
      else CopySlot.empty
    let portAt (q : Port) : PortState :=
      if recipient q then { s.port q with unclaimed := (s.port q).unclaimed ++ [d] } else s.port q
    s.complete d = { s.putDesc d { x with state := .held, slots := ⟨slotAt .a, slotAt .b, slotAt .c, slotAt .d⟩ } with
      ports := ⟨portAt .a, portAt .b, portAt .c, portAt .d⟩ }

/-- A HELD descriptor with no live copy is settled: FREE, its chain back in the free list, the held count of its
sender lower by the chain, and, when the receipt check passes, a RECEIPT with the tally at the sender, from a booked
slot, or with none booked from a new one, or with 24 reserved not at all (R9, R10, R11, R14, R120). The model's own:
that a freed descriptor keeps the fields without meaning (assumption log 3). -/
def Obligations.LastCopySettlesTheDescriptor : Prop :=
  ∀ (s : State) (d : DescNo), (s.desc d).state = .held → (s.desc d).liveCount = 0 →
    let x := s.desc d
    let c := s.port x.sender
    let t := s.settleIfDone d
    t.desc d = x.freed ∧ (∀ e, e ≠ d → t.desc e = s.desc e) ∧
    (∀ n, n ∈ t.pool.free ↔ n ∈ s.pool.free ∨ n ∈ x.chain) ∧
    t.pool.free.length = s.pool.free.length + x.chain.length ∧
    t.pool.held = s.pool.held.set x.sender (s.pool.held.get x.sender - x.chain.length) ∧
    (∀ q, q ≠ x.sender → t.port q = s.port q) ∧
    (x.receiptWanted = true → c.session.state = .opened → c.session.tearingDown = false → c.session.epoch = x.senderEpoch →
      let receipt : Receipt :=
        { senderLabel := x.label, status := .complete, copiesMade := x.settledCount, tally := x.tally }
      (0 < c.queue.receiptReserved → t.port x.sender =
        { c with queue := { c.queue with receiptReserved := c.queue.receiptReserved - 1 } }.append s.tickCount
          [.receipt receipt]) ∧
      (c.queue.receiptReserved = 0 → c.queue.reserved < 24 → t.port x.sender =
        { c with queue := { c.queue with reserved := c.queue.reserved + 1 } }.append s.tickCount [.receipt receipt]) ∧
      (c.queue.receiptReserved = 0 → 24 ≤ c.queue.reserved → t.port x.sender = c)) ∧
    ((x.receiptWanted = false ∨ c.session.state ≠ .opened ∨ c.session.tearingDown = true
      ∨ c.session.epoch ≠ x.senderEpoch) → t.port x.sender = c)

/-! ### The command lane -/

/-- With the reset pin released: A gathering write: the byte joins the ring as its newest, the oldest leaving a ring
of 64; the gathered count rises to 64, then the overflow count to 63; the answer is NONE and ANSWER POSTED cleared;
reason and stray stay (R138). -/
def Obligations.GatheringWriteTakesTheByte : Prop :=
  ∀ (s : State) (p : Port) (data : Half),
    s.resetAsserted = false →
    (s.port p).inbound.closingMark = false →
    let x := (s.port p).inbound
    let t := s.putPort p { s.port p with inbound :=
      { ring := (if x.ring.length < 64 then x.ring else x.ring.tail) ++ [data.setWidth 8],
        gathered := if x.gathered < 64 then x.gathered + 1 else x.gathered,
        overflow := if x.gathered < 64 then x.overflow else min 63 (x.overflow + 1),
        closingMark := false, answer := .none, reason := x.reason, stray := x.stray, answerPosted := false } }
    exec (.gatheringWrite p data) s = .next t

/-- With the reset pin released: SET_CLOSING_MARK sets the mark and changes nothing else; a set mark stays through
every command but a write of offset 0 (or a request block, which is a closing), a port reset of the port, and a hard
reset; each of those clears it (R139). The model's own: that a request row is a closing and that either row of a write
of offset 0 follows the mark (assumption log 6 and 7). -/
def Obligations.ClosingMarkStaysUntilItsClosing : Prop :=
  ∀ (s : State) (p : Port),
    s.resetAsserted = false →
    exec (.setClosingMark p) s = .next (s.putPort p { s.port p with
      inbound := { (s.port p).inbound with closingMark := true } }) ∧
    ((s.port p).inbound.closingMark = true → ∀ (c : Instr) (t : State), exec c s = .next t →
      ((t.port p).inbound.closingMark = false ↔
        ((∃ data, c = .gatheringWrite p data ∨ c = .closingWrite p data) ∨ (∃ r : Request, c = r.command p)
          ∨ c = .portReset p ∨ ∃ straps, c = .hardReset straps)))

/-- With the reset pin released: A closing byte out of range, above the gathered count, or at odds with the block's
data length is refused FRAMING with every byte of the attempt stray; no owner changes (R140, R141, R142). -/
def Obligations.BadClosingByteIsFraming : Prop :=
  ∀ (s : State) (p : Port) (data : Half),
    s.resetAsserted = false →
    let x := (s.port p).inbound
    let total := (lowByte data).toNat
    x.closingMark = true →
    (total < 2 ∨ 64 < total ∨ x.gathered < total ∨
      ∃ (before rest : List Byte) (code len : Byte), x.ring = before ++ code :: len :: rest
        ∧ rest.length + 2 = total ∧ len.toNat ≠ total - 2) →
    exec (.closingWrite p data) s = .next (s.putPort p { s.port p with inbound :=
      { ring := x.ring, gathered := 0, overflow := 0, closingMark := false, answer := .refused,
        reason := some .framing, stray := min 63 (x.gathered + x.overflow), answerPosted := true } })

/-- With the reset pin released: A whole block whose code names no request is refused UNKNOWN_CODE, whatever its data
(R93). -/
def Obligations.UnknownCodeIsRefused : Prop :=
  ∀ (s : State) (p : Port) (data : Half) (before rest : List Byte) (code len : Byte),
    s.resetAsserted = false →
    let x := (s.port p).inbound
    let total := (lowByte data).toNat
    x.closingMark = true → x.ring = before ++ code :: len :: rest → rest.length + 2 = total → len.toNat = rest.length →
    total ≤ 64 → total ≤ x.gathered → code ∉ requestCodes →
    exec (.closingWrite p data) s = .next (s.putPort p { s.port p with inbound :=
      { ring := x.ring, gathered := 0, overflow := 0, closingMark := false, answer := .refused,
        reason := some .unknownCode, stray := min 63 (x.gathered - total + x.overflow), answerPosted := true } })

/-- The decoder reads a request's block as that request and reads no other bytes as it; a code of the nine with a
data length that is not its own is FRAMING, and any other code UNKNOWN_CODE (R93, R94, R189). -/
def Obligations.RequestBlocksDecodeAsEncoded : Prop :=
  (∀ r : Request, parseRequest r.code r.data = .ok r ∧ requestLength r.code = some r.data.length) ∧
  (∀ (code : Byte) (data : List Byte) (r : Request), parseRequest code data = .ok r → code = r.code ∧ data = r.data) ∧
  (∀ (code : Byte) (data : List Byte), code ∈ requestCodes → requestLength code ≠ some data.length →
    parseRequest code data = .error .framing) ∧
  (∀ (code : Byte) (data : List Byte), code ∉ requestCodes → parseRequest code data = .error .unknownCode)

/-- With the reset pin released: A closing that cuts a request's block does to the part what the request does, with
the mark and the old answer cleared and the bytes before the block counted as stray; the port is then answered,
ACCEPTED when every check of the request passes, and otherwise REFUSED with the reason of the first that fails (R91,
R92, R140, R141, R142, R189). The model's own: the split of a closing into the framing unit's part and the request row
(assumption log 6). -/
def Obligations.ClosedBlockRunsItsRequest : Prop :=
  ∀ (s : State) (p : Port) (data : Half) (before : List Byte) (r : Request),
    s.resetAsserted = false →
    let x := (s.port p).inbound
    let y : InboundSide := { x with
      closingMark := false, answer := .none, answerPosted := false,
      stray := min 63 (x.gathered - r.block.length + x.overflow) }
    x.closingMark = true → x.ring = before ++ r.block → r.block.length ≤ x.gathered →
    (lowByte data).toNat = r.block.length →
    ∃ t, exec (.closingWrite p data) s = .next t ∧
      exec (r.command p) (s.putPort p { s.port p with inbound := y }) = .next t ∧
      (t.port p).inbound = y.answered (firstFailure (s.checks p r))

/-- With the reset pin released: A read of offset 0: in DATA it returns the byte and places the next with a new byte
deadline, or, after the last, the length byte under the closing mark; in LENGTH it returns the length byte and starts
the answer deadline; in IDLE and ANSWER, with nothing presented, it returns 0 and changes nothing else (R146, R152).
The model's own: the field that shows what a read returned (assumption log 5). -/
def Obligations.OutboundReadPresentsTheNextByte : Prop :=
  ∀ (s : State) (p : Port),
    s.resetAsserted = false →
    let ps := s.port p
    let deadline := s.tickCount + BitVec.ofNat 32 ps.session.answerLimit
    let answers (x : OutboundSide) (value : Half) : Prop :=
      exec (.outboundByteRead p) s = .next (s.putPort p { ps with outbound := x, readData := value })
    (∀ (position : Nat) (t : Tick) (b : Byte) (n : Notice) (rest : List Notice),
      ps.outbound.tx = .data position t → ps.outbound.byte = some b → ps.queue.notices = n :: rest →
      (∀ h : position < n.bytes.length, answers
        { ps.outbound with byte := some n.bytes[position], tx := .data (position + 1) deadline } (b.setWidth 16)) ∧
      (n.bytes.length ≤ position → answers
        { byte := some n.totalLength, closingMark := true, tx := .length deadline } (b.setWidth 16))) ∧
    (∀ (t : Tick) (b : Byte), ps.outbound.tx = .length t → ps.outbound.byte = some b →
      answers { byte := none, closingMark := false, tx := .answer deadline } (b.setWidth 16)) ∧
    ((ps.outbound.tx = .idle ∨ ∃ t, ps.outbound.tx = .answer t) → answers ps.outbound 0)

/-- With the reset pin released: A notice is read whole: from the placing of its code, as many reads as it has bytes
return them in order, and one more returns the total length and leaves the notice awaiting its answer, at the head
where it was (R144 to R146). The model's own: the field that shows what a read returned (assumption log 5). -/
def Obligations.NoticeIsReadWholeInOrder : Prop :=
  ∀ (s : State) (p : Port) (n : Notice) (rest : List Notice) (t : Tick),
    s.resetAsserted = false →
    (s.port p).queue.notices = n :: rest → (s.port p).outbound.tx = .data 1 t →
    (s.port p).outbound.byte = some n.code →
    (∀ (k : Nat) (h : k < n.bytes.length),
      ((s.afterTimes (.outboundByteRead p) (k + 1)).port p).readData = n.bytes[k].setWidth 16) ∧
    s.afterTimes (.outboundByteRead p) (n.bytes.length + 1) = s.putPort p { s.port p with
      readData := n.totalLength.setWidth 16,
      outbound := {
        byte := none, closingMark := false,
        tx := .answer (s.tickCount + BitVec.ofNat 32 (s.port p).session.answerLimit) } }

/-- An append to an empty queue under an IDLE framing unit places the notice's code at once with a byte deadline, but
an ARRIVAL is held back while the lane is in use; an append behind other notices leaves the outbound side as it
is when a notice is in transmission or the head is held back (R119, R126, R127, R145). -/
def Obligations.NewHeadIsTransmittedAtOnce : Prop :=
  ∀ (now : Tick) (ps : PortState) (n : Notice),
    let queued : PortState := { ps with queue := { ps.queue with notices := ps.queue.notices ++ [n] } }
    (ps.queue.notices = [] → ps.outbound.tx = .idle → (n.isArrival = false ∨ ps.lane.owner = .idle) →
      ps.append now [n] = { queued with outbound :=
        { ps.outbound with byte := some n.code, tx := .data 1 (now + BitVec.ofNat 32 ps.session.answerLimit) } }) ∧
    (ps.queue.notices = [] → n.isArrival = true → ps.lane.owner ≠ .idle → ps.append now [n] = queued) ∧
    (ps.outbound.tx ≠ .idle → ps.append now [n] = queued) ∧
    (ps.headIsArrival = true → ps.lane.owner ≠ .idle → ps.append now [n] = queued)

/-- With the reset pin released: ACCEPT of an ARRIVAL with a delivered length above 0: the ARRIVAL leaves and its slot
with it, the copy is MOVING, the lane is claimed OUTBOUND for the delivered length, and the next head is offered
beneath it (R128, R129, R147, R155). -/
def Obligations.AcceptStartsADelivery : Prop :=
  ∀ (s : State) (p : Port) (a : Arrival) (rest : List Notice) (t : Tick) (ahead behind : List MatchedTake) (m : MatchedTake),
    s.resetAsserted = false →
    let ps := s.port p
    let x := s.desc m.bound
    ps.outbound.tx = .answer t → ps.queue.notices = .arrival a :: rest → ps.takes.matched = ahead ++ m :: behind →
    m.fields.label = a.takeLabel → (∀ u ∈ ahead, u.fields.label ≠ a.takeLabel) → 0 < m.delivered →
    exec (.accept p) s = .next
      ((s.putDesc m.bound { x with slots := x.slots.set p { x.slots.get p with state := .moving } }).putPort p
        (PortState.offer s.tickCount { ps with
          outbound := { ps.outbound with tx := .idle },
          queue := { ps.queue with notices := rest, reserved := ps.queue.reserved - 1 },
          lane := { ps.lane with
            owner := .outbound m.bound, hostCount := m.delivered, poolCount := m.delivered, done := false,
            stall := some (s.tickCount + BitVec.ofNat 32 s.pool.stallLimit) } }))

/-- With the reset pin released: ACCEPT of an ARRIVAL with delivered length 0 settles the copy DELIVERED, or CUT when
the message has bytes, ends the take, and settles the descriptor if that was its last live copy; the lane is not
claimed (R31, R130). The model's own: that a freed descriptor keeps the fields without meaning (assumption log 3);
that a settled slot keeps its deadline (assumption log 25). -/
def Obligations.AcceptOfNothingSettlesTheCopy : Prop :=
  ∀ (s : State) (p : Port) (a : Arrival) (rest : List Notice) (t : Tick) (ahead behind : List MatchedTake) (m : MatchedTake),
    s.resetAsserted = false →
    let ps := s.port p
    let x := s.desc m.bound
    let o : CopyOutcome := if x.length = 0 then .delivered else .cut
    ps.outbound.tx = .answer t → ps.queue.notices = .arrival a :: rest → ps.takes.matched = ahead ++ m :: behind →
    m.fields.label = a.takeLabel → (∀ u ∈ ahead, u.fields.label ≠ a.takeLabel) →
    (∀ u ∈ ahead ++ behind, u.bound ≠ m.bound) → m.delivered = 0 → (x.slots.get p).state = .bound →
    exec (.accept p) s = .next
      ((((s.putDesc m.bound { x with
            slots := x.slots.set p { x.slots.get p with state := .settled o }, tally := x.tally.count o }).putPort p
          { ps with
            outbound := { ps.outbound with tx := .idle },
            queue := { ps.queue with notices := rest, reserved := ps.queue.reserved - 1 },
            takes := { ps.takes with matched := ahead ++ behind } }).settleIfDone m.bound).offer p)

/-- With the reset pin released: REFUSE of an ARRIVAL ends the take; its copy is settled EXPIRED when its deadline has
passed, else DROPPED when the list is full, else it waits at the head of the list with its deadline kept (R30, R49,
R131). The model's own: that a freed descriptor keeps the fields without meaning (assumption log 3); that a settled
slot keeps its deadline (assumption log 25). -/
def Obligations.RefuseReturnsTheCopy : Prop :=
  ∀ (s : State) (p : Port) (a : Arrival) (rest : List Notice) (t : Tick) (ahead behind : List MatchedTake) (m : MatchedTake),
    s.resetAsserted = false →
    let ps := s.port p
    let x := s.desc m.bound
    let slot := x.slots.get p
    let ps' : PortState := { ps with
      outbound := { ps.outbound with tx := .idle },
      queue := { ps.queue with notices := rest, reserved := ps.queue.reserved - 1 },
      takes := { ps.takes with matched := ahead ++ behind } }
    let settled (o : CopyOutcome) : State :=
      (((s.putDesc m.bound { x with slots := x.slots.set p { slot with state := .settled o }, tally := x.tally.count o }).putPort p
        ps').settleIfDone m.bound).offer p
    ps.outbound.tx = .answer t → ps.queue.notices = .arrival a :: rest → ps.takes.matched = ahead ++ m :: behind →
    m.fields.label = a.takeLabel → (∀ u ∈ ahead, u.fields.label ≠ a.takeLabel) →
    (∀ u ∈ ahead ++ behind, u.bound ≠ m.bound) → slot.state = .bound →
    (slot.passed = true → exec (.refuse p) s = .next (settled .expired)) ∧
    (slot.passed = false → 32 ≤ ps.unclaimed.length → exec (.refuse p) s = .next (settled .dropped)) ∧
    (slot.passed = false → ps.unclaimed.length < 32 → exec (.refuse p) s = .next
      ((s.putDesc m.bound { x with slots := x.slots.set p { slot with state := .waiting } }).putPort p
        (PortState.offer s.tickCount { ps' with unclaimed := m.bound :: ps.unclaimed })))

/-- With the reset pin released: An answer to a TAKE_ENDED, RECEIPT or REPORT removes it, releases its slot and offers
the next head, whichever answer it is; an answer while no notice awaits one changes nothing (R128, R132, R147). -/
def Obligations.OtherAnswersOnlyRemoveTheNotice : Prop :=
  ∀ (s : State) (p : Port),
    s.resetAsserted = false →
    let ps := s.port p
    (∀ (t : Tick) (n : Notice) (rest : List Notice),
      ps.outbound.tx = .answer t → ps.queue.notices = n :: rest → n.isArrival = false →
      let u := s.putPort p (PortState.offer s.tickCount { ps with
        outbound := { ps.outbound with tx := .idle },
        queue := { ps.queue with notices := rest, reserved := ps.queue.reserved - 1 } })
      exec (.accept p) s = .next u ∧ exec (.refuse p) s = .next u) ∧
    ((∀ t, ps.outbound.tx ≠ .answer t) → exec (.accept p) s = .next s ∧ exec (.refuse p) s = .next s)

/-! ### The data lane -/

/-- With the reset pin released: A lane write with bytes owed and room for all it carries: the bytes join the FIFO in
stream order (two on a 16-bit port with two or more owed, else one), the host count falls by them and LANE DONE is set
at 0, and the stall deadline is restarted. With nothing owed, or on an OUTBOUND lane, OVERRUN is set and the deadline
restarted; on an IDLE lane OVERRUN is set (R156, R157, R165). -/
def Obligations.LaneWriteEntersTheFifo : Prop :=
  ∀ (s : State) (p : Port) (data : Half),
    s.resetAsserted = false →
    let ps := s.port p
    let l := ps.lane
    let bytes : List Byte :=
      if ps.width = .bits16 ∧ l.hostCount ≠ 1 then [data.setWidth 8, (data >>> 8).setWidth 8] else [data.setWidth 8]
    let stall := some (s.tickCount + BitVec.ofNat 32 s.pool.stallLimit)
    let leaves (lane : Lane) : Prop := exec (.laneWrite p data) s = .next (s.putPort p { ps with lane := lane })
    (∀ d, l.owner = .inbound d → 0 < l.hostCount → l.fifo.length + bytes.length ≤ 32 → leaves
      { l with
        fifo := l.fifo ++ bytes, hostCount := l.hostCount - bytes.length,
        done := if l.hostCount - bytes.length = 0 then true else l.done, stall := stall }) ∧
    (∀ d, ((l.owner = .inbound d ∧ l.hostCount = 0) ∨ l.owner = .outbound d) →
      leaves { l with overrun := true, stall := stall }) ∧
    (l.owner = .idle → leaves { l with overrun := true })

/-- With the reset pin released: A lane write without room sets OVERRUN and abandons the message: the written bytes
are lost, the chain is released, the ABANDONED RECEIPT is queued when due, the lane is IDLE and LANE DONE is as it was
(R12, R13, R157). The model's own: that a freed descriptor keeps the fields without meaning (assumption log 3). -/
def Obligations.OverrunAbandonsTheMessage : Prop :=
  ∀ (s : State) (p : Port) (d : DescNo) (data : Half),
    s.resetAsserted = false →
    let l := (s.port p).lane
    l.owner = .inbound d → (s.desc d).sender = p → 0 < l.hostCount →
    32 < l.fifo.length + (if (s.port p).width = .bits16 ∧ l.hostCount ≠ 1 then 2 else 1) →
    exec (.laneWrite p data) s = .next (s.afterAbandonment p d { l.ended with overrun := true })

/-- With the reset pin released: A lane read with bytes enough and more to come after: the oldest bytes leave and are
returned, the first in the low half, the host count falls, and the deadline is restarted. Too few bytes, or an INBOUND
lane, sets UNDERRUN, returns 0 and restarts the deadline; an IDLE lane sets UNDERRUN and returns 0 (R156, R158, R165).
The model's own: the field that shows what a read returned (assumption log 5). -/
def Obligations.LaneReadTakesTheOldestBytes : Prop :=
  ∀ (s : State) (p : Port),
    s.resetAsserted = false →
    let ps := s.port p
    let l := ps.lane
    let size := if ps.width = .bits16 ∧ l.hostCount ≠ 1 then 2 else 1
    let stall := some (s.tickCount + BitVec.ofNat 32 s.pool.stallLimit)
    let answers (lane : Lane) (value : Half) : Prop :=
      exec (.laneRead p) s = .next (s.putPort p { ps with lane := lane, readData := value })
    (∀ d, l.owner = .outbound d → size < l.hostCount →
      (∀ (lo hi : Byte) (rest : List Byte), size = 2 → l.fifo = lo :: hi :: rest →
        answers { l with fifo := rest, hostCount := l.hostCount - 2, stall := stall } (hi ++ lo)) ∧
      (∀ (b : Byte) (rest : List Byte), size = 1 → l.fifo = b :: rest →
        answers { l with fifo := rest, hostCount := l.hostCount - 1, stall := stall } (b.setWidth 16))) ∧
    (∀ d, ((l.owner = .outbound d ∧ l.fifo.length < size) ∨ l.owner = .inbound d) →
      answers { l with underrun := true, stall := stall } 0) ∧
    (l.owner = .idle → answers { l with underrun := true } 0)

/-- With the reset pin released: the read of the last delivered bytes, one byte in the low half, or two on a 16-bit
port: they are returned, LANE DONE is set, the copy is settled DELIVERED or CUT by the delivered length, the take
ends, the lane is IDLE, and the descriptor is settled if no copy is live (R32, R156, R158, R163). The model's own: the
field that shows what a read returned (assumption log 5); that a freed descriptor keeps the fields without meaning
(assumption log 3); that a settled slot keeps its deadline (assumption log 25). -/
def Obligations.LastReadEndsTheDelivery : Prop :=
  ∀ (s : State) (p : Port) (d : DescNo) (ahead behind : List MatchedTake) (m : MatchedTake),
    s.resetAsserted = false →
    let ps := s.port p
    let x := s.desc d
    let o : CopyOutcome := if m.delivered = x.length then .delivered else .cut
    let ends (value : Half) : Prop := exec (.laneRead p) s = .next
      ((((s.putDesc d { x with
            slots := x.slots.set p { x.slots.get p with state := .settled o }, tally := x.tally.count o }).putPort p
          { ps with
            takes := { ps.takes with matched := ahead ++ behind },
            lane := { ps.lane.ended with done := true }, readData := value }).settleIfDone d).offer p)
    ps.lane.owner = .outbound d → ps.takes.matched = ahead ++ m :: behind → m.bound = d →
    (∀ u ∈ ahead ++ behind, u.bound ≠ d) → (x.slots.get p).state = .moving →
    (∀ b : Byte, ps.lane.hostCount = 1 → ps.lane.fifo = [b] → ends (b.setWidth 16)) ∧
    (∀ lo hi : Byte, ps.width = .bits16 → ps.lane.hostCount = 2 → ps.lane.fifo = [lo, hi] → ends (hi ++ lo))

/-- With the reset pin released: PURGE empties the FIFO and clears OVERRUN and UNDERRUN in every owner state; an
INBOUND message is abandoned, an OUTBOUND copy is settled STOPPED and its take ends, and the lane is IDLE; LANE DONE
stays (R164). The model's own: that a freed descriptor keeps the fields without meaning (assumption log 3); that a
settled slot keeps its deadline (assumption log 25). -/
def Obligations.PurgeEndsTheTransfer : Prop :=
  ∀ (s : State) (p : Port),
    s.resetAsserted = false →
    let ps := s.port p
    let purged : Lane := { ps.lane.ended with overrun := false, underrun := false }
    (ps.lane.owner = .idle → exec (.purge p) s = .next (s.putPort p { ps with
      lane := { ps.lane with fifo := [], overrun := false, underrun := false } })) ∧
    (∀ d, ps.lane.owner = .inbound d → (s.desc d).sender = p → exec (.purge p) s = .next (s.afterAbandonment p d purged)) ∧
    (∀ (d : DescNo) (ahead behind : List MatchedTake) (m : MatchedTake),
      let x := s.desc d
      ps.lane.owner = .outbound d → ps.takes.matched = ahead ++ m :: behind → m.bound = d →
      (∀ u ∈ ahead ++ behind, u.bound ≠ d) → (x.slots.get p).state = .moving →
      exec (.purge p) s = .next
        ((((s.putDesc d { x with
              slots := x.slots.set p { x.slots.get p with state := .settled .stopped },
              tally := x.tally.count .stopped }).putPort p
            { ps with takes := { ps.takes with matched := ahead ++ behind }, lane := purged }).settleIfDone d).offer p))

/-- With the reset pin released: the enables are written as given, done-clear clears LANE DONE, clear-lane-flags
clears OVERRUN and UNDERRUN, in every owner state, and nothing else changes (R159, R185). A host access at the window
amounts to these commands, in this order, at the tail of the queue: by the location on a 16-bit port, by the byte
address on an 8-bit port, and under the DMA acknowledge line a lane access whatever the address (R139, R140, R183,
R185, R186, R187). The model's own: that an access of several effects is a sequence of commands (assumption log 12),
and that reads without an effect are none (assumption log 17). -/
def Obligations.ControlsChangeWhatTheyName : Prop :=
  ∀ (s : State) (p : Port),
    s.resetAsserted = false →
    (∀ e : Enables,
      exec (.writeEnables p e) s = .next (s.putPort p { s.port p with enables := e }) ∧
      exec (.doneClear p) s = .next (s.putPort p { s.port p with lane := { (s.port p).lane with done := false } }) ∧
      exec (.clearLaneFlags p) s = .next (s.putPort p { s.port p with
        lane := { (s.port p).lane with overrun := false, underrun := false } })) ∧
    (∀ x : Access, s.hostAccess p x = { s with pending := s.pending ++ s.commandsOf p x }) ∧
    s.commandsOf p .dmaRead = [.laneRead p] ∧
    ∀ data : Half,
      let command : Instr := if (s.port p).inbound.closingMark then .closingWrite p data else .gatheringWrite p data
      let enables : Enables := ⟨data.getLsbD 0, data.getLsbD 1, data.getLsbD 2, data.getLsbD 3, data.getLsbD 4⟩
      let actions (b : Byte) : List Instr :=
        ([(b.getLsbD 0, .doneClear p), (b.getLsbD 1, .clearLaneFlags p), (b.getLsbD 2, .purge p), (b.getLsbD 3, .portReset p)]
          : List (Bool × Instr)).filterMap (fun x => if x.1 then some x.2 else none)
      let marks : List Instr := (if data.getLsbD 0 then [.setClosingMark p] else []) ++
        (if data.extractLsb' 1 2 = 1 then [.accept p] else if data.extractLsb' 1 2 = 2 then [.refuse p] else [])
      s.commandsOf p (.dmaWrite data) = [.laneWrite p data] ∧
      ((s.port p).width = .bits16 → ∀ address : BitVec 3,
        (address = 0 ∨ address = 1 →
          s.commandsOf p (.read address) = [.outboundByteRead p] ∧ s.commandsOf p (.write address data) = [command]) ∧
        (address = 2 ∨ address = 3 →
          s.commandsOf p (.read address) = [.laneRead p] ∧ s.commandsOf p (.write address data) = [.laneWrite p data]) ∧
        (address = 4 ∨ address = 5 →
          s.commandsOf p (.read address) = [] ∧
            s.commandsOf p (.write address data) = .writeEnables p enables :: actions (data.extractLsb' 8 8)) ∧
        (address = 6 ∨ address = 7 →
          s.commandsOf p (.read address) = [] ∧ s.commandsOf p (.write address data) = marks)) ∧
      ((s.port p).width = .bits8 →
        (s.commandsOf p (.read 0) = [.outboundByteRead p] ∧ s.commandsOf p (.write 0 data) = [command]) ∧
        (s.commandsOf p (.read 2) = [.laneRead p] ∧ s.commandsOf p (.write 2 data) = [.laneWrite p data]) ∧
        (s.commandsOf p (.read 4) = [] ∧ s.commandsOf p (.write 4 data) = [.writeEnables p enables]) ∧
        (s.commandsOf p (.read 5) = [] ∧ s.commandsOf p (.write 5 data) = actions (data.setWidth 8)) ∧
        (s.commandsOf p (.read 6) = [] ∧ s.commandsOf p (.write 6 data) = marks) ∧
        ∀ address : BitVec 3, address = 1 ∨ address = 3 ∨ address = 7 →
          s.commandsOf p (.read address) = [] ∧
            s.commandsOf p (.write address data) = [.undecodedWrite p address (data.setWidth 8)])

/-- With the reset pin released: PORT_RESET tears an OPEN session down and leaves the port CLOSED with the cause, the
lane flags, the framing unit and every enable clear; epoch, answer limit and width stay. Where copies agree with takes
and lists, another port gets exactly the RECEIPTs due for the copies ended, in ascending order of descriptor (R17,
R178). At a port that is not OPEN, with its lane IDLE, nothing outside the port's own column changes (R151, R169,
R179). -/
def Obligations.PortResetClearsThePort : Prop :=
  ∀ (s : State) (p : Port),
    s.resetAsserted = false →
    let ps := s.port p
    let cleared (tearingDown : Bool) : PortState :=
      { session := { ps.session with state := .closed, lapsedCause := false, tearingDown := tearingDown },
        inbound := InboundSide.reset, outbound := OutboundSide.reset, takes := ps.takes, unclaimed := ps.unclaimed,
        queue := ps.queue,
        lane := { ps.lane with fifo := [], done := false, overrun := false, underrun := false },
        enables := { noticeByte := false, answerPosted := false, laneDone := false, lapsed := false, dma := false },
        width := ps.width, readData := ps.readData }
    (ps.session.state = .opened → ∃ t, exec (.portReset p) s = .next t ∧ s.TeardownKeeps p (s.tornCopies p) t ∧
      t.port p = { cleared false with
        takes := { posted := [], matched := [] }, unclaimed := [],
        queue := { notices := [], reserved := 0, receiptReserved := 0 },
        lane := { ps.tornDown.lane with fifo := [], done := false, overrun := false, underrun := false } }) ∧
    (ps.session.state ≠ .opened → ps.lane.owner = .idle →
      exec (.portReset p) s = .next (s.putPort p (cleared ps.session.tearingDown)))

/-- A read of status on a 16-bit port, and its two halves on an 8-bit port, show the fields of R184 bit by bit. Lane
ready is set exactly when the next access of the port's width would move bytes (R156, R158). With the reset pin
released, the interrupt line is active exactly when a pending cause has its enable set (R187), and the DMA request
line exactly when the DMA enable and lane ready are set (R167); a read of offset 6 shows the reason and stray fields,
of which an 8-bit port sees the reason alone (R186), a read of offset 0 or 2 shows what its command returns, and the
undecoded addresses of an 8-bit port read 0 (R183). With the pin asserted both lines are inactive, every read returns
0 and no access is taken (R188). The model's own: the field that shows what a read returned (assumption log 5); that
the status word, the reason register and the lines are functions of the state (assumption log 16). -/
def Obligations.StatusShowsTheFields : Prop :=
  ∀ (s : State) (p : Port),
    let ps := s.port p
    let w := ps.statusWord
    let size := if ps.width = .bits16 ∧ ps.lane.hostCount ≠ 1 then 2 else 1
    let ready : Prop := match ps.lane.owner with
      | .idle => False
      | .inbound _ => 0 < ps.lane.hostCount ∧ ps.lane.fifo.length + size ≤ 32
      | .outbound _ => size ≤ ps.lane.fifo.length
    let interrupt : Prop :=
      (ps.outbound.byte.isSome = true ∧ ps.enables.noticeByte = true)
        ∨ (ps.inbound.answerPosted = true ∧ ps.enables.answerPosted = true)
        ∨ (ps.lane.done = true ∧ ps.enables.laneDone = true)
        ∨ (ps.session.lapsedCause = true ∧ ps.enables.lapsed = true)
    let reason : Byte := match ps.inbound.reason with
      | none => 0
      | some r => BitVec.ofNat 8 (reasonsByCode.idxOf r + 1)
    (s.resetAsserted = true → s.interruptLine p = false ∧ s.dmaRequest p = false ∧
      (∀ address, s.readValue p address = 0) ∧ ∀ x, s.commandsOf p x = []) ∧
    (s.resetAsserted = false →
      (s.interruptLine p = true ↔ interrupt) ∧ (s.dmaRequest p = true ↔ ps.enables.dma = true ∧ ready) ∧
      (∃ t, exec (.outboundByteRead p) s = .next t ∧ (t.port p).readData = s.readValue p 0) ∧
      (∃ t, exec (.laneRead p) s = .next t ∧ (t.port p).readData = s.readValue p 2) ∧
      (ps.width = .bits16 → s.readValue p 4 = w ∧ (s.readValue p 6).extractLsb' 0 8 = reason ∧
        (ps.inbound.stray ≤ 63 → ((s.readValue p 6).extractLsb' 8 8).toNat = ps.inbound.stray) ∧
        ∀ address : BitVec 3, s.readValue p (address ||| 1) = s.readValue p (address &&& 6)) ∧
      (ps.width = .bits8 → s.readValue p 4 = (w.setWidth 8).setWidth 16 ∧ s.readValue p 5 = ((w >>> 8).setWidth 8).setWidth 16 ∧
        s.readValue p 6 = reason.setWidth 16 ∧ s.readValue p 1 = 0 ∧ s.readValue p 3 = 0 ∧ s.readValue p 7 = 0)) ∧
    (w.extractLsb' 0 2 = match ps.session.state with
      | .closed => (0 : BitVec 2)
      | .opened => 1
      | .lapsed => 2) ∧
    (w.extractLsb' 2 2 = match ps.inbound.answer with
      | .none => (0 : BitVec 2)
      | .accepted => 1
      | .refused => 2) ∧
    w.getLsbD 4 = ps.outbound.byte.isSome ∧ w.getLsbD 5 = ps.outbound.closingMark ∧
    (w.getLsbD 6 = true ↔ ∃ t, ps.outbound.tx = .answer t) ∧ w.getLsbD 7 = ps.inbound.answerPosted ∧
    (w.extractLsb' 8 2 = match ps.lane.owner with
      | .idle => (0 : BitVec 2)
      | .inbound _ => 1
      | .outbound _ => 2) ∧
    (w.getLsbD 10 = true ↔ ready) ∧
    w.getLsbD 11 = ps.lane.done ∧ w.getLsbD 12 = ps.lane.overrun ∧
    w.getLsbD 13 = ps.lane.underrun ∧ w.getLsbD 14 = ps.session.lapsedCause ∧
    (w.getLsbD 15 = true ↔ interrupt)

/-! ### Time -/

/-- With the reset pin released: TICK raises the tick count by 1, wrapping (R188). Before that it takes what is
outstanding of the present tick, by deadline rows and grants in some order, and in a sound state this leaves nothing
outstanding: no deadline is passed over, and a lane owed a grant since the last tick has had it (R34, R46, R47, R148,
R160, R166). With nothing outstanding it changes nothing else of the spec's state. The model's own: the free order and
its counter (assumption log 8); the grant-due marks (assumption log 9). -/
def Obligations.TickRaisesTheCount : Prop :=
  ∀ s : State,
    s.resetAsserted = false →
    ∃ (u : State) (cs : List Instr),
      (∀ c ∈ cs, c = .grant ∨ ∃ p, c ∈ deadlineRows p) ∧ u = State.afterAll cs { s with draws := u.draws } ∧
      (u.draws = s.draws ∨ u.draws = s.draws + 1) ∧ u.tickCount = s.tickCount ∧ (s.NothingDue → u = s) ∧
      (s.sound → u.NothingDue) ∧
      exec .tick s = .next { u with
        tickCount := s.tickCount + 1,
        ports := PerPort.map u.ports (fun ps => { ps with lane := { ps.lane with grantDue := ps.lane.eligible } }) }

/-- With the reset pin released: TAKE_DEADLINE: every POSTED take whose deadline is the tick count leaves the order,
the others keep theirs, and the TAKE_ENDEDs EXPIRED join the queue in posting order; with none due nothing changes
(R34). The model's own: that the row with nothing due changes nothing (assumption log 13). -/
def Obligations.TakeDeadlineEndsTheDueTakes : Prop :=
  ∀ (s : State) (p : Port),
    s.resetAsserted = false →
    let ps := s.port p
    let due := ps.takes.posted.filter (fun t => t.deadline == some s.tickCount)
    (due = [] → exec (.takeDeadline p) s = .next s) ∧
    (due ≠ [] → exec (.takeDeadline p) s = .next (s.putPort p
      (PortState.append s.tickCount (due.map (fun t => Notice.takeEnded t.fields.label .expired))
        { ps with takes := { ps.takes with posted := ps.takes.posted.filter (fun t => t.deadline != some s.tickCount) } })))

/-- With the reset pin released: HOLD_EXPIRY at an OPEN port: every waiting copy whose deadline is the tick count
leaves the list and is settled EXPIRED, its descriptor freed if no other copy is live; the other copies keep their
order and every other descriptor stays; each sender gets exactly the RECEIPTs due, in the order of the copies in the
list, and the pool the chains of the descriptors freed. At a port that is not OPEN nothing changes (R9, R14, R46,
R80). The model's own: that a freed descriptor keeps the fields without meaning (assumption log 3); that a settled
slot keeps its deadline (assumption log 25); that this row and HOLD_DEADLINE_MARK are two commands (assumption log
20). -/
def Obligations.HoldExpirySettlesWaitingCopies : Prop :=
  ∀ (s : State) (p : Port),
    s.resetAsserted = false →
    s.copiesSound →
    ((s.port p).session.state ≠ .opened → exec (.holdExpiry p) s = .next s) ∧
    ((s.port p).session.state = .opened →
      let due (d : DescNo) : Bool := (s.slot d p).deadline == some s.tickCount
      ∃ t, exec (.holdExpiry p) s = .next t ∧
        (t.port p).unclaimed = (s.port p).unclaimed.filter (fun d => !due d) ∧
        (∀ d, t.desc d =
          if d ∈ (s.port p).unclaimed ∧ due d = true then (s.desc d).afterCopy p .expired else s.desc d) ∧
        (∀ q, (t.port q).session = (s.port q).session ∧ (t.port q).inbound = (s.port q).inbound
          ∧ (t.port q).takes = (s.port q).takes ∧ (t.port q).lane = (s.port q).lane
          ∧ (t.port q).enables = (s.port q).enables ∧ (q ≠ p → (t.port q).unclaimed = (s.port q).unclaimed)) ∧
        (∀ q, t.port q = PortState.receive s.tickCount
          (s.receiptsDue p q (((s.port p).unclaimed.filter due).map (fun d => { desc := d, outcome := .expired })))
          (if q = p then { s.port p with unclaimed := (s.port p).unclaimed.filter (fun d => !due d) } else s.port q)) ∧
        s.Releases t ∧
        t.pool.reserve = s.pool.reserve ∧ t.pool.ceiling = s.pool.ceiling ∧ t.pool.stallLimit = s.pool.stallLimit ∧
        t.groups = s.groups ∧ t.tickCount = s.tickCount ∧ t.pool.mem = s.pool.mem ∧ t.pointer = s.pointer)

/-- With the reset pin released: HOLD_DEADLINE_MARK at an OPEN port marks every copy of the port that is BOUND or
MOVING with its deadline at the tick count, settles none, and changes nothing else (R47). The model's own: that this
row and HOLD_EXPIRY are two commands (assumption log 20). -/
def Obligations.HoldDeadlineMarksBoundCopies : Prop :=
  ∀ (s : State) (p : Port),
    s.resetAsserted = false →
    ∃ t, exec (.holdDeadlineMark p) s = .next t ∧
    t.ports = s.ports ∧ t.groups = s.groups ∧ t.pool = s.pool ∧ t.tickCount = s.tickCount ∧ t.pointer = s.pointer ∧
    t.setupPort = s.setupPort ∧ t.draws = s.draws ∧ t.pending = s.pending ∧
    ∀ d, t.desc d =
      if (s.port p).session.state = .opened ∧ ((s.slot d p).state = .bound ∨ (s.slot d p).state = .moving)
          ∧ (s.slot d p).deadline = some s.tickCount then
        { s.desc d with slots := (s.desc d).slots.set p { s.slot d p with passed := true } }
      else s.desc d

/-- With the reset pin released: A byte or answer deadline that is reached lapses the port: the cause is set, the
session is torn down, the state is LAPSED, and the inbound side, flags and enables stay. Where copies agree with takes
and lists, another port gets exactly the RECEIPTs due for the copies ended, in ascending order of descriptor (R17,
R178). And a deadline not reached, or none, changes nothing (R148, R176, R177). The model's own: that the row with
nothing due changes nothing (assumption log 13). -/
def Obligations.FramingDeadlineLapsesThePort : Prop :=
  ∀ (s : State) (p : Port),
    s.resetAsserted = false →
    let ps := s.port p
    let lapses (c : Instr) : Prop := ∃ t, exec c s = .next t ∧ s.TeardownKeeps p (s.tornCopies p) t ∧
      t.port p = { ps.tornDown with
        session := { ps.session with state := .lapsed, lapsedCause := true, tearingDown := false } }
    (∀ n, ps.outbound.tx = .data n s.tickCount ∨ ps.outbound.tx = .length s.tickCount → lapses (.byteDeadline p)) ∧
    (ps.outbound.tx = .answer s.tickCount → lapses (.answerDeadline p)) ∧
    ((∀ n, ps.outbound.tx ≠ .data n s.tickCount) → ps.outbound.tx ≠ .length s.tickCount →
      exec (.byteDeadline p) s = .next s) ∧
    (ps.outbound.tx ≠ .answer s.tickCount → exec (.answerDeadline p) s = .next s)

/-- With the reset pin released: A stall: an INBOUND lane abandons its message and the port keeps its session; an
OUTBOUND lane has its copy settled STOPPED, and the port is LAPSED and torn down; another port gets exactly the
RECEIPTs due, that of the stopped copy first and the others in ascending order of descriptor (R17, R178). A deadline
not reached changes nothing (R166, R176). The model's own: that a freed descriptor keeps the fields without meaning
(assumption log 3); that a settled slot keeps its deadline (assumption log 25); that the row with nothing due changes
nothing (assumption log 13). -/
def Obligations.StalledLaneEndsItsTransfer : Prop :=
  ∀ (s : State) (p : Port),
    s.resetAsserted = false →
    let ps := s.port p
    (∀ d, ps.lane.owner = .inbound d → (s.desc d).sender = p → ps.lane.stall = some s.tickCount →
      exec (.inboundStall p) s = .next (s.afterAbandonment p d ps.lane.ended)) ∧
    (∀ d, s.copiesSound → ps.session.state = .opened → ps.lane.owner = .outbound d → ps.lane.stall = some s.tickCount →
      ∃ t, exec (.outboundStall p) s = .next t ∧ s.TeardownKeeps p (s.stalledCopies p d) t ∧
        t.desc d = (s.desc d).afterCopy p .stopped ∧
        t.port p = { ps.tornDown with
          session := { ps.session with state := .lapsed, lapsedCause := true, tearingDown := false } }) ∧
    ((ps.lane.stall ≠ some s.tickCount ∨ ps.lane.owner = .idle) →
      exec (.inboundStall p) s = .next s ∧ exec (.outboundStall p) s = .next s) ∧
    (∀ d, ps.lane.owner = .inbound d → exec (.outboundStall p) s = .next s) ∧
    (∀ d, ps.lane.owner = .outbound d → exec (.inboundStall p) s = .next s)

/-! ### The pool mover and the pool -/

/-- With the reset pin released: GRANT serves the first eligible lane of the rotation after the pointer. An INBOUND
lane's oldest bytes go into its chain after those already there; an OUTBOUND lane takes the bytes after those already
moved; the chunk is the smallest of 16, the pool count, the rest of the segment and the bytes or places of the FIFO;
the pointer names the port served. With no lane eligible nothing changes (R160, R161, R162). The model's own: the
grant-due mark (assumption log 9); that a GRANT with no eligible lane changes nothing (assumption log 13). -/
def Obligations.GrantMovesAChunk : Prop :=
  ∀ s : State,
    s.resetAsserted = false →
    let ready (p : Port) : Prop :=
      let l := (s.port p).lane
      0 < l.poolCount ∧
        ((∃ d, l.owner = .inbound d ∧ (16 ≤ l.fifo.length ∨ l.poolCount ≤ l.fifo.length)) ∨
          (∃ d, l.owner = .outbound d ∧ (16 ≤ 32 - l.fifo.length ∨ l.poolCount ≤ 32 - l.fifo.length)))
    let granted (p : Port) (fifo : List Byte) (n : Nat) : PortState :=
      { s.port p with lane := { (s.port p).lane with
        fifo := fifo, poolCount := (s.port p).lane.poolCount - n, grantDue := false } }
    ((∀ p, ¬ ready p) → exec .grant s = .next s) ∧
    (∀ (p : Port) (ahead behind : List Port),
      [s.pointer.next, s.pointer.next.next, s.pointer.next.next.next, s.pointer] = ahead ++ p :: behind →
      (∀ q ∈ ahead, ¬ ready q) → ready p →
      let l := (s.port p).lane
      (∀ d, l.owner = .inbound d →
        let x := s.desc d
        let n := min (min 16 l.poolCount) (min (256 - x.bytesInPool % 256) l.fifo.length)
        n < l.poolCount →
        exec .grant s = .next
          { (s.putDesc d { x with bytesInPool := x.bytesInPool + n }).putPort p (granted p (l.fifo.drop n) n) with
            pool := { s.pool with mem := s.pool.mem.storePayload x.chain x.bytesInPool (l.fifo.take n) },
            pointer := p }) ∧
      (∀ (d : DescNo) (before after : List MatchedTake) (m : MatchedTake), l.owner = .outbound d →
        (s.port p).takes.matched = before ++ m :: after → m.bound = d → (∀ u ∈ before, u.bound ≠ d) →
        let moved := m.delivered - l.poolCount
        let n := min (min 16 l.poolCount) (min (256 - moved % 256) (32 - l.fifo.length))
        exec .grant s = .next
          { s.putPort p (granted p (l.fifo ++ s.pool.mem.loadPayload (s.desc d).chain moved n) n) with pointer := p }))

/-- With the reset pin released: the grant that moves a message's last bytes, for the first eligible lane of the
rotation: the bytes are stored, and the message completes at this tick, whatever its destination, and the lane returns
to IDLE, LANE DONE kept, an ARRIVAL held back at the head being handed over. So the copy of a unicast message with no
matching take and room in the list waits there with its deadline (R4, R127, R160, R162, R163). The model's own: the
grant-due mark (assumption log 9). -/
def Obligations.LastGrantCompletesTheMessage : Prop :=
  ∀ (s : State) (p : Port) (d : DescNo) (ahead behind : List Port),
    s.resetAsserted = false →
    let ready (q : Port) : Prop :=
      let l := (s.port q).lane
      0 < l.poolCount ∧
        ((∃ d, l.owner = .inbound d ∧ (16 ≤ l.fifo.length ∨ l.poolCount ≤ l.fifo.length)) ∨
          (∃ d, l.owner = .outbound d ∧ (16 ≤ 32 - l.fifo.length ∨ l.poolCount ≤ 32 - l.fifo.length)))
    let l := (s.port p).lane
    let x := s.desc d
    let n := min (min 16 l.poolCount) (min (256 - x.bytesInPool % 256) l.fifo.length)
    [s.pointer.next, s.pointer.next.next, s.pointer.next.next.next, s.pointer] = ahead ++ p :: behind →
    (∀ q ∈ ahead, ¬ ready q) → l.owner = .inbound d → 0 < l.poolCount → l.poolCount ≤ l.fifo.length → n = l.poolCount →
    let stored : State :=
      { (s.putDesc d { x with bytesInPool := x.bytesInPool + n }).putPort p { s.port p with lane := { l with
          fifo := l.fifo.drop n, poolCount := 0, grantDue := false } } with
        pool := { s.pool with mem := s.pool.mem.storePayload x.chain x.bytesInPool (l.fifo.take n) }, pointer := p }
    ∃ t, exec .grant s = .next t ∧
      t = (stored.complete d).modPort p (fun ps => PortState.offer s.tickCount { ps with lane := ps.lane.ended }) ∧
      t.pointer = p ∧ (t.port p).lane = l.ended ∧
      t.pool.mem = s.pool.mem.storePayload x.chain x.bytesInPool (l.fifo.take n) ∧ t.tickCount = s.tickCount ∧
      (∀ q, x.destination = .port q → x.slots = PerPort.replicate CopySlot.empty → x.tally = Tally.zero →
        (s.port q).session.state = .opened → (s.port q).unclaimed.length < 32 →
        (∀ u ∈ (s.port q).takes.posted, u.fields.accepts x = false) →
        (t.port q).unclaimed = (s.port q).unclaimed ++ [d] ∧
        t.desc d = { x with
          state := .held, completionTick := s.tickCount, bytesInPool := x.bytesInPool + n,
          slots := x.slots.set q
            { state := .waiting, deadline := if x.hold = 0 then none else some (s.tickCount + BitVec.ofNat 32 x.hold),
              passed := false } })

/-- With the reset pin released: A lane that stays eligible is served within four grants (R160). -/
def Obligations.EligibleLaneIsServedWithinFourGrants : Prop :=
  ∀ (s : State) (p : Port),
    s.resetAsserted = false →
    (∀ k, k < 4 → ((s.afterTimes .grant k).port p).lane.eligible = true) →
    ∃ k, k < 4 ∧ (s.afterTimes .grant k).grantTarget = some p ∧ (s.afterTimes .grant (k + 1)).pointer = p

/-- Payload stored in a chain of distinct segments is read back as it was, every address outside the positions written
keeps its byte, and the memory keeps its canonical form (R3, R75). The model's own: what an unlisted address reads as
(assumption log 2). -/
def Obligations.StoredPayloadIsReadBack : Prop :=
  ∀ (m : Memory) (chain : List Nat) (k : Nat) (bytes : List Byte), m.wf = true →
    (m.storePayload chain k bytes).wf = true ∧
    (chain.Nodup → k + bytes.length ≤ 256 * chain.length →
      (m.storePayload chain k bytes).loadPayload chain k bytes.length = bytes) ∧
    ∀ a : Nat, (∀ i, i < bytes.length → ∀ seg, chain[(k + i) / 256]? = some seg → a ≠ 256 * seg + (k + i) % 256) →
      (m.storePayload chain k bytes).read a = m.read a

/-! ### Reset and the laws every command keeps -/

/-- HARD_RESET sets every block to its hard-reset values and samples the straps at the release of the reset pin: each
port's width, and the setup port, whose number has strap 1 as its high bit (R182, R188). The segments' bytes, the
model's counter and the queue stay (the model's choice, assumption log 11). -/
def Obligations.HardResetSetsEveryBlock : Prop :=
  ∀ (s : State) (straps : Straps), ∃ t, exec (.hardReset straps) s = .next t ∧ t.tickCount = 0 ∧ t.pointer = .d ∧
    t.setupPort.number = 2 * straps.setup1.toNat + straps.setup0.toNat ∧ t.resetAsserted = false ∧
    (∀ d, (t.desc d).state = .free ∧ (t.desc d).chain = [] ∧ (t.desc d).bytesInPool = 0
      ∧ (t.desc d).slots = PerPort.replicate CopySlot.empty ∧ (t.desc d).tally = Tally.zero) ∧
    (∀ g p, (t.members g).get p = false) ∧
    t.pool = {
      free := List.range 96, held := ⟨0, 0, 0, 0⟩, reserve := ⟨8, 8, 8, 8⟩, ceiling := ⟨48, 48, 48, 48⟩,
      stallLimit := 500, mem := s.pool.mem } ∧
    (∀ p, t.port p =
      {
        session := { state := .closed, epoch := 0, answerLimit := 250, lapsedCause := false, tearingDown := false },
        inbound := {
          ring := [], gathered := 0, overflow := 0, closingMark := false, answer := .none, reason := none,
          stray := 0, answerPosted := false },
        outbound := { byte := none, closingMark := false, tx := .idle }, takes := { posted := [], matched := [] },
        unclaimed := [], queue := { notices := [], reserved := 0, receiptReserved := 0 },
        lane := {
          owner := .idle, fifo := [], hostCount := 0, poolCount := 0, done := false, overrun := false,
          underrun := false, stall := none, grantDue := false },
        enables := { noticeByte := false, answerPosted := false, laneDone := false, lapsed := false, dma := false },
        width := if straps.width.get p then .bits16 else .bits8, readData := 0 }) ∧
    t.draws = s.draws ∧ t.pending = s.pending

/-- The part right after reset obeys every law. The model's own: the straps low at State.reset and the memory's
content (assumption log 1 and 2). -/
def Obligations.ResetIsSound : Prop := State.reset.sound

/-- Every step keeps the account of notice slots: the reservation count is the notices queued, the POSTED takes and the
receipt reservations, at most 24; at most 16 live takes and 32 waiting copies (R21, R43, R117). -/
def Obligations.StepKeepsSlotsBooked : Prop :=
  ∀ s t : State, s.slotsBooked → step s = .next t → t.slotsBooked

/-- While the outbound sides agree with their queues, every step keeps the lanes' counts in agreement with their
FIFOs, and the lane IDLE while an ARRIVAL is in transmission or awaits its answer (R127, R154). The model's own: the
grant-due mark (assumption log 9). -/
def Obligations.StepKeepsLanesSound : Prop :=
  ∀ s t : State, s.outboundSound → s.lanesSound → step s = .next t → t.lanesSound

/-- Every step keeps every segment in the free list or in exactly one chain of the right length, and the held counts
those of the chains (R74, R76). The model's own: that the free list is held in ascending order (assumption log 22). -/
def Obligations.StepKeepsSegmentsSound : Prop :=
  ∀ s t : State, s.segmentsSound → step s = .next t → t.segmentsSound

/-- Every step keeps the limits in their ranges and the free segments at or above the sum of the unmet reserves
(R77, R79, R80, R83). -/
def Obligations.StepKeepsReservesCovered : Prop :=
  ∀ s t : State, s.pool.covered → step s = .next t → t.pool.covered

/-- Every step keeps the inbound sides in the ranges of R137, an answer and its cause together, and a reason beside
REFUSED alone (R137, R138, R142). -/
def Obligations.StepKeepsInboundSidesSound : Prop :=
  ∀ s t : State, (∀ p, (s.port p).inbound.sound) → step s = .next t → ∀ p, (t.port p).inbound.sound

/-- Every step keeps a port without a session empty of one, the LAPSED cause pending exactly while LAPSED, and the
outbound side in agreement with the queue (R60, R126, R134, R144, R170). The model's own: that the mark of a teardown
is clear between commands (assumption log 4). -/
def Obligations.StepKeepsSessionsAndOutboundSidesSound : Prop :=
  ∀ s t : State, s.sessionsSound → s.outboundSound → step s = .next t → t.sessionsSound ∧ t.outboundSound

/-- Every step keeps all the laws together: slots, lanes, segments, reserves, inbound sides, sessions, outbound sides,
copies with their takes, lists and lanes, and the memory's canonical form. The model's own: the parts that assumption
log 2, 4, 9 and 22 name. -/
def Obligations.StepKeepsThePartSound : Prop := ∀ s t : State, s.sound → step s = .next t → t.sound
end

