-- ==== Sys2Proof/Laws/Memory.lean ====
section
/-! SUPPORT. The pool memory: read after write, and the canonical form, which every operation keeps. -/

namespace Sys2Proof.Machine

theorem Memory.wfAbove_mono (m : Memory) (a b : Nat) (hab : a ≤ b) (h : Memory.wfAbove (some b) m = true) :
    Memory.wfAbove (some a) m = true := by
  cases m with
  | nil => rfl
  | cons c rest =>
    simp only [Memory.wfAbove, Bool.and_eq_true, decide_eq_true_eq] at h ⊢
    exact ⟨⟨lt_of_le_of_lt hab h.1.1, h.1.2⟩, h.2⟩

theorem Memory.wfAbove_tail (bound : Option Nat) (k : Nat) (v : Byte) (rest : Memory)
    (h : Memory.wfAbove bound ((k, v) :: rest) = true) : Memory.wfAbove bound rest = true := by
  simp only [Memory.wfAbove, Bool.and_eq_true] at h
  cases bound with
  | none =>
    cases rest with
    | nil => rfl
    | cons c rest' =>
      have h2 := h.2
      simp only [Memory.wfAbove, Bool.and_eq_true] at h2 ⊢
      exact ⟨⟨trivial, h2.1.2⟩, h2.2⟩
  | some n =>
    have hn : n < k := by simpa using h.1.1
    exact Memory.wfAbove_mono rest n k (Nat.le_of_lt hn) h.2

/-- A write above the bound keeps the canonical form above the bound. -/
theorem Memory.write_wfAbove (m : Memory) (bound : Option Nat) (a : Nat) (b : Byte)
    (hb : ∀ n, bound = some n → n < a) (h : Memory.wfAbove bound m = true) :
    Memory.wfAbove bound (Memory.write m a b) = true := by
  induction m generalizing bound with
  | nil =>
    unfold Memory.write
    split
    · rfl
    · next hne =>
      cases bound with
      | none => simp [Memory.wfAbove, hne]
      | some n => simp [Memory.wfAbove, hne, hb n rfl]
  | cons c rest ih =>
    obtain ⟨k, v⟩ := c
    have htail := Memory.wfAbove_tail bound k v rest h
    unfold Memory.write
    simp only [Memory.wfAbove, Bool.and_eq_true] at h
    split
    · next hlt =>
      split
      · simp only [Memory.wfAbove, Bool.and_eq_true]
        exact h
      · next hne =>
        simp only [Memory.wfAbove, Bool.and_eq_true, decide_eq_true_eq, bne_iff_ne, ne_eq]
        refine ⟨⟨?_, hne⟩, ⟨hlt, ?_⟩, h.2⟩
        · cases bound with
          | none => rfl
          | some n => simpa using hb n rfl
        · simpa using h.1.2
    · next hge =>
      split
      · next heq =>
        split
        · exact htail
        · next hne =>
          simp only [Memory.wfAbove, Bool.and_eq_true, bne_iff_ne, ne_eq]
          refine ⟨⟨?_, hne⟩, ?_⟩
          · cases bound with
            | none => rfl
            | some n => simpa using hb n rfl
          · rw [heq]; exact h.2
      · next hne =>
        simp only [Memory.wfAbove, Bool.and_eq_true]
        refine ⟨h.1, ih (some k) ?_ h.2⟩
        intro n hn
        cases hn
        omega

/-- A write keeps the canonical form. -/
theorem Memory.write_wf (m : Memory) (a : Nat) (b : Byte) (h : m.wf = true) : (m.write a b).wf = true :=
  Memory.write_wfAbove m none a b (by simp) h

/-- Storing a chunk of payload keeps the canonical form. -/
theorem Memory.storePayload_wf (bytes : List Byte) (m : Memory) (chain : List Nat) (k : Nat) (h : m.wf = true) :
    (m.storePayload chain k bytes).wf = true := by
  induction bytes generalizing m k with
  | nil => exact h
  | cons b rest ih =>
    unfold Memory.storePayload
    split
    · exact ih _ _ (Memory.write_wf m _ b h)
    · exact ih _ _ h

/-- The memory after reset is in canonical form. -/
theorem Memory.reset_wf : State.reset.pool.mem.wf = true := rfl

/-- Below every listed address the memory is blank. -/
theorem Memory.read_below (m : Memory) (n a : Nat) (h : Memory.wfAbove (some n) m = true) (ha : a ≤ n) :
    m.read a = Memory.blank := by
  induction m generalizing n with
  | nil => rfl
  | cons c rest ih =>
    obtain ⟨k, v⟩ := c
    simp only [Memory.wfAbove, Bool.and_eq_true, decide_eq_true_eq] at h
    have hk : k ≠ a := by omega
    unfold Memory.read
    rw [if_neg hk]
    exact ih k h.2 (by omega)

theorem Memory.read_write_other (m : Memory) (a a' : Nat) (b : Byte) (ha : a' ≠ a) :
    (m.write a b).read a' = m.read a' := by
  induction m with
  | nil =>
    unfold Memory.write
    split
    · rfl
    · simp [Memory.read, Ne.symm ha]
  | cons c rest ih =>
    obtain ⟨k, v⟩ := c
    unfold Memory.write
    split
    · split
      · rfl
      · simp [Memory.read, Ne.symm ha]
    · split
      · next heq =>
        split
        · simp [Memory.read, ← heq, Ne.symm ha]
        · simp [Memory.read, ← heq, Ne.symm ha]
      · simp only [Memory.read]
        split
        · rfl
        · exact ih

theorem Memory.read_write_same_above (m : Memory) (bound : Option Nat) (a : Nat) (b : Byte)
    (h : Memory.wfAbove bound m = true) : (m.write a b).read a = b := by
  induction m generalizing bound with
  | nil =>
    unfold Memory.write
    split
    · next hb => rw [hb]; rfl
    · simp [Memory.read]
  | cons c rest ih =>
    obtain ⟨k, v⟩ := c
    simp only [Memory.wfAbove, Bool.and_eq_true] at h
    unfold Memory.write
    split
    · next hlt =>
      split
      · next hb =>
        rw [hb]
        unfold Memory.read
        rw [if_neg (by omega : ¬ k = a)]
        exact Memory.read_below rest k a h.2 (by omega)
      · simp [Memory.read]
    · split
      · next heq =>
        split
        · next hb =>
          rw [hb]
          exact Memory.read_below rest k a h.2 (by omega)
        · simp [Memory.read]
      · next hne =>
        unfold Memory.read
        rw [if_neg (fun hk => hne hk.symm)]
        exact ih (some k) h.2

/-- A byte read back where it was written is the byte written. -/
theorem Memory.read_write_same (m : Memory) (a : Nat) (b : Byte) (h : m.wf = true) : (m.write a b).read a = b :=
  Memory.read_write_same_above m none a b h

/-- Storing a chunk leaves every address outside the chunk's as it was. -/
theorem Memory.read_storePayload_other (bytes : List Byte) (m : Memory) (chain : List Nat) (k a : Nat)
    (h : ∀ i, i < bytes.length → payloadAddress chain (k + i) ≠ some a) :
    (m.storePayload chain k bytes).read a = m.read a := by
  induction bytes generalizing m k with
  | nil => rfl
  | cons b rest ih =>
    have hrest : ∀ i, i < rest.length → payloadAddress chain (k + 1 + i) ≠ some a := by
      intro i hi
      have := h (i + 1) (by simpa using hi)
      rwa [show k + (i + 1) = k + 1 + i by omega] at this
    unfold Memory.storePayload
    split
    · next a' ha' =>
      rw [ih _ _ hrest]
      refine Memory.read_write_other m a' a b ?_
      intro haa
      exact h 0 (by simp) (by rw [Nat.add_zero, ha', haa])
    · exact ih _ _ hrest

end Sys2Proof.Machine
end

