-- ==== Sys2Proof/Laws/State.lean ====
section
/-! SUPPORT. One lemma per field per update of the state, so that no proof unfolds a record update. -/

namespace Sys2Proof

/-! ### One value per port -/

@[simp] theorem PerPort.get_replicate {α : Type} (x : α) (p : Port) : (PerPort.replicate x).get p = x := by
  cases p <;> rfl

@[simp] theorem PerPort.get_set_same {α : Type} (m : PerPort α) (p : Port) (x : α) : (m.set p x).get p = x := by
  cases p <;> rfl

@[simp] theorem PerPort.get_set_other {α : Type} (m : PerPort α) {p q : Port} (x : α) (h : q ≠ p) :
    (m.set p x).get q = m.get q := by
  cases p <;> cases q <;> first | rfl | exact absurd rfl h

theorem PerPort.get_set {α : Type} (m : PerPort α) (p q : Port) (x : α) :
    (m.set p x).get q = if q = p then x else m.get q := by
  split
  · next h => rw [h, PerPort.get_set_same]
  · next h => exact PerPort.get_set_other m x h

@[simp] theorem PerPort.set_set {α : Type} (m : PerPort α) (p : Port) (x y : α) : (m.set p x).set p y = m.set p y := by
  cases p <;> rfl

@[simp] theorem PerPort.set_get {α : Type} (m : PerPort α) (p : Port) : m.set p (m.get p) = m := by
  cases p <;> rfl

@[simp] theorem PerPort.get_modify_same {α : Type} (m : PerPort α) (p : Port) (f : α → α) :
    (m.modify p f).get p = f (m.get p) := by
  simp [PerPort.modify]

@[simp] theorem PerPort.get_modify_other {α : Type} (m : PerPort α) {p q : Port} (f : α → α) (h : q ≠ p) :
    (m.modify p f).get q = m.get q := by
  simp [PerPort.modify, h]

@[simp] theorem PerPort.get_map {α β : Type} (m : PerPort α) (f : α → β) (p : Port) : (m.map f).get p = f (m.get p) := by
  cases p <;> rfl

theorem PerPort.ext_get {α : Type} {m n : PerPort α} (h : ∀ p, m.get p = n.get p) : m = n := by
  have ha := h .a
  have hb := h .b
  have hc := h .c
  have hd := h .d
  cases m
  cases n
  simp_all [PerPort.get]

theorem Port.mem_all (p : Port) : p ∈ Port.all := by cases p <;> simp [Port.all]

/-! ### Tables -/

theorem vector_get_set_same {α : Type} {n : Nat} (v : Vector α n) (i : Fin n) (x : α) :
    (v.set i.val x i.isLt).get i = x := by
  show (v.set i.val x i.isLt)[i.val] = x
  simp

theorem vector_get_set_other {α : Type} {n : Nat} (v : Vector α n) {i j : Fin n} (x : α) (h : j ≠ i) :
    (v.set i.val x i.isLt).get j = v.get j := by
  have hv : i.val ≠ j.val := fun hv => h (Fin.ext hv.symm)
  show (v.set i.val x i.isLt)[j.val] = v[j.val]
  simp [hv]

theorem vector_get_map {α β : Type} {n : Nat} (v : Vector α n) (f : α → β) (i : Fin n) :
    (v.map f).get i = f (v.get i) := by
  show (v.map f)[i.val] = f v[i.val]
  simp

namespace Machine

variable (s : State) (p q : Port) (d e : DescNo) (g : GroupNo)

/-! ### The reset pin -/

@[simp] theorem State.unlessInReset_released (t : State) (h : s.resetAsserted = false) : s.unlessInReset t = t := by
  simp [State.unlessInReset, h]

@[simp] theorem State.unlessInReset_asserted (t : State) (h : s.resetAsserted = true) : s.unlessInReset t = s := by
  simp [State.unlessInReset, h]

@[simp] theorem State.readUnlessInReset_released (t : State) (h : s.resetAsserted = false) : s.readUnlessInReset p t = t := by
  simp [State.readUnlessInReset, h]

@[simp] theorem State.readUnlessInReset_asserted (t : State) (h : s.resetAsserted = true) :
    s.readUnlessInReset p t = s.modPort p (fun ps => { ps with readData := 0 }) := by
  simp [State.readUnlessInReset, h]

/-! ### Port columns -/

@[simp] theorem State.modPort_port_same (f : PortState → PortState) : (s.modPort p f).port p = f (s.port p) := by
  simp [State.modPort, State.port]

@[simp] theorem State.modPort_port_other {p q : Port} (f : PortState → PortState) (h : q ≠ p) :
    (s.modPort p f).port q = s.port q := by
  simp [State.modPort, State.port, h]

@[simp] theorem State.modPort_modPort (f f' : PortState → PortState) :
    (s.modPort p f).modPort p f' = s.modPort p (fun x => f' (f x)) := by
  simp [State.modPort]

@[simp] theorem State.modPort_tickCount (f : PortState → PortState) : (s.modPort p f).tickCount = s.tickCount := rfl
@[simp] theorem State.modPort_descs (f : PortState → PortState) : (s.modPort p f).descs = s.descs := rfl
@[simp] theorem State.modPort_desc (f : PortState → PortState) : (s.modPort p f).desc d = s.desc d := rfl
@[simp] theorem State.modPort_slot (f : PortState → PortState) : (s.modPort p f).slot d q = s.slot d q := rfl
@[simp] theorem State.modPort_groups (f : PortState → PortState) : (s.modPort p f).groups = s.groups := rfl
@[simp] theorem State.modPort_members (f : PortState → PortState) : (s.modPort p f).members g = s.members g := rfl
@[simp] theorem State.modPort_pool (f : PortState → PortState) : (s.modPort p f).pool = s.pool := rfl
@[simp] theorem State.modPort_pointer (f : PortState → PortState) : (s.modPort p f).pointer = s.pointer := rfl
@[simp] theorem State.modPort_setupPort (f : PortState → PortState) : (s.modPort p f).setupPort = s.setupPort := rfl
@[simp] theorem State.modPort_resetAsserted (f : PortState → PortState) : (s.modPort p f).resetAsserted = s.resetAsserted := rfl
@[simp] theorem State.modPort_draws (f : PortState → PortState) : (s.modPort p f).draws = s.draws := rfl
@[simp] theorem State.modPort_pending (f : PortState → PortState) : (s.modPort p f).pending = s.pending := rfl

/-! ### Descriptors -/

@[simp] theorem State.modDesc_desc_same (f : Descriptor → Descriptor) : (s.modDesc d f).desc d = f (s.desc d) :=
  vector_get_set_same s.descs d (f (s.desc d))

@[simp] theorem State.modDesc_desc_other {d e : DescNo} (f : Descriptor → Descriptor) (h : e ≠ d) :
    (s.modDesc d f).desc e = s.desc e :=
  vector_get_set_other s.descs (f (s.desc d)) h

@[simp] theorem State.modDesc_modDesc (f f' : Descriptor → Descriptor) :
    (s.modDesc d f).modDesc d f' = s.modDesc d (fun x => f' (f x)) := by
  have h : (s.descs.set d.val (f (s.descs.get d)) d.isLt).get d = f (s.descs.get d) := vector_get_set_same _ _ _
  simp [State.modDesc, h]

@[simp] theorem State.modDesc_ports (f : Descriptor → Descriptor) : (s.modDesc d f).ports = s.ports := rfl
@[simp] theorem State.modDesc_port (f : Descriptor → Descriptor) : (s.modDesc d f).port p = s.port p := rfl
@[simp] theorem State.modDesc_tickCount (f : Descriptor → Descriptor) : (s.modDesc d f).tickCount = s.tickCount := rfl
@[simp] theorem State.modDesc_groups (f : Descriptor → Descriptor) : (s.modDesc d f).groups = s.groups := rfl
@[simp] theorem State.modDesc_members (f : Descriptor → Descriptor) : (s.modDesc d f).members g = s.members g := rfl
@[simp] theorem State.modDesc_pool (f : Descriptor → Descriptor) : (s.modDesc d f).pool = s.pool := rfl
@[simp] theorem State.modDesc_pointer (f : Descriptor → Descriptor) : (s.modDesc d f).pointer = s.pointer := rfl
@[simp] theorem State.modDesc_setupPort (f : Descriptor → Descriptor) : (s.modDesc d f).setupPort = s.setupPort := rfl
@[simp] theorem State.modDesc_resetAsserted (f : Descriptor → Descriptor) : (s.modDesc d f).resetAsserted = s.resetAsserted := rfl
@[simp] theorem State.modDesc_draws (f : Descriptor → Descriptor) : (s.modDesc d f).draws = s.draws := rfl
@[simp] theorem State.modDesc_pending (f : Descriptor → Descriptor) : (s.modDesc d f).pending = s.pending := rfl

@[simp] theorem State.modSlot_slot_same (f : CopySlot → CopySlot) : (s.modSlot d p f).slot d p = f (s.slot d p) := by
  simp [State.modSlot, State.slot]

@[simp] theorem State.modSlot_slot_otherPort {p q : Port} (f : CopySlot → CopySlot) (h : q ≠ p) :
    (s.modSlot d p f).slot d q = s.slot d q := by
  simp [State.modSlot, State.slot, h]

@[simp] theorem State.modSlot_slot_otherDesc {d e : DescNo} (f : CopySlot → CopySlot) (h : e ≠ d) :
    (s.modSlot d p f).slot e q = s.slot e q := by
  simp [State.modSlot, State.slot, h]

@[simp] theorem State.modSlot_port (f : CopySlot → CopySlot) : (s.modSlot d p f).port q = s.port q := rfl
@[simp] theorem State.modSlot_tickCount (f : CopySlot → CopySlot) : (s.modSlot d p f).tickCount = s.tickCount := rfl
@[simp] theorem State.modSlot_groups (f : CopySlot → CopySlot) : (s.modSlot d p f).groups = s.groups := rfl
@[simp] theorem State.modSlot_pool (f : CopySlot → CopySlot) : (s.modSlot d p f).pool = s.pool := rfl
@[simp] theorem State.modSlot_pointer (f : CopySlot → CopySlot) : (s.modSlot d p f).pointer = s.pointer := rfl
@[simp] theorem State.modSlot_setupPort (f : CopySlot → CopySlot) : (s.modSlot d p f).setupPort = s.setupPort := rfl
@[simp] theorem State.modSlot_resetAsserted (f : CopySlot → CopySlot) : (s.modSlot d p f).resetAsserted = s.resetAsserted := rfl
@[simp] theorem State.modSlot_draws (f : CopySlot → CopySlot) : (s.modSlot d p f).draws = s.draws := rfl
@[simp] theorem State.modSlot_pending (f : CopySlot → CopySlot) : (s.modSlot d p f).pending = s.pending := rfl

/-! ### Pool and groups -/

@[simp] theorem State.modPool_pool (f : Pool → Pool) : (s.modPool f).pool = f s.pool := rfl
@[simp] theorem State.modPool_ports (f : Pool → Pool) : (s.modPool f).ports = s.ports := rfl
@[simp] theorem State.modPool_port (f : Pool → Pool) : (s.modPool f).port p = s.port p := rfl
@[simp] theorem State.modPool_desc (f : Pool → Pool) : (s.modPool f).desc d = s.desc d := rfl
@[simp] theorem State.modPool_slot (f : Pool → Pool) : (s.modPool f).slot d p = s.slot d p := rfl
@[simp] theorem State.modPool_tickCount (f : Pool → Pool) : (s.modPool f).tickCount = s.tickCount := rfl
@[simp] theorem State.modPool_groups (f : Pool → Pool) : (s.modPool f).groups = s.groups := rfl
@[simp] theorem State.modPool_members (f : Pool → Pool) : (s.modPool f).members g = s.members g := rfl
@[simp] theorem State.modPool_pointer (f : Pool → Pool) : (s.modPool f).pointer = s.pointer := rfl
@[simp] theorem State.modPool_setupPort (f : Pool → Pool) : (s.modPool f).setupPort = s.setupPort := rfl
@[simp] theorem State.modPool_resetAsserted (f : Pool → Pool) : (s.modPool f).resetAsserted = s.resetAsserted := rfl
@[simp] theorem State.modPool_draws (f : Pool → Pool) : (s.modPool f).draws = s.draws := rfl
@[simp] theorem State.modPool_pending (f : Pool → Pool) : (s.modPool f).pending = s.pending := rfl

@[simp] theorem State.modGroup_members_same (f : PerPort Bool → PerPort Bool) :
    (s.modGroup g f).members g = f (s.members g) :=
  vector_get_set_same s.groups g (f (s.members g))

@[simp] theorem State.modGroup_members_other {g g' : GroupNo} (f : PerPort Bool → PerPort Bool) (h : g' ≠ g) :
    (s.modGroup g f).members g' = s.members g' :=
  vector_get_set_other s.groups (f (s.members g)) h

@[simp] theorem State.modGroup_port (f : PerPort Bool → PerPort Bool) : (s.modGroup g f).port p = s.port p := rfl
@[simp] theorem State.modGroup_desc (f : PerPort Bool → PerPort Bool) : (s.modGroup g f).desc d = s.desc d := rfl
@[simp] theorem State.modGroup_pool (f : PerPort Bool → PerPort Bool) : (s.modGroup g f).pool = s.pool := rfl
@[simp] theorem State.modGroup_tickCount (f : PerPort Bool → PerPort Bool) : (s.modGroup g f).tickCount = s.tickCount := rfl
@[simp] theorem State.modGroup_pointer (f : PerPort Bool → PerPort Bool) : (s.modGroup g f).pointer = s.pointer := rfl
@[simp] theorem State.modGroup_setupPort (f : PerPort Bool → PerPort Bool) : (s.modGroup g f).setupPort = s.setupPort := rfl
@[simp] theorem State.modGroup_resetAsserted (f : PerPort Bool → PerPort Bool) : (s.modGroup g f).resetAsserted = s.resetAsserted := rfl
@[simp] theorem State.modGroup_draws (f : PerPort Bool → PerPort Bool) : (s.modGroup g f).draws = s.draws := rfl
@[simp] theorem State.modGroup_pending (f : PerPort Bool → PerPort Bool) : (s.modGroup g f).pending = s.pending := rfl

end Machine

end Sys2Proof
end

