-- ==== Sys2Proof/Laws/Ops.lean ====
section
/-! SUPPORT. What each shared operation can do, said once: notices, descriptors, settlement, the end of a
transfer. -/

namespace Sys2Proof.Machine

/-! ### Operations on one port column -/

/-- A port column of which only the notice queue and the outbound side may differ. -/
structure PortState.OnlyNotices (x y : PortState) : Prop where
  session : y.session = x.session
  inbound : y.inbound = x.inbound
  takes : y.takes = x.takes
  unclaimed : y.unclaimed = x.unclaimed
  lane : y.lane = x.lane
  enables : y.enables = x.enables
  width : y.width = x.width
  readData : y.readData = x.readData

theorem PortState.OnlyNotices.refl (x : PortState) : x.OnlyNotices x := ⟨rfl, rfl, rfl, rfl, rfl, rfl, rfl, rfl⟩

theorem PortState.OnlyNotices.trans {x y z : PortState} (h : x.OnlyNotices y) (h' : y.OnlyNotices z) : x.OnlyNotices z :=
  ⟨h'.session.trans h.session, h'.inbound.trans h.inbound, h'.takes.trans h.takes, h'.unclaimed.trans h.unclaimed,
    h'.lane.trans h.lane, h'.enables.trans h.enables, h'.width.trans h.width, h'.readData.trans h.readData⟩

/-- Offering the head either does nothing or places the head's code and starts DATA. -/
theorem PortState.offer_cases (now : Tick) (ps : PortState) :
    ps.offer now = ps ∨ ∃ n rest, ps.outbound.tx = .idle ∧ ps.queue.notices = n :: rest
      ∧ (n.isArrival = true → ps.laneIdle = true)
      ∧ ps.offer now = { ps with outbound :=
          { ps.outbound with byte := some n.code, tx := .data 1 (ps.answerDeadlineFrom now) } } := by
  unfold PortState.offer
  split
  · next n rest htx hq =>
    split
    · exact .inl rfl
    · next hn => exact .inr ⟨n, rest, htx, hq, by simpa using hn, rfl⟩
  · exact .inl rfl

@[simp] theorem PortState.offer_queue (now : Tick) (ps : PortState) : (ps.offer now).queue = ps.queue := by
  obtain h | ⟨n, rest, -, -, -, h⟩ := PortState.offer_cases now ps <;> rw [h]

/-- An offer changes the outbound side alone. -/
theorem PortState.offer_onlyNotices (now : Tick) (ps : PortState) : ps.OnlyNotices (ps.offer now) := by
  obtain h | ⟨n, rest, -, -, -, h⟩ := PortState.offer_cases now ps <;> rw [h] <;> exact ⟨rfl, rfl, rfl, rfl, rfl, rfl, rfl, rfl⟩

@[simp] theorem PortState.append_notices (now : Tick) (ns : List Notice) (ps : PortState) :
    (ps.append now ns).queue.notices = ps.queue.notices ++ ns := by
  simp [PortState.append]

@[simp] theorem PortState.append_reserved (now : Tick) (ns : List Notice) (ps : PortState) :
    (ps.append now ns).queue.reserved = ps.queue.reserved := by
  simp [PortState.append]

@[simp] theorem PortState.append_receiptReserved (now : Tick) (ns : List Notice) (ps : PortState) :
    (ps.append now ns).queue.receiptReserved = ps.queue.receiptReserved := by
  simp [PortState.append]

/-- An append changes the queue and the outbound side alone. -/
theorem PortState.append_onlyNotices (now : Tick) (ns : List Notice) (ps : PortState) : ps.OnlyNotices (ps.append now ns) := by
  have h := PortState.offer_onlyNotices now { ps with queue := { ps.queue with notices := ps.queue.notices ++ ns } }
  exact ⟨h.session, h.inbound, h.takes, h.unclaimed, h.lane, h.enables, h.width, h.readData⟩

/-- A RECEIPT's append changes the queue and the outbound side alone. -/
theorem PortState.appendReceipt_onlyNotices (now : Tick) (r : Receipt) (ps : PortState) :
    ps.OnlyNotices (ps.appendReceipt now r) := by
  have hq : ∀ q : NoticeQueue, ps.OnlyNotices (PortState.append now [.receipt r] { ps with queue := q }) := fun q =>
    have h := PortState.append_onlyNotices now [.receipt r] { ps with queue := q }
    ⟨h.session, h.inbound, h.takes, h.unclaimed, h.lane, h.enables, h.width, h.readData⟩
  unfold PortState.appendReceipt
  split
  · exact hq _
  · split
    · exact hq _
    · exact PortState.OnlyNotices.refl ps

/-- A RECEIPT joins the tail, or the queue is full and the RECEIPT is lost (R120). -/
theorem PortState.appendReceipt_notices (now : Tick) (r : Receipt) (ps : PortState) :
    (ps.appendReceipt now r).queue.notices = ps.queue.notices ++ [.receipt r] ∨
      (ps.appendReceipt now r = ps ∧ ps.queue.receiptReserved = 0 ∧ 24 ≤ ps.queue.reserved) := by
  unfold PortState.appendReceipt
  split
  · exact .inl (PortState.append_notices now [.receipt r] _)
  · next h0 =>
    split
    · exact .inl (PortState.append_notices now [.receipt r] _)
    · next h24 => exact .inr ⟨rfl, by omega, by omega⟩

@[simp] theorem PortState.idleLane_owner (ps : PortState) : ps.idleLane.lane.owner = .idle := rfl
@[simp] theorem PortState.idleLane_fifo (ps : PortState) : ps.idleLane.lane.fifo = [] := rfl
@[simp] theorem PortState.idleLane_hostCount (ps : PortState) : ps.idleLane.lane.hostCount = 0 := rfl
@[simp] theorem PortState.idleLane_poolCount (ps : PortState) : ps.idleLane.lane.poolCount = 0 := rfl
@[simp] theorem PortState.idleLane_stall (ps : PortState) : ps.idleLane.lane.stall = none := rfl
@[simp] theorem PortState.idleLane_done (ps : PortState) : ps.idleLane.lane.done = ps.lane.done := rfl
@[simp] theorem PortState.idleLane_overrun (ps : PortState) : ps.idleLane.lane.overrun = ps.lane.overrun := rfl
@[simp] theorem PortState.idleLane_underrun (ps : PortState) : ps.idleLane.lane.underrun = ps.lane.underrun := rfl
@[simp] theorem PortState.idleLane_queue (ps : PortState) : ps.idleLane.queue = ps.queue := rfl
@[simp] theorem PortState.idleLane_session (ps : PortState) : ps.idleLane.session = ps.session := rfl
@[simp] theorem PortState.idleLane_takes (ps : PortState) : ps.idleLane.takes = ps.takes := rfl
@[simp] theorem PortState.idleLane_unclaimed (ps : PortState) : ps.idleLane.unclaimed = ps.unclaimed := rfl

/-! ### The parts that settlement leaves alone -/

/-- Everything but the port columns, the descriptors, the free list and the held counts is as it was. -/
structure State.SameFloor (s t : State) : Prop where
  tickCount : t.tickCount = s.tickCount
  groups : t.groups = s.groups
  pointer : t.pointer = s.pointer
  setupPort : t.setupPort = s.setupPort
  resetAsserted : t.resetAsserted = s.resetAsserted
  draws : t.draws = s.draws
  pending : t.pending = s.pending
  reserve : t.pool.reserve = s.pool.reserve
  ceiling : t.pool.ceiling = s.pool.ceiling
  stallLimit : t.pool.stallLimit = s.pool.stallLimit
  mem : t.pool.mem = s.pool.mem

theorem State.SameFloor.refl (s : State) : s.SameFloor s := ⟨rfl, rfl, rfl, rfl, rfl, rfl, rfl, rfl, rfl, rfl, rfl⟩

theorem State.SameFloor.trans {s t u : State} (h : s.SameFloor t) (h' : t.SameFloor u) : s.SameFloor u :=
  ⟨h'.tickCount.trans h.tickCount, h'.groups.trans h.groups, h'.pointer.trans h.pointer,
    h'.setupPort.trans h.setupPort, h'.resetAsserted.trans h.resetAsserted,
    h'.draws.trans h.draws, h'.pending.trans h.pending, h'.reserve.trans h.reserve,
    h'.ceiling.trans h.ceiling, h'.stallLimit.trans h.stallLimit, h'.mem.trans h.mem⟩

theorem State.modPort_sameFloor (s : State) (p : Port) (f : PortState → PortState) : s.SameFloor (s.modPort p f) :=
  ⟨rfl, rfl, rfl, rfl, rfl, rfl, rfl, rfl, rfl, rfl, rfl⟩

theorem State.modDesc_sameFloor (s : State) (d : DescNo) (f : Descriptor → Descriptor) : s.SameFloor (s.modDesc d f) :=
  ⟨rfl, rfl, rfl, rfl, rfl, rfl, rfl, rfl, rfl, rfl, rfl⟩

/-! ### RECEIPTs and settlement -/

/-- A RECEIPT goes to the sender when the receipt check passes, and nowhere else (R10). -/
theorem State.queueReceipt_cases (s : State) (d : DescNo) (st : ReceiptStatus) (n : Nat) (t : Tally) :
    (s.receiptCheck d = false ∧ s.queueReceipt d st n t = s) ∨
    (s.receiptCheck d = true ∧ s.queueReceipt d st n t = s.modPort (s.desc d).sender
      (PortState.appendReceipt s.tickCount
        { senderLabel := (s.desc d).label, status := st, copiesMade := n, tally := t })) := by
  unfold State.queueReceipt
  split
  · next h => exact .inr ⟨h, rfl⟩
  · next h => exact .inl ⟨by simpa using h, rfl⟩

@[simp] theorem State.queueReceipt_desc (s : State) (d e : DescNo) (st : ReceiptStatus) (n : Nat) (t : Tally) :
    (s.queueReceipt d st n t).desc e = s.desc e := by
  obtain ⟨-, h⟩ | ⟨-, h⟩ := s.queueReceipt_cases d st n t <;> rw [h] <;> rfl

@[simp] theorem State.queueReceipt_pool (s : State) (d : DescNo) (st : ReceiptStatus) (n : Nat) (t : Tally) :
    (s.queueReceipt d st n t).pool = s.pool := by
  obtain ⟨-, h⟩ | ⟨-, h⟩ := s.queueReceipt_cases d st n t <;> rw [h] <;> rfl

theorem State.queueReceipt_sameFloor (s : State) (d : DescNo) (st : ReceiptStatus) (n : Nat) (t : Tally) :
    s.SameFloor (s.queueReceipt d st n t) := by
  obtain ⟨-, h⟩ | ⟨-, h⟩ := s.queueReceipt_cases d st n t <;> rw [h]
  · exact State.SameFloor.refl s
  · exact State.modPort_sameFloor s _ _

theorem State.queueReceipt_port (s : State) (d : DescNo) (st : ReceiptStatus) (n : Nat) (t : Tally) (q : Port) :
    (s.port q).OnlyNotices ((s.queueReceipt d st n t).port q) := by
  obtain ⟨-, h⟩ | ⟨-, h⟩ := s.queueReceipt_cases d st n t <;> rw [h]
  · exact PortState.OnlyNotices.refl _
  · by_cases hq : q = (s.desc d).sender
    · subst hq
      rw [State.modPort_port_same]
      exact PortState.appendReceipt_onlyNotices _ _ _
    · rw [State.modPort_port_other s _ hq]
      exact PortState.OnlyNotices.refl _

/-- The chain goes back whole, and the sender's held count falls (R14, R80). -/
@[simp] theorem State.releaseChain_free (s : State) (d : DescNo) :
    (s.releaseChain d).pool.free = releaseSegments (s.desc d).chain s.pool.free := rfl

@[simp] theorem State.releaseChain_held (s : State) (d : DescNo) :
    (s.releaseChain d).pool.held = s.pool.held.modify (s.desc d).sender (fun n => n - (s.desc d).chain.length) := rfl

@[simp] theorem State.releaseChain_desc (s : State) (d e : DescNo) : (s.releaseChain d).desc e = s.desc e := rfl

@[simp] theorem State.releaseChain_port (s : State) (d : DescNo) (q : Port) : (s.releaseChain d).port q = s.port q := rfl

theorem State.releaseChain_sameFloor (s : State) (d : DescNo) : s.SameFloor (s.releaseChain d) :=
  ⟨rfl, rfl, rfl, rfl, rfl, rfl, rfl, rfl, rfl, rfl, rfl⟩

/-- What the end of a descriptor's use does, be it settlement or abandonment (R9, R12). -/
structure State.Freed (s : State) (d : DescNo) (t : State) : Prop where
  floor : s.SameFloor t
  ports : ∀ q, (s.port q).OnlyNotices (t.port q)
  elsewhere : ∀ q, q ≠ (s.desc d).sender → t.port q = s.port q
  unreceipted : s.receiptCheck d = false → t.ports = s.ports
  freed : t.desc d = (s.desc d).freed
  others : ∀ e, e ≠ d → t.desc e = s.desc e
  free : t.pool.free = releaseSegments (s.desc d).chain s.pool.free
  held : t.pool.held = s.pool.held.modify (s.desc d).sender (fun n => n - (s.desc d).chain.length)

theorem State.freed_of_receipt (s : State) (d : DescNo) (st : ReceiptStatus) (n : Nat) (t : Tally) :
    s.Freed d (((s.queueReceipt d st n t).releaseChain d).modDesc d Descriptor.freed) where
  floor := ((s.queueReceipt_sameFloor d st n t).trans (State.releaseChain_sameFloor _ d)).trans
    (State.modDesc_sameFloor _ d _)
  ports := fun q => s.queueReceipt_port d st n t q
  elsewhere := by
    intro q hq
    show (s.queueReceipt d st n t).port q = s.port q
    obtain ⟨-, h⟩ | ⟨-, h⟩ := s.queueReceipt_cases d st n t <;> rw [h]
    exact State.modPort_port_other s _ hq
  unreceipted := by
    intro hr
    show (s.queueReceipt d st n t).ports = s.ports
    obtain ⟨-, h⟩ | ⟨h', -⟩ := s.queueReceipt_cases d st n t
    · rw [h]
    · simp [hr] at h'
  freed := by simp
  others := by
    intro e he
    simp [he]
  free := by simp
  held := by simp

/-- Settlement frees the descriptor (R9). -/
theorem State.settleDescriptor_freed (s : State) (d : DescNo) : s.Freed d (s.settleDescriptor d) :=
  s.freed_of_receipt d .complete _ _

/-- Abandonment frees the descriptor (R12). -/
theorem State.abandon_freed (s : State) (d : DescNo) : s.Freed d (s.abandon d) :=
  s.freed_of_receipt d .abandoned _ _

/-- A descriptor is settled exactly when it is HELD with no live copy (R9). -/
theorem State.settleIfDone_cases (s : State) (d : DescNo) :
    (((s.desc d).state = .held ∧ (s.desc d).liveCount = 0) ∧ s.settleIfDone d = s.settleDescriptor d) ∨
    (¬ ((s.desc d).state = .held ∧ (s.desc d).liveCount = 0) ∧ s.settleIfDone d = s) := by
  unfold State.settleIfDone
  split
  · next h => exact .inl ⟨by simpa using h, rfl⟩
  · next h => exact .inr ⟨by simpa using h, rfl⟩

/-! ### Copies -/

@[simp] theorem State.settleCopy_port (s : State) (d : DescNo) (p q : Port) (o : CopyOutcome) :
    (s.settleCopy d p o).port q = s.port q := rfl

@[simp] theorem State.settleCopy_pool (s : State) (d : DescNo) (p : Port) (o : CopyOutcome) :
    (s.settleCopy d p o).pool = s.pool := rfl

@[simp] theorem State.settleCopy_desc_same (s : State) (d : DescNo) (p : Port) (o : CopyOutcome) :
    (s.settleCopy d p o).desc d = (s.desc d).settleCopy p o :=
  State.modDesc_desc_same s d _

@[simp] theorem State.settleCopy_desc_other (s : State) {d e : DescNo} (p : Port) (o : CopyOutcome) (h : e ≠ d) :
    (s.settleCopy d p o).desc e = s.desc e :=
  State.modDesc_desc_other s _ h

/-- A settled copy is SETTLED, and a slot SETTLED before keeps its outcome (R8). -/
theorem Descriptor.settleCopy_slot (x : Descriptor) (p : Port) (o : CopyOutcome) :
    ((x.settleCopy p o).slots.get p).state =
      if (x.slots.get p).state.isSettled then (x.slots.get p).state else .settled o := by
  unfold Descriptor.settleCopy
  split <;> simp

theorem Descriptor.settleCopy_otherSlot (x : Descriptor) {p q : Port} (o : CopyOutcome) (h : q ≠ p) :
    (x.settleCopy p o).slots.get q = x.slots.get q := by
  unfold Descriptor.settleCopy
  split <;> simp [h]

/-- A copy that is not SETTLED is counted when it is settled (R8). -/
theorem Descriptor.settleCopy_tally (x : Descriptor) (p : Port) (o : CopyOutcome) :
    (x.settleCopy p o).tally = if (x.slots.get p).state.isSettled then x.tally else x.tally.count o := by
  unfold Descriptor.settleCopy
  split <;> rfl

/-! ### The free list -/

theorem mem_insertSegment (seg n : Nat) (free : List Nat) : n ∈ insertSegment seg free ↔ n = seg ∨ n ∈ free := by
  induction free with
  | nil => simp [insertSegment]
  | cons x rest ih =>
    unfold insertSegment
    split
    · simp
    · simp only [List.mem_cons, ih]
      tauto

/-- The segments free after a release are those free before and those of the chain (R80). -/
theorem mem_releaseSegments (chain free : List Nat) (n : Nat) : n ∈ releaseSegments chain free ↔ n ∈ chain ∨ n ∈ free := by
  unfold releaseSegments
  induction chain with
  | nil => simp
  | cons x rest ih => simp only [List.foldr_cons, mem_insertSegment, ih, List.mem_cons, or_assoc]

theorem insertSegment_length (seg : Nat) (free : List Nat) : (insertSegment seg free).length = free.length + 1 := by
  induction free with
  | nil => rfl
  | cons x rest ih =>
    unfold insertSegment
    split
    · rfl
    · simp [ih]

theorem releaseSegments_length (chain free : List Nat) : (releaseSegments chain free).length = chain.length + free.length := by
  unfold releaseSegments
  induction chain with
  | nil => simp
  | cons x rest ih => simp only [List.foldr_cons, insertSegment_length, ih, List.length_cons]; omega

/-- Putting a segment back keeps the free list rising, as long as it is not in it. -/
theorem insertSegment_pairwise (seg : Nat) (free : List Nat) (h : free.Pairwise (· < ·)) (hn : seg ∉ free) :
    (insertSegment seg free).Pairwise (· < ·) := by
  induction free with
  | nil => simp [insertSegment]
  | cons x rest ih =>
    obtain ⟨hx, hrest⟩ := List.pairwise_cons.mp h
    have hne : seg ≠ x := fun he => hn (by simp [he])
    have hr : seg ∉ rest := fun hm => hn (List.mem_cons_of_mem _ hm)
    unfold insertSegment
    split
    · next hle =>
      refine List.pairwise_cons.mpr ⟨fun y hy => ?_, h⟩
      rcases List.mem_cons.mp hy with rfl | hy
      · omega
      · have := hx y hy
        omega
    · next hle =>
      refine List.pairwise_cons.mpr ⟨fun y hy => ?_, ih hrest hr⟩
      rcases (mem_insertSegment seg y rest).mp hy with rfl | hy
      · omega
      · exact hx y hy

/-! ### The end of a transfer -/

/-- Returning the lane touches port `p` alone: its lane is IDLE, and the head may have been offered. -/
theorem State.returnLane_spec (s : State) (p : Port) :
    s.returnLane p = s.modPort p (fun ps => ps.idleLane.offer s.tickCount) := by
  simp [State.returnLane, State.offer]

@[simp] theorem State.returnLane_desc (s : State) (p : Port) (d : DescNo) : (s.returnLane p).desc d = s.desc d := rfl

@[simp] theorem State.returnLane_pool (s : State) (p : Port) : (s.returnLane p).pool = s.pool := rfl

theorem State.returnLane_lane (s : State) (p : Port) : ((s.returnLane p).port p).lane = (s.port p).idleLane.lane := by
  rw [State.returnLane_spec, State.modPort_port_same]
  exact (PortState.offer_onlyNotices s.tickCount (s.port p).idleLane).lane

/-- A claimed lane, field by field (R155). -/
theorem State.claimLane_lane (s : State) (p : Port) (owner : LaneOwner) (n : Nat) :
    ((s.claimLane p owner n).port p).lane = { (s.port p).lane with
      owner := owner, hostCount := n, poolCount := n, done := false,
      stall := some (deadlineAfter s.tickCount s.pool.stallLimit) } := by
  simp [State.claimLane]

end Sys2Proof.Machine
end

