-- ==== Sys2Proof/Laws/Transfers.lean ====
section
/-! SUPPORT. What matching, completion, the ends of transfers and the teardown can do, said once each. -/

namespace Sys2Proof.Machine

/-! ### Binding and matching -/

/-- Binding changes port `p`'s matched takes and notices (R26). -/
theorem State.bindCopy_port_same (s : State) (p : Port) (f : TakeFields) (d : DescNo) :
    (s.bindCopy p f d).port p = PortState.append s.tickCount [.arrival (arrivalOf f (s.desc d))]
      { s.port p with takes := { (s.port p).takes with
          matched := (s.port p).takes.matched ++ [{ fields := f, bound := d, delivered := min (s.desc d).length f.capacity }] } } := by
  simp [State.bindCopy, State.appendNotice]

@[simp] theorem State.bindCopy_port_other (s : State) {p q : Port} (f : TakeFields) (d : DescNo) (h : q ≠ p) :
    (s.bindCopy p f d).port q = s.port q := by
  simp [State.bindCopy, State.appendNotice, h]

/-- Binding makes the one slot BOUND (R26). -/
theorem State.bindCopy_desc (s : State) (p : Port) (f : TakeFields) (d e : DescNo) :
    (s.bindCopy p f d).desc e = (s.modSlot d p (fun sl => { sl with state := .bound })).desc e := rfl

theorem State.bindCopy_sameFloor (s : State) (p : Port) (f : TakeFields) (d : DescNo) : s.SameFloor (s.bindCopy p f d) :=
  ⟨rfl, rfl, rfl, rfl, rfl, rfl, rfl, rfl, rfl, rfl, rfl⟩

theorem State.settleCopy_sameFloor (s : State) (d : DescNo) (p : Port) (o : CopyOutcome) : s.SameFloor (s.settleCopy d p o) :=
  State.modDesc_sameFloor s d _

/-- The copy at its creation, before it is matched: the deadline is set, the mark clear (R7). -/
def State.newCopy (s : State) (d : DescNo) (q : Port) : State :=
  s.modSlot d q (fun sl => { sl with deadline := (s.desc d).holdDeadline, passed := false })

/-- The first take of a list that accepts a message splits it. -/
theorem find_accepts_split {x : Descriptor} {ts : List PostedTake} {t : PostedTake}
    (h : ts.find? (fun u => u.fields.accepts x) = some t) :
    ∃ ahead behind, ts = ahead ++ t :: behind ∧ (∀ u ∈ ahead, u.fields.accepts x = false) ∧ t.fields.accepts x = true
      ∧ ts.eraseP (fun u => u.fields.accepts x) = ahead ++ behind := by
  obtain ⟨ht, ahead, behind, rfl, ha⟩ := List.find?_eq_some_iff_append.mp h
  have ha' : ∀ u ∈ ahead, u.fields.accepts x = false := fun u hu => by simpa using ha u hu
  refine ⟨ahead, behind, rfl, ha', ht, ?_⟩
  rw [List.eraseP_append_right _ (fun u hu => by simp [ha' u hu])]
  simp [ht]

/-- The four ends of a copy's creation (R28, R44, R45): UNDELIVERABLE at a port that is not OPEN, bound to the first
take that accepts it, waiting at the tail, or DROPPED when the list is full. -/
theorem State.matchCopy_cases (s : State) (d : DescNo) (q : Port) :
    let u := s.newCopy d q
    ((s.port q).isOpen = false ∧ s.matchCopy d q = u.settleCopy d q .undeliverable) ∨
    ((s.port q).isOpen = true ∧
      ((∃ ahead t behind, (s.port q).takes.posted = ahead ++ t :: behind ∧ (∀ v ∈ ahead, v.fields.accepts (u.desc d) = false)
          ∧ t.fields.accepts (u.desc d) = true ∧ s.matchCopy d q =
            (u.modPort q (fun x => { x with takes := { x.takes with posted := ahead ++ behind } })).bindCopy q t.fields d) ∨
        ((∀ v ∈ (s.port q).takes.posted, v.fields.accepts (u.desc d) = false) ∧
          (((s.port q).unclaimed.length < 32 ∧ s.matchCopy d q =
              (u.modPort q (fun x => { x with unclaimed := x.unclaimed ++ [d] })).modSlot d q
                (fun sl => { sl with state := .waiting })) ∨
            (32 ≤ (s.port q).unclaimed.length ∧ s.matchCopy d q = u.settleCopy d q .dropped))))) := by
  intro u
  have hu : u.port q = s.port q := State.modSlot_port s ..
  by_cases ho : (s.port q).isOpen = true
  · refine .inr ⟨ho, ?_⟩
    have hm : s.matchCopy d q =
        match (s.port q).takes.posted.find? (fun t => t.fields.accepts (u.desc d)) with
        | some t =>
          (u.modPort q (fun x => { x with takes := { x.takes with
            posted := x.takes.posted.eraseP (fun t => t.fields.accepts (u.desc d)) } })).bindCopy q t.fields d
        | none =>
          if (s.port q).unclaimed.length < 32 then
            (u.modPort q (fun x => { x with unclaimed := x.unclaimed ++ [d] })).modSlot d q (fun sl => { sl with state := .waiting })
          else u.settleCopy d q .dropped := by
      unfold State.matchCopy
      simp only [ho, Bool.not_true, Bool.false_eq_true, if_false, State.modSlot_port]
      rfl
    cases hf : (s.port q).takes.posted.find? (fun t => t.fields.accepts (u.desc d)) with
    | some t =>
      obtain ⟨ahead, behind, hp, ha, ht, he⟩ := find_accepts_split hf
      refine .inl ⟨ahead, t, behind, hp, ha, ht, ?_⟩
      rw [hm, hf]
      have he' : (u.ports.get q).takes.posted.eraseP (fun v => v.fields.accepts (u.desc d)) = ahead ++ behind := he
      simp only [State.modPort, he']
    | none =>
      refine .inr ⟨fun v hv => by simpa using List.find?_eq_none.mp hf v hv, ?_⟩
      rw [hm, hf]
      by_cases hl : (s.port q).unclaimed.length < 32
      · exact .inl ⟨hl, by simp [hl]⟩
      · exact .inr ⟨by omega, by simp [hl]⟩
  · have ho' : (s.port q).isOpen = false := by simpa using ho
    refine .inl ⟨ho', ?_⟩
    unfold State.matchCopy
    simp [ho', u, State.newCopy]

/-- Matching leaves the floor alone. -/
theorem State.matchCopy_sameFloor (s : State) (d : DescNo) (q : Port) : s.SameFloor (s.matchCopy d q) := by
  obtain ⟨-, h⟩ | ⟨-, ⟨ahead, t, behind, -, -, -, h⟩ | ⟨-, ⟨-, h⟩ | ⟨-, h⟩⟩⟩ := s.matchCopy_cases d q <;> rw [h] <;>
    exact ⟨rfl, rfl, rfl, rfl, rfl, rfl, rfl, rfl, rfl, rfl, rfl⟩

/-- Matching at `q` changes no other port. -/
theorem State.matchCopy_port_other (s : State) (d : DescNo) {p q : Port} (hp : p ≠ q) :
    (s.matchCopy d q).port p = s.port p := by
  obtain ⟨-, h⟩ | ⟨-, ⟨ahead, t, behind, -, -, -, h⟩ | ⟨-, ⟨-, h⟩ | ⟨-, h⟩⟩⟩ := s.matchCopy_cases d q <;> rw [h] <;>
    simp [State.newCopy, hp]

/-- A completed message is HELD with a live copy, or settled at once (R4 step 4). -/
theorem State.complete_cases (s : State) (d : DescNo) :
    let s1 := s.modDesc d (fun x => { x with completionTick := s.tickCount })
    let s2 := (s1.recipients d).foldl (fun t q => t.matchCopy d q) s1
    (0 < (s2.desc d).liveCount ∧ s.complete d = s2.modDesc d (fun x => { x with state := .held })) ∨
    ((s2.desc d).liveCount = 0 ∧ s.complete d = s2.settleDescriptor d) := by
  intro s1 s2
  by_cases h : 0 < (s2.desc d).liveCount
  · exact .inl ⟨h, by show (if _ then _ else _) = _; rw [if_pos h]⟩
  · exact .inr ⟨by omega, by show (if _ then _ else _) = _; rw [if_neg h]⟩

/-! ### Ends of transfers and copies -/

theorem State.settleIfDone_sameFloor (s : State) (d : DescNo) : s.SameFloor (s.settleIfDone d) := by
  obtain ⟨-, h⟩ | ⟨-, h⟩ := s.settleIfDone_cases d <;> rw [h]
  · exact (s.settleDescriptor_freed d).floor
  · exact State.SameFloor.refl s

/-- Settlement changes queues and outbound sides alone among the port columns. -/
theorem State.settleIfDone_port (s : State) (d : DescNo) (q : Port) : (s.port q).OnlyNotices ((s.settleIfDone d).port q) := by
  obtain ⟨-, h⟩ | ⟨-, h⟩ := s.settleIfDone_cases d <;> rw [h]
  · exact (s.settleDescriptor_freed d).ports q
  · exact PortState.OnlyNotices.refl _

/-- Settling descriptor `d` changes no other descriptor. -/
theorem State.settleIfDone_desc_other (s : State) {d e : DescNo} (h : e ≠ d) : (s.settleIfDone d).desc e = s.desc e := by
  obtain ⟨-, h'⟩ | ⟨-, h'⟩ := s.settleIfDone_cases d <;> rw [h']
  exact (s.settleDescriptor_freed d).others e h

theorem State.offer_sameFloor (s : State) (p : Port) : s.SameFloor (s.offer p) := State.modPort_sameFloor s p _

/-- The lane after a delivery has ended: IDLE, its flags as they stood (R163). -/
theorem State.endDelivery_lane (s : State) (p : Port) (d : DescNo) (o : CopyOutcome) :
    ((s.endDelivery p d o).port p).lane = (s.port p).idleLane.lane := by
  unfold State.endDelivery State.offer
  rw [State.modPort_port_same, (PortState.offer_onlyNotices _ _).lane, (State.settleIfDone_port _ d p).lane]
  simp [PortState.endTake, PortState.idleLane]

/-- The takes after a delivery has ended: the one that named the descriptor is gone (R32). -/
theorem State.endDelivery_takes (s : State) (p : Port) (d : DescNo) (o : CopyOutcome) :
    ((s.endDelivery p d o).port p).takes = ((s.port p).endTake d).takes := by
  unfold State.endDelivery State.offer
  rw [State.modPort_port_same, (PortState.offer_onlyNotices _ _).takes, (State.settleIfDone_port _ d p).takes]
  simp

theorem State.endDelivery_sameFloor (s : State) (p : Port) (d : DescNo) (o : CopyOutcome) : s.SameFloor (s.endDelivery p d o) :=
  ((((s.settleCopy_sameFloor d p o).trans (State.modPort_sameFloor _ p _)).trans (State.modPort_sameFloor _ p _)).trans
    (State.settleIfDone_sameFloor _ d)).trans (State.offer_sameFloor _ p)

/-- An abandoned transfer frees its descriptor and leaves the lane IDLE (R12, R157). -/
theorem State.abandonTransfer_spec (s : State) (p : Port) (d : DescNo) :
    s.SameFloor (s.abandonTransfer p d) ∧ (s.abandonTransfer p d).desc d = (s.desc d).freed ∧
      ((s.abandonTransfer p d).port p).lane = (s.port p).idleLane.lane := by
  have h := s.abandon_freed d
  refine ⟨?_, h.freed, ?_⟩
  · rw [State.abandonTransfer, State.returnLane_spec]
    exact h.floor.trans (State.modPort_sameFloor _ p _)
  · rw [State.abandonTransfer, State.returnLane_lane]
    simp [PortState.idleLane, (h.ports p).lane]

/-- The three ends of a refused copy (R49). -/
theorem State.returnCopy_cases (s : State) (p : Port) (d : DescNo) :
    ((s.slot d p).passed = true ∧ s.returnCopy p d = (s.settleCopy d p .expired).settleIfDone d) ∨
    ((s.slot d p).passed = false ∧ 32 ≤ (s.port p).unclaimed.length ∧
      s.returnCopy p d = (s.settleCopy d p .dropped).settleIfDone d) ∨
    ((s.slot d p).passed = false ∧ (s.port p).unclaimed.length < 32 ∧
      s.returnCopy p d = (s.modPort p (fun ps => { ps with unclaimed := d :: ps.unclaimed })).modSlot d p
        (fun sl => { sl with state := .waiting })) := by
  unfold State.returnCopy
  split
  · next h => exact .inl ⟨h, rfl⟩
  · next h =>
    split
    · next hl => exact .inr (.inl ⟨by simpa using h, hl, rfl⟩)
    · next hl => exact .inr (.inr ⟨by simpa using h, by omega, rfl⟩)

/-! ### Teardown -/

/-- A copy ended by a teardown loses its mark and is settled (R57); every other descriptor stays. -/
@[simp] theorem State.undeliver_desc_same (s : State) (d : DescNo) (p : Port) :
    (s.undeliver d p).desc d = ((s.desc d).dropMark p).settleCopy p .undeliverable := by
  simp [State.undeliver]

@[simp] theorem State.undeliver_desc_other (s : State) {d e : DescNo} (p : Port) (h : e ≠ d) :
    (s.undeliver d p).desc e = s.desc e := by
  simp [State.undeliver, h]

/-- Ending copies changes no port column, and nothing of the pool or the floor. -/
theorem State.undeliverAll_spec (ds : List DescNo) (p : Port) :
    ∀ s : State, (s.undeliverAll ds p).ports = s.ports ∧ (s.undeliverAll ds p).pool = s.pool
      ∧ s.SameFloor (s.undeliverAll ds p) := by
  unfold State.undeliverAll
  induction ds with
  | nil => exact fun s => ⟨rfl, rfl, State.SameFloor.refl s⟩
  | cons d ds ih =>
    intro s
    obtain ⟨h1, h2, h3⟩ := ih (s.undeliver d p)
    exact ⟨h1, h2, ((State.modDesc_sameFloor s d _).trans (State.settleCopy_sameFloor _ d p _)).trans h3⟩

/-- Settling emptied descriptors changes queues and outbound sides alone among the port columns. -/
theorem State.settleAll_spec (ds : List DescNo) :
    ∀ s : State, s.SameFloor (ds.foldl State.settleIfDone s) ∧ ∀ q, (s.port q).OnlyNotices ((ds.foldl State.settleIfDone s).port q) := by
  induction ds with
  | nil => exact fun s => ⟨State.SameFloor.refl s, fun q => PortState.OnlyNotices.refl _⟩
  | cons d ds ih =>
    intro s
    obtain ⟨h1, h2⟩ := ih (s.settleIfDone d)
    exact ⟨(s.settleIfDone_sameFloor d).trans h1, fun q => (s.settleIfDone_port d q).trans (h2 q)⟩

theorem State.settleEmptied_spec (s : State) (ds : List DescNo) :
    s.SameFloor (s.settleEmptied ds) ∧ ∀ q, (s.port q).OnlyNotices ((s.settleEmptied ds).port q) :=
  State.settleAll_spec _ s

/-- Step 4 of a teardown: nothing, or the end of the port's INBOUND transfer (R16). -/
theorem State.endInbound_cases (s : State) (p : Port) :
    ((∀ d, (s.port p).lane.owner ≠ .inbound d) ∧ s.endInbound p = s) ∨
    ∃ d, (s.port p).lane.owner = .inbound d ∧ s.endInbound p = (s.modPort p PortState.idleLane).abandon d := by
  unfold State.endInbound
  split
  · next d h => exact .inr ⟨d, h, rfl⟩
  · next h => exact .inl ⟨fun d => by simp [h], rfl⟩
  · next h => exact .inl ⟨fun d => by simp [h], rfl⟩

end Sys2Proof.Machine
end

