-- ==== Sys2Proof/Tests/Slice0.lean ====
section
/-! SUPPORT. Tests of single steps on small states, with results written from the rules, and for every
statement with hypotheses a witness that meets them together. -/

namespace Sys2Proof.Tests
open Sys2Proof Sys2Proof.Machine

/-! ### Small states -/

/-- `s` with a session of epoch 1 OPEN at port `p`. -/
def opened (p : Port) (s : State) : State :=
  s.modPort p (fun ps => { ps with session := { ps.session with state := .opened, epoch := 1 } })

/-- Ports A and B OPEN, at tick 100. -/
def base : State := { opened .b (opened .a State.reset) with tickCount := 100 }

/-- A message from A to B on channel 42h with label 7, hold 5 and a wanted RECEIPT. -/
def letter (length : Nat) (chain : List Nat) : Descriptor :=
  { Descriptor.reset with
    state := .gathering, sender := .a, senderEpoch := 1, destination := .port .b, channel := 0x42, length := length,
    hold := 5, label := 7, receiptWanted := true, chain := chain }

/-- The letter with its copy at B in state `st`, its hold deadline at tick 105. -/
def copied (st : SlotState) (length : Nat) (chain : List Nat) : Descriptor :=
  { letter length chain with
    state := .held, completionTick := 100, bytesInPool := length,
    slots := (PerPort.replicate CopySlot.empty).set .b { state := st, deadline := some 105, passed := false } }

/-- Segment 0 is charged to A, and A's queue holds a slot booked for a RECEIPT. -/
def charged (s : State) : State :=
  ({ s with pool := { s.pool with free := (List.range 96).drop 1, held := ⟨1, 0, 0, 0⟩ } } : State).modPort .a
    (fun ps => { ps with queue := { ps.queue with reserved := 1, receiptReserved := 1 } })

/-- An INBOUND lane of descriptor 0 with its FIFO, host count and pool count, stalling at tick 600. -/
def inboundLane (fifo : List Byte) (host pool : Nat) : Lane :=
  { Lane.reset with owner := .inbound 0, fifo := fifo, hostCount := host, poolCount := pool, stall := some 600 }

/-- An OUTBOUND lane of descriptor 0. -/
def outboundLane (fifo : List Byte) (host pool : Nat) : Lane :=
  { Lane.reset with owner := .outbound 0, fifo := fifo, hostCount := host, poolCount := pool, stall := some 600 }

/-- A has sent a letter of `length` bytes, of which the lane `l` holds the present part. -/
def sending (length : Nat) (l : Lane) : State :=
  ((charged base).putDesc 0 (letter length [0])).modPort .a (fun ps => { ps with lane := l })

/-- The letter waits at B. -/
def waiting (length : Nat) : State :=
  ((charged base).putDesc 0 (copied .waiting length [0])).modPort .b (fun ps => { ps with unclaimed := [0] })

/-- B's take: label 9, from any port, channels 40h to 4Fh, capacity `n`, timeout 10. -/
def wish (n : Nat) : TakeFields := { label := 9, source := none, value := 0x40, mask := 0xF0, capacity := n, timeout := 10 }

/-- B's take is POSTED, expiring at tick `t`. -/
def posted (t : Tick) : State :=
  base.modPort .b (fun ps => { ps with
    takes := { posted := [{ fields := wish 4, deadline := some t }], matched := [] },
    queue := { ps.queue with reserved := 1 } })

/-- The letter is bound to B's take of capacity `n`, and its ARRIVAL stands in the framing unit in state `tx`. -/
def arrived (length n : Nat) (tx : Transmission) : State :=
  ((charged base).putDesc 0 (copied .bound length [0])).modPort .b (fun ps => { ps with
    takes := { posted := [], matched := [{ fields := wish n, bound := 0, delivered := min length n }] },
    queue := { ps.queue with notices := [.arrival (arrivalOf (wish n) (copied .bound length [0]))], reserved := 1 },
    outbound := { ps.outbound with tx := tx } })

/-- The letter is on its way to B's host through the lane `l`, under a take of capacity `n`. -/
def delivering (length n : Nat) (l : Lane) : State :=
  ((charged base).putDesc 0 (copied .moving length [0])).modPort .b (fun ps => { ps with
    takes := { posted := [], matched := [{ fields := wish n, bound := 0, delivered := min length n }] }, lane := l })

/-- B's queue holds a TAKE_ENDED EXPIRED of label 0109h, with the framing unit in state `x`. -/
def noticed (x : OutboundSide) : State :=
  base.modPort .b (fun ps => { ps with
    queue := { ps.queue with notices := [.takeEnded 0x0109 .expired], reserved := 1 }, outbound := x })

/-- Bytes of A's gather ring, all gathered since the last closing, with the host closing mark set. -/
def marked (ring : List Byte) (s : State) : State :=
  s.modPort .a (fun ps => { ps with inbound := { ps.inbound with ring := ring, gathered := ring.length, closingMark := true } })

/-- Port `p` is 16 bits wide. -/
def wide (p : Port) (s : State) : State := s.modPort p (fun ps => { ps with width := .bits16 })

/-- B after a lapse. -/
def lapsed : State := base.modPort .b (fun ps => { ps with session := { ps.session with state := .lapsed, lapsedCause := true } })

/-! ### Well-formedness -/

/-- The one check of `wellFormed`: address 0 is decoded, so it names no UNDECODED_WRITE (R183). -/
theorem test_wellFormed_refuses_address_0 : Instr.wellFormed (.undecodedWrite .a 0 0) = false := by decide

theorem test_wellFormed_takes_address_7 : Instr.wellFormed (.undecodedWrite .a 7 0) = true := by decide

/-- No word spells a command. -/
theorem test_no_word_spells_a_command : decodeTableWord 16 0x0038 = none := by decide

/-! ### Blocks: bytes written from the tables of R189 -/

theorem test_block_send :
    parseRequest 0x20 [0x12, 0x42, 0x00, 0x01, 0x05, 0x00, 0x34, 0x12, 0x01]
      = .ok (.send 0x12 0x42 256 5 0x1234 1) := by rfl

theorem test_block_take :
    parseRequest 0x28 [0x09, 0x00, 0xFF, 0x40, 0xF0, 0x00, 0x08, 0x0A, 0x00]
      = .ok (.take 9 0xFF 0x40 0xF0 2048 10) := by rfl

theorem test_block_configure :
    parseRequest 0x3C [1, 48, 2, 49, 3, 50, 4, 51, 0xF4, 0x01]
      = .ok (.configure ⟨1, 2, 3, 4⟩ ⟨48, 49, 50, 51⟩ 500) := by rfl

theorem test_block_close_too_long : parseRequest 0x11 [0] = .error .framing := by rfl

theorem test_notice_arrival :
    (Notice.arrival {
      takeLabel := 0x1234, source := .c, group := none, channel := 0x42, senderLabel := 7, messageLength := 2048,
      deliveredLength := 256 }).bytes
      = [0x80, 11, 0x34, 0x12, 2, 0xFF, 0x42, 7, 0, 0x00, 0x08, 0x00, 0x01] := by decide

theorem test_notice_report :
    (Notice.report {
      tickCount := 0x01020304, epoch := 5, freeSegments := 96, freeDescriptors := 64, held := 0,
      reserve := 8, ceiling := 48, liveTakes := 2, postedTakes := 1, unclaimed := 0, noticesQueued := 1,
      slotsReserved := 3, memberships := [0, 7] }).bytes
      = [0x90, 16, 4, 3, 2, 1, 5, 96, 64, 0, 8, 48, 2, 1, 0, 1, 3, 0x81] := by decide

/-! ### Commands: framing and requests -/

theorem test_gathering_write_pushes_the_oldest_out :
    let x := ((base.modPort .a (fun ps => { ps with
      inbound := { ps.inbound with ring := List.replicate 64 1, gathered := 64 } })).after (.gatheringWrite .a 0x38)).port .a
    x.inbound.ring = List.replicate 63 1 ++ [0x38] ∧ x.inbound.overflow = 1 := by decide

/-- A QUERY block is 38h 00h, and its total length is 2 (R189). -/
theorem test_closing_write_runs_a_query :
    let x := ((marked [0x55, 0x38, 0x00] base).after (.closingWrite .a 2)).port .a
    x.inbound.answer = .accepted ∧ x.inbound.stray = 1 ∧ x.queue.notices.length = 1 := by decide

theorem test_open_wraps_the_epoch :
    let x := ((State.reset.modPort .a (fun ps => { ps with session := { ps.session with epoch := 255 } })).after
      (.openPort .a 2000)).port .a
    x.session.epoch = 0 ∧ x.session.answerLimit = 2000 ∧ x.session.state = .opened := by decide

theorem test_open_of_9_ticks_is_bad_field :
    ((State.reset.after (.openPort .a 9)).port .a).inbound.reason = some .badField := by decide

theorem test_close_settles_the_waiting_copy :
    let t := (waiting 3).after (.closePort .b)
    (t.desc 0).state = .free ∧ t.pool.free.length = 96 ∧ (t.port .a).queue.notices =
      [.receipt { senderLabel := 7, status := .complete, copiesMade := 1, tally := { Tally.zero with undeliverable := 1 } }] := by
  decide

/-- B's copy is BOUND with its deadline passed, and C's copy keeps the descriptor HELD: the mark goes with B's copy
(R57). -/
theorem test_close_drops_the_deadline_mark :
    let x : Descriptor := { letter 3 [0] with
      state := .held, destination := .group 3,
      slots := ⟨CopySlot.empty, { state := .bound, deadline := some 99, passed := true },
        { state := .waiting, deadline := some 99, passed := false }, CopySlot.empty⟩ }
    let t := ((arrived 3 4 (.answer 350)).putDesc 0 x).after (.closePort .b)
    (t.slot 0 .b).state = .settled .undeliverable ∧ (t.slot 0 .b).passed = false ∧ (t.desc 0).state = .held := by decide

theorem test_close_at_a_closed_port : ((State.reset.after (.closePort .c)).port .c).inbound.reason = some .notOpen := by decide

theorem test_send_claims_the_lane :
    let t := base.after (.send .a 1 0x42 257 5 7 1)
    (t.port .a).lane.owner = .inbound 0 ∧ (t.port .a).lane.hostCount = 257 ∧ (t.desc 0).chain = [0, 1]
      ∧ (t.port .a).lane.stall = some 600 := by decide

theorem test_send_to_a_closed_port : ((base.after (.send .a 2 0 1 0 0 0)).port .a).inbound.reason = some .destClosed := by decide

theorem test_take_binds_the_waiting_copy :
    let t := (waiting 3).after (.take .b 9 0xFF 0x4F 0xF0 2 0)
    (t.slot 0 .b).state = .bound ∧ ((t.port .b).takes.matched.map (·.delivered)) = [2] ∧ (t.port .b).unclaimed = [] := by
  decide

theorem test_take_deadline_wraps :
    ((({ base with tickCount := 0xFFFFFFFE } : State).after (.take .b 9 0 0 0 4 3)).port .b).takes.posted.map (·.deadline)
      = [some 1] := by decide

theorem test_cancel_of_a_matched_take : (((arrived 3 4 (.answer 350)).after (.cancel .b 9)).port .b).inbound.reason = some .tooLate := by
  decide

theorem test_cancel_ends_a_posted_take :
    let x := ((posted 110).after (.cancel .b 9)).port .b
    x.takes.posted = [] ∧ x.queue.notices = [.takeEnded 9 .cancelled] ∧ x.queue.reserved = 1 := by decide

theorem test_join : ((base.after (.join .b 7)).members 7).get .b = true := by decide

theorem test_join_of_group_8 : ((base.after (.join .b 8)).port .b).inbound.reason = some .badField := by decide

theorem test_leave : (((base.modGroup 3 (fun m => m.set .b true)).after (.leave .b 3)).members 3).get .b = false := by decide

theorem test_leave_of_a_stranger : ((base.after (.leave .b 3)).port .b).inbound.reason = some .notMember := by decide

theorem test_query_without_a_slot :
    (((base.modPort .a (fun ps => { ps with queue := { ps.queue with reserved := 24 } })).after (.query .a)).port .a).inbound.reason
      = some .noSlot := by decide

theorem test_configure_at_its_bounds :
    (base.after (.configure .a ⟨24, 24, 24, 24⟩ ⟨96, 24, 24, 24⟩ 60000)).pool.stallLimit = 60000 := by decide

theorem test_configure_from_another_port :
    ((base.after (.configure .b ⟨0, 0, 0, 0⟩ ⟨1, 1, 1, 1⟩ 50)).port .b).inbound.reason = some .notSetupPort := by decide

theorem test_closing_mark : ((base.after (.setClosingMark .a)).port .a).inbound.closingMark = true := by decide

/-! ### Commands: notices -/

theorem test_accept_starts_a_delivery :
    let t := (arrived 3 2 (.answer 350)).after (.accept .b)
    (t.slot 0 .b).state = .moving ∧ (t.port .b).lane.owner = .outbound 0 ∧ (t.port .b).lane.poolCount = 2
      ∧ (t.port .b).queue.reserved = 0 := by decide

/-- Capacity 0 with a message of 3 bytes: CUT without the lane (R130). -/
theorem test_accept_of_no_bytes :
    let t := (arrived 3 0 (.answer 350)).after (.accept .b)
    (t.desc 0).state = .free ∧ (t.port .b).lane.owner = .idle ∧ (t.port .a).queue.notices =
      [.receipt { senderLabel := 7, status := .complete, copiesMade := 1, tally := { Tally.zero with cut := 1 } }] := by decide

theorem test_refuse_returns_the_copy :
    let t := (arrived 3 2 (.answer 350)).after (.refuse .b)
    (t.port .b).unclaimed = [0] ∧ (t.slot 0 .b).state = .waiting ∧ (t.slot 0 .b).deadline = some 105 := by decide

theorem test_refuse_before_the_length_byte :
    (arrived 3 2 (.length 350)).after (.refuse .b) = arrived 3 2 (.length 350) := by decide

/-- The bytes of the notice are 81h 3 09h 01h 1; the third read returns 09h and places 01h. -/
theorem test_outbound_byte_read :
    let x := ((noticed { byte := some 0x09, closingMark := false, tx := .data 3 300 }).after (.outboundByteRead .b)).port .b
    x.readData = 0x09 ∧ x.outbound.byte = some 0x01 ∧ x.outbound.tx = .data 4 350 := by decide

theorem test_outbound_length_byte :
    let x := ((noticed { byte := some 0x01, closingMark := false, tx := .data 5 300 }).after (.outboundByteRead .b)).port .b
    x.readData = 0x01 ∧ x.outbound.byte = some 5 ∧ x.outbound.closingMark = true := by decide

/-! ### Commands: lanes and controls -/

theorem test_lane_write_low_half_first :
    let x := ((wide .a (sending 4 (inboundLane [9] 3 4))).after (.laneWrite .a 0x0201)).port .a
    x.lane.fifo = [9, 1, 2] ∧ x.lane.hostCount = 1 ∧ x.lane.done = false := by decide

theorem test_lane_write_overruns :
    let t := (sending 100 (inboundLane (List.replicate 32 0) 68 100)).after (.laneWrite .a 1)
    (t.port .a).lane.overrun = true ∧ (t.port .a).lane.owner = .idle ∧ (t.desc 0).state = .free
      ∧ (t.port .a).queue.notices.length = 1 := by decide

theorem test_lane_read_two_bytes :
    let x := ((wide .b (delivering 3 3 (outboundLane [1, 2, 3] 3 0))).after (.laneRead .b)).port .b
    x.readData = 0x0201 ∧ x.lane.fifo = [3] ∧ x.lane.hostCount = 1 := by decide

theorem test_lane_read_of_the_last_byte :
    let t := (delivering 3 1 (outboundLane [5] 1 0)).after (.laneRead .b)
    (t.port .b).readData = 5 ∧ (t.port .b).lane.done = true ∧ (t.port .b).lane.owner = .idle ∧ (t.desc 0).state = .free := by
  decide

theorem test_write_enables :
    ((base.after (.writeEnables .a { Enables.clear with dma := true })).port .a).enables.dma = true := by decide

theorem test_done_clear :
    (((base.modPort .a (fun ps => { ps with lane := { ps.lane with done := true, overrun := true } })).after (.doneClear .a)).port
      .a).lane = { Lane.reset with overrun := true } := by decide

theorem test_clear_lane_flags :
    (((base.modPort .a (fun ps => { ps with lane := { ps.lane with done := true, overrun := true } })).after
      (.clearLaneFlags .a)).port .a).lane = { Lane.reset with done := true } := by decide

theorem test_purge_stops_the_delivery :
    let t := (delivering 3 3 (outboundLane [1] 3 2)).after (.purge .b)
    (t.port .b).lane = Lane.reset ∧ (t.port .b).session.state = .opened ∧ (t.port .a).queue.notices =
      [.receipt { senderLabel := 7, status := .complete, copiesMade := 1, tally := { Tally.zero with stopped := 1 } }] := by decide

theorem test_port_reset :
    let t := (sending 4 (inboundLane [1] 3 4)).after (.portReset .a)
    (t.port .a).session.state = .closed ∧ (t.port .a).session.epoch = 1 ∧ (t.desc 0).state = .free ∧ (t.port .a).lane = Lane.reset := by
  decide

theorem test_undecoded_write : exec (.undecodedWrite .a 3 0xFF) base = .next base := by rfl

/-- A control write of FFFFh on a 16-bit port is the enables, then the four actions in order (R185). -/
theorem test_control_write :
    (wide .a base).commandsOf .a (.write 4 0x0F1F) =
      [.writeEnables .a ⟨true, true, true, true, true⟩, .doneClear .a, .clearLaneFlags .a, .purge .a, .portReset .a] := by decide

/-- A CLOSED port with its lane flags clear shows 0; OVERRUN is bit 12 (R184). -/
theorem test_status :
    State.reset.readValue .a 4 = 0 ∧ ((wide .a State.reset).after (.laneWrite .a 0)).readValue .a 4 = 0x1000 := by decide

/-- While the reset pin is asserted a write is lost, reads return 0 and the lines are inactive (R188). -/
theorem test_reset_pin :
    let s := (wide .a (sending 4 (inboundLane [1] 3 4))).assertResetPin
    s.after (.laneWrite .a 1) = s ∧ s.readValue .a 4 = 0 ∧ s.commandsOf .a (.write 2 1) = [] ∧ s.resetAsserted = true ∧
      (s.after (.hardReset ⟨⟨false, false, false, false⟩, false, false⟩)).resetAsserted = false := by decide

theorem test_reset_pin_holds_the_interrupt_line :
    let s := lapsed.modPort .b (fun ps => { ps with enables := { ps.enables with lapsed := true } })
    s.interruptLine .b = true ∧ s.assertResetPin.interruptLine .b = false := by decide

/-! ### Commands: time, mover, reset -/

theorem test_tick_wraps : (({ base with tickCount := 0xFFFFFFFF } : State).after .tick).tickCount = 0 := by decide

theorem test_take_deadline :
    let x := ((posted 100).after (.takeDeadline .b)).port .b
    x.takes.posted = [] ∧ x.queue.notices = [.takeEnded 9 .expired] := by decide

theorem test_hold_expiry :
    let t := ({ waiting 3 with tickCount := 105 } : State).after (.holdExpiry .b)
    (t.port .b).unclaimed = [] ∧ (t.desc 0).state = .free ∧ (t.port .a).queue.notices.length = 1 := by decide

/-- The mark leaves the copy BOUND (R47). -/
theorem test_hold_deadline_mark :
    let x := ((copied .bound 3 [0]).markPassed 105 .b).slots.get .b
    x.passed = true ∧ x.state = .bound := by decide

theorem test_byte_deadline :
    let x := ((noticed { byte := some 0x81, closingMark := false, tx := .data 1 100 }).after (.byteDeadline .b)).port .b
    x.session.state = .lapsed ∧ x.session.lapsedCause = true ∧ x.queue.notices = [] ∧ x.outbound.byte = none := by decide

theorem test_answer_deadline :
    (((arrived 3 2 (.answer 100)).after (.answerDeadline .b)).port .b).session.state = .lapsed := by decide

theorem test_inbound_stall :
    let t := ({ sending 4 (inboundLane [1] 3 4) with tickCount := 600 } : State).after (.inboundStall .a)
    (t.port .a).session.state = .opened ∧ (t.desc 0).state = .free ∧ (t.port .a).queue.notices =
      [.receipt { senderLabel := 7, status := .abandoned, copiesMade := 0, tally := Tally.zero }] := by decide

theorem test_outbound_stall :
    let t := ({ delivering 3 3 (outboundLane [1] 3 2) with tickCount := 600 } : State).after (.outboundStall .b)
    (t.port .b).session.state = .lapsed ∧ (t.port .a).queue.notices =
      [.receipt { senderLabel := 7, status := .complete, copiesMade := 1, tally := { Tally.zero with stopped := 1 } }] := by decide

/-- 20 bytes in the FIFO: a chunk of 16 goes to the first 16 positions of segment 0. -/
theorem test_grant_moves_16 :
    let t := (sending 40 (inboundLane (List.replicate 20 7) 20 40)).after .grant
    (t.port .a).lane.fifo.length = 4 ∧ (t.port .a).lane.poolCount = 24 ∧ (t.desc 0).bytesInPool = 16
      ∧ t.pool.mem = (List.range 16).map (fun k => (k, 7)) ∧ t.pointer = .a := by decide

theorem test_grant_completes :
    let t := (sending 2 (inboundLane [5, 6] 0 2)).after .grant
    (t.port .a).lane.owner = .idle ∧ (t.port .b).unclaimed = [0] ∧ (t.slot 0 .b).deadline = some 105
      ∧ t.pool.mem = [(0, 5), (1, 6)] := by decide

theorem test_hard_reset :
    let t := (waiting 3).after (.hardReset { width := ⟨false, true, false, false⟩, setup1 := true, setup0 := false })
    t.setupPort = .c ∧ (t.port .b).width = .bits16 ∧ (t.port .b).session.epoch = 0 ∧ t.pool.free.length = 96 := by decide

/-! ### Witnesses: concrete states and operands that meet the hypotheses of each statement together -/

theorem witness_StepTakesTheFrontCommand :
    ({ base with pending := [.tick] } : State).pending = [.tick] ∧ State.reset.pending = [] := by decide

theorem witness_CommandsCompleteAndKeepTheStraps :
    (∀ p a b, Instr.tick ≠ .undecodedWrite p a b) ∧ (∀ straps, Instr.tick ≠ .hardReset straps) ∧
      base.assertResetPin.resetAsserted = true ∧ ∀ p, Instr.tick ≠ .outboundByteRead p ∧ Instr.tick ≠ .laneRead p :=
  ⟨nofun, nofun, rfl, fun _ => ⟨nofun, nofun⟩⟩

theorem witness_UndecodedWriteChangesNothing :
    ((base.port .a).width = .bits8 ∧ ((7 : BitVec 3) = 1 ∨ (7 : BitVec 3) = 3 ∨ (7 : BitVec 3) = 7)) ∧
    ((0 : BitVec 3) ≠ 1 ∧ (0 : BitVec 3) ≠ 3 ∧ (0 : BitVec 3) ≠ 7) ∧ ((wide .a base).port .a).width ≠ .bits8 := by decide

theorem witness_FirstFailedCheckRefusesARequest :
    base.resetAsserted = false ∧ firstFailure (base.checks .a .query) = none ∧
      State.reset.resetAsserted = false ∧ firstFailure (State.reset.checks .a .query) = some .notOpen := by decide

theorem witness_OpenStartsASession :
    State.reset.resetAsserted = false ∧ (State.reset.port .a).session.state ≠ .opened ∧
      ((10 : Half) = 0 ∨ (10 ≤ (10 : Half).toNat ∧ (10 : Half).toNat ≤ 2000)) := by decide

theorem witness_CloseAndReopenEndTheSession :
    lapsed.resetAsserted = false ∧ (lapsed.port .b).session.state = .lapsed ∧ base.resetAsserted = false ∧
      (base.port .b).session.state = .opened ∧
      ((2000 : Half) = 0 ∨ (10 ≤ (2000 : Half).toNat ∧ (2000 : Half).toNat ≤ 2000)) := by decide

/-- The TAKE_ENDED's code is presented, until tick 100. -/
def presented : OutboundSide := { byte := some 0x81, closingMark := false, tx := .data 1 100 }

/-- The TAKE_ENDED awaits its answer, until tick 100. -/
def awaited : OutboundSide := { byte := none, closingMark := false, tx := .answer 100 }

/-- The letter waits at B, whose host is to read (or, when `read`, to answer) a TAKE_ENDED; a HOLD_EXPIRY is next. -/
def busy (read : Bool) : State :=
  { (waiting 3).modPort .b (fun ps => { ps with
      queue := { ps.queue with notices := [.takeEnded 0x0109 .expired], reserved := 1 },
      outbound := if read then awaited else presented }) with pending := [.holdExpiry .b] }

theorem busy_copiesSound (b : Bool) : (busy b).copiesSound where
  waiting_iff := by intro d p; revert d; cases b <;> cases p <;> decide
  list_nodup := by intro p; cases b <;> cases p <;> decide
  matched_iff := by intro d p; revert d; cases b <;> cases p <;> decide
  matched_nodup := by intro p; cases b <;> cases p <;> decide
  moving_iff := by intro d p; revert d; cases b <;> cases p <;> decide
  labels_nodup := by intro p; cases b <;> cases p <;> decide
  delivered_eq := by intro p; cases b <;> cases p <;> decide
  arrivals_iff := by
    intro p l
    cases b <;> cases p <;> exact ⟨fun h => (List.not_mem_nil h).elim, fun ⟨_, h, _⟩ => (List.not_mem_nil h).elim⟩
  arrivals_nodup := by intro p; cases b <;> cases p <;> decide
  held_iff := by cases b <;> decide
  unheld_blank := by cases b <;> decide
  tally_sum := by cases b <;> decide
  inbound_iff := by intro d p; revert d; cases b <;> cases p <;> decide
  inbound_count := by intro d p; revert d; cases b <;> cases p <;> decide

theorem busy_sound : (busy false).sound where
  holds := by decide
  slots := by unfold State.slotsBooked PortState.slotsBooked; intro p; cases p <;> decide
  lanes := by intro p; cases p <;> exact ⟨⟨by decide, by decide, rfl, rfl, rfl, rfl⟩, by decide⟩
  segments := ⟨by decide, by decide, by decide, by intro p; cases p <;> decide, by intro p d; revert d; cases p <;> decide⟩
  reserves := ⟨by intro p; cases p <;> decide, by decide, by decide, by decide⟩
  inbound := by unfold InboundSide.sound; intro p; cases p <;> decide
  sessions := by unfold State.sessionsSound PortState.sessionless; intro p; cases p <;> decide
  outbound := by
    intro p
    cases p with
    | b => exact ⟨.takeEnded 0x0109 .expired, [], by decide⟩
    | a => exact ⟨rfl, rfl, fun h => (h rfl).elim⟩
    | c => exact ⟨rfl, rfl, fun h => (h rfl).elim⟩
    | d => exact ⟨rfl, rfl, fun h => (h rfl).elim⟩
  copies := busy_copiesSound false
  memory := by decide

theorem witness_StepKeepsThePartSound : (busy false).sound ∧ ∃ t, step (busy false) = .next t := ⟨busy_sound, _, rfl⟩

/-- The hypotheses of the other statements that a step keeps a law, at the same state and step. -/
theorem witness_StepKeeps_each_law :
    (busy false).slotsBooked ∧ (busy false).lanesSound ∧ (busy false).segmentsSound ∧ (busy false).pool.covered ∧
      (∀ p, ((busy false).port p).inbound.sound) ∧ (busy false).sessionsSound ∧ (busy false).outboundSound ∧
      ∃ t, step (busy false) = .next t :=
  ⟨busy_sound.slots, busy_sound.lanes, busy_sound.segments, busy_sound.reserves, busy_sound.inbound, busy_sound.sessions,
    busy_sound.outbound, _, rfl⟩

theorem witness_SendClaimsTheLane :
    base.resetAsserted = false ∧ firstFailure (base.checks .a (.send 1 0x42 2048 5 7 1)) = none ∧ 0 < (2048 : Half).toNat ∧
      destinationOfByte 1 = some (.port .b) ∧ (base.desc 0).state = .free ∧
      ∀ e : DescNo, e < 0 → (base.desc e).state ≠ .free := by decide

theorem witness_ZeroLengthSendCompletesAtOnce :
    (base.resetAsserted = false ∧ firstFailure (base.checks .a (.send 0x17 0x42 0 5 7 0)) = none ∧
      (base.desc 0).state = .free ∧ ∀ e : DescNo, e < 0 → (base.desc e).state ≠ .free) ∧
    firstFailure (base.checks .a (.send 0x17 0x42 0 5 7 1)) = none ∧ firstFailure (base.checks .a (.send 1 0x42 0 5 7 1)) = none ∧
      (destinationOfByte 0x17 = some (.group 7) ∧ (∀ q : Port, q ≠ .a → (base.members 7).get q = false) ∧
        (base.port .a).session.tearingDown = false) ∧
      (destinationOfByte 1 = some (.port .b) ∧
        (∀ t ∈ (base.port .b).takes.posted, t.fields.accepts (letter 0 []) = false) ∧ (base.port .b).unclaimed.length < 32) :=
  ⟨by decide, by decide, by decide, ⟨by decide, by intro q; cases q <;> decide, by decide⟩, by decide⟩

theorem witness_SendWithinTheReserveIsNotRefusedForSegments :
    base.resetAsserted = false ∧ base.pool.covered ∧
      base.pool.held.get .a + ((2048 : Half).toNat + 255) / 256 ≤ base.pool.reserve.get .a :=
  ⟨rfl, ⟨by intro p; cases p <;> decide, by decide, by decide, by decide⟩, by decide⟩

theorem witness_TakeIsPosted :
    (waiting 3).resetAsserted = false ∧ firstFailure ((waiting 3).checks .b (.take 9 0xFF 0x50 0xF0 4 10)) = none ∧
      sourceOfByte 0xFF = some none ∧
      ∀ d ∈ ((waiting 3).port .b).unclaimed, (TakeFields.mk 9 none 0x50 0xF0 4 10).accepts ((waiting 3).desc d) = false := by decide

theorem witness_TakeBindsTheFirstMatchingCopy :
    (waiting 3).resetAsserted = false ∧ firstFailure ((waiting 3).checks .b (.take 9 0 0x40 0xF0 4 10)) = none ∧
      sourceOfByte 0 = some (some .a) ∧
      ((waiting 3).port .b).unclaimed = [] ++ 0 :: [] ∧
      (TakeFields.mk 9 (some .a) 0x40 0xF0 4 10).accepts ((waiting 3).desc 0) = true := by decide

theorem witness_CancelEndsAPostedTake :
    (posted 110).resetAsserted = false ∧ firstFailure ((posted 110).checks .b (.cancel 9)) = none ∧
      ((posted 110).port .b).takes.posted = [] ++ { fields := wish 4, deadline := some 110 } :: [] ∧ (wish 4).label = 9 := by
  decide

theorem witness_JoinAndLeaveChangeOneMembership :
    (base.resetAsserted = false ∧ (base.port .b).session.state = .opened ∧ (base.members 7).get .b = false) ∧
      let s := base.modGroup 7 (fun m => m.set .b true)
      s.resetAsserted = false ∧ (s.port .b).session.state = .opened ∧ (s.members 7).get .b = true := by decide

theorem witness_QueryAppendsAReport :
    let s := base.modPort .a (fun ps => { ps with queue := { ps.queue with reserved := 23 } })
    s.resetAsserted = false ∧ (s.port .a).session.state = .opened ∧ (s.port .a).queue.reserved < 24 := by decide

theorem witness_ConfigureReplacesTheLimits :
    base.resetAsserted = false ∧ (base.port .a).session.state = .opened ∧ .a = base.setupPort ∧
      base.badConfig ⟨24, 24, 24, 24⟩ ⟨96, 24, 24, 24⟩ 60000 = false := by decide

/-- B's list holds 32 copies. -/
def full (s : State) : State := s.modPort .b (fun ps => { ps with unclaimed := (List.finRange 64).drop 32 })

/-- The destination is CLOSED; a take matches; nothing matches and a place is free; nothing matches and the list is full. -/
theorem witness_CompletionMatchesAUnicastCopy :
    let s := sending 2 (inboundLane [5, 6] 0 2)
    ((s.desc 0).destination = .port .b ∧ (s.desc 0).slots = PerPort.replicate CopySlot.empty ∧ (s.desc 0).tally = Tally.zero) ∧
    ((lapsed.putDesc 0 (letter 2 [0])).port .b).session.state ≠ .opened ∧ (s.port .b).session.state = .opened ∧
    (((posted 110).port .b).takes.posted = [] ++ { fields := wish 4, deadline := some 110 } :: [] ∧
      (wish 4).accepts (s.desc 0) = true) ∧
    ((s.port .b).takes.posted = [] ∧ (s.port .b).unclaimed.length < 32) ∧ 32 ≤ ((full s).port .b).unclaimed.length := by decide

/-- Group 3 has the members A and B; A's message to it is complete but for its completion. -/
def toGroup : State :=
  (base.modGroup 3 (fun _ => ⟨true, true, false, false⟩)).putDesc 0 { letter 2 [0] with destination := .group 3 }

theorem witness_GroupMessageWaitsAtEveryMember :
    (toGroup.desc 0).destination = .group 3 ∧ (toGroup.desc 0).slots = PerPort.replicate CopySlot.empty ∧
      (∃ q, ((toGroup.members 3).get q && q != (toGroup.desc 0).sender) = true) ∧
      ∀ q, ((toGroup.members 3).get q && q != (toGroup.desc 0).sender) = true →
        (toGroup.port q).session.state = .opened ∧ (toGroup.port q).unclaimed.length < 32 ∧
          ∀ u ∈ (toGroup.port q).takes.posted, u.fields.accepts (toGroup.desc 0) = false :=
  ⟨by decide, by decide, ⟨.b, by decide⟩, by intro q; cases q <;> decide⟩

/-- A has `n` slots reserved and none of them booked for a RECEIPT. -/
def unbooked (n : Nat) (s : State) : State :=
  s.modPort .a (fun ps => { ps with queue := { ps.queue with reserved := n, receiptReserved := 0 } })

theorem witness_LastCopySettlesTheDescriptor :
    let s := (charged base).putDesc 0 (copied (.settled .cut) 3 [0])
    let u := (charged base).putDesc 0 { copied (.settled .cut) 3 [0] with receiptWanted := false }
    ((s.desc 0).state = .held ∧ (s.desc 0).liveCount = 0 ∧ (s.desc 0).receiptWanted = true ∧
      (s.port .a).session.state = .opened ∧ (s.port .a).session.tearingDown = false ∧
      (s.port .a).session.epoch = (s.desc 0).senderEpoch ∧ 0 < (s.port .a).queue.receiptReserved) ∧
    (((unbooked 23 s).port .a).queue.reserved < 24 ∧ 24 ≤ ((unbooked 24 s).port .a).queue.reserved ∧
      ((unbooked 24 s).port .a).queue.receiptReserved = 0 ∧ ((unbooked 24 s).desc 0).state = .held) ∧
    ((u.desc 0).state = .held ∧ (u.desc 0).liveCount = 0 ∧ (u.desc 0).receiptWanted = false) := by decide

theorem witness_GatheringWriteTakesTheByte : base.resetAsserted = false ∧ (base.port .a).inbound.closingMark = false := by decide

theorem witness_ClosingMarkStaysUntilItsClosing :
    (marked [0x38] base).resetAsserted = false ∧ ((marked [0x38] base).port .a).inbound.closingMark = true ∧
      ∃ t, exec .tick (marked [0x38] base) = .next t :=
  ⟨rfl, by decide, _, rfl⟩

/-- Total length 1; total length 65; more than was gathered; a data length at odds with the total length. -/
theorem witness_BadClosingByteIsFraming :
    (marked [0x38, 0x00] base).resetAsserted = false ∧ (marked [0x38, 0x01] base).resetAsserted = false ∧
    ((marked [0x38, 0x01] base).port .a).inbound.closingMark = true ∧
      ((marked [0x38, 0x00] base).port .a).inbound.closingMark = true ∧ (lowByte 1).toNat < 2 ∧ 64 < (lowByte 65).toNat ∧
      ((marked [0x38, 0x00] base).port .a).inbound.gathered < (lowByte 3).toNat ∧
      (((marked [0x38, 0x01] base).port .a).inbound.ring = [] ++ 0x38 :: 0x01 :: [] ∧
        ([] : List Byte).length + 2 = (lowByte 2).toNat ∧ (0x01 : Byte).toNat ≠ (lowByte 2).toNat - 2) := by decide

/-- The code of ARRIVAL, in the least block. -/
theorem witness_UnknownCodeIsRefused :
    let x := ((marked [0x80, 0x00] base).port .a).inbound
    (marked [0x80, 0x00] base).resetAsserted = false ∧ x.closingMark = true ∧ x.ring = [] ++ 0x80 :: 0x00 :: [] ∧
      ([] : List Byte).length + 2 = (lowByte 2).toNat ∧
      (0x00 : Byte).toNat = ([] : List Byte).length ∧ (lowByte 2).toNat ≤ 64 ∧ (lowByte 2).toNat ≤ x.gathered ∧
      (0x80 : Byte) ∉ requestCodes := by decide

theorem witness_RequestBlocksDecodeAsEncoded :
    parseRequest 0x11 [] = .ok .closePort ∧ ((0x11 : Byte) ∈ requestCodes ∧ requestLength 0x11 ≠ some [(0 : Byte)].length) ∧
      (0x90 : Byte) ∉ requestCodes := ⟨rfl, by decide, by decide⟩

theorem witness_ClosedBlockRunsItsRequest :
    let x := ((marked [0x55, 0x30, 0x01, 0x07] base).port .a).inbound
    (marked [0x55, 0x30, 0x01, 0x07] base).resetAsserted = false ∧ x.closingMark = true ∧
      x.ring = [0x55] ++ (Request.join 7).block ∧ (Request.join 7).block.length ≤ x.gathered ∧
      (lowByte 3).toNat = (Request.join 7).block.length := by decide

/-- The last data byte but one, the last, the length byte, and nothing presented. -/
theorem witness_OutboundReadPresentsTheNextByte :
    let n : Notice := .takeEnded 0x0109 .expired
    (∀ x, (noticed x).resetAsserted = false) ∧ base.resetAsserted = false ∧
    (((noticed { byte := some 0x01, closingMark := false, tx := .data 4 300 }).port .b).queue.notices = n :: [] ∧
      4 < n.bytes.length ∧ n.bytes.length ≤ 5) ∧
    ((noticed { byte := some 0x05, closingMark := true, tx := .length 300 }).port .b).outbound.byte = some 0x05 ∧
    (base.port .b).outbound.tx = .idle := ⟨fun _ => rfl, by decide⟩

theorem witness_NoticeIsReadWholeInOrder :
    let s := noticed { byte := some 0x81, closingMark := false, tx := .data 1 300 }
    s.resetAsserted = false ∧ (s.port .b).queue.notices = .takeEnded 0x0109 .expired :: [] ∧
      (s.port .b).outbound.tx = .data 1 300 ∧
      (s.port .b).outbound.byte = some (Notice.takeEnded 0x0109 .expired).code := by decide

/-- An ARRIVAL. -/
def anArrival : Notice := .arrival (arrivalOf (wish 2) (copied .bound 3 [0]))

theorem witness_NewHeadIsTransmittedAtOnce :
    let held := (sending 4 (inboundLane [1] 3 4)).port .a
    ((base.port .b).queue.notices = [] ∧ (base.port .b).outbound.tx = .idle ∧ (base.port .b).lane.owner = .idle) ∧
    (held.queue.notices = [] ∧ anArrival.isArrival = true ∧ held.lane.owner ≠ .idle) ∧
    ((noticed presented).port .b).outbound.tx ≠ .idle ∧
    (({ held with queue := { held.queue with notices := [anArrival] } } : PortState).headIsArrival = true ∧ held.lane.owner ≠ .idle) := by
  decide

theorem witness_AcceptStartsADelivery :
    let ps := (arrived 3 2 (.answer 350)).port .b
    let m : MatchedTake := { fields := wish 2, bound := 0, delivered := 2 }
    (arrived 3 2 (.answer 350)).resetAsserted = false ∧ ps.outbound.tx = .answer 350 ∧
      ps.queue.notices = anArrival :: [] ∧ ps.takes.matched = [] ++ m :: [] ∧
      m.fields.label = (arrivalOf (wish 2) (copied .bound 3 [0])).takeLabel ∧ 0 < m.delivered := by decide

theorem witness_AcceptOfNothingSettlesTheCopy :
    let s := arrived 3 0 (.answer 350)
    let m : MatchedTake := { fields := wish 0, bound := 0, delivered := 0 }
    s.resetAsserted = false ∧ (s.port .b).outbound.tx = .answer 350 ∧
      (s.port .b).queue.notices = .arrival (arrivalOf (wish 0) (copied .bound 3 [0])) :: [] ∧
      (s.port .b).takes.matched = [] ++ m :: [] ∧ m.fields.label = (arrivalOf (wish 0) (copied .bound 3 [0])).takeLabel ∧
      m.delivered = 0 ∧ ((s.desc m.bound).slots.get .b).state = .bound := by decide

/-- The deadline has passed; the list is full; neither. -/
theorem witness_RefuseReturnsTheCopy :
    let s := arrived 3 2 (.answer 350)
    let m : MatchedTake := { fields := wish 2, bound := 0, delivered := 2 }
    (∀ u ∈ [s, s.modSlot 0 .b (fun sl => { sl with passed := true }), full s], u.resetAsserted = false ∧
      (u.port .b).outbound.tx = .answer 350 ∧ (u.port .b).queue.notices = anArrival :: [] ∧
      (u.port .b).takes.matched = [] ++ m :: [] ∧ m.fields.label = (arrivalOf (wish 2) (copied .bound 3 [0])).takeLabel ∧
      ((u.desc m.bound).slots.get .b).state = .bound) ∧
    ((s.modSlot 0 .b (fun sl => { sl with passed := true })).slot 0 .b).passed = true ∧
    (((full s).slot 0 .b).passed = false ∧ 32 ≤ ((full s).port .b).unclaimed.length) ∧
    ((s.slot 0 .b).passed = false ∧ (s.port .b).unclaimed.length < 32) := by decide

theorem witness_OtherAnswersOnlyRemoveTheNotice :
    (noticed awaited).resetAsserted = false ∧ base.resetAsserted = false ∧ ((noticed awaited).port .b).outbound.tx = .answer 100 ∧
      ((noticed awaited).port .b).queue.notices = .takeEnded 0x0109 .expired :: [] ∧
      (Notice.takeEnded 0x0109 .expired).isArrival = false ∧ ∀ t, (base.port .b).outbound.tx ≠ .answer t :=
  ⟨rfl, rfl, by decide, by decide, by decide, fun _ h => by cases h⟩

/-- Room for exactly the two bytes of the access; nothing owed; OUTBOUND; IDLE. -/
theorem witness_LaneWriteEntersTheFifo :
    let l := ((wide .a (sending 100 (inboundLane (List.replicate 30 0) 70 100))).port .a).lane
    ((wide .a (sending 100 (inboundLane (List.replicate 30 0) 70 100))).resetAsserted = false ∧
      (sending 4 (inboundLane [1] 0 1)).resetAsserted = false ∧ (delivering 3 3 (outboundLane [] 3 3)).resetAsserted = false ∧
      base.resetAsserted = false) ∧ (l.owner = .inbound 0 ∧ 0 < l.hostCount ∧ l.fifo.length + [(1 : Byte), 2].length ≤ 32) ∧
    (((sending 4 (inboundLane [1] 0 1)).port .a).lane.owner = .inbound 0 ∧ ((sending 4 (inboundLane [1] 0 1)).port .a).lane.hostCount = 0)
      ∧ ((delivering 3 3 (outboundLane [] 3 3)).port .b).lane.owner = .outbound 0 ∧ (base.port .a).lane.owner = .idle := by decide

theorem witness_OverrunAbandonsTheMessage :
    let s := wide .a (sending 100 (inboundLane (List.replicate 31 0) 69 100))
    s.resetAsserted = false ∧ (s.port .a).lane.owner = .inbound 0 ∧ (s.desc 0).sender = .a ∧ 0 < (s.port .a).lane.hostCount ∧
      32 < (s.port .a).lane.fifo.length + (if (s.port .a).width = .bits16 ∧ (s.port .a).lane.hostCount ≠ 1 then 2 else 1) := by decide

/-- Two bytes on a 16-bit port; one byte on an 8-bit port; too few; INBOUND; IDLE. -/
theorem witness_LaneReadTakesTheOldestBytes :
    let w := (wide .b (delivering 3 3 (outboundLane [1, 2] 3 1))).port .b
    let n := (delivering 3 3 (outboundLane [1] 2 1)).port .b
    ((wide .b (delivering 3 3 (outboundLane [1, 2] 3 1))).resetAsserted = false ∧
      (delivering 3 3 (outboundLane [1] 2 1)).resetAsserted = false ∧
        (delivering 3 3 (outboundLane [] 3 3)).resetAsserted = false ∧
      (sending 4 (inboundLane [1] 3 4)).resetAsserted = false ∧ base.resetAsserted = false) ∧
    (w.lane.owner = .outbound 0 ∧ w.width = .bits16 ∧ w.lane.hostCount ≠ 1 ∧ 2 < w.lane.hostCount ∧ w.lane.fifo = 1 :: 2 :: []) ∧
    (n.lane.owner = .outbound 0 ∧ n.width = .bits8 ∧ 1 < n.lane.hostCount ∧ n.lane.fifo = 1 :: []) ∧
    ((delivering 3 3 (outboundLane [] 3 3)).port .b).lane.fifo.length < 1 ∧
    ((sending 4 (inboundLane [1] 3 4)).port .a).lane.owner = .inbound 0 ∧ (base.port .a).lane.owner = .idle := by decide

/-- One byte; two bytes on a 16-bit port. -/
theorem witness_LastReadEndsTheDelivery :
    let s := delivering 3 2 (outboundLane [5] 1 0)
    let w := wide .b (delivering 3 2 (outboundLane [5, 6] 2 0))
    let m : MatchedTake := { fields := wish 2, bound := 0, delivered := 2 }
    (∀ u ∈ [s, w], u.resetAsserted = false ∧ (u.port .b).lane.owner = .outbound 0 ∧
      (u.port .b).takes.matched = [] ++ m :: [] ∧ m.bound = 0 ∧ ((u.desc 0).slots.get .b).state = .moving) ∧
    ((s.port .b).lane.hostCount = 1 ∧ (s.port .b).lane.fifo = [5]) ∧
    ((w.port .b).width = .bits16 ∧ (w.port .b).lane.hostCount = 2 ∧ (w.port .b).lane.fifo = [5, 6]) := by decide

theorem witness_PurgeEndsTheTransfer :
    let s := sending 4 (inboundLane [1] 3 4)
    let u := delivering 3 2 (outboundLane [5] 1 0)
    let m : MatchedTake := { fields := wish 2, bound := 0, delivered := 2 }
    (base.resetAsserted = false ∧ s.resetAsserted = false ∧ u.resetAsserted = false) ∧ (base.port .a).lane.owner = .idle ∧
      ((s.port .a).lane.owner = .inbound 0 ∧ (s.desc 0).sender = .a) ∧
      ((u.port .b).lane.owner = .outbound 0 ∧ (u.port .b).takes.matched = [] ++ m :: [] ∧ m.bound = 0 ∧
        ((u.desc 0).slots.get .b).state = .moving) := by decide

/-- Both widths; address 5 is the odd half of location 4, address 7 undecoded on an 8-bit port. -/
theorem witness_ControlsChangeWhatTheyName :
    ((wide .a base).resetAsserted = false ∧ ((wide .a base).port .a).width = .bits16 ∧
      ((5 : BitVec 3) = 4 ∨ (5 : BitVec 3) = 5)) ∧
    (base.resetAsserted = false ∧ (base.port .a).width = .bits8 ∧
      ((7 : BitVec 3) = 1 ∨ (7 : BitVec 3) = 3 ∨ (7 : BitVec 3) = 7)) := by
  decide

theorem witness_PortResetClearsThePort :
    (base.resetAsserted = false ∧ lapsed.resetAsserted = false) ∧ (base.port .a).session.state = .opened ∧
      ((lapsed.port .b).session.state ≠ .opened ∧ (lapsed.port .b).lane.owner = .idle) := by
  decide

theorem witness_StatusShowsTheFields :
    base.assertResetPin.resetAsserted = true ∧
    ((wide .a base).resetAsserted = false ∧ ((wide .a base).port .a).width = .bits16 ∧
      ((wide .a base).port .a).inbound.stray ≤ 63) ∧
    (base.resetAsserted = false ∧ (base.port .a).width = .bits8) := by decide

/-- Nothing due as the count wraps; a byte deadline outstanding in a sound state. -/
theorem witness_TickRaisesTheCount :
    (({ base with tickCount := 0xFFFFFFFF } : State).resetAsserted = false ∧
      ({ base with tickCount := 0xFFFFFFFF } : State).NothingDue) ∧
    ((busy false).resetAsserted = false ∧ (busy false).sound ∧ (busy false).byteDeadlineReached .b = true) :=
  ⟨⟨rfl, {
      takes := by intro p; cases p <;> decide, holds := by intro p; cases p <;> decide,
      marks := by intro p; cases p <;> decide,
      framing := by intro p; cases p <;> exact ⟨nofun, nofun, nofun⟩,
      lanes := by intro p; cases p <;> decide, grants := by intro p; cases p <;> decide }⟩, rfl, busy_sound, by decide⟩

theorem witness_TakeDeadlineEndsTheDueTakes :
    let due (s : State) := (s.port .b).takes.posted.filter (fun t => t.deadline == some s.tickCount)
    (posted 110).resetAsserted = false ∧ (posted 100).resetAsserted = false ∧ due (posted 110) = [] ∧
      due (posted 100) ≠ [] := by decide

theorem witness_HoldExpirySettlesWaitingCopies :
    (busy false).resetAsserted = false ∧ (busy false).copiesSound ∧ ((busy false).port .b).session.state = .opened ∧
      ((busy false).port .c).session.state ≠ .opened := ⟨rfl, busy_copiesSound _, by decide, by decide⟩

/-- A MOVING copy whose deadline is the tick count. -/
theorem witness_HoldDeadlineMarksBoundCopies :
    let s : State := { delivering 3 3 (outboundLane [1] 3 2) with tickCount := 105 }
    s.resetAsserted = false ∧ (s.port .b).session.state = .opened ∧ (s.slot 0 .b).state = .moving ∧
      (s.slot 0 .b).deadline = some s.tickCount := by decide

theorem witness_FramingDeadlineLapsesThePort :
    ((noticed presented).resetAsserted = false ∧ (noticed awaited).resetAsserted = false ∧ base.resetAsserted = false) ∧
    ((noticed presented).port .b).outbound.tx = .data 1 (noticed presented).tickCount ∧
      ((noticed awaited).port .b).outbound.tx = .answer (noticed awaited).tickCount ∧
      ((∀ n, (base.port .b).outbound.tx ≠ .data n base.tickCount) ∧ (base.port .b).outbound.tx ≠ .length base.tickCount) ∧
      (base.port .b).outbound.tx ≠ .answer base.tickCount :=
  ⟨by decide, by decide, by decide, ⟨fun _ h => (by cases h), by decide⟩, by decide⟩

/-- The letter is on its way to B, the lane's stall deadline reached. -/
def stalled : State := { delivering 3 3 (outboundLane [1] 3 2) with tickCount := 600 }

theorem stalled_copiesSound : stalled.copiesSound where
  waiting_iff := by intro d p; cases p <;> revert d <;> decide
  list_nodup := by intro p; cases p <;> decide
  matched_iff := by intro d p; cases p <;> revert d <;> decide
  matched_nodup := by intro p; cases p <;> decide
  moving_iff := by intro d p; cases p <;> revert d <;> decide
  labels_nodup := by intro p; cases p <;> decide
  delivered_eq := by intro p; cases p <;> decide
  arrivals_iff := by
    intro p l
    constructor
    · intro h
      cases p <;> exact (List.not_mem_nil h).elim
    · rintro ⟨t, ht, _, hb⟩
      cases p with
      | b => obtain rfl := List.mem_singleton.mp ht; cases hb
      | a => exact (List.not_mem_nil ht).elim
      | c => exact (List.not_mem_nil ht).elim
      | d => exact (List.not_mem_nil ht).elim
  arrivals_nodup := by intro p; cases p <;> decide
  held_iff := by decide
  unheld_blank := by decide
  tally_sum := by decide
  inbound_iff := by intro d p; cases p <;> revert d <;> decide
  inbound_count := by intro d p; cases p <;> revert d <;> decide

/-- A byte deadline, an answer deadline, a close, a reopen with the longest answer limit, and an outbound stall. -/
theorem witness_SessionEndSettlesCopiesUndeliverable :
    ((busy false).resetAsserted = false ∧ (busy false).copiesSound ∧ ((busy false).port .b).session.state = .opened ∧
      (busy false).byteDeadlineReached .b = true ∧ ((2000 : Half) = 0 ∨ (10 ≤ (2000 : Half).toNat ∧ (2000 : Half).toNat ≤ 2000)) ∧
      (∃ t, exec (.byteDeadline .b) (busy false) = .next t) ∧ (∃ t, exec (.closePort .b) (busy false) = .next t) ∧
      ∃ t, exec (.openPort .b 2000) (busy false) = .next t) ∧
    ((busy true).resetAsserted = false ∧ (busy true).copiesSound ∧ ((busy true).port .b).session.state = .opened ∧
      (busy true).answerDeadlineReached .b = true ∧ ∃ t, exec (.answerDeadline .b) (busy true) = .next t) ∧
    (stalled.resetAsserted = false ∧ stalled.copiesSound ∧ (stalled.port .b).session.state = .opened ∧
      (stalled.port .b).lane.owner = .outbound 0 ∧ (stalled.port .b).lane.stall = some stalled.tickCount ∧
      ∃ t, exec (.outboundStall .b) stalled = .next t) :=
  ⟨⟨rfl, busy_copiesSound _, by decide, by decide, by decide, ⟨_, rfl⟩, ⟨_, rfl⟩, _, rfl⟩,
    ⟨rfl, busy_copiesSound _, by decide, by decide, _, rfl⟩, ⟨rfl, stalled_copiesSound, by decide, by decide, by decide, _, rfl⟩⟩

/-- The RECEIPT clauses of the statements that end a session or expire holds: A's RECEIPT for its letter is due at
each of them. -/
theorem witness_receipts_are_due :
    ((busy false).resetAsserted = false ∧ (busy false).copiesSound ∧ ((busy false).port .b).session.state = .opened ∧
      Port.a ≠ Port.b ∧ (busy false).receiptsDue .b .a ((busy false).tornCopies .b) ≠ [] ∧
      (busy false).receiptsDue .b .a [{ desc := 0, outcome := .expired }] ≠ []) ∧
    (stalled.copiesSound ∧ stalled.receiptsDue .b .a (stalled.stalledCopies .b 0) ≠ []) :=
  ⟨⟨rfl, busy_copiesSound _, by decide, by decide, by decide, by decide⟩, stalled_copiesSound, by decide⟩

theorem witness_StalledLaneEndsItsTransfer :
    let s : State := { sending 4 (inboundLane [1] 3 4) with tickCount := 600 }
    (s.resetAsserted = false ∧ stalled.resetAsserted = false ∧ base.resetAsserted = false) ∧
      ((s.port .a).lane.owner = .inbound 0 ∧ (s.desc 0).sender = .a ∧ (s.port .a).lane.stall = some s.tickCount) ∧
    (stalled.copiesSound ∧ (stalled.port .b).session.state = .opened ∧ (stalled.port .b).lane.owner = .outbound 0 ∧
      (stalled.port .b).lane.stall = some stalled.tickCount) ∧
    (base.port .a).lane.stall ≠ some base.tickCount :=
  ⟨by decide, by decide, ⟨stalled_copiesSound, by decide, by decide, by decide⟩, by decide⟩

/-- No lane is ready; an INBOUND lane with the 16 bytes that make it so; an OUTBOUND lane with 16 places free. -/
theorem witness_GrantMovesAChunk :
    let s := sending 40 (inboundLane (List.replicate 16 7) 24 40)
    let u := delivering 40 40 (outboundLane (List.replicate 16 7) 40 24)
    let m : MatchedTake := { fields := wish 40, bound := 0, delivered := 40 }
    (base.resetAsserted = false ∧ s.resetAsserted = false ∧ u.resetAsserted = false) ∧
      Port.all.all (fun p => (base.port p).lane.poolCount == 0) = true ∧
    ([s.pointer.next, s.pointer.next.next, s.pointer.next.next.next, s.pointer] = [] ++ .a :: [.b, .c, .d] ∧
      (s.port .a).lane.owner = .inbound 0 ∧ 0 < (s.port .a).lane.poolCount ∧ 16 ≤ (s.port .a).lane.fifo.length ∧
      min (min 16 40) (min (256 - (s.desc 0).bytesInPool % 256) 16) < (s.port .a).lane.poolCount) ∧
    ([u.pointer.next, u.pointer.next.next, u.pointer.next.next.next, u.pointer] = [.a] ++ .b :: [.c, .d] ∧
      (u.port .a).lane.poolCount = 0 ∧ (u.port .b).lane.owner = .outbound 0 ∧ 0 < (u.port .b).lane.poolCount ∧
      16 ≤ 32 - (u.port .b).lane.fifo.length ∧ (u.port .b).takes.matched = [] ++ m :: [] ∧ m.bound = 0) := by decide

theorem witness_LastGrantCompletesTheMessage :
    let s := sending 2 (inboundLane [5, 6] 0 2)
    let l := (s.port .a).lane
    (s.resetAsserted = false ∧
      [s.pointer.next, s.pointer.next.next, s.pointer.next.next.next, s.pointer] = [] ++ .a :: [.b, .c, .d] ∧
      l.owner = .inbound 0 ∧ 0 < l.poolCount ∧ l.poolCount ≤ l.fifo.length ∧
      min (min 16 l.poolCount) (min (256 - (s.desc 0).bytesInPool % 256) l.fifo.length) = l.poolCount) ∧
    ((s.desc 0).destination = .port .b ∧ (s.desc 0).slots = PerPort.replicate CopySlot.empty ∧ (s.desc 0).tally = Tally.zero ∧
      (s.port .b).session.state = .opened ∧ (s.port .b).unclaimed.length < 32 ∧ (s.port .b).takes.posted = []) := by decide

/-- Every lane INBOUND with 16 bytes of its own message, A the last in the rotation. -/
def crowd : State :=
  let lane (d : DescNo) : Lane := { inboundLane (List.replicate 16 7) 84 100 with owner := .inbound d }
  { base with
    pointer := .a,
    ports := ⟨{ base.port .a with lane := lane 0 }, { base.port .b with lane := lane 1 },
      { base.port .c with lane := lane 2 }, { base.port .d with lane := lane 3 }⟩ }

theorem witness_EligibleLaneIsServedWithinFourGrants :
    crowd.resetAsserted = false ∧ ∀ k, k < 4 → ((crowd.afterTimes .grant k).port .a).lane.eligible = true := by decide

theorem witness_StoredPayloadIsReadBack :
    Memory.wf [(255, 1)] = true ∧ ([3, 0] : List Nat).Nodup ∧ 510 + [(1 : Byte), 2].length ≤ 256 * ([3, 0] : List Nat).length ∧
      ∀ i, i < [(1 : Byte), 2].length → ∀ seg, ([3, 0] : List Nat)[(510 + i) / 256]? = some seg →
        253 ≠ 256 * seg + (510 + i) % 256 := by
  refine ⟨by decide, by decide, by decide, ?_⟩
  intro i hi seg h
  simp at hi
  interval_cases i <;> simp at h <;> subst h <;> decide

end Sys2Proof.Tests
end

