-- ==== Sys2Proof/Proofs/Payload.lean ====
section
/-! PROOFS. Payload positions: where they lie in the pool, and what is read back after a store (O51). -/

namespace Sys2Proof.Machine

theorem payloadAddress_eq_some {chain : List Nat} {k a : Nat} :
    payloadAddress chain k = some a ↔ ∃ seg, chain[k / 256]? = some seg ∧ 256 * seg + k % 256 = a := by
  simp [payloadAddress]

/-- Two positions of a chain of distinct segments never share an address (R3). -/
theorem payloadAddress_injective {chain : List Nat} (hnd : chain.Nodup) {i j a : Nat}
    (hi : payloadAddress chain i = some a) (hj : payloadAddress chain j = some a) : i = j := by
  obtain ⟨seg, hseg, rfl⟩ := payloadAddress_eq_some.mp hi
  obtain ⟨seg', hseg', ha⟩ := payloadAddress_eq_some.mp hj
  obtain rfl : seg' = seg := by omega
  have hlt : i / 256 < chain.length := (List.getElem?_eq_some_iff.mp hseg).1
  have hdiv : i / 256 = j / 256 := (List.getElem?_inj hlt hnd).mp (hseg.trans hseg'.symm)
  omega

/-- Every position a chain reaches has an address. -/
theorem payloadAddress_of_lt {chain : List Nat} {k : Nat} (h : k < 256 * chain.length) :
    ∃ a, payloadAddress chain k = some a := by
  have hlt : k / 256 < chain.length := by omega
  exact ⟨_, payloadAddress_eq_some.mpr ⟨chain[k / 256], List.getElem?_eq_getElem hlt, rfl⟩⟩

/-- The byte stored at the `i`th position of a chunk is the byte read there. -/
theorem Memory.payloadByte_storePayload (bytes : List Byte) (m : Memory) (chain : List Nat) (k : Nat)
    (hm : m.wf = true) (hnd : chain.Nodup) (hfit : k + bytes.length ≤ 256 * chain.length) (i : Nat) (hi : i < bytes.length) :
    Memory.payloadByte (m.storePayload chain k bytes) chain (k + i) = bytes[i] := by
  induction bytes generalizing m k i with
  | nil => simp at hi
  | cons b rest ih =>
    simp only [List.length_cons] at hfit hi
    obtain ⟨a, ha⟩ := payloadAddress_of_lt (show k < 256 * chain.length by omega)
    have hstore : m.storePayload chain k (b :: rest) = (m.write a b).storePayload chain (k + 1) rest := by
      simp [Memory.storePayload, ha]
    rw [hstore]
    cases i with
    | zero =>
      have hlater : ∀ j, j < rest.length → payloadAddress chain (k + 1 + j) ≠ some a := fun j _ hj => by
        have := payloadAddress_injective hnd ha hj
        omega
      simp only [Nat.add_zero, Memory.payloadByte, ha, List.getElem_cons_zero]
      rw [Memory.read_storePayload_other rest _ chain (k + 1) a hlater, Memory.read_write_same m a b hm]
    | succ j =>
      rw [show k + (j + 1) = k + 1 + j by omega]
      exact ih _ (k + 1) (Memory.write_wf m a b hm) (by omega) j (by omega)

/-- A chunk stored in a chain of distinct segments is read back whole. -/
theorem Memory.loadPayload_storePayload (bytes : List Byte) (m : Memory) (chain : List Nat) (k : Nat)
    (hm : m.wf = true) (hnd : chain.Nodup) (hfit : k + bytes.length ≤ 256 * chain.length) :
    (m.storePayload chain k bytes).loadPayload chain k bytes.length = bytes := by
  refine List.ext_getElem (by simp [Memory.loadPayload]) fun i _ hi => ?_
  simp only [Memory.loadPayload, List.getElem_map, List.getElem_range]
  exact Memory.payloadByte_storePayload bytes m chain k hm hnd hfit i hi

/-- Settles O51, by induction over the bytes stored: each has its own address, since the chain's segments are
distinct. -/
theorem storedPayloadIsReadBack : Obligations.StoredPayloadIsReadBack := by
  intro m chain k bytes hm
  refine ⟨Memory.storePayload_wf bytes m chain k hm, Memory.loadPayload_storePayload bytes m chain k hm, fun a ha => ?_⟩
  refine Memory.read_storePayload_other bytes m chain k a fun i hi hai => ?_
  obtain ⟨seg, hseg, heq⟩ := payloadAddress_eq_some.mp hai
  exact ha i hi seg hseg heq.symm

end Sys2Proof.Machine
end

