-- ==== Sys2Proof/Proofs/Settlement.lean ====
section
/-! PROOFS. Settlement: the RECEIPT of a descriptor that is settled, what the sender's queue becomes, and what a run of
settlements does (O20). -/

namespace Sys2Proof.Machine

/-! ### The receipt check and the one RECEIPT of a settlement -/

theorem State.receiptCheck_iff (s : State) (d : DescNo) :
    s.receiptCheck d = true ↔ (s.desc d).receiptWanted = true
      ∧ (s.port (s.desc d).sender).session.state = .opened
      ∧ (s.port (s.desc d).sender).session.tearingDown = false
      ∧ (s.port (s.desc d).sender).session.epoch = (s.desc d).senderEpoch := by
  simp [State.receiptCheck, and_assoc]

/-- The check reads the descriptor and the sender's session alone. -/
theorem State.receiptCheck_congr {s t : State} {d : DescNo} (hd : t.desc d = s.desc d)
    (hp : (t.port (s.desc d).sender).session = (s.port (s.desc d).sender).session) : t.receiptCheck d = s.receiptCheck d := by
  simp [State.receiptCheck, hd, hp]

/-- The RECEIPT of a descriptor settled now (R9, R11). -/
def Descriptor.closingReceipt (x : Descriptor) : Receipt :=
  { senderLabel := x.label, status := .complete, copiesMade := x.settledCount, tally := x.tally }

/-- The RECEIPT that port `q` gets when descriptor `d` is settled: one, when `q` sent the message and passes the receipt
check (R10). -/
def State.closingReceipt (s : State) (q : Port) (d : DescNo) : Option Receipt :=
  if (s.desc d).sender = q ∧ s.receiptCheck d = true then some (s.desc d).closingReceipt else none

@[simp] theorem PortState.receive_nil (now : Tick) (ps : PortState) : ps.receive now [] = ps := rfl

@[simp] theorem PortState.receive_cons (now : Tick) (r : Receipt) (rs : List Receipt) (ps : PortState) :
    ps.receive now (r :: rs) = (ps.appendReceipt now r).receive now rs := rfl

theorem PortState.receive_append (now : Tick) (rs rs' : List Receipt) (ps : PortState) :
    ps.receive now (rs ++ rs') = (ps.receive now rs).receive now rs' :=
  List.foldl_append

theorem PortState.receive_onlyNotices (now : Tick) (rs : List Receipt) (ps : PortState) : ps.OnlyNotices (ps.receive now rs) := by
  induction rs generalizing ps with
  | nil => exact PortState.OnlyNotices.refl ps
  | cons r rs ih => exact (PortState.appendReceipt_onlyNotices now r ps).trans (ih _)

/-- RECEIPTs join the tail of a queue, except those that find it full (R120). -/
theorem PortState.receive_notices (now : Tick) (rs : List Receipt) (ps : PortState) :
    ∃ kept : List Receipt, (ps.receive now rs).queue.notices = ps.queue.notices ++ kept.map Notice.receipt := by
  induction rs generalizing ps with
  | nil => exact ⟨[], by simp⟩
  | cons r rs ih =>
    obtain ⟨kept, hkept⟩ := ih (ps.appendReceipt now r)
    rw [PortState.receive_cons, hkept]
    obtain h | ⟨h, -, -⟩ := PortState.appendReceipt_notices now r ps
    · exact ⟨r :: kept, by simp [h]⟩
    · exact ⟨kept, by rw [h]⟩

/-- Where a queued RECEIPT goes: to the sender that passes the check. -/
theorem State.queueReceipt_port_eq (s : State) (d : DescNo) (st : ReceiptStatus) (n : Nat) (t : Tally) (q : Port) :
    (s.queueReceipt d st n t).port q =
      if (s.desc d).sender = q ∧ s.receiptCheck d = true then
        (s.port q).appendReceipt s.tickCount { senderLabel := (s.desc d).label, status := st, copiesMade := n, tally := t }
      else s.port q := by
  obtain ⟨hc, h⟩ | ⟨hc, h⟩ := s.queueReceipt_cases d st n t <;> rw [h]
  · simp [hc]
  · by_cases hq : (s.desc d).sender = q
    · subst hq
      simp [hc]
    · simp [hq, Ne.symm hq]

theorem State.settleDescriptor_port_eq (s : State) (d : DescNo) (q : Port) :
    (s.settleDescriptor d).port q = (s.port q).receive s.tickCount (s.closingReceipt q d).toList := by
  show (s.queueReceipt d .complete (s.desc d).settledCount (s.desc d).tally).port q = _
  rw [State.queueReceipt_port_eq, State.closingReceipt]
  split <;> rfl

/-- An abandonment brings its sender at most one RECEIPT (R13). -/
theorem State.abandon_port_eq (s : State) (d : DescNo) (q : Port) :
    (s.abandon d).port q = (s.port q).receive s.tickCount
      (if (s.desc d).sender = q ∧ s.receiptCheck d = true then
        [{ senderLabel := (s.desc d).label, status := .abandoned, copiesMade := 0, tally := Tally.zero }] else []) := by
  show (s.queueReceipt d .abandoned 0 Tally.zero).port q = _
  rw [State.queueReceipt_port_eq]
  split <;> rfl

/-- A HELD descriptor without a live copy, which a settlement frees (R9). -/
def State.isDone (s : State) (d : DescNo) : Bool := (s.desc d).state == .held && (s.desc d).liveCount == 0

theorem State.isDone_iff (s : State) (d : DescNo) : s.isDone d = true ↔ (s.desc d).state = .held ∧ (s.desc d).liveCount = 0 := by
  simp [State.isDone]

theorem State.settleIfDone_of_done {s : State} {d : DescNo} (h : s.isDone d = true) : s.settleIfDone d = s.settleDescriptor d := by
  show (if s.isDone d = true then _ else _) = _
  rw [if_pos h]

theorem State.settleIfDone_of_not_done {s : State} {d : DescNo} (h : s.isDone d = false) : s.settleIfDone d = s := by
  show (if s.isDone d = true then _ else _) = _
  rw [if_neg (by simp [h])]

/-- Settles O20: the chain, the RECEIPT and the freed descriptor are those of one settlement. -/
theorem lastCopySettlesTheDescriptor : Obligations.LastCopySettlesTheDescriptor := by
  intro s d hheld hlive x c t
  have ht : t = s.settleDescriptor d := State.settleIfDone_of_done ((s.isDone_iff d).mpr ⟨hheld, hlive⟩)
  have hfreed := s.settleDescriptor_freed d
  have hport : t.port x.sender = if s.receiptCheck d = true then c.appendReceipt s.tickCount x.closingReceipt else c := by
    rw [ht]
    exact (s.queueReceipt_port_eq d _ _ _ _).trans (by simp [x, c, Descriptor.closingReceipt])
  refine ⟨ht ▸ hfreed.freed, ht ▸ hfreed.others, fun n => ?_, ?_, ?_, ht ▸ hfreed.elsewhere, ?_, ?_⟩
  · rw [ht, hfreed.free, mem_releaseSegments, or_comm]
  · rw [ht, hfreed.free, releaseSegments_length, Nat.add_comm]
  · rw [ht, hfreed.held]
    rfl
  · intro hw ho htd he receipt
    have hcheck : s.receiptCheck d = true := (s.receiptCheck_iff d).mpr ⟨hw, ho, htd, he⟩
    rw [if_pos hcheck] at hport
    refine ⟨fun hres => ?_, fun h0 h24 => ?_, fun h0 h24 => ?_⟩ <;> rw [hport, PortState.appendReceipt]
    · rw [if_pos hres]
      rfl
    · rw [if_neg (by omega), if_pos h24]
      rfl
    · rw [if_neg (by omega), if_neg (by omega)]
  · intro hfail
    rw [hport, if_neg]
    intro hcheck
    obtain ⟨hw, ho, htd, he⟩ := (s.receiptCheck_iff d).mp hcheck
    rcases hfail with h | h | h | h <;> simp_all [x, c]

end Sys2Proof.Machine
end

