-- ==== Sys2Proof/Proofs/Completion.lean ====
section
/-! PROOFS. The completion of a unicast message and the grant that brings it about (O18, O49). -/

namespace Sys2Proof.Machine

/-! ### The words of statements, in the model's operations -/

theorem State.modDesc_eq_putDesc (s : State) (d : DescNo) (f : Descriptor → Descriptor) :
    s.modDesc d f = s.putDesc d (f (s.desc d)) := rfl

theorem State.modPort_eq_putPort (s : State) (p : Port) (f : PortState → PortState) :
    s.modPort p f = s.putPort p (f (s.port p)) := rfl

theorem State.modPort_modDesc (s : State) (p : Port) (d : DescNo) (f : PortState → PortState) (g : Descriptor → Descriptor) :
    (s.modPort p f).modDesc d g = (s.modDesc d g).modPort p f := rfl

theorem deadline_of_hold (x : Descriptor) :
    x.holdDeadline = if x.hold = 0 then none else some (x.completionTick + BitVec.ofNat 32 x.hold) := by
  unfold Descriptor.holdDeadline deadlineAfter
  by_cases h : x.hold = 0 <;> simp [h, Nat.pos_iff_ne_zero]

/-! ### Matching, by the state of the port -/

section Matching

variable {s : State} {d : DescNo} {q : Port}

theorem State.matchCopy_of_closed (hclosed : (s.port q).isOpen = false) :
    s.matchCopy d q = (s.newCopy d q).settleCopy d q .undeliverable := by
  obtain ⟨-, h⟩ | ⟨hopen, -⟩ := s.matchCopy_cases d q
  · exact h
  · simp [hclosed] at hopen

theorem State.matchCopy_of_match (hopen : (s.port q).isOpen = true) {ahead behind : List PostedTake} {t : PostedTake}
    (hposted : (s.port q).takes.posted = ahead ++ t :: behind)
    (hahead : ∀ u ∈ ahead, u.fields.accepts ((s.newCopy d q).desc d) = false)
    (ht : t.fields.accepts ((s.newCopy d q).desc d) = true) :
    s.matchCopy d q = ((s.newCopy d q).modPort q (fun x => { x with takes := { x.takes with posted := ahead ++ behind } })).bindCopy
      q t.fields d := by
  obtain ⟨hclosed, -⟩ | ⟨-, ⟨ahead', t', behind', hposted', hahead', ht', h⟩ | ⟨hnone, -⟩⟩ := s.matchCopy_cases d q
  · simp [hclosed] at hopen
  · have hfind : ∀ (a b : List PostedTake) (v : PostedTake), (∀ u ∈ a, u.fields.accepts ((s.newCopy d q).desc d) = false) →
        v.fields.accepts ((s.newCopy d q).desc d) = true →
        (a ++ v :: b).find? (fun u => u.fields.accepts ((s.newCopy d q).desc d)) = some v ∧
          (a ++ v :: b).eraseP (fun u => u.fields.accepts ((s.newCopy d q).desc d)) = a ++ b := fun a b v ha hv => by
      refine ⟨List.find?_eq_some_iff_append.mpr ⟨hv, a, b, rfl, fun u hu => by simp [ha u hu]⟩, ?_⟩
      rw [List.eraseP_append_right _ (fun u hu => by simp [ha u hu])]
      simp [hv]
    obtain ⟨hf, he⟩ := hfind ahead behind t hahead ht
    obtain ⟨hf', he'⟩ := hfind ahead' behind' t' hahead' ht'
    rw [← hposted] at hf he
    rw [← hposted'] at hf' he'
    obtain rfl : t = t' := Option.some.inj (hf.symm.trans hf')
    rw [h, ← he, he']
  · have := hnone t (by simp [hposted])
    simp [ht] at this

theorem State.matchCopy_of_room (hopen : (s.port q).isOpen = true)
    (hnone : ∀ u ∈ (s.port q).takes.posted, u.fields.accepts ((s.newCopy d q).desc d) = false)
    (hroom : (s.port q).unclaimed.length < 32) :
    s.matchCopy d q = ((s.newCopy d q).modPort q (fun x => { x with unclaimed := x.unclaimed ++ [d] })).modSlot d q
      (fun sl => { sl with state := .waiting }) := by
  obtain ⟨hclosed, -⟩ | ⟨-, ⟨ahead, t, behind, hposted, -, ht, -⟩ | ⟨-, ⟨-, h⟩ | ⟨hfull, -⟩⟩⟩ := s.matchCopy_cases d q
  · simp [hclosed] at hopen
  · simp [hnone t (by simp [hposted])] at ht
  · exact h
  · omega

theorem State.matchCopy_of_full (hopen : (s.port q).isOpen = true)
    (hnone : ∀ u ∈ (s.port q).takes.posted, u.fields.accepts ((s.newCopy d q).desc d) = false)
    (hfull : 32 ≤ (s.port q).unclaimed.length) : s.matchCopy d q = (s.newCopy d q).settleCopy d q .dropped := by
  obtain ⟨hclosed, -⟩ | ⟨-, ⟨ahead, t, behind, hposted, -, ht, -⟩ | ⟨-, ⟨hroom, -⟩ | ⟨-, h⟩⟩⟩ := s.matchCopy_cases d q
  · simp [hclosed] at hopen
  · simp [hnone t (by simp [hposted])] at ht
  · omega
  · exact h

end Matching

/-! ### A single copy -/

/-- A descriptor has no live copy exactly when no slot is live (R6). -/
theorem Descriptor.liveCount_eq_zero_iff (x : Descriptor) : x.liveCount = 0 ↔ ∀ p, (x.slots.get p).state.live = false := by
  simp [Descriptor.liveCount, List.countP_eq_zero, Port.mem_all]

theorem Descriptor.liveCount_pos_iff (x : Descriptor) : 0 < x.liveCount ↔ ∃ p, (x.slots.get p).state.live = true := by
  simp [Descriptor.liveCount, List.countP_pos_iff, Port.mem_all]

/-- The slot of a copy made at completion (R7). -/
def State.madeSlot (s : State) (d : DescNo) (slot : SlotState) : CopySlot :=
  { state := slot, passed := false,
    deadline := if (s.desc d).hold = 0 then none else some (s.tickCount + BitVec.ofNat 32 (s.desc d).hold) }

/-- The message of `d` with its one copy made, for port `q`, in a given state (R4). -/
def State.madeDesc (s : State) (d : DescNo) (q : Port) (slot : SlotState) (st : DescState) (t : Tally) : Descriptor :=
  { s.desc d with
    completionTick := s.tickCount, state := st, tally := t, slots := (s.desc d).slots.set q (s.madeSlot d slot) }

/-- Step 1 of a completion: the tick is stored (R4). -/
def State.stamped (s : State) (d : DescNo) : State := s.modDesc d (fun x => { x with completionTick := s.tickCount })

/-- Step 3: a copy is made and matched for each recipient (R4). -/
def State.matched (s : State) (d : DescNo) : State :=
  ((s.stamped d).recipients d).foldl (fun t q => t.matchCopy d q) (s.stamped d)

theorem State.complete_eq (s : State) (d : DescNo) :
    s.complete d = if 0 < ((s.matched d).desc d).liveCount then (s.matched d).modDesc d (fun x => { x with state := .held })
      else (s.matched d).settleDescriptor d := rfl

theorem State.newCopy_stamped (s : State) (d : DescNo) (q : Port) :
    (s.stamped d).newCopy d q =
      s.putDesc d (s.madeDesc d q (s.slot d q).state (s.desc d).state (s.desc d).tally) := by
  simp only [State.newCopy, State.stamped, State.modSlot, State.modDesc_modDesc, State.modDesc_desc_same, deadline_of_hold]
  rfl

/-- The copy just made is settled, bound or sent to the list (R28, R44, R45). -/
theorem State.made_settleCopy (s : State) (d : DescNo) (q : Port) (slot : SlotState) (st : DescState) (t : Tally) (o : CopyOutcome)
    (h : slot.isSettled = false) :
    (s.putDesc d (s.madeDesc d q slot st t)).settleCopy d q o = s.putDesc d (s.madeDesc d q (.settled o) st (t.count o)) := by
  have hx : (s.madeDesc d q slot st t).settleCopy q o = s.madeDesc d q (.settled o) st (t.count o) := by
    simp [Descriptor.settleCopy, State.madeDesc, State.madeSlot, h, PerPort.modify]
  rw [← hx, State.settleCopy, ← State.modDesc_eq_putDesc s d (fun _ => s.madeDesc d q slot st t), State.modDesc_modDesc]
  rfl

theorem State.made_modSlot (s : State) (d : DescNo) (q : Port) (slot slot' : SlotState) (st : DescState) (t : Tally) :
    (s.putDesc d (s.madeDesc d q slot st t)).modSlot d q (fun sl => { sl with state := slot' }) =
      s.putDesc d (s.madeDesc d q slot' st t) := by
  rw [State.modSlot, ← State.modDesc_eq_putDesc s d (fun _ => s.madeDesc d q slot st t), State.modDesc_modDesc]
  simp [State.modDesc_eq_putDesc, State.madeDesc, State.madeSlot, PerPort.modify]

theorem State.made_held (s : State) (d : DescNo) (q : Port) (slot : SlotState) (st : DescState) (t : Tally) :
    (s.putDesc d (s.madeDesc d q slot st t)).modDesc d (fun x => { x with state := .held }) =
      s.putDesc d (s.madeDesc d q slot .held t) := by
  rw [← State.modDesc_eq_putDesc s d (fun _ => s.madeDesc d q slot st t), State.modDesc_modDesc]
  rfl

@[simp] theorem State.putDesc_desc (s : State) (d : DescNo) (x : Descriptor) : (s.putDesc d x).desc d = x :=
  State.modDesc_desc_same s d (fun _ => x)

theorem State.madeDesc_liveCount {s : State} {d : DescNo} (hslots : (s.desc d).slots = PerPort.replicate CopySlot.empty)
    (q : Port) (slot : SlotState) (st : DescState) (t : Tally) :
    (0 < (s.madeDesc d q slot st t).liveCount ↔ slot.live = true) := by
  have hslot : ∀ p, ((s.madeDesc d q slot st t).slots.get p).state = if p = q then slot else .absent := fun p => by
    rw [State.madeDesc, PerPort.get_set, hslots]
    split <;> simp [State.madeSlot, CopySlot.empty]
  rw [Descriptor.liveCount_pos_iff]
  refine ⟨fun ⟨p, hp⟩ => ?_, fun h => ⟨q, by rw [hslot q, if_pos rfl, h]⟩⟩
  rw [hslot p] at hp
  split at hp
  · exact hp
  · simp [SlotState.live] at hp

/-! ### The completion of a unicast message -/

section Unicast

variable {s : State} {d : DescNo} {q : Port}

/-- A unicast message is completed by matching its one copy (R4): HELD while that is live, settled at once if it is
not. -/
theorem State.complete_unicast (hdst : (s.desc d).destination = .port q) :
    let s2 := (s.stamped d).matchCopy d q
    (0 < (s2.desc d).liveCount → s.complete d = s2.modDesc d (fun x => { x with state := .held })) ∧
      (¬ 0 < (s2.desc d).liveCount → s.complete d = s2.settleDescriptor d) := by
  intro s2
  have hrec : (s.stamped d).recipients d = [q] := by
    simp [State.stamped, State.recipients, hdst]
  have hall : ((s.stamped d).recipients d).foldl (fun t q => t.matchCopy d q) (s.stamped d) = s2 := by
    rw [hrec]
    rfl
  rw [s.complete_eq d, State.matched, hall]
  exact ⟨fun h => if_pos h, fun h => if_neg h⟩

variable (hdst : (s.desc d).destination = .port q) (hslots : (s.desc d).slots = PerPort.replicate CopySlot.empty)
include hdst hslots

/-- A copy that ends as it is made leaves no live copy: the message is settled at once. -/
theorem State.complete_of_ended {o : CopyOutcome}
    (hm : (s.stamped d).matchCopy d q =
      (s.putDesc d (s.madeDesc d q .absent (s.desc d).state (s.desc d).tally)).settleCopy d q o) :
    s.complete d =
      (s.putDesc d (s.madeDesc d q (.settled o) (s.desc d).state ((s.desc d).tally.count o))).settleDescriptor d := by
  rw [State.made_settleCopy s d q .absent _ _ o rfl] at hm
  rw [(State.complete_unicast hdst).2 ?_, hm]
  rw [hm, State.putDesc_desc, State.madeDesc_liveCount hslots]
  simp [SlotState.live]

/-- A copy that lives on after it is made keeps the message HELD. -/
theorem State.complete_of_live {slot : SlotState} {f : PortState → PortState} (hlive : slot.live = true)
    (hm : (s.stamped d).matchCopy d q =
      (s.putDesc d (s.madeDesc d q slot (s.desc d).state (s.desc d).tally)).modPort q f) :
    s.complete d = (s.putDesc d (s.madeDesc d q slot .held (s.desc d).tally)).modPort q f := by
  rw [(State.complete_unicast hdst).1 ?_, hm, State.modPort_modDesc, State.made_held]
  rw [hm, State.modPort_desc, State.putDesc_desc]
  exact (State.madeDesc_liveCount hslots q slot _ _).mpr hlive

omit hdst in
theorem State.newCopy_blank : (s.stamped d).newCopy d q =
    s.putDesc d (s.madeDesc d q .absent (s.desc d).state (s.desc d).tally) := by
  rw [State.newCopy_stamped, State.slot, hslots, PerPort.get_replicate]
  rfl

omit hdst in
/-- The message as the takes of its port see it. -/
theorem State.newCopy_accepts (f : TakeFields) :
    f.accepts (((s.stamped d).newCopy d q).desc d) = f.accepts { s.desc d with completionTick := s.tickCount } := by
  rw [State.newCopy_blank hslots, State.putDesc_desc]
  rfl

/-- At a port that is not OPEN the copy is UNDELIVERABLE (R4). -/
theorem State.complete_unicast_closed (hclosed : (s.port q).isOpen = false) :
    s.complete d = (s.putDesc d (s.madeDesc d q (.settled .undeliverable) (s.desc d).state
      ((s.desc d).tally.count .undeliverable))).settleDescriptor d := by
  refine State.complete_of_ended hdst hslots ?_
  rw [← State.newCopy_blank hslots]
  exact State.matchCopy_of_closed hclosed

/-- The first POSTED take that matches is bound (R28). -/
theorem State.complete_unicast_bound (hopen : (s.port q).isOpen = true) {ahead behind : List PostedTake} {t : PostedTake}
    (hposted : (s.port q).takes.posted = ahead ++ t :: behind)
    (hahead : ∀ u ∈ ahead, u.fields.accepts { s.desc d with completionTick := s.tickCount } = false)
    (ht : t.fields.accepts { s.desc d with completionTick := s.tickCount } = true) :
    s.complete d = (s.putDesc d (s.madeDesc d q .bound .held (s.desc d).tally)).modPort q (fun ps =>
      PortState.append s.tickCount [.arrival (arrivalOf t.fields { s.desc d with completionTick := s.tickCount })]
        { ps with takes := { posted := ahead ++ behind, matched := ps.takes.matched ++
          [{ fields := t.fields, bound := d, delivered := min (s.desc d).length t.fields.capacity }] } }) := by
  refine State.complete_of_live hdst hslots rfl ?_
  have hnew := State.newCopy_blank (q := q) hslots
  have hm := State.matchCopy_of_match (s := s.stamped d) (d := d) hopen hposted
    (fun u hu => (State.newCopy_accepts hslots _).trans (hahead u hu)) ((State.newCopy_accepts hslots _).trans ht)
  rw [hm, hnew, ← State.made_modSlot s d q .absent .bound]
  simp only [State.bindCopy, State.appendNotice, State.modSlot, State.modPort_modDesc, State.modPort_modPort,
    State.modPort_desc, State.putDesc_desc]
  rfl

/-- A copy without a take waits at the tail while the list has room (R44). -/
theorem State.complete_unicast_waits (hopen : (s.port q).isOpen = true)
    (hnone : ∀ u ∈ (s.port q).takes.posted, u.fields.accepts { s.desc d with completionTick := s.tickCount } = false)
    (hroom : (s.port q).unclaimed.length < 32) :
    s.complete d = (s.putDesc d (s.madeDesc d q .waiting .held (s.desc d).tally)).modPort q
      (fun ps => { ps with unclaimed := ps.unclaimed ++ [d] }) := by
  refine State.complete_of_live hdst hslots rfl ?_
  have hnew := State.newCopy_blank (q := q) hslots
  have hm := State.matchCopy_of_room (s := s.stamped d) (d := d) hopen
    (fun u hu => (State.newCopy_accepts hslots _).trans (hnone u hu)) hroom
  rw [hm, hnew, State.modSlot, State.modPort_modDesc]
  exact congrArg (State.modPort · q _) (State.made_modSlot s d q .absent .waiting _ _)

/-- A full list drops it (R45). -/
theorem State.complete_unicast_full (hopen : (s.port q).isOpen = true)
    (hnone : ∀ u ∈ (s.port q).takes.posted, u.fields.accepts { s.desc d with completionTick := s.tickCount } = false)
    (hfull : 32 ≤ (s.port q).unclaimed.length) :
    s.complete d = (s.putDesc d (s.madeDesc d q (.settled .dropped) (s.desc d).state
      ((s.desc d).tally.count .dropped))).settleDescriptor d := by
  refine State.complete_of_ended hdst hslots ?_
  have hnew := State.newCopy_blank (q := q) hslots
  have hm := State.matchCopy_of_full (s := s.stamped d) (d := d) hopen
    (fun u hu => (State.newCopy_accepts hslots _).trans (hnone u hu)) hfull
  rw [hm, hnew]

end Unicast

/-- Settles O18, a lemma for each end of the copy. -/
theorem completionMatchesAUnicastCopy : Obligations.CompletionMatchesAUnicastCopy := by
  intro s d q hdst hslots htally x deadline made
  have hmade : ∀ slot st t, made slot st t = s.putDesc d (s.madeDesc d q slot st t) := fun _ _ _ => rfl
  simp only [hmade]
  refine ⟨fun hclosed => ?_, fun hopen => ?_⟩
  · rw [State.complete_unicast_closed hdst hslots (by simpa [PortState.isOpen] using hclosed), htally]
    rfl
  · have ho : (s.port q).isOpen = true := by simpa [PortState.isOpen] using hopen
    refine ⟨fun ahead behind t hposted hahead ht => ?_, fun hnone => ⟨fun hroom => ?_, fun hfull => ?_⟩⟩
    · rw [State.complete_unicast_bound hdst hslots ho hposted hahead ht, htally]
    · rw [State.complete_unicast_waits hdst hslots ho hnone hroom, htally]
    · rw [State.complete_unicast_full hdst hslots ho hnone hfull, htally]
      rfl

end Sys2Proof.Machine
end

