-- ==== Sys2Proof/Proofs/LastGrant.lean ====
section
/-! PROOFS. The mover's last grant of a message: the lane it serves, and the completion it brings about (O49). -/

namespace Sys2Proof.Machine

/-- A lane is eligible while it has bytes to move and room, or bytes, for 16 of them or for the last (R161). -/
theorem Lane.eligible_iff (l : Lane) : l.eligible = true ↔
    0 < l.poolCount ∧
      ((∃ d, l.owner = .inbound d ∧ (16 ≤ l.fifo.length ∨ l.poolCount ≤ l.fifo.length)) ∨
        (∃ d, l.owner = .outbound d ∧ (16 ≤ 32 - l.fifo.length ∨ l.poolCount ≤ 32 - l.fifo.length))) := by
  unfold Lane.eligible
  cases h : l.owner <;> simp

/-- The mover serves the first eligible lane of the rotation (R160). -/
theorem State.grantTarget_eq_some {s : State} {p : Port} {ahead behind : List Port}
    (hrot : rotationFrom s.pointer = ahead ++ p :: behind) (hahead : ∀ q ∈ ahead, (s.port q).lane.eligible = false)
    (hp : (s.port p).lane.eligible = true) : s.grantTarget = some p := by
  rw [State.grantTarget, hrot]
  exact List.find?_eq_some_iff_append.mpr ⟨hp, ahead, behind, rfl, fun q hq => by simp [hahead q hq]⟩

/-- The state after an INBOUND chunk of `n` bytes has been stored, before anything else (R162). -/
def State.chunkStored (s : State) (p : Port) (d : DescNo) (n : Nat) : State :=
  { (s.putDesc d { s.desc d with bytesInPool := (s.desc d).bytesInPool + n }).putPort p { s.port p with
      lane := (s.port p).lane.afterGrant ((s.port p).lane.fifo.drop n) n } with
    pool := { s.pool with
      mem := s.pool.mem.storePayload (s.desc d).chain (s.desc d).bytesInPool ((s.port p).lane.fifo.take n) },
    pointer := p }

/-- A grant to an INBOUND lane stores a chunk, and the last one completes the message and returns the lane
(R162, R163). -/
theorem State.grantTo_inbound {s : State} {p : Port} {d : DescNo} (howner : (s.port p).lane.owner = .inbound d) :
    let n := chunkSize (s.port p).lane.poolCount (s.desc d).bytesInPool (s.port p).lane.fifo.length
    s.grantTo p = if (s.port p).lane.poolCount - n = 0 then ((s.chunkStored p d n).complete d).returnLane p
      else s.chunkStored p d n := by
  intro n
  rw [State.grantTo, howner]
  rfl

/-! ### What a completion leaves alone -/

/-- What every match keeps, a completion's matching keeps. -/
theorem State.foldl_matchCopy {P : State → Prop} {d : DescNo} (hstep : ∀ s q, P s → P (s.matchCopy d q)) (qs : List Port) :
    ∀ s : State, P s → P (qs.foldl (fun t q => t.matchCopy d q) s) := by
  induction qs with
  | nil => exact fun _ h => h
  | cons q qs ih => exact fun s h => ih _ (hstep s q h)

theorem State.matchCopy_lane (s : State) (d : DescNo) (q p : Port) : ((s.matchCopy d q).port p).lane = (s.port p).lane := by
  by_cases hp : p = q
  · subst hp
    obtain ⟨-, h⟩ | ⟨-, ⟨ahead, t, behind, -, -, -, h⟩ | ⟨-, ⟨-, h⟩ | ⟨-, h⟩⟩⟩ := s.matchCopy_cases d p <;> rw [h]
    · rfl
    · rw [State.bindCopy_port_same, (PortState.append_onlyNotices _ _ _).lane]
      simp [State.newCopy]
    · simp [State.newCopy]
    · rfl
  · rw [State.matchCopy_port_other s d hp]

theorem State.matched_lane (s : State) (d : DescNo) (p : Port) : ((s.matched d).port p).lane = (s.port p).lane :=
  State.foldl_matchCopy (P := fun t => (t.port p).lane = (s.port p).lane) (fun t q h => (t.matchCopy_lane d q p).trans h) _ _ rfl

theorem State.matched_sameFloor (s : State) (d : DescNo) : s.SameFloor (s.matched d) :=
  State.foldl_matchCopy (P := s.SameFloor) (fun t q h => h.trans (t.matchCopy_sameFloor d q)) _ _ (State.modDesc_sameFloor s d _)

theorem State.complete_lane (s : State) (d : DescNo) (p : Port) : ((s.complete d).port p).lane = (s.port p).lane := by
  rw [s.complete_eq]
  split
  · exact s.matched_lane d p
  · rw [(((s.matched d).settleDescriptor_freed d).ports p).lane, s.matched_lane]

theorem State.complete_sameFloor (s : State) (d : DescNo) : s.SameFloor (s.complete d) := by
  rw [s.complete_eq]
  split
  · exact (s.matched_sameFloor d).trans (State.modDesc_sameFloor _ d _)
  · exact (s.matched_sameFloor d).trans ((s.matched d).settleDescriptor_freed d).floor

theorem State.returnLane_unclaimed (s : State) (p q : Port) : ((s.returnLane p).port q).unclaimed = (s.port q).unclaimed := by
  rw [State.returnLane_spec]
  by_cases h : q = p
  · subst h
    rw [State.modPort_port_same, (PortState.offer_onlyNotices _ _).unclaimed, PortState.idleLane_unclaimed]
  · rw [State.modPort_port_other s _ h]

@[simp] theorem State.chunkStored_desc (s : State) (p : Port) (d : DescNo) (n : Nat) :
    (s.chunkStored p d n).desc d = { s.desc d with bytesInPool := (s.desc d).bytesInPool + n } :=
  State.putDesc_desc s d _

/-- Storing a chunk changes no port column but for one lane. -/
theorem State.chunkStored_port (s : State) (p : Port) (d : DescNo) (n : Nat) (q : Port) :
    ∃ lane, (s.chunkStored p d n).port q = { s.port q with lane := lane } := by
  by_cases h : q = p
  · subst h
    exact ⟨_, PerPort.get_set_same _ _ _⟩
  · exact ⟨(s.port q).lane, PerPort.get_set_other _ _ h⟩

/-- The copy of a unicast message that the last chunk completes waits in the list, where no take matches it and the list
has room. -/
theorem State.chunkStored_waits {s : State} {p q : Port} {d : DescNo} {n : Nat} (hdst : (s.desc d).destination = .port q)
    (hslots : (s.desc d).slots = PerPort.replicate CopySlot.empty)
    (hopen : (s.port q).isOpen = true) (hroom : (s.port q).unclaimed.length < 32)
    (hnone : ∀ u ∈ (s.port q).takes.posted, u.fields.accepts (s.desc d) = false) :
    (((s.chunkStored p d n).complete d).port q).unclaimed = (s.port q).unclaimed ++ [d] ∧
      ((s.chunkStored p d n).complete d).desc d = { s.desc d with
        state := .held, completionTick := s.tickCount, bytesInPool := (s.desc d).bytesInPool + n,
        slots := (s.desc d).slots.set q
          { state := .waiting,
            deadline := if (s.desc d).hold = 0 then none else some (s.tickCount + BitVec.ofNat 32 (s.desc d).hold),
            passed := false } } := by
  obtain ⟨lane, hport⟩ := s.chunkStored_port p d n q
  have hwait := State.complete_unicast_waits (s := s.chunkStored p d n) (d := d) (q := q) (by simpa using hdst)
    (by simpa using hslots) (by rw [hport]; exact hopen) (by rw [hport, State.chunkStored_desc]; exact hnone)
    (by rw [hport]; exact hroom)
  rw [hwait]
  refine ⟨?_, ?_⟩
  · rw [State.modPort_port_same]
    show ((s.chunkStored p d n).port q).unclaimed ++ [d] = _
    rw [hport]
  · rw [State.modPort_desc, State.putDesc_desc, State.madeDesc, State.madeSlot, State.chunkStored_desc]
    rfl

/-- Settles O49: the last chunk leaves nothing in the pool count, so the grant completes the message. -/
theorem lastGrantCompletesTheMessage : Obligations.LastGrantCompletesTheMessage := by
  intro s p d ahead behind hrun ready l x n hrot hahead howner hpos hfifo hn stored
  have hstored : stored = s.chunkStored p d n := by
    have h0 : l.poolCount - n = 0 := Nat.sub_eq_zero_of_le hn.symm.le
    simp [stored, State.chunkStored, Lane.afterGrant, l, x, ← h0]
  have htarget : s.grantTarget = some p := State.grantTarget_eq_some hrot
    (fun q hq => by simpa [ready] using mt (Lane.eligible_iff _).mp (hahead q hq))
    ((Lane.eligible_iff _).mpr ⟨hpos, .inl ⟨d, howner, .inr hfifo⟩⟩)
  have hchunk : chunkSize l.poolCount x.bytesInPool l.fifo.length = n := rfl
  have hturn : s.moverTurn = (stored.complete d).returnLane p := by
    rw [State.moverTurn, htarget]
    refine (State.grantTo_inbound howner).trans ?_
    rw [hchunk, if_pos (Nat.sub_eq_zero_of_le hn.symm.le), hstored]
  have hfloor : stored.SameFloor (stored.complete d) := stored.complete_sameFloor d
  have hlane : ((stored.complete d).port p).lane.ended = l.ended := by
    rw [stored.complete_lane]
    simp [stored, State.port, State.putPort, Lane.ended, l]
  refine ⟨_, rfl, ?_, ?_, ?_, ?_, ?_, ?_⟩
  all_goals rw [State.unlessInReset_released s _ hrun, hturn, State.returnLane_spec]
  · rw [hfloor.tickCount]
    rfl
  · exact hfloor.pointer
  · rw [State.modPort_port_same, (PortState.offer_onlyNotices _ _).lane, ← hlane]
    rfl
  · exact hfloor.mem
  · exact hfloor.tickCount
  · intro q hdst hslots _ hopen hroom hnone
    rw [hstored, ← State.returnLane_spec, State.returnLane_unclaimed, State.returnLane_desc]
    exact State.chunkStored_waits hdst hslots (by simpa [PortState.isOpen] using hopen) hroom hnone

end Sys2Proof.Machine
end

