-- ==== Sys2Proof/Proofs/Requests.lean ====
section
/-! PROOFS. Requests whose checks all pass: an accepted SEND and a TAKE that finds its copy (O8, O12). -/

namespace Sys2Proof.Machine

/-! ### The checks, read off the list -/

theorem firstFailure_eq_none {cs : List Check} : firstFailure cs = none ↔ ∀ c ∈ cs, c.failed = false := by
  simp [firstFailure]

theorem sessionRefusal_eq_none {ps : PortState} : ps.sessionRefusal = none ↔ ps.session.state = .opened := by
  unfold PortState.sessionRefusal
  cases ps.session.state <;> simp

/-- The session checks pass at an OPEN port alone (R96). -/
theorem State.sessionChecks_pass {s : State} {p : Port} (h : ∀ c ∈ s.sessionChecks p, c.failed = false) :
    (s.port p).session.state = .opened := by
  simp only [State.sessionChecks, List.forall_mem_cons, failsIf] at h
  obtain ⟨hclosed, hlapsed, -⟩ := h
  cases hs : (s.port p).session.state <;> simp_all

theorem byte_toNat_beq_one (b : Byte) : (b.toNat == 1) = (b == 1) := by
  rw [Bool.eq_iff_iff, beq_iff_eq, beq_iff_eq]
  exact ⟨fun h => BitVec.eq_of_toNat_eq h, fun h => by rw [h]; rfl⟩

theorem portOfByte_eq_some {b : Byte} {q : Port} (h : portOfByte b = some q) : b.toNat = q.number := by
  unfold portOfByte at h
  split at h <;> first | (cases h; assumption) | cases h

/-- A destination byte that names a port carries its number (R189). -/
theorem destinationOfByte_port {b : Byte} {q : Port} (h : destinationOfByte b = some (.port q)) : b.toNat = q.number := by
  unfold destinationOfByte at h
  split at h
  · next p hp =>
    cases h
    exact portOfByte_eq_some hp
  · split at h <;> cases h

/-- The lowest FREE descriptor is the one the search finds (R2). -/
theorem State.freeDescriptor_eq_some {s : State} {d : DescNo} (hd : (s.desc d).state = .free)
    (hbelow : ∀ e, e < d → (s.desc e).state ≠ .free) : s.freeDescriptor = some d := by
  rw [State.freeDescriptor, List.find?_eq_some_iff_getElem]
  refine ⟨by simp [hd], d.val, by simp, by simp, fun j hj => ?_⟩
  have := hbelow ⟨j, hj.trans d.isLt⟩ hj
  simpa using this

/-! ### SEND -/

/-- The fields of a SEND whose range checks pass. -/
def sendFieldsOf (dst : Destination) (channel : Byte) (length hold label : Half) (options : Byte) : SendFields :=
  { destination := dst, channel := channel, length := length.toNat, hold := hold.toNat, label := label,
    receiptWanted := options == 1 }

/-- A unicast destination whose port the checks found OPEN is not closed (R104). -/
theorem State.destinationClosed_of_checks {s : State} {destination : Byte} {dst : Destination}
    (hdst : destinationOfByte destination = some dst) (h : s.namesClosedPort destination = false) :
    s.destinationClosed dst = false := by
  cases dst with
  | group g => rfl
  | port q =>
    have hq := (List.any_eq_false.mp h) q q.mem_all
    simpa [State.destinationClosed, PortState.isOpen, destinationOfByte_port hdst] using hq

/-- A SEND whose checks all pass is accepted with the lowest FREE descriptor (R105). -/
theorem State.acceptSend_of_checks {s : State} {p : Port} {destination channel : Byte} {length hold label : Half} {options : Byte}
    {dst : Destination} {d : DescNo}
    (hpass : firstFailure (s.checks p (.send destination channel length hold label options)) = none)
    (hdst : destinationOfByte destination = some dst) (hd : (s.desc d).state = .free)
    (hbelow : ∀ e, e < d → (s.desc e).state ≠ .free) :
    s.acceptSend p destination channel length hold label options =
      .ok (s.doSend p (sendFieldsOf dst channel length hold label options) d) := by
  have hall := firstFailure_eq_none.mp hpass
  simp only [State.checks, List.forall_mem_append, List.forall_mem_cons, failsIf, decide_eq_false_iff_not] at hall
  obtain ⟨⟨⟨-, hlength, hoptions, -⟩, hsession⟩, hbusy, -, hslot, hquota, hfull, hclosed, -⟩ := hall
  have hopen := sessionRefusal_eq_none.mpr (State.sessionChecks_pass hsession)
  have hsend : s.checkSend p (sendFieldsOf dst channel length hold label options) = .ok d := by
    have hbusy' : (s.port p).laneBusy = false := by simpa [PortState.laneBusy, PortState.laneIdle] using hbusy
    have hslot' : ((options == 1) && (s.port p).noSlot) = false := hslot
    rw [State.checkSend, hbusy', State.freeDescriptor_eq_some hd hbelow]
    simp only [sendFieldsOf, hslot', State.destinationClosed_of_checks hdst hclosed, Bool.false_eq_true, if_false]
    exact (if_neg hquota).trans (if_neg hfull)
  rw [State.acceptSend, hdst]
  simp only [hlength, hoptions, decide_false, Bool.or_false, Bool.false_eq_true, if_false, hopen, byte_toNat_beq_one]
  rw [← sendFieldsOf, hsend]

/-- An accepted SEND before its lane is claimed, or its message completed: the descriptor and the segments taken, and a
slot booked for a wanted RECEIPT (R105). -/
def State.allotted (s : State) (p : Port) (f : SendFields) (d : DescNo) : State :=
  let n := segmentsNeeded f.length
  let s2 := (s.modDesc d (fun x => x.allocated p (s.port p).session.epoch f (s.pool.free.take n))).modPool (Pool.reserveSegments p n)
  if f.receiptWanted then s2.modPort p PortState.bookReceipt else s2

theorem State.doSend_eq (s : State) (p : Port) (f : SendFields) (d : DescNo) :
    s.doSend p f d = if 0 < f.length then (s.allotted p f d).claimLane p (.inbound d) f.length
      else (s.allotted p f d).complete d := rfl

/-- A change that leaves the column as it is changes nothing. -/
theorem State.modPort_of_fixed {s : State} {p : Port} {f : PortState → PortState} (h : f (s.port p) = s.port p) :
    s.modPort p f = s := by
  have hset : s.ports.set p (f (s.ports.get p)) = s.ports := (congrArg _ h).trans (PerPort.set_get s.ports p)
  rw [State.modPort, hset]

/-- The slot of a wanted RECEIPT, as a count. -/
def PortState.bookIf (wanted : Bool) (ps : PortState) : PortState :=
  { ps with queue := { ps.queue with
    reserved := ps.queue.reserved + (if wanted then 1 else 0),
    receiptReserved := ps.queue.receiptReserved + (if wanted then 1 else 0) } }

theorem State.allotted_eq (s : State) (p : Port) (f : SendFields) (d : DescNo) :
    s.allotted p f d = ((s.modDesc d (fun x => x.allocated p (s.port p).session.epoch f
      (s.pool.free.take (segmentsNeeded f.length)))).modPool (Pool.reserveSegments p (segmentsNeeded f.length))).modPort p
        (PortState.bookIf f.receiptWanted) := by
  unfold State.allotted
  cases f.receiptWanted
  · exact (State.modPort_of_fixed rfl).symm
  · rfl

/-- Settles O8. -/
theorem sendClaimsTheLane : Obligations.SendClaimsTheLane := by
  intro s p destination channel length hold label options dst d hrun hpass hlength hdst hd hbelow n ps
  show Host.Outcome.next (s.unlessInReset (s.answerRequest p (s.acceptSend p destination channel length hold label options))) = _
  rw [State.unlessInReset_released s _ hrun, State.acceptSend_of_checks hpass hdst hd hbelow]
  have hsend := (s.doSend_eq p (sendFieldsOf dst channel length hold label options) d).trans (if_pos hlength)
  show Host.Outcome.next ((s.doSend p _ d).post p none) = _
  rw [hsend, State.allotted_eq, State.claimLane, State.post, State.modPort_modPort, State.modPort_modPort]
  simp only [sendFieldsOf, PortState.bookIf, beq_iff_eq]
  rfl

/-! ### TAKE -/

/-- The fields of a TAKE whose range checks pass. -/
def takeFieldsOf (label : Half) (src : Option Port) (value mask : Byte) (capacity timeout : Half) : TakeFields :=
  { label := label, source := src, value := value, mask := mask, capacity := capacity.toNat, timeout := timeout.toNat }

theorem PortState.labelLive_eq (ps : PortState) (label : Half) : ps.labelLive label = ps.takes.hasLabel label := by
  rw [Bool.eq_iff_iff]
  simp [PortState.labelLive, TakeTable.hasLabel]

/-- A TAKE whose checks all pass is accepted (R110). -/
theorem State.acceptTake_of_checks {s : State} {p : Port} {label : Half} {source value mask : Byte} {capacity timeout : Half}
    {src : Option Port} (hpass : firstFailure (s.checks p (.take label source value mask capacity timeout)) = none)
    (hsrc : sourceOfByte source = some src) :
    s.acceptTake p label source value mask capacity timeout =
      .ok (s.doTake p (takeFieldsOf label src value mask capacity timeout)) := by
  have hall := firstFailure_eq_none.mp hpass
  simp only [State.checks, List.forall_mem_append, List.forall_mem_cons, failsIf, decide_eq_false_iff_not,
    PortState.labelLive_eq] at hall
  obtain ⟨⟨⟨-, hcapacity, -⟩, hsession⟩, hroom, hlabel, hslot, -⟩ := hall
  have hopen := sessionRefusal_eq_none.mpr (State.sessionChecks_pass hsession)
  have hslot' : (s.port p).noSlot = false := decide_eq_false hslot
  rw [State.acceptTake, hsrc]
  simp only [hcapacity, if_false, hopen, hlabel, hslot', Bool.false_eq_true]
  exact if_neg hroom

/-- A TAKE whose search finds a copy binds the first (R25, R48). -/
theorem State.doTake_of_match {s : State} {p : Port} {f : TakeFields} {ahead behind : List DescNo} {d : DescNo}
    (hlist : (s.port p).unclaimed = ahead ++ d :: behind) (hahead : ∀ e ∈ ahead, f.accepts (s.desc e) = false)
    (hd : f.accepts (s.desc d) = true) :
    s.doTake p f = (s.modPort p (fun ps => { ps.bookSlot with unclaimed := ahead ++ behind })).bindCopy p f d := by
  have hfind : (s.port p).unclaimed.find? (fun e => f.accepts (s.desc e)) = some d :=
    List.find?_eq_some_iff_append.mpr ⟨hd, ahead, behind, hlist, fun e he => by simp [hahead e he]⟩
  have hne : d ∉ ahead := fun h => by simp [hahead d h] at hd
  have herase : (s.port p).unclaimed.erase d = ahead ++ behind := by
    rw [hlist, List.erase_append_right _ hne, List.erase_cons_head]
  rw [State.doTake, hfind]
  simp only [State.modPort_modPort]
  congr 1
  rw [State.modPort_eq_putPort, State.modPort_eq_putPort]
  simp [PortState.bookSlot, herase]

/-- Settles O12. -/
theorem takeBindsTheFirstMatchingCopy : Obligations.TakeBindsTheFirstMatchingCopy := by
  intro s p label source value mask capacity timeout src ahead behind d hrun hpass hsrc f x ps hlist hahead hd
  show Host.Outcome.next (s.unlessInReset (s.answerRequest p (s.acceptTake p label source value mask capacity timeout))) = _
  rw [State.unlessInReset_released s _ hrun, State.acceptTake_of_checks hpass hsrc]
  show Host.Outcome.next ((s.doTake p f).post p none) = _
  rw [State.doTake_of_match hlist hahead hd]
  simp only [State.bindCopy, State.appendNotice, State.post, State.modSlot, State.modPort_modDesc, State.modPort_modPort]
  rfl

end Sys2Proof.Machine
end

