-- ==== Sys2Proof/Proofs/Abandonment.lean ====
section
/-! PROOFS. A message abandoned by its own port's lane (O35). -/

namespace Sys2Proof.Machine

theorem PortState.idleLane_eq (ps : PortState) : ps.idleLane = { ps with lane := ps.lane.ended } := rfl

/-- What the sender's column gains from a RECEIPT that is queued when `due` (R10). -/
def PortState.receiveIf (due : Bool) (now : Tick) (r : Receipt) (ps : PortState) : PortState :=
  if due then ps.appendReceipt now r else ps

theorem PortState.receiveIf_onlyNotices (due : Bool) (now : Tick) (r : Receipt) (ps : PortState) :
    ps.OnlyNotices (ps.receiveIf due now r) := by
  unfold PortState.receiveIf
  split
  · exact PortState.appendReceipt_onlyNotices now r ps
  · exact PortState.OnlyNotices.refl ps

theorem State.queueReceipt_eq_modPort (s : State) (d : DescNo) (st : ReceiptStatus) (n : Nat) (t : Tally) :
    s.queueReceipt d st n t = s.modPort (s.desc d).sender (PortState.receiveIf (s.receiptCheck d) s.tickCount
      { senderLabel := (s.desc d).label, status := st, copiesMade := n, tally := t }) := by
  obtain ⟨hc, h⟩ | ⟨hc, h⟩ := s.queueReceipt_cases d st n t <;> rw [h]
  · exact (State.modPort_of_fixed (by simp [hc, PortState.receiveIf])).symm
  · rw [hc]
    rfl

theorem State.modPool_modPort (s : State) (p : Port) (f : Pool → Pool) (g : PortState → PortState) :
    (s.modPool f).modPort p g = (s.modPort p g).modPool f := rfl

/-- The RECEIPT of an abandoned message (R13). -/
def Descriptor.abandonReceipt (x : Descriptor) : Receipt :=
  { senderLabel := x.label, status := .abandoned, copiesMade := 0, tally := Tally.zero }

/-- Abandonment, part by part (R12, R13). -/
theorem State.abandon_eq (s : State) (d : DescNo) :
    s.abandon d = ((s.modPort (s.desc d).sender (PortState.receiveIf (s.receiptCheck d) s.tickCount
      (s.desc d).abandonReceipt)).modPool (Pool.release (s.desc d).sender (s.desc d).chain)).modDesc d Descriptor.freed := by
  show ((s.queueReceipt d .abandoned 0 Tally.zero).releaseChain d).modDesc d Descriptor.freed = _
  rw [State.queueReceipt_eq_modPort]
  rfl

/-- The end of an INBOUND transfer of the port's own message (R12, R127, R157). -/
theorem State.abandonTransfer_eq {s : State} {p : Port} {d : DescNo} (hsender : (s.desc d).sender = p) :
    s.abandonTransfer p d = s.afterAbandonment p d (s.port p).lane.ended := by
  subst hsender
  have hlane := (PortState.receiveIf_onlyNotices (s.receiptCheck d) s.tickCount (s.desc d).abandonReceipt
    (s.port (s.desc d).sender)).lane
  rw [State.abandonTransfer, State.returnLane_spec, State.abandon_eq]
  rw [← State.modPort_modDesc, State.modPool_modPort, State.modPort_modPort, State.modPort_eq_putPort]
  simp only [PortState.idleLane_eq, hlane]
  rfl

/-! ### A RECEIPT does not depend on the lane's flags -/

theorem PortState.offer_withLane (now : Tick) (ps : PortState) {l : Lane} (h : l.owner = ps.lane.owner) :
    PortState.offer now { ps with lane := l } = { ps.offer now with lane := l } := by
  have hidle : PortState.laneIdle { ps with lane := l } = ps.laneIdle := by simp [PortState.laneIdle, h]
  cases htx : ps.outbound.tx <;> cases hq : ps.queue.notices <;> simp only [PortState.offer, htx, hq, hidle]
  split <;> rfl

theorem PortState.appendReceipt_withLane (now : Tick) (r : Receipt) (ps : PortState) {l : Lane} (h : l.owner = ps.lane.owner) :
    PortState.appendReceipt now r { ps with lane := l } = { ps.appendReceipt now r with lane := l } := by
  by_cases hres : 0 < ps.queue.receiptReserved
  · simp only [PortState.appendReceipt, hres, if_true]
    exact PortState.offer_withLane now { ps with queue := _ } h
  · by_cases h24 : ps.queue.reserved < 24
    · simp only [PortState.appendReceipt, hres, h24, if_true, if_false]
      exact PortState.offer_withLane now { ps with queue := _ } h
    · simp only [PortState.appendReceipt, hres, h24, if_false]

/-- An abandonment that leaves an IDLE lane does not depend on the flags the lane had. -/
theorem State.afterAbandonment_setOverrun (s : State) (p : Port) (d : DescNo) (l : Lane) :
    (s.setOverrun p).afterAbandonment p d l = s.afterAbandonment p d l := by
  have hport : (s.setOverrun p).port p = { s.port p with lane := { (s.port p).lane with overrun := true } } :=
    State.modPort_port_same s p _
  have hcheck : (s.setOverrun p).receiptCheck d = s.receiptCheck d := by
    refine State.receiptCheck_congr rfl ?_
    by_cases h : (s.desc d).sender = p
    · rw [h, hport]
    · rw [State.setOverrun, State.modPort_port_other s _ h]
  have hset : ∀ ps : PortState, (s.setOverrun p).ports.set p ps = s.ports.set p ps := fun ps => PerPort.set_set _ _ _ _
  have hreceipt := fun r => PortState.appendReceipt_withLane s.tickCount r (s.port p)
    (l := { (s.port p).lane with overrun := true }) rfl
  have htick : (s.setOverrun p).tickCount = s.tickCount := rfl
  unfold State.afterAbandonment
  simp only [hcheck, hset, hport, htick, hreceipt]
  cases s.receiptCheck d <;> rfl

/-- Settles O35: OVERRUN is set first, and the abandonment that follows reads no lane flag. -/
theorem overrunAbandonsTheMessage : Obligations.OverrunAbandonsTheMessage := by
  intro s p d data hrun l howner hsender hcount hroom
  have hsize : (s.port p).accessSize = if (s.port p).width = .bits16 ∧ l.hostCount ≠ 1 then 2 else 1 := by
    unfold PortState.accessSize laneAccessSize
    cases (s.port p).width <;> by_cases h1 : l.hostCount = 1 <;> simp [l, h1]
  show Host.Outcome.next (s.unlessInReset (s.writeLane p data)) = _
  have hwrite : s.writeLane p data = (s.setOverrun p).abandonTransfer p d := by
    unfold State.writeLane
    simp only [howner, l] at *
    rw [if_neg (by omega), if_neg (by omega)]
  rw [State.unlessInReset_released s _ hrun, hwrite, State.abandonTransfer_eq (s := s.setOverrun p) hsender]
  rw [State.afterAbandonment_setOverrun]
  simp [State.setOverrun, PortState.modLane, Lane.ended, l]

end Sys2Proof.Machine
end

