-- ==== Sys2Proof/Proofs/Allocation.lean ====
section
/-! PROOFS. Which descriptors and segments a command gives back: a relation between states in which descriptors are freed
one after another and nothing else of the allocation changes, and what follows from it. -/

namespace Sys2Proof.Machine

/-! ### Steps that free nothing -/

/-- No descriptor is taken or freed, no segment moves, and no limit changes. -/
structure State.SameAllocation (s t : State) : Prop where
  free : t.pool.free = s.pool.free
  held : t.pool.held = s.pool.held
  reserve : t.pool.reserve = s.pool.reserve
  ceiling : t.pool.ceiling = s.pool.ceiling
  stallLimit : t.pool.stallLimit = s.pool.stallLimit
  mem : s.pool.mem.wf = true → t.pool.mem.wf = true
  state : ∀ d, (t.desc d).state = .free ↔ (s.desc d).state = .free
  sender : ∀ d, (t.desc d).sender = (s.desc d).sender
  chain : ∀ d, (t.desc d).chain = (s.desc d).chain
  length : ∀ d, (t.desc d).length = (s.desc d).length
  hold : ∀ d, (t.desc d).hold = (s.desc d).hold

theorem State.SameAllocation.of_eq {s t : State} (hpool : t.pool = s.pool) (hdescs : t.descs = s.descs) : s.SameAllocation t := by
  have hdesc : ∀ d, t.desc d = s.desc d := fun d => congrArg (fun v => v.get d) hdescs
  constructor <;> intros <;> simp_all

theorem State.modPort_sameAllocation (s : State) (p : Port) (f : PortState → PortState) : s.SameAllocation (s.modPort p f) :=
  .of_eq rfl rfl

/-- A change of one descriptor that leaves its allocation alone. -/
structure Descriptor.SameAllocation (x y : Descriptor) : Prop where
  state : y.state = .free ↔ x.state = .free
  sender : y.sender = x.sender
  chain : y.chain = x.chain
  length : y.length = x.length
  hold : y.hold = x.hold

theorem State.modDesc_sameAllocation (s : State) (d : DescNo) {f : Descriptor → Descriptor}
    (h : (s.desc d).SameAllocation (f (s.desc d))) : s.SameAllocation (s.modDesc d f) := by
  have hdesc : ∀ e, (s.desc e).SameAllocation ((s.modDesc d f).desc e) := fun e => by
    by_cases he : e = d
    · subst he
      rw [State.modDesc_desc_same]
      exact h
    · rw [State.modDesc_desc_other s f he]
      exact ⟨Iff.rfl, rfl, rfl, rfl, rfl⟩
  exact ⟨rfl, rfl, rfl, rfl, rfl, id, fun e => (hdesc e).state, fun e => (hdesc e).sender, fun e => (hdesc e).chain,
    fun e => (hdesc e).length, fun e => (hdesc e).hold⟩

theorem Descriptor.settleCopy_sameAllocation (x : Descriptor) (p : Port) (o : CopyOutcome) :
    x.SameAllocation (x.settleCopy p o) := by
  unfold Descriptor.settleCopy
  split <;> exact ⟨Iff.rfl, rfl, rfl, rfl, rfl⟩

theorem State.settleCopy_sameAllocation (s : State) (d : DescNo) (p : Port) (o : CopyOutcome) :
    s.SameAllocation (s.settleCopy d p o) :=
  s.modDesc_sameAllocation d ((s.desc d).settleCopy_sameAllocation p o)

theorem State.modSlot_sameAllocation (s : State) (d : DescNo) (p : Port) (f : CopySlot → CopySlot) :
    s.SameAllocation (s.modSlot d p f) :=
  s.modDesc_sameAllocation d ⟨Iff.rfl, rfl, rfl, rfl, rfl⟩

/-! ### Descriptors freed one after another -/

/-- From `s` descriptors are freed, each in a state that meets `P` as it is freed, and nothing else of the allocation
changes. -/
inductive State.OnlyFrees (P : DescState → Prop) (s : State) : State → Prop
  | start : State.OnlyFrees P s s
  | quiet {t u : State} : State.OnlyFrees P s t → t.SameAllocation u → State.OnlyFrees P s u
  | freed {t u : State} (d : DescNo) : State.OnlyFrees P s t → P (t.desc d).state → t.Freed d u → State.OnlyFrees P s u

section OnlyFrees

variable {P : DescState → Prop} {s t u : State}

theorem State.OnlyFrees.trans (h : s.OnlyFrees P t) (h' : t.OnlyFrees P u) : s.OnlyFrees P u := by
  induction h' with
  | start => exact h
  | quiet _ hq ih => exact ih.quiet hq
  | freed d _ hP hf ih => exact ih.freed d hP hf

theorem State.SameAllocation.onlyFrees (h : s.SameAllocation t) : s.OnlyFrees P t := State.OnlyFrees.start.quiet h

theorem State.OnlyFrees.modPort (h : s.OnlyFrees P t) (p : Port) (f : PortState → PortState) : s.OnlyFrees P (t.modPort p f) :=
  h.quiet (t.modPort_sameAllocation p f)

/-- A settlement frees a HELD descriptor or nothing (R9). -/
theorem State.settleIfDone_onlyFrees (hheld : P .held) (s : State) (d : DescNo) : s.OnlyFrees P (s.settleIfDone d) := by
  obtain ⟨⟨hstate, -⟩, h⟩ | ⟨-, h⟩ := s.settleIfDone_cases d <;> rw [h]
  · exact State.OnlyFrees.start.freed d (by rw [hstate]; exact hheld) (s.settleDescriptor_freed d)
  · exact .start

theorem State.foldl_onlyFrees {α : Type} {f : State → α → State} (hf : ∀ s a, State.OnlyFrees P s (f s a)) (as : List α) :
    ∀ s : State, s.OnlyFrees P (as.foldl f s) := by
  induction as with
  | nil => exact fun s => .start
  | cons a as ih => exact fun s => (hf s a).trans (ih (f s a))

end OnlyFrees

/-! ### The pool gets back the chains of what was freed -/

/-- A sum over all descriptors of a value that one of them alone has. -/
theorem sum_single (d : DescNo) (n : Nat) : ((List.finRange 64).map (fun e => if e = d then n else 0)).sum = n := by
  rw [← Fin.sum_univ_def, Finset.sum_ite_eq' Finset.univ d (fun _ => n), if_pos (Finset.mem_univ d)]

/-- The same over the ports. -/
theorem sum_ports_single (p : Port) (n : Nat) : (Port.all.map (fun q => if p = q then n else 0)).sum = n := by
  cases p <;> simp [Port.all]

/-- What a descriptor freed before the end means for the rest: freed it stays, and while it is not it keeps its
allocation. -/
structure State.KeepsAllocation (s t : State) : Prop where
  sender : ∀ d, (t.desc d).sender = (s.desc d).sender
  live : ∀ d, (t.desc d).state ≠ .free → (s.desc d).state ≠ .free ∧ (t.desc d).chain = (s.desc d).chain

/-- One descriptor more is freed. -/
theorem State.freedOf_freed {s t u : State} {d : DescNo} (hk : s.KeepsAllocation t) (hd : (t.desc d).state ≠ .free)
    (hf : t.Freed d u) (q : Port) :
    s.freedOf u q = s.freedOf t q + if (t.desc d).sender = q then (t.desc d).chain.length else 0 := by
  have hpoint : ∀ e, (if (s.desc e).sender = q ∧ (s.desc e).state ≠ .free ∧ (u.desc e).state = .free then
      (s.desc e).chain.length else 0) = (if (s.desc e).sender = q ∧ (s.desc e).state ≠ .free ∧ (t.desc e).state = .free then
      (s.desc e).chain.length else 0) + (if e = d then (if (t.desc d).sender = q then (t.desc d).chain.length else 0) else 0) := by
    intro e
    by_cases he : e = d
    · subst he
      obtain ⟨hs, hchain⟩ := hk.live e hd
      simp [hf.freed, Descriptor.freed, hs, hd, hchain, hk.sender]
    · simp [hf.others e he, he]
  unfold State.freedOf
  rw [List.map_congr_left (fun e _ => hpoint e), List.sum_map_add, sum_single]

/-- Freed descriptors keep their sender, and the others keep everything (R80). -/
theorem State.OnlyFrees.keepsAllocation {P : DescState → Prop} {s t : State} (h : s.OnlyFrees P t) : s.KeepsAllocation t := by
  induction h with
  | start => exact ⟨fun _ => rfl, fun _ h => ⟨h, rfl⟩⟩
  | quiet _ hq ih =>
    refine ⟨fun d => (hq.sender d).trans (ih.sender d), fun d hd => ?_⟩
    obtain ⟨hs, hc⟩ := ih.live d (fun h => hd ((hq.state d).mpr h))
    exact ⟨hs, (hq.chain d).trans hc⟩
  | freed d _ _ hf ih =>
    refine ⟨fun e => ?_, fun e he => ?_⟩
    · by_cases hed : e = d
      · subst hed
        rw [hf.freed]
        exact ih.sender e
      · rw [hf.others e hed]
        exact ih.sender e
    · by_cases hed : e = d
      · subst hed
        rw [hf.freed] at he
        exact absurd rfl he
      · rw [hf.others e hed] at he ⊢
        exact ih.live e he

theorem State.freedOf_self (s : State) (q : Port) : s.freedOf s q = 0 := by simp [State.freedOf]

theorem State.freedOf_congr {s t u : State} (h : ∀ d, (u.desc d).state = .free ↔ (t.desc d).state = .free) (q : Port) :
    s.freedOf u q = s.freedOf t q := by
  simp [State.freedOf, h]

/-- Which segments are given back, when one descriptor more is freed. -/
theorem State.givenBack_freed {s t u : State} {d : DescNo} (hk : s.KeepsAllocation t) (hd : (t.desc d).state ≠ .free)
    (hf : t.Freed d u) (n : Nat) :
    (∃ e, (s.desc e).state ≠ .free ∧ (u.desc e).state = .free ∧ n ∈ (s.desc e).chain) ↔
      (∃ e, (s.desc e).state ≠ .free ∧ (t.desc e).state = .free ∧ n ∈ (s.desc e).chain) ∨ n ∈ (t.desc d).chain := by
  obtain ⟨hs, hchain⟩ := hk.live d hd
  constructor
  · rintro ⟨e, he, hu, hn⟩
    by_cases hed : e = d
    · subst hed
      exact .inr (hchain ▸ hn)
    · exact .inl ⟨e, he, by rwa [hf.others e hed] at hu, hn⟩
  · rintro (⟨e, he, ht, hn⟩ | hn)
    · have hed : e ≠ d := fun h => hd (h ▸ ht)
      exact ⟨e, he, by rwa [hf.others e hed], hn⟩
    · exact ⟨d, hs, by rw [hf.freed]; rfl, hchain ▸ hn⟩

/-- The pool gets back exactly the chains of the descriptors that are freed (R14, R80). -/
theorem State.OnlyFrees.releases {s t : State} (h : s.OnlyFrees (· ≠ .free) t) : s.Releases t := by
  induction h with
  | start =>
    refine ⟨fun n => ⟨.inl, ?_⟩, ?_, fun q => by simp [State.freedOf_self]⟩
    · rintro (h | ⟨d, hd, hd', -⟩)
      · exact h
      · exact absurd hd' hd
    · simp [Port.all, State.freedOf_self]
  | quiet h' hq ih =>
    have hof := State.freedOf_congr (s := s) hq.state
    exact ⟨fun n => by rw [hq.free, ih.free n]; simp only [hq.state],
      by rw [hq.free, ih.count, List.map_congr_left fun q _ => hof q],
      fun q => by rw [hq.held, ih.held q, hof q]⟩
  | @freed t u d h' hd hf ih =>
    have hk := h'.keepsAllocation
    have hof := State.freedOf_freed hk hd hf
    refine ⟨fun n => ?_, ?_, fun q => ?_⟩
    · rw [hf.free, mem_releaseSegments, ih.free n, State.givenBack_freed hk hd hf n, or_comm, or_assoc]
    · have hmap : Port.all.map (s.freedOf u) = Port.all.map (fun q => s.freedOf t q +
          if (t.desc d).sender = q then (t.desc d).chain.length else 0) := List.map_congr_left fun q _ => hof q
      rw [hf.free, releaseSegments_length, ih.count, hmap, List.sum_map_add, sum_ports_single, Nat.add_comm, Nat.add_assoc]
    · rw [hf.held, hof q]
      by_cases hq : q = (t.desc d).sender
      · subst hq
        rw [PerPort.get_modify_same, ih.held, if_pos rfl]
        omega
      · rw [PerPort.get_modify_other _ _ hq, ih.held, if_neg (Ne.symm hq), Nat.add_zero]

end Sys2Proof.Machine
end

