-- ==== Sys2Proof/Proofs/Teardown.lean ====
section
/-! PROOFS. The teardown of a session: what it leaves of its port and of the rest of the part, in every state (R177,
R178). -/

namespace Sys2Proof.Machine

/-! ### The copies a teardown ends -/

/-- A descriptor whose copy at `p` a teardown has ended, before the descriptor is settled (R17, R57). -/
def Descriptor.undelivered (p : Port) (x : Descriptor) : Descriptor := (x.dropMark p).settleCopy p .undeliverable

theorem SlotState.isSettled_of_live {x : SlotState} (h : x.live = true) : x.isSettled = false := by
  cases x <;> simp_all [SlotState.live, SlotState.isSettled]

theorem Descriptor.dropMark_dropMark (x : Descriptor) (p : Port) : (x.dropMark p).dropMark p = x.dropMark p := by
  simp [Descriptor.dropMark, PerPort.modify]

/-- A copy SETTLED already loses its mark and nothing else. -/
theorem Descriptor.undelivered_of_settled {x : Descriptor} {p : Port} (h : (x.slots.get p).state.isSettled = true) :
    x.undelivered p = x.dropMark p := by
  have h' : ((x.dropMark p).slots.get p).state.isSettled = true := by simpa [Descriptor.dropMark] using h
  rw [Descriptor.undelivered, Descriptor.settleCopy, if_pos h']

/-- A copy not SETTLED is settled UNDELIVERABLE without its mark (R17, R57). -/
theorem Descriptor.undelivered_of_unsettled {x : Descriptor} {p : Port} (h : (x.slots.get p).state.isSettled = false) :
    x.undelivered p = { x with
      slots := x.slots.set p { x.slots.get p with state := .settled .undeliverable, passed := false },
      tally := x.tally.count .undeliverable } := by
  have h' : ((x.dropMark p).slots.get p).state.isSettled = false := by simpa [Descriptor.dropMark] using h
  rw [Descriptor.undelivered, Descriptor.settleCopy, if_neg (by simp [h'])]
  simp [Descriptor.dropMark, PerPort.modify]

/-- Ending a copy twice is ending it once. -/
theorem Descriptor.undelivered_undelivered (x : Descriptor) (p : Port) : (x.undelivered p).undelivered p = x.undelivered p := by
  cases h : (x.slots.get p).state.isSettled with
  | true =>
    rw [Descriptor.undelivered_of_settled h, Descriptor.undelivered_of_settled, Descriptor.dropMark_dropMark]
    simpa [Descriptor.dropMark] using h
  | false =>
    rw [Descriptor.undelivered_of_unsettled h, Descriptor.undelivered_of_settled]
    · simp [Descriptor.dropMark, PerPort.modify]
    · simp [SlotState.isSettled]

theorem State.undeliver_desc (s : State) (d e : DescNo) (p : Port) :
    (s.undeliver d p).desc e = if e = d then (s.desc e).undelivered p else s.desc e := by
  split
  · next h =>
    rw [h, State.undeliver_desc_same]
    rfl
  · next h => exact s.undeliver_desc_other p h

theorem State.undeliverAll_desc (ds : List DescNo) (p : Port) (s : State) (d : DescNo) :
    (s.undeliverAll ds p).desc d = if d ∈ ds then (s.desc d).undelivered p else s.desc d := by
  induction ds generalizing s with
  | nil => rfl
  | cons e ds ih =>
    show ((s.undeliver e p).undeliverAll ds p).desc d = _
    rw [ih, State.undeliver_desc]
    by_cases hde : d = e <;> by_cases hds : d ∈ ds <;> simp [hde, hds, Descriptor.undelivered_undelivered]

/-! ### A run of settlements -/

/-- The RECEIPT that port `q` gets if descriptor `d` is settled when it is done. -/
def State.dueReceipt (s : State) (q : Port) (d : DescNo) : Option Receipt := if s.isDone d = true then s.closingReceipt q d else none

theorem State.settleIfDone_port_eq (s : State) (d : DescNo) (q : Port) :
    (s.settleIfDone d).port q = (s.port q).receive s.tickCount (s.dueReceipt q d).toList := by
  cases h : s.isDone d with
  | true => rw [State.settleIfDone_of_done h, State.settleDescriptor_port_eq, State.dueReceipt, if_pos h]
  | false => simp [State.settleIfDone_of_not_done h, State.dueReceipt, h]

theorem State.settleIfDone_desc (s : State) (d e : DescNo) :
    (s.settleIfDone d).desc e = if e = d ∧ s.isDone d = true then (s.desc e).freed else s.desc e := by
  cases h : s.isDone d with
  | true =>
    rw [State.settleIfDone_of_done h]
    by_cases he : e = d
    · subst he
      simpa using (s.settleDescriptor_freed e).freed
    · simpa [he] using (s.settleDescriptor_freed d).others e he
  | false => simp [State.settleIfDone_of_not_done h]

/-- The RECEIPT due depends on the descriptor and on its sender's session. -/
theorem State.dueReceipt_congr {s t : State} {q : Port} {d : DescNo} (hd : t.desc d = s.desc d)
    (hq : (t.port q).session = (s.port q).session) : t.dueReceipt q d = s.dueReceipt q d := by
  have hclosing : t.closingReceipt q d = s.closingReceipt q d := by
    unfold State.closingReceipt
    rw [hd]
    by_cases h : (s.desc d).sender = q
    · rw [State.receiptCheck_congr hd (by rw [h, hq])]
    · simp [h]
  simp [State.dueReceipt, State.isDone, hd, hclosing]

theorem State.foldl_settleIfDone_desc (ds : List DescNo) : ∀ (s : State) (d : DescNo),
    (ds.foldl State.settleIfDone s).desc d = if d ∈ ds ∧ s.isDone d = true then (s.desc d).freed else s.desc d := by
  induction ds with
  | nil => exact fun s d => by simp
  | cons e ds ih =>
    intro s d
    rw [List.foldl_cons, ih]
    have hs := s.settleIfDone_desc e d
    by_cases he : d = e
    · subst he
      cases hdone : s.isDone d with
      | true =>
        rw [hdone, if_pos ⟨rfl, rfl⟩] at hs
        have hfree : (s.settleIfDone d).isDone d = false := by simp [State.isDone, hs, Descriptor.freed]
        simp [hfree, hs]
      | false =>
        rw [State.settleIfDone_of_not_done hdone]
        simp [hdone]
    · rw [if_neg (fun h => he h.1)] at hs
      simp [State.isDone, hs, he]

/-- Each descriptor of a run that is done brings its sender its RECEIPT, in the order of the run (R9, R10). -/
theorem State.foldl_settleIfDone_port (ds : List DescNo) (hnd : ds.Nodup) : ∀ (s : State) (q : Port),
    (ds.foldl State.settleIfDone s).port q = (s.port q).receive s.tickCount (ds.filterMap (s.dueReceipt q)) := by
  induction ds with
  | nil => exact fun s q => rfl
  | cons e ds ih =>
    obtain ⟨he, hds⟩ := List.nodup_cons.mp hnd
    intro s q
    have hlater : ds.filterMap ((s.settleIfDone e).dueReceipt q) = ds.filterMap (s.dueReceipt q) := by
      refine List.filterMap_congr fun d hd => State.dueReceipt_congr ?_ ?_
      · exact s.settleIfDone_desc_other (fun h => he (h ▸ hd))
      · exact (s.settleIfDone_port e q).session
    rw [List.foldl_cons, ih hds, hlater, State.settleIfDone_port_eq, (s.settleIfDone_sameFloor e).tickCount,
      ← PortState.receive_append, List.filterMap_cons]
    cases s.dueReceipt q e <;> rfl

/-! ### The teardown, step by step -/

/-- Steps 1 to 3 of a teardown: the mark, the notices, the groups (R177). -/
def State.teardownStart (s : State) (p : Port) : State :=
  ((s.modPort p (PortState.markTearingDown true)).modPort p PortState.discardNotices).leaveAllGroups p

/-- Steps 5 and 6: the copies at the port end, and its table and list are emptied. -/
def State.teardownCopies (s : State) (p : Port) : State :=
  (((s.undeliverAll ((s.port p).takes.matched.map (·.bound)) p).modPort p PortState.dropTakes).undeliverAll
    (s.port p).unclaimed p).modPort p PortState.dropUnclaimed

theorem State.teardown_eq (s : State) (p : Port) :
    s.teardown p = ((((s.teardownStart p).endInbound p).teardownCopies p).settleEmptied
      (((s.teardownStart p).endInbound p).port p).liveCopies).modPort p (PortState.markTearingDown false) := rfl

section Start

variable (s : State) (p q : Port) (d : DescNo) (g : GroupNo)

theorem State.teardownStart_port_same :
    (s.teardownStart p).port p = ((s.port p).markTearingDown true).discardNotices := by
  show ((s.modPort p (PortState.markTearingDown true)).modPort p PortState.discardNotices).port p = _
  simp

theorem State.teardownStart_port_other {p q : Port} (h : q ≠ p) : (s.teardownStart p).port q = s.port q := by
  show ((s.modPort p (PortState.markTearingDown true)).modPort p PortState.discardNotices).port q = _
  simp [h]

/-- The port leaves every group, and no other port any (R63). -/
theorem State.teardownStart_members : ((s.teardownStart p).members g).get q = ((s.members g).get q && q != p) := by
  have hg : (s.teardownStart p).members g = (s.members g).set p false := vector_get_map _ _ _
  rw [hg, PerPort.get_set]
  by_cases h : q = p <;> simp [h]

end Start

/-- A port being torn down passes no receipt check (R177). -/
theorem State.closingReceipt_of_tearing {s : State} {p : Port} (h : (s.port p).session.tearingDown = true) (d : DescNo) :
    s.closingReceipt p d = none := by
  refine if_neg fun ⟨hs, hc⟩ => ?_
  obtain ⟨-, -, htd, -⟩ := (s.receiptCheck_iff d).mp hc
  rw [hs, h] at htd
  cases htd

theorem State.dueReceipt_of_tearing {s : State} {p : Port} (h : (s.port p).session.tearingDown = true) (d : DescNo) :
    s.dueReceipt p d = none := by
  simp [State.dueReceipt, State.closingReceipt_of_tearing h]

/-- The end of an INBOUND transfer at a port being torn down: the lane alone changes there (R16). -/
theorem State.endInbound_port_same {s : State} {p : Port} (h : (s.port p).session.tearingDown = true) :
    (s.endInbound p).port p = match (s.port p).lane.owner with
      | .inbound _ => (s.port p).idleLane
      | .idle => s.port p
      | .outbound _ => s.port p := by
  unfold State.endInbound
  cases howner : (s.port p).lane.owner with
  | idle => rfl
  | outbound d => rfl
  | inbound d =>
    have hcheck : ¬ ((s.desc d).sender = p ∧ (s.modPort p PortState.idleLane).receiptCheck d = true) := fun ⟨hs, hc⟩ => by
      obtain ⟨-, -, htd, -⟩ := (State.receiptCheck_iff _ d).mp hc
      rw [State.modPort_desc, hs, State.modPort_port_same, PortState.idleLane_session, h] at htd
      cases htd
    rw [State.abandon_port_eq, State.modPort_desc, if_neg hcheck, State.modPort_port_same, PortState.receive_nil]

/-- Another port may get the RECEIPT of the abandoned message. -/
theorem State.endInbound_port_other (s : State) {p q : Port} (h : q ≠ p) :
    ∃ rs, (s.endInbound p).port q = (s.port q).receive s.tickCount rs := by
  obtain ⟨-, he⟩ | ⟨d, -, he⟩ := s.endInbound_cases p <;> rw [he]
  · exact ⟨[], rfl⟩
  · rw [State.abandon_port_eq, State.modPort_port_other s _ h]
    exact ⟨_, rfl⟩

theorem State.endInbound_sameFloor (s : State) (p : Port) : s.SameFloor (s.endInbound p) := by
  obtain ⟨-, he⟩ | ⟨d, -, he⟩ := s.endInbound_cases p <;> rw [he]
  · exact State.SameFloor.refl s
  · exact (s.modPort_sameFloor p _).trans (State.abandon_freed _ d).floor

/-! ### Its copies -/

theorem State.undeliverAll_port (s : State) (ds : List DescNo) (p q : Port) : (s.undeliverAll ds p).port q = s.port q := by
  rw [State.port, (State.undeliverAll_spec ds p s).1]
  rfl

theorem State.teardownCopies_port_same (s : State) (p : Port) :
    (s.teardownCopies p).port p = (s.port p).dropTakes.dropUnclaimed := by
  simp [State.teardownCopies, State.undeliverAll_port]

theorem State.teardownCopies_port_other (s : State) {p q : Port} (h : q ≠ p) : (s.teardownCopies p).port q = s.port q := by
  simp [State.teardownCopies, State.undeliverAll_port, h]

theorem State.teardownCopies_sameFloor (s : State) (p : Port) : s.SameFloor (s.teardownCopies p) :=
  (((State.undeliverAll_spec _ p s).2.2.trans (State.modPort_sameFloor _ p _)).trans (State.undeliverAll_spec _ p _).2.2).trans
    (State.modPort_sameFloor _ p _)

/-- The copies that a teardown ends are those of the port's takes and of its list (R17). -/
theorem State.teardownCopies_desc (s : State) (p : Port) (d : DescNo) :
    (s.teardownCopies p).desc d = if d ∈ (s.port p).liveCopies then (s.desc d).undelivered p else s.desc d := by
  simp only [State.teardownCopies, State.modPort_desc, State.undeliverAll_desc, PortState.liveCopies, List.mem_append]
  by_cases hm : d ∈ (s.port p).takes.matched.map (·.bound) <;> by_cases hu : d ∈ (s.port p).unclaimed <;>
    simp only [hm, hu, if_true, if_false, or_true, or_false, Descriptor.undelivered_undelivered]

/-! ### The whole teardown -/

/-- What a teardown does to the port's own column and to everything outside it, in every state (R177). -/
structure State.TornDown (s : State) (p : Port) (t : State) : Prop where
  tickCount : t.tickCount = s.tickCount
  pointer : t.pointer = s.pointer
  setupPort : t.setupPort = s.setupPort
  resetAsserted : t.resetAsserted = s.resetAsserted
  draws : t.draws = s.draws
  pending : t.pending = s.pending
  reserve : t.pool.reserve = s.pool.reserve
  ceiling : t.pool.ceiling = s.pool.ceiling
  stallLimit : t.pool.stallLimit = s.pool.stallLimit
  mem : t.pool.mem = s.pool.mem
  members : ∀ g q, (t.members g).get q = ((s.members g).get q && q != p)
  own : t.port p = (s.port p).tornDown
  others : ∀ q, q ≠ p → ∃ rs, t.port q = (s.port q).receive s.tickCount rs

theorem PortState.dropTakes_session (ps : PortState) : ps.dropTakes.session = ps.session := by
  unfold PortState.dropTakes
  cases ps.lane.owner <;> rfl

/-- The column of the port after steps 1 to 6 of its teardown (R177). -/
def PortState.emptied (ps : PortState) : PortState :=
  (match ps.lane.owner with
    | .inbound _ => ((ps.markTearingDown true).discardNotices).idleLane
    | .idle => (ps.markTearingDown true).discardNotices
    | .outbound _ => (ps.markTearingDown true).discardNotices).dropTakes.dropUnclaimed

theorem PortState.emptied_tearingDown (ps : PortState) : ps.emptied.session.tearingDown = true := by
  unfold PortState.emptied
  rw [PortState.dropUnclaimed, PortState.dropTakes_session]
  cases ps.lane.owner <;> rfl

theorem PortState.emptied_unmarked (ps : PortState) : ps.emptied.markTearingDown false = ps.tornDown := by
  cases howner : ps.lane.owner <;>
    simp [howner, PortState.emptied, PortState.markTearingDown, PortState.discardNotices, PortState.dropTakes,
      PortState.dropUnclaimed, PortState.tornDown, PortState.idleLane]

/-- The state after steps 1 to 6 of a teardown: the session's parts are gone, the descriptors not yet settled. -/
def State.teardownEmptied (s : State) (p : Port) : State := ((s.teardownStart p).endInbound p).teardownCopies p

theorem State.teardownEmptied_port_same (s : State) (p : Port) : (s.teardownEmptied p).port p = (s.port p).emptied := by
  rw [State.teardownEmptied, State.teardownCopies_port_same,
    State.endInbound_port_same (by rw [State.teardownStart_port_same]; rfl), State.teardownStart_port_same]
  rfl

theorem State.teardownEmptied_port_other (s : State) {p q : Port} (h : q ≠ p) :
    ∃ rs, (s.teardownEmptied p).port q = (s.port q).receive s.tickCount rs := by
  obtain ⟨rs, hrs⟩ := (s.teardownStart p).endInbound_port_other h
  rw [State.teardownStart_port_other s h] at hrs
  exact ⟨rs, (State.teardownCopies_port_other _ h).trans hrs⟩

theorem State.teardownEmptied_sameFloor (s : State) (p : Port) : (s.teardownStart p).SameFloor (s.teardownEmptied p) :=
  (State.endInbound_sameFloor _ p).trans (State.teardownCopies_sameFloor _ p)

theorem State.settleEmptied_port (s : State) (ds : List DescNo) (q : Port) :
    (s.settleEmptied ds).port q = (s.port q).receive s.tickCount
      (((List.finRange 64).filter (fun d => ds.contains d)).filterMap (s.dueReceipt q)) :=
  State.foldl_settleIfDone_port _ ((List.nodup_finRange 64).filter _) s q

theorem State.teardown_tornDown (s : State) (p : Port) : s.TornDown p (s.teardown p) := by
  have hempty := s.teardownEmptied_sameFloor p
  have hfloor : (s.teardownStart p).SameFloor (s.teardown p) :=
    (hempty.trans (State.settleEmptied_spec _ _).1).trans (State.modPort_sameFloor _ p _)
  refine ⟨hfloor.tickCount, hfloor.pointer, hfloor.setupPort, hfloor.resetAsserted, hfloor.draws, hfloor.pending,
    hfloor.reserve, hfloor.ceiling, hfloor.stallLimit, hfloor.mem, fun g q => ?_, ?_, fun q hq => ?_⟩
  · rw [State.members, hfloor.groups]
    exact s.teardownStart_members p q g
  · have htearing : ((s.teardownEmptied p).port p).session.tearingDown = true := by
      rw [State.teardownEmptied_port_same, PortState.emptied_tearingDown]
    rw [State.teardown_eq, ← State.teardownEmptied, State.modPort_port_same, State.settleEmptied_port,
      List.filterMap_eq_nil_iff.mpr (fun d _ => State.dueReceipt_of_tearing htearing d), PortState.receive_nil,
      State.teardownEmptied_port_same, PortState.emptied_unmarked]
  · obtain ⟨rs, hrs⟩ := s.teardownEmptied_port_other hq
    rw [State.teardown_eq, ← State.teardownEmptied, State.modPort_port_other _ _ hq, State.settleEmptied_port, hrs,
      hempty.tickCount]
    exact ⟨_, (PortState.receive_append _ _ _ _).symm⟩

/-! ### What a teardown frees -/

section Frees

variable {P : DescState → Prop} (hheld : P .held) (s : State) (p : Port)
  (hinbound : ∀ d, (s.port p).lane.owner = .inbound d → P (s.desc d).state)

include hinbound in
theorem State.endInbound_onlyFrees : s.OnlyFrees P (s.endInbound p) := by
  obtain ⟨-, he⟩ | ⟨d, howner, he⟩ := s.endInbound_cases p <;> rw [he]
  · exact .start
  · exact (State.OnlyFrees.start.modPort p _).freed d (hinbound d howner) (State.abandon_freed _ d)

theorem Descriptor.undelivered_sameAllocation (x : Descriptor) (p : Port) : x.SameAllocation (x.undelivered p) := by
  have h := (x.dropMark p).settleCopy_sameAllocation p .undeliverable
  exact ⟨h.state, h.sender, h.chain, h.length, h.hold⟩

theorem State.undeliverAll_onlyFrees (ds : List DescNo) : s.OnlyFrees P (s.undeliverAll ds p) :=
  State.foldl_onlyFrees (fun t d => State.SameAllocation.onlyFrees (by
    rw [State.undeliver, State.settleCopy, State.modDesc_modDesc]
    exact t.modDesc_sameAllocation d ((t.desc d).undelivered_sameAllocation p))) ds s

include hheld hinbound in
/-- A teardown frees the INBOUND message of the port and descriptors whose copies it ends, and changes no other
allocation (R16, R17). -/
theorem State.teardown_onlyFrees : s.OnlyFrees P (s.teardown p) := by
  have hstart : s.SameAllocation (s.teardownStart p) := .of_eq rfl rfl
  have hin : (s.teardownStart p).OnlyFrees P ((s.teardownStart p).endInbound p) := by
    refine State.endInbound_onlyFrees _ p fun d howner => hinbound d ?_
    rw [State.teardownStart_port_same] at howner
    exact howner
  have hcopies : ((s.teardownStart p).endInbound p).OnlyFrees P (s.teardownEmptied p) :=
    (((State.undeliverAll_onlyFrees _ p _).modPort p _).trans (State.undeliverAll_onlyFrees _ p _)).modPort p _
  exact (((hstart.onlyFrees.trans hin).trans hcopies).trans
    (State.foldl_onlyFrees (State.settleIfDone_onlyFrees hheld) _ _)).modPort p _

end Frees

end Sys2Proof.Machine
end

