-- ==== Sys2Proof/Proofs/EndedCopies.lean ====
section
/-! PROOFS. Where copies agree with takes and lists: what the end of copies does to their descriptors, and which RECEIPTs a
teardown sends (R8, R9, R17). -/

namespace Sys2Proof.Machine

/-! ### A descriptor one of whose live copies has ended -/

/-- `y` is `x` with its live copy at `p` settled with outcome `o`. -/
structure Descriptor.EndsAt (x : Descriptor) (p : Port) (o : CopyOutcome) (y : Descriptor) : Prop where
  live : (x.slots.get p).state.live = true
  here : (y.slots.get p).state = .settled o
  elsewhere : ∀ q, q ≠ p → y.slots.get q = x.slots.get q
  tally : y.tally = x.tally.count o
  rest : y = { x with slots := y.slots, tally := y.tally }

/-- A copy at a port other than `p` is live. -/
def Descriptor.otherLive (p : Port) (x : Descriptor) : Bool := Port.all.any (fun q => q != p && (x.slots.get q).state.live)

theorem Descriptor.otherLive_eq_false {p : Port} {x : Descriptor} :
    x.otherLive p = false ↔ ∀ q, q ≠ p → (x.slots.get q).state.live = false := by
  simp [Descriptor.otherLive, Port.mem_all]

section EndsAt

variable {x y : Descriptor} {p : Port} {o : CopyOutcome}

theorem Descriptor.settledCount_eq_sum (x : Descriptor) :
    x.settledCount = (x.slots.a.state.isSettled.toNat + x.slots.b.state.isSettled.toNat) +
      (x.slots.c.state.isSettled.toNat + x.slots.d.state.isSettled.toNat) := by
  simp only [Descriptor.settledCount, Port.all, List.countP_cons, List.countP_nil, PerPort.get]
  cases x.slots.a.state.isSettled <;> cases x.slots.b.state.isSettled <;> cases x.slots.c.state.isSettled <;>
    cases x.slots.d.state.isSettled <;> rfl

/-- One copy more is SETTLED (R8). -/
theorem Descriptor.EndsAt.settledCount (h : x.EndsAt p o y) : y.settledCount = x.settledCount + 1 := by
  have hx := SlotState.isSettled_of_live h.live
  have hy : (y.slots.get p).state.isSettled = true := by rw [h.here]; rfl
  have hother := h.elsewhere
  rw [Descriptor.settledCount_eq_sum, Descriptor.settledCount_eq_sum]
  cases p
  all_goals
    have ha := hother .a
    have hb := hother .b
    have hc := hother .c
    have hd := hother .d
    simp only [PerPort.get, ne_eq, reduceCtorEq, not_false_eq_true, forall_const, not_true_eq_false, false_implies] at *
    simp only [*, Bool.toNat_true, Bool.toNat_false]
    omega

/-- No copy is live any more exactly when none was at another port (R9). -/
theorem Descriptor.EndsAt.liveCount_eq_zero (h : x.EndsAt p o y) : y.liveCount = 0 ↔ x.otherLive p = false := by
  rw [Descriptor.liveCount_eq_zero_iff, Descriptor.otherLive_eq_false]
  refine ⟨fun hz q hq => by rw [← h.elsewhere q hq]; exact hz q, fun hz q => ?_⟩
  by_cases hq : q = p
  · subst hq
    rw [h.here]
    rfl
  · rw [h.elsewhere q hq]
    exact hz q hq

end EndsAt

theorem Descriptor.undelivered_endsAt {x : Descriptor} {p : Port} (h : (x.slots.get p).state.live = true) :
    x.EndsAt p .undeliverable (x.undelivered p) := by
  rw [Descriptor.undelivered_of_unsettled (SlotState.isSettled_of_live h)]
  exact ⟨h, by simp, fun q hq => by simp [hq], rfl, rfl⟩

theorem Descriptor.settleCopy_endsAt {x : Descriptor} {p : Port} (o : CopyOutcome) (h : (x.slots.get p).state.live = true) :
    x.EndsAt p o (x.settleCopy p o) := by
  rw [Descriptor.settleCopy, if_neg (by simp [SlotState.isSettled_of_live h])]
  exact ⟨h, by simp, fun q hq => by simp [hq], rfl, rfl⟩

theorem Descriptor.EndsAt.freed {x y : Descriptor} {p : Port} {o : CopyOutcome} (h : x.EndsAt p o y) : y.freed = x.freed := by
  rw [h.rest]
  rfl

theorem Descriptor.settleCopy_of_live {x : Descriptor} {p : Port} (o : CopyOutcome) (h : (x.slots.get p).state.live = true) :
    x.settleCopy p o = { x with slots := x.slots.set p { x.slots.get p with state := .settled o }, tally := x.tally.count o } := by
  rw [Descriptor.settleCopy, if_neg (by simp [SlotState.isSettled_of_live h])]
  rfl

/-- The descriptor of a copy that has ended, settled if that was its last live copy (R8, R9). -/
theorem Descriptor.afterCopy_eq {x : Descriptor} {p : Port} (o : CopyOutcome) (h : (x.slots.get p).state.live = true) :
    x.afterCopy p o = if x.otherLive p then x.settleCopy p o else x.freed := by
  rw [Descriptor.settleCopy_of_live o h]
  rfl

theorem Descriptor.afterTeardown_eq {x : Descriptor} {p : Port} (h : (x.slots.get p).state.live = true) :
    x.afterTeardown p = if x.otherLive p then x.undelivered p else x.freed := by
  rw [Descriptor.undelivered_of_unsettled (SlotState.isSettled_of_live h)]
  rfl

/-! ### The RECEIPT due for an ended copy -/

/-- The RECEIPT of a descriptor whose last live copy ends with outcome `o` (R11). -/
def Descriptor.endReceipt (x : Descriptor) (o : CopyOutcome) : Receipt :=
  { senderLabel := x.label, status := .complete, copiesMade := x.settledCount + 1, tally := x.tally.count o }

theorem Descriptor.EndsAt.closingReceipt {x y : Descriptor} {p : Port} {o : CopyOutcome} (h : x.EndsAt p o y) :
    y.closingReceipt = x.endReceipt o := by
  rw [Descriptor.closingReceipt, h.settledCount, h.tally, h.rest]
  rfl

/-- The RECEIPT that port `q` gets when a live copy at `p` ends (R9, R10, R11). -/
def State.endReceipt (s : State) (p q : Port) (e : EndedCopy) : Option Receipt :=
  let x := s.desc e.desc
  let c := (s.port q).session
  if x.sender = q ∧ x.receiptWanted = true ∧ c.state = .opened ∧ c.tearingDown = false ∧ c.epoch = x.senderEpoch
      ∧ x.otherLive p = false then
    some (x.endReceipt e.outcome)
  else none

theorem State.receiptsDue_eq (s : State) (p q : Port) (ended : List EndedCopy) :
    s.receiptsDue p q ended = ended.filterMap (s.endReceipt p q) := rfl

section Ended

variable {s t : State} {p q : Port} {d : DescNo} {o : CopyOutcome}

/-- A descriptor whose live copy has ended is done exactly when it had no other (R9). -/
theorem State.isDone_of_ended (hend : (s.desc d).EndsAt p o (t.desc d)) (hheld : (s.desc d).state = .held) :
    t.isDone d = !(s.desc d).otherLive p := by
  have hstate : (t.desc d).state = .held := by rw [hend.rest, hheld]
  rw [Bool.eq_iff_iff, State.isDone_iff, hend.liveCount_eq_zero]
  simp [hstate]

/-- The RECEIPT sent after a copy has ended is the one due for it. -/
theorem State.dueReceipt_of_ended (hend : (s.desc d).EndsAt p o (t.desc d)) (hheld : (s.desc d).state = .held)
    (hq : (t.port q).session = (s.port q).session) : t.dueReceipt q d = s.endReceipt p q { desc := d, outcome := o } := by
  have hsender : (t.desc d).sender = (s.desc d).sender := by rw [hend.rest]
  have hwanted : (t.desc d).receiptWanted = (s.desc d).receiptWanted := by rw [hend.rest]
  have hepoch : (t.desc d).senderEpoch = (s.desc d).senderEpoch := by rw [hend.rest]
  unfold State.dueReceipt State.closingReceipt State.endReceipt
  simp only [State.isDone_of_ended hend hheld, State.receiptCheck_iff, hend.closingReceipt, hsender, hwanted, hepoch]
  by_cases hs : (s.desc d).sender = q
  · subst hs
    cases (s.desc d).otherLive p <;> simp [hq]
  · simp [hs]

end Ended

end Sys2Proof.Machine
end

