-- ==== Sys2Proof/Proofs/CopyLaws.lean ====
section
/-! PROOFS. The agreement of copies with takes, lists and lanes, port by port and descriptor by descriptor, and the
changes that do not touch it. -/

namespace Sys2Proof.Machine

/-- The labels of the ARRIVALs in a port's queue. -/
def PortState.arrivals (ps : PortState) : List Half := ps.queue.notices.filterMap Notice.arrivalLabel

/-- A port column agrees with the states `slot` of the copies at that port and the messages' lengths `len`: the port's
part of `State.copiesSound`. -/
structure PortState.CopiesAgree (slot : DescNo → SlotState) (len : DescNo → Nat) (ps : PortState) : Prop where
  waiting_iff : ∀ d, slot d = .waiting ↔ d ∈ ps.unclaimed
  list_nodup : ps.unclaimed.Nodup
  matched_iff : ∀ d, (slot d = .bound ∨ slot d = .moving) ↔ d ∈ ps.takes.matched.map (·.bound)
  matched_nodup : (ps.takes.matched.map (·.bound)).Nodup
  moving_iff : ∀ d, slot d = .moving ↔ ps.lane.owner = .outbound d
  labels_nodup : ps.takes.labels.Nodup
  delivered_eq : ∀ t ∈ ps.takes.matched, t.delivered = min (len t.bound) t.fields.capacity
  arrivals_iff : ∀ l, l ∈ ps.arrivals ↔ ∃ t ∈ ps.takes.matched, t.fields.label = l ∧ slot t.bound = .bound
  arrivals_nodup : ps.arrivals.Nodup

/-- A descriptor's own part of `State.copiesSound` (R1, R8, R9). -/
structure Descriptor.CopiesLawful (x : Descriptor) : Prop where
  held_iff : x.state = .held ↔ 0 < x.liveCount
  unheld_blank : x.state ≠ .held → x.slots = PerPort.replicate CopySlot.empty ∧ x.tally = Tally.zero
  tally_sum : x.tally.delivered + x.tally.cut + x.tally.expired + x.tally.dropped + x.tally.undeliverable + x.tally.stopped =
    x.settledCount

/-- The INBOUND lanes' part of `State.copiesSound` (R154), for one descriptor and one port. -/
structure InboundAgrees (x : Descriptor) (d : DescNo) (ps : PortState) (p : Port) : Prop where
  iff : ps.lane.owner = .inbound d ↔ (x.state = .gathering ∧ x.sender = p)
  count : ps.lane.owner = .inbound d → x.bytesInPool + ps.lane.poolCount = x.length

/-- The states of the copies at port `p`. -/
def State.slotStates (s : State) (p : Port) (d : DescNo) : SlotState := (s.slot d p).state

/-- The lengths of the messages. -/
def State.lengths (s : State) (d : DescNo) : Nat := (s.desc d).length

theorem State.copiesSound_iff (s : State) : s.copiesSound ↔
    (∀ p, (s.port p).CopiesAgree (s.slotStates p) s.lengths) ∧ (∀ d, (s.desc d).CopiesLawful) ∧
      ∀ d p, InboundAgrees (s.desc d) d (s.port p) p := by
  constructor
  · intro h
    exact ⟨fun p => ⟨fun d => h.waiting_iff d p, h.list_nodup p, fun d => h.matched_iff d p, h.matched_nodup p,
      fun d => h.moving_iff d p, h.labels_nodup p, h.delivered_eq p, h.arrivals_iff p, h.arrivals_nodup p⟩,
      fun d => ⟨h.held_iff d, h.unheld_blank d, h.tally_sum d⟩, fun d p => ⟨h.inbound_iff d p, h.inbound_count d p⟩⟩
  · rintro ⟨hp, hd, hi⟩
    exact ⟨fun d p => (hp p).waiting_iff d, fun p => (hp p).list_nodup, fun d p => (hp p).matched_iff d,
      fun p => (hp p).matched_nodup, fun d p => (hp p).moving_iff d, fun p => (hp p).labels_nodup,
      fun p => (hp p).delivered_eq, fun p => (hp p).arrivals_iff, fun p => (hp p).arrivals_nodup, fun d => (hd d).held_iff,
      fun d => (hd d).unheld_blank, fun d => (hd d).tally_sum, fun d p => (hi d p).iff, fun d p => (hi d p).count⟩

/-! ### Changes of a column that the copies do not see -/

/-- The column's copies, MATCHED takes, lane owner and ARRIVALs are as they were, and POSTED takes may have gone. -/
structure PortState.SameCopies (ps ps' : PortState) : Prop where
  unclaimed : ps'.unclaimed = ps.unclaimed
  matched : ps'.takes.matched = ps.takes.matched
  owner : ps'.lane.owner = ps.lane.owner
  arrivals : ps'.arrivals = ps.arrivals
  posted : (ps'.takes.posted.map (·.fields.label)).Sublist (ps.takes.posted.map (·.fields.label))

theorem PortState.SameCopies.refl (ps : PortState) : ps.SameCopies ps := ⟨rfl, rfl, rfl, rfl, List.Sublist.refl _⟩

theorem PortState.SameCopies.trans {x y z : PortState} (h : x.SameCopies y) (h' : y.SameCopies z) : x.SameCopies z :=
  ⟨h'.unclaimed.trans h.unclaimed, h'.matched.trans h.matched, h'.owner.trans h.owner, h'.arrivals.trans h.arrivals,
    h'.posted.trans h.posted⟩

/-- A slot is seen by a port column only while it is live. -/
def SlotState.SameLive (x y : SlotState) : Prop := y = x ∨ (y.live = false ∧ x.live = false)

theorem SlotState.SameLive.eq_iff {x y z : SlotState} (h : x.SameLive y) (hz : z.live = true) : y = z ↔ x = z := by
  obtain rfl | ⟨hy, hx⟩ := h
  · exact Iff.rfl
  · constructor <;> rintro rfl
    · rw [hy] at hz; cases hz
    · rw [hx] at hz; cases hz

theorem PortState.CopiesAgree.congr {slot slot' : DescNo → SlotState} {len len' : DescNo → Nat} {ps ps' : PortState}
    (h : ps.CopiesAgree slot len) (hps : ps.SameCopies ps') (hslot : ∀ d, (slot d).SameLive (slot' d))
    (hlen : ∀ t ∈ ps.takes.matched, len' t.bound = len t.bound) : ps'.CopiesAgree slot' len' where
  waiting_iff d := by rw [(hslot d).eq_iff rfl, h.waiting_iff, hps.unclaimed]
  list_nodup := hps.unclaimed ▸ h.list_nodup
  matched_iff d := by rw [(hslot d).eq_iff rfl, (hslot d).eq_iff rfl, h.matched_iff, hps.matched]
  matched_nodup := hps.matched ▸ h.matched_nodup
  moving_iff d := by rw [(hslot d).eq_iff rfl, h.moving_iff, hps.owner]
  labels_nodup := by
    have hl := h.labels_nodup
    unfold TakeTable.labels at hl ⊢
    rw [hps.matched]
    exact hl.sublist (hps.posted.append (List.Sublist.refl _))
  delivered_eq t ht := by
    rw [hps.matched] at ht
    rw [hlen t ht, h.delivered_eq t ht]
  arrivals_iff l := by
    rw [hps.arrivals, hps.matched, h.arrivals_iff]
    exact exists_congr fun t => and_congr_right fun _ => and_congr_right fun _ => ((hslot t.bound).eq_iff rfl).symm
  arrivals_nodup := hps.arrivals ▸ h.arrivals_nodup

/-- A column in which nothing of the copies and no count of the lane has changed. -/
structure PortState.SameTransfers (ps ps' : PortState) : Prop extends PortState.SameCopies ps ps' where
  poolCount : ps'.lane.poolCount = ps.lane.poolCount

theorem PortState.SameTransfers.refl (ps : PortState) : ps.SameTransfers ps := ⟨PortState.SameCopies.refl ps, rfl⟩

theorem PortState.SameTransfers.trans {x y z : PortState} (h : x.SameTransfers y) (h' : y.SameTransfers z) : x.SameTransfers z :=
  ⟨h.toSameCopies.trans h'.toSameCopies, h'.poolCount.trans h.poolCount⟩

/-- Copies stay in agreement while columns change in nothing the copies see. -/
theorem State.copiesSound.congr {s t : State} (h : s.copiesSound) (hd : ∀ d, t.desc d = s.desc d)
    (hp : ∀ p, (s.port p).SameTransfers (t.port p)) : t.copiesSound := by
  obtain ⟨hports, hdescs, hin⟩ := s.copiesSound_iff.mp h
  refine t.copiesSound_iff.mpr ⟨fun p => (hports p).congr (hp p).toSameCopies (fun d => .inl ?_) (fun u _ => ?_),
    fun d => hd d ▸ hdescs d, fun d p => ?_⟩
  · rw [State.slotStates, State.slot, hd d]
    rfl
  · rw [State.lengths, hd u.bound]
    rfl
  · obtain ⟨hiff, hcount⟩ := hin d p
    exact ⟨by rw [(hp p).owner, hd d, hiff], by rw [(hp p).owner, (hp p).poolCount, hd d]; exact hcount⟩

theorem State.modPort_copiesSound {s : State} {p : Port} {f : PortState → PortState} (h : s.copiesSound)
    (hf : (s.port p).SameTransfers (f (s.port p))) : (s.modPort p f).copiesSound := by
  refine h.congr (fun d => rfl) fun q => ?_
  by_cases hq : q = p
  · subst hq
    rwa [State.modPort_port_same]
  · rw [State.modPort_port_other s f hq]
    exact PortState.SameTransfers.refl _

/-! ### Notices that are no ARRIVALs -/

theorem PortState.OnlyNotices.sameTransfers {x y : PortState} (h : x.OnlyNotices y) (ha : y.arrivals = x.arrivals) :
    x.SameTransfers y :=
  ⟨⟨h.unclaimed, by rw [h.takes], by rw [h.lane], ha, by rw [h.takes]⟩, by rw [h.lane]⟩

theorem PortState.offer_sameTransfers (now : Tick) (ps : PortState) : ps.SameTransfers (ps.offer now) :=
  (PortState.offer_onlyNotices now ps).sameTransfers (by simp [PortState.arrivals])

theorem PortState.append_sameTransfers (now : Tick) {ns : List Notice} (hn : ns.filterMap Notice.arrivalLabel = [])
    (ps : PortState) : ps.SameTransfers (ps.append now ns) :=
  (PortState.append_onlyNotices now ns ps).sameTransfers (by simp [PortState.arrivals, hn])

theorem PortState.appendReceipt_sameTransfers (now : Tick) (r : Receipt) (ps : PortState) :
    ps.SameTransfers (ps.appendReceipt now r) := by
  refine (PortState.appendReceipt_onlyNotices now r ps).sameTransfers ?_
  obtain h | ⟨h, -, -⟩ := PortState.appendReceipt_notices now r ps
  · simp [PortState.arrivals, h, Notice.arrivalLabel]
  · rw [h]

theorem PortState.receive_sameTransfers (now : Tick) (rs : List Receipt) (ps : PortState) :
    ps.SameTransfers (ps.receive now rs) := by
  induction rs generalizing ps with
  | nil => exact PortState.SameTransfers.refl ps
  | cons r rs ih => exact (PortState.appendReceipt_sameTransfers now r ps).trans (ih _)

end Sys2Proof.Machine
end

