-- ==== Sys2Proof/Proofs/SessionEnds.lean ====
section
/-! PROOFS. The ends of a session (O6, O40, O46): the teardown where copies agree with takes and lists, and the commands
that bring it about. -/

namespace Sys2Proof.Machine

section Copies

variable {s : State} (hs : s.copiesSound) (p q : Port) (d : DescNo)
include hs

/-- A live copy is one of the port's list or of its MATCHED takes (R29, R43). -/
theorem State.copiesSound.live_iff : (s.slot d p).state.live = true ↔ d ∈ (s.port p).liveCopies := by
  rw [PortState.liveCopies, List.mem_append, ← hs.matched_iff, ← hs.waiting_iff]
  cases (s.slot d p).state <;> simp [SlotState.live]

/-- A descriptor with a live copy is HELD (R9). -/
theorem State.copiesSound.held_of_live {p : Port} {d : DescNo} (h : (s.slot d p).state.live = true) :
    (s.desc d).state = .held :=
  (hs.held_iff d).mpr ((s.desc d).liveCount_pos_iff.mpr ⟨p, h⟩)

/-- The message of an INBOUND lane has no live copy. -/
theorem State.copiesSound.not_live_of_inbound {p q : Port} {d : DescNo} (h : (s.port q).lane.owner = .inbound d) :
    (s.slot d p).state.live = false := by
  by_contra hl
  have hheld := hs.held_of_live (p := p) (by simpa using hl)
  have hgathering := ((hs.inbound_iff d q).mp h).1
  rw [hheld] at hgathering
  cases hgathering

/-- The end of the port's INBOUND transfer in a teardown: its descriptor is freed without a RECEIPT (R13, R16). -/
theorem State.teardownStart_endInbound_port (q : Port) (hq : q ≠ p) :
    ((s.teardownStart p).endInbound p).port q = s.port q := by
  obtain ⟨-, he⟩ | ⟨d, howner, he⟩ := (s.teardownStart p).endInbound_cases p <;> rw [he]
  · exact s.teardownStart_port_other hq
  · rw [State.teardownStart_port_same] at howner
    have hsender : (s.desc d).sender = p := ((hs.inbound_iff d p).mp howner).2
    rw [(State.abandon_freed _ d).elsewhere q (by rw [State.modPort_desc]; exact fun h => hq (h.trans hsender)),
      State.modPort_port_other _ _ hq]
    exact s.teardownStart_port_other hq

omit hs in
theorem State.endInbound_desc (s : State) (p : Port) (d : DescNo) :
    (s.endInbound p).desc d = if (s.port p).lane.owner = .inbound d then (s.desc d).freed else s.desc d := by
  obtain ⟨hne, he⟩ | ⟨e, howner, he⟩ := s.endInbound_cases p <;> rw [he]
  · rw [if_neg (hne d)]
  · have hf := State.abandon_freed (s.modPort p PortState.idleLane) e
    by_cases hd : d = e
    · subst hd
      rw [if_pos howner, hf.freed]
      rfl
    · rw [hf.others d hd, howner, if_neg (fun h => hd (LaneOwner.inbound.inj h).symm)]
      rfl

omit hs in
theorem State.teardown_liveCopies (s : State) (p : Port) :
    (((s.teardownStart p).endInbound p).port p).liveCopies = (s.port p).liveCopies := by
  rw [State.endInbound_port_same (by rw [State.teardownStart_port_same]; rfl), State.teardownStart_port_same]
  cases (((s.port p).markTearingDown true).discardNotices).lane.owner <;> rfl

/-- Every descriptor after steps 1 to 6 of a teardown (R16, R17). -/
theorem State.teardownEmptied_desc : (s.teardownEmptied p).desc d =
    if (s.slot d p).state.live then (s.desc d).undelivered p
    else if (s.port p).lane.owner = .inbound d then (s.desc d).freed else s.desc d := by
  have hstart : ((s.teardownStart p).port p).lane = (s.port p).lane := by rw [State.teardownStart_port_same]; rfl
  have hin : ((s.teardownStart p).endInbound p).desc d =
      if (s.port p).lane.owner = .inbound d then (s.desc d).freed else s.desc d := by
    rw [State.endInbound_desc, hstart]
    rfl
  rw [State.teardownEmptied, State.teardownCopies_desc, State.teardown_liveCopies, hin]
  simp only [← hs.live_iff]
  by_cases hl : (s.slot d p).state.live = true
  · have hne : (s.port p).lane.owner ≠ .inbound d := fun h => by simp [hs.not_live_of_inbound h] at hl
    simp [hl, hne]
  · simp [hl]

/-- Step 7 goes through the descriptors with a live copy at the port, in ascending order. -/
theorem State.teardown_settled :
    s.teardown p = (((List.finRange 64).filter (fun d => (s.slot d p).state.live)).foldl State.settleIfDone
      (s.teardownEmptied p)).modPort p (PortState.markTearingDown false) := by
  have hlist : (List.finRange 64).filter (fun d => (s.port p).liveCopies.contains d) =
      (List.finRange 64).filter (fun d => (s.slot d p).state.live) :=
    List.filter_congr fun d _ => by rw [Bool.eq_iff_iff, List.contains_iff_mem, hs.live_iff]
  rw [State.teardown_eq, State.teardown_liveCopies, State.settleEmptied, hlist]
  rfl

variable {p d} in
theorem State.teardownEmptied_endsAt (h : (s.slot d p).state.live = true) :
    (s.desc d).EndsAt p .undeliverable ((s.teardownEmptied p).desc d) := by
  rw [State.teardownEmptied_desc hs, if_pos h]
  exact Descriptor.undelivered_endsAt h

/-- What a teardown does to every descriptor (R16, R17). -/
theorem State.teardown_desc : (s.teardown p).desc d =
    if (s.slot d p).state.live then (s.desc d).afterTeardown p
    else if (s.port p).lane.owner = .inbound d then (s.desc d).freed else s.desc d := by
  rw [State.teardown_settled hs, State.modPort_desc, State.foldl_settleIfDone_desc]
  by_cases hl : (s.slot d p).state.live = true
  · have hend := State.teardownEmptied_endsAt hs hl
    have hdone := State.isDone_of_ended hend (hs.held_of_live hl)
    have hempty : (s.teardownEmptied p).desc d = (s.desc d).undelivered p := by
      rw [State.teardownEmptied_desc hs, if_pos hl]
    rw [hdone, hend.freed, hempty, if_pos hl, Descriptor.afterTeardown_eq hl]
    cases (s.desc d).otherLive p <;> simp [hl]
  · rw [if_neg (by simp [hl]), State.teardownEmptied_desc hs, if_neg hl, if_neg hl]

/-- The RECEIPTs that a teardown sends to another port: those due, in ascending order of descriptor (R17, R178). -/
theorem State.teardown_receipts (q : Port) (hq : q ≠ p) :
    (s.teardown p).port q = (s.port q).receive s.tickCount (s.receiptsDue p q (s.tornCopies p)) := by
  have hport : (s.teardownEmptied p).port q = s.port q :=
    (State.teardownCopies_port_other _ hq).trans (State.teardownStart_endInbound_port hs p q hq)
  have hdue : ((List.finRange 64).filter (fun d => (s.slot d p).state.live)).filterMap ((s.teardownEmptied p).dueReceipt q) =
      s.receiptsDue p q (s.tornCopies p) := by
    rw [State.receiptsDue_eq, State.tornCopies, List.filterMap_map]
    refine List.filterMap_congr fun d hd => ?_
    have hl : (s.slot d p).state.live = true := (List.mem_filter.mp hd).2
    exact State.dueReceipt_of_ended (State.teardownEmptied_endsAt hs hl) (hs.held_of_live hl) (by rw [hport])
  rw [State.teardown_settled hs, State.modPort_port_other _ _ hq,
    State.foldl_settleIfDone_port _ ((List.nodup_finRange 64).filter _), hport, hdue, (s.teardownEmptied_sameFloor p).tickCount]
  rfl

/-- Descriptors freed by a teardown were in use (R16, R17). -/
theorem State.teardown_frees : s.OnlyFrees (· ≠ .free) (s.teardown p) :=
  State.teardown_onlyFrees (by simp) s p fun d howner => by simp [((hs.inbound_iff d p).mp howner).1]

end Copies

/-! ### What a teardown leaves outside its port -/

theorem State.TornDown.keeps {s t : State} {p : Port} (h : s.TornDown p t)
    {ended : List EndedCopy} (hreceipts : s.copiesSound → ∀ q, q ≠ p → t.port q = (s.port q).receive s.tickCount (s.receiptsDue p q ended)) :
    s.TeardownKeeps p ended t where
  tickCount := h.tickCount
  pointer := h.pointer
  setupPort := h.setupPort
  limits := ⟨h.reserve, h.ceiling, h.stallLimit⟩
  bytes := h.mem
  memberships := h.members
  others := fun q hq => by
    obtain ⟨rs, hrs⟩ := h.others q hq
    have ho := PortState.receive_onlyNotices s.tickCount rs (s.port q)
    rw [hrs]
    exact ⟨ho.session, ho.inbound, ho.takes, ho.unclaimed, ho.lane, ho.enables, PortState.receive_notices _ _ _⟩
  receipts := hreceipts

/-- A change of the port's own column after the teardown. -/
theorem State.TeardownKeeps.modPort {s t : State} {p : Port} {ended : List EndedCopy} (h : s.TeardownKeeps p ended t)
    (f : PortState → PortState) : s.TeardownKeeps p ended (t.modPort p f) where
  tickCount := h.tickCount
  pointer := h.pointer
  setupPort := h.setupPort
  limits := h.limits
  bytes := h.bytes
  memberships := h.memberships
  others := fun q hq => by
    rw [State.modPort_port_other t f hq]
    exact h.others q hq
  receipts := fun hs q hq => by
    rw [State.modPort_port_other t f hq]
    exact h.receipts hs q hq

theorem State.teardown_keeps (s : State) (p : Port) : s.TeardownKeeps p (s.tornCopies p) (s.teardown p) :=
  (s.teardown_tornDown p).keeps fun hs q hq => State.teardown_receipts hs p q hq

/-! ### CLOSE and OPEN -/

theorem State.teardownIfOpen_of_open {s : State} {p : Port} (h : (s.port p).session.state = .opened) :
    s.teardownIfOpen p = s.teardown p := if_pos (by simp [PortState.isOpen, h])

theorem State.teardownIfOpen_of_not_open {s : State} {p : Port} (h : (s.port p).session.state ≠ .opened) :
    s.teardownIfOpen p = s := if_neg (by simp [PortState.isOpen, h])

/-- A legal answer limit is the one R99 sets. -/
theorem answerLimit_of_legal {limit : Half} (h : limit = 0 ∨ (10 ≤ limit.toNat ∧ limit.toNat ≤ 2000)) :
    answerLimitLegal limit = true ∧ answerLimitOf limit = if limit = 0 then 250 else limit.toNat := by
  have hzero : limit.toNat = 0 ↔ limit = 0 := ⟨fun h0 => BitVec.eq_of_toNat_eq h0, fun h0 => by rw [h0]; rfl⟩
  refine ⟨?_, by simp [answerLimitOf, hzero]⟩
  rcases h with h | h <;> simp [answerLimitLegal, h]

/-- An accepted CLOSE (R100, R175). -/
theorem State.exec_closePort {s : State} {p : Port} (hrun : s.resetAsserted = false) (h : (s.port p).session.state ≠ .closed) :
    exec (.closePort p) s = .next ((s.closeSession p).modPort p (PortState.answered none)) := by
  show Host.Outcome.next (s.unlessInReset (s.answerRequest p (s.acceptClose p))) = _
  rw [State.unlessInReset_released s _ hrun, State.acceptClose, if_neg h]
  rfl

/-- An accepted OPEN (R99, R173). -/
theorem State.exec_openPort {s : State} {p : Port} {limit : Half} (hrun : s.resetAsserted = false)
    (h : limit = 0 ∨ (10 ≤ limit.toNat ∧ limit.toNat ≤ 2000)) :
    exec (.openPort p limit) s = .next ((s.openSession p (if limit = 0 then 250 else limit.toNat)).modPort p
      (PortState.answered none)) := by
  obtain ⟨hlegal, hof⟩ := answerLimit_of_legal h
  show Host.Outcome.next (s.unlessInReset (s.answerRequest p (s.acceptOpen p limit))) = _
  rw [State.unlessInReset_released s _ hrun, State.acceptOpen, hlegal, hof]
  rfl

/-- Settles O6. -/
theorem closeAndReopenEndTheSession : Obligations.CloseAndReopenEndTheSession := by
  intro s p hrun
  have hown := (s.teardown_tornDown p).own
  refine ⟨fun hlapsed => ?_, fun hopen => ⟨?_, fun limit hlimit => ?_⟩⟩
  · rw [State.exec_closePort hrun (by simp [hlapsed]), State.closeSession,
      State.teardownIfOpen_of_not_open (by simp [hlapsed]), State.modPort_modPort]
    rfl
  · rw [State.exec_closePort hrun (by simp [hopen]), State.closeSession, State.teardownIfOpen_of_open hopen,
      State.modPort_modPort]
    refine ⟨_, rfl, (s.teardown_keeps p).modPort _, ?_⟩
    rw [State.modPort_port_same, hown]
    rfl
  · rw [State.exec_openPort hrun hlimit, State.openSession, State.teardownIfOpen_of_open hopen, State.modPort_modPort]
    refine ⟨_, rfl, (s.teardown_keeps p).modPort _, ?_⟩
    rw [State.modPort_port_same, hown]
    rfl

/-! ### Lapses -/

theorem State.lapse_eq (s : State) (p : Port) :
    s.lapse p = ((s.modPort p (PortState.setLapsedCause true)).teardown p).modPort p (PortState.setSession .lapsed) := rfl

theorem State.receiptsDue_modPort (s : State) {p q : Port} (f : PortState → PortState) (h : q ≠ p) (ended : List EndedCopy) :
    (s.modPort p f).receiptsDue p q ended = s.receiptsDue p q ended := by
  rw [State.receiptsDue_eq, State.receiptsDue_eq]
  exact List.filterMap_congr fun e _ => by simp [State.endReceipt, h]

/-- A change of the port's own column before the teardown. -/
theorem State.TeardownKeeps.of_modPort {s t : State} {p : Port} {f : PortState → PortState} {ended : List EndedCopy}
    (h : (s.modPort p f).TeardownKeeps p ended t) (hcopies : (s.port p).SameTransfers (f (s.port p))) :
    s.TeardownKeeps p ended t where
  tickCount := h.tickCount
  pointer := h.pointer
  setupPort := h.setupPort
  limits := h.limits
  bytes := h.bytes
  memberships := h.memberships
  others := fun q hq => by simpa [hq] using h.others q hq
  receipts := fun hs q hq => by
    rw [h.receipts (State.modPort_copiesSound hs hcopies) q hq, State.modPort_port_other s f hq,
      State.receiptsDue_modPort s f hq, State.modPort_tickCount]

/-- A lapse sets the cause, tears the session down and leaves the port LAPSED (R176). -/
theorem State.lapse_spec (s : State) (p : Port) :
    s.TeardownKeeps p (s.tornCopies p) (s.lapse p) ∧ (s.lapse p).port p = { (s.port p).tornDown with
      session := { (s.port p).session with state := .lapsed, lapsedCause := true, tearingDown := false } } := by
  refine ⟨?_, ?_⟩
  · exact (((s.modPort p (PortState.setLapsedCause true)).teardown_keeps p).of_modPort ⟨⟨rfl, rfl, rfl, rfl, List.Sublist.refl _⟩, rfl⟩).modPort _
  · rw [State.lapse_eq, State.modPort_port_same, (State.teardown_tornDown _ p).own, State.modPort_port_same]
    rfl

theorem State.byteDeadlineReached_iff (s : State) (p : Port) : s.byteDeadlineReached p = true ↔
    (∃ n, (s.port p).outbound.tx = .data n s.tickCount) ∨ (s.port p).outbound.tx = .length s.tickCount := by
  unfold State.byteDeadlineReached
  cases (s.port p).outbound.tx <;> simp

theorem State.answerDeadlineReached_iff (s : State) (p : Port) : s.answerDeadlineReached p = true ↔
    (s.port p).outbound.tx = .answer s.tickCount := by
  unfold State.answerDeadlineReached
  cases (s.port p).outbound.tx <;> simp

theorem State.exec_byteDeadline {s : State} (hrun : s.resetAsserted = false) (p : Port) :
    exec (.byteDeadline p) s = .next (if s.byteDeadlineReached p then s.lapse p else s) := by
  show Host.Outcome.next (s.unlessInReset (s.testByteDeadline p)) = _
  rw [State.unlessInReset_released s _ hrun]
  rfl

theorem State.exec_answerDeadline {s : State} (hrun : s.resetAsserted = false) (p : Port) :
    exec (.answerDeadline p) s = .next (if s.answerDeadlineReached p then s.lapse p else s) := by
  show Host.Outcome.next (s.unlessInReset (s.testAnswerDeadline p)) = _
  rw [State.unlessInReset_released s _ hrun]
  rfl

/-- Settles O46. -/
theorem framingDeadlineLapsesThePort : Obligations.FramingDeadlineLapsesThePort := by
  intro s p hrun ps lapses
  obtain ⟨hkeeps, hown⟩ := s.lapse_spec p
  rw [State.exec_byteDeadline hrun, State.exec_answerDeadline hrun]
  refine ⟨fun n hn => ⟨s.lapse p, ?_, hkeeps, hown⟩, fun h => ⟨s.lapse p, ?_, hkeeps, hown⟩, fun hdata hlength => ?_, fun h => ?_⟩
  · rw [State.exec_byteDeadline hrun, if_pos ((s.byteDeadlineReached_iff p).mpr (hn.imp (fun h => ⟨n, h⟩) id))]
  · rw [State.exec_answerDeadline hrun, if_pos ((s.answerDeadlineReached_iff p).mpr h)]
  · rw [if_neg fun h => ((s.byteDeadlineReached_iff p).mp h).elim (fun ⟨n, hn⟩ => hdata n hn) hlength]
  · rw [if_neg fun h' => h ((s.answerDeadlineReached_iff p).mp h')]

/-! ### The port reset -/

/-- The columns of a port reset: the torn-down column of an OPEN port, with its window cleared (R179). -/
theorem State.resetPort_of_open {s : State} {p : Port} (hopen : (s.port p).session.state = .opened) :
    s.resetPort p = (s.teardown p).modPort p (fun ps =>
      (((ps.setSession .closed).setLapsedCause false).modLane (fun l => { l with fifo := [], overrun := false, underrun := false })).clearWindow) := by
  have hidle : (s.port p).tornDown.lane.owner = .idle := by
    unfold PortState.tornDown
    simp only
    split
    · assumption
    · rfl
  unfold State.resetPort State.purgeLane
  rw [State.teardownIfOpen_of_open hopen]
  have howner : (((s.teardown p).modPort p (fun ps => (ps.setSession .closed).setLapsedCause false)).port p).lane.owner = .idle := by
    rw [State.modPort_port_same, (s.teardown_tornDown p).own]
    exact hidle
  simp only [howner, State.modPort_modPort]

/-- Settles O40. -/
theorem portResetClearsThePort : Obligations.PortResetClearsThePort := by
  intro s p hrun ps cleared
  have hexec : exec (.portReset p) s = .next (s.resetPort p) := by
    show Host.Outcome.next (s.unlessInReset (s.resetPort p)) = _
    rw [State.unlessInReset_released s _ hrun]
  simp only [hexec]
  refine ⟨fun hopen => ⟨_, rfl, ?_, ?_⟩, fun hclosed hidle => ?_⟩
  · rw [State.resetPort_of_open hopen]
    exact (s.teardown_keeps p).modPort _
  · rw [State.resetPort_of_open hopen, State.modPort_port_same, (s.teardown_tornDown p).own]
    rfl
  · have howner : ((s.modPort p (fun ps => (ps.setSession .closed).setLapsedCause false)).port p).lane.owner = .idle := by
      rw [State.modPort_port_same]
      exact hidle
    unfold State.resetPort State.purgeLane
    rw [State.teardownIfOpen_of_not_open hclosed]
    simp only [howner, State.modPort_modPort]
    rfl

end Sys2Proof.Machine
end

