-- ==== Sys2Proof/Proofs/ColumnCopies.lean ====
section
/-! PROOFS. The six ways in which one copy and its port's column change together, each of which keeps them in
agreement. -/

namespace Sys2Proof.Machine

section Column

variable {slot slot' : DescNo → SlotState} {len : DescNo → Nat} {ps ps' : PortState} {d : DescNo}

/-- The copies of the other descriptors are as they were. -/
def OthersKept (d : DescNo) (slot slot' : DescNo → SlotState) : Prop := ∀ e, e ≠ d → slot' e = slot e

theorem OthersKept.eq_iff (he : OthersKept d slot slot') {x : SlotState} (h : slot d ≠ x) (h' : slot' d ≠ x) (e : DescNo) :
    slot' e = x ↔ slot e = x := by
  by_cases hed : e = d
  · subst hed
    exact iff_of_false h' h
  · rw [he e hed]

theorem SlotState.ne_of_not_live {x y : SlotState} (hx : x.live = false) (hy : y.live = true) : x ≠ y := by
  rintro rfl
  rw [hx] at hy
  cases hy

/-- A copy leaves the list (R46). -/
theorem PortState.CopiesAgree.leaveList (h : ps.CopiesAgree slot len) (he : OthersKept d slot slot')
    (hd : slot d = .waiting) (hd' : (slot' d).live = false) (hu : ps'.unclaimed = ps.unclaimed.erase d)
    (ht : ps'.takes = ps.takes) (ho : ps'.lane.owner = ps.lane.owner) (ha : ps'.arrivals = ps.arrivals) :
    ps'.CopiesAgree slot' len := by
  have hb : ∀ e, slot' e = .bound ↔ slot e = .bound := he.eq_iff (by simp [hd]) (SlotState.ne_of_not_live hd' rfl)
  have hm : ∀ e, slot' e = .moving ↔ slot e = .moving := he.eq_iff (by simp [hd]) (SlotState.ne_of_not_live hd' rfl)
  refine ⟨fun e => ?_, hu ▸ h.list_nodup.erase d, fun e => by rw [hb, hm, ht, h.matched_iff], ht ▸ h.matched_nodup,
    fun e => by rw [hm, ho, h.moving_iff], ht ▸ h.labels_nodup, ht ▸ h.delivered_eq, fun l => ?_, ha ▸ h.arrivals_nodup⟩
  · rw [hu, h.list_nodup.mem_erase_iff, ← h.waiting_iff]
    by_cases hed : e = d
    · subst hed
      exact iff_of_false (SlotState.ne_of_not_live hd' rfl) (fun h => h.1 rfl)
    · simp [he e hed, hed]
  · rw [ha, ht, h.arrivals_iff]
    simp only [hb]

/-- A copy joins the list, at either end (R44, R49). -/
theorem PortState.CopiesAgree.joinList (h : ps.CopiesAgree slot len) (he : OthersKept d slot slot')
    (hd : (slot d).live = false) (hd' : slot' d = .waiting) (hu : ps'.unclaimed.Perm (d :: ps.unclaimed))
    (ht : ps'.takes = ps.takes) (ho : ps'.lane.owner = ps.lane.owner) (ha : ps'.arrivals = ps.arrivals) :
    ps'.CopiesAgree slot' len := by
  have hb : ∀ e, slot' e = .bound ↔ slot e = .bound := he.eq_iff (SlotState.ne_of_not_live hd rfl) (by simp [hd'])
  have hm : ∀ e, slot' e = .moving ↔ slot e = .moving := he.eq_iff (SlotState.ne_of_not_live hd rfl) (by simp [hd'])
  have hnew : d ∉ ps.unclaimed := fun hmem => SlotState.ne_of_not_live hd rfl ((h.waiting_iff d).mpr hmem)
  refine ⟨fun e => ?_, hu.nodup_iff.mpr (List.nodup_cons.mpr ⟨hnew, h.list_nodup⟩), fun e => by rw [hb, hm, ht, h.matched_iff],
    ht ▸ h.matched_nodup, fun e => by rw [hm, ho, h.moving_iff], ht ▸ h.labels_nodup, ht ▸ h.delivered_eq, fun l => ?_,
    ha ▸ h.arrivals_nodup⟩
  · rw [hu.mem_iff, List.mem_cons, ← h.waiting_iff]
    by_cases hed : e = d
    · subst hed
      simp [hd']
    · simp [he e hed, hed]
  · rw [ha, ht, h.arrivals_iff]
    simp only [hb]

/-- The MATCHED take that names a descriptor. -/
theorem PortState.CopiesAgree.take_of_bound (h : ps.CopiesAgree slot len) {t u : MatchedTake} (ht : t ∈ ps.takes.matched)
    (hu : u ∈ ps.takes.matched) (hb : t.bound = u.bound) : t = u :=
  List.inj_on_of_nodup_map h.matched_nodup ht hu hb

theorem PortState.CopiesAgree.take_of_label (h : ps.CopiesAgree slot len) {t u : MatchedTake} (ht : t ∈ ps.takes.matched)
    (hu : u ∈ ps.takes.matched) (hl : t.fields.label = u.fields.label) : t = u :=
  List.inj_on_of_nodup_map (List.nodup_append.mp h.labels_nodup).2.1 ht hu hl

/-- The takes left when those of descriptor `d` end. -/
theorem endTake_bound (ts : List MatchedTake) (d e : DescNo) :
    e ∈ (ts.filter (fun t => t.bound != d)).map (·.bound) ↔ e ≠ d ∧ e ∈ ts.map (·.bound) := by
  simp only [List.mem_map, List.mem_filter, bne_iff_ne, ne_eq]
  constructor
  · rintro ⟨t, ⟨ht, hne⟩, rfl⟩
    exact ⟨hne, t, ht, rfl⟩
  · rintro ⟨hne, t, ht, rfl⟩
    exact ⟨t, ⟨ht, hne⟩, rfl⟩

theorem PortState.CopiesAgree.endTake_matched_iff (h : ps.CopiesAgree slot len) (he : OthersKept d slot slot')
    (hd' : (slot' d).live = false) (ht : ps'.takes.matched = ps.takes.matched.filter (fun t => t.bound != d)) (e : DescNo) :
    (slot' e = .bound ∨ slot' e = .moving) ↔ e ∈ ps'.takes.matched.map (·.bound) := by
  rw [ht, endTake_bound, ← h.matched_iff]
  by_cases hed : e = d
  · subst hed
    exact iff_of_false (fun hb => hb.elim (SlotState.ne_of_not_live hd' rfl) (SlotState.ne_of_not_live hd' rfl)) (fun h => h.1 rfl)
  · simp [he e hed, hed]

theorem PortState.CopiesAgree.endTake_labels (h : ps.CopiesAgree slot len) (hp : ps'.takes.posted = ps.takes.posted)
    (ht : ps'.takes.matched = ps.takes.matched.filter (fun t => t.bound != d)) : ps'.takes.labels.Nodup := by
  have hl := h.labels_nodup
  unfold TakeTable.labels at hl ⊢
  rw [ht, hp]
  exact hl.sublist ((List.Sublist.refl _).append (List.filter_sublist.map _))

theorem PortState.CopiesAgree.endTake_waiting_iff (h : ps.CopiesAgree slot len) (he : OthersKept d slot slot')
    (hd : slot d ≠ .waiting) (hd' : slot' d ≠ .waiting) (hu : ps'.unclaimed = ps.unclaimed) (e : DescNo) :
    slot' e = .waiting ↔ e ∈ ps'.unclaimed := by
  rw [he.eq_iff hd hd', hu, h.waiting_iff]

/-- A delivery ends: its take goes and the lane is IDLE (R32). -/
theorem PortState.CopiesAgree.endMoving (h : ps.CopiesAgree slot len) (he : OthersKept d slot slot')
    (hd : slot d = .moving) (hd' : (slot' d).live = false) (hu : ps'.unclaimed = ps.unclaimed)
    (ht : ps'.takes.matched = ps.takes.matched.filter (fun t => t.bound != d)) (hp : ps'.takes.posted = ps.takes.posted)
    (ho : ps'.lane.owner = .idle) (ha : ps'.arrivals = ps.arrivals) : ps'.CopiesAgree slot' len := by
  have howner : ps.lane.owner = .outbound d := (h.moving_iff d).mp hd
  have hb : ∀ e, slot' e = .bound ↔ slot e = .bound := he.eq_iff (by simp [hd]) (SlotState.ne_of_not_live hd' rfl)
  refine ⟨h.endTake_waiting_iff he (by simp [hd]) (SlotState.ne_of_not_live hd' rfl) hu, hu ▸ h.list_nodup,
    h.endTake_matched_iff he hd' ht, ?_, fun e => ?_, h.endTake_labels hp ht, fun t htm => ?_, fun l => ?_, ha ▸ h.arrivals_nodup⟩
  · rw [ht]
    exact h.matched_nodup.sublist (List.filter_sublist.map _)
  · rw [ho]
    refine iff_of_false (fun hm => ?_) (by simp)
    by_cases hed : e = d
    · exact SlotState.ne_of_not_live hd' rfl (hed ▸ hm)
    · rw [he e hed, h.moving_iff, howner] at hm
      exact hed (LaneOwner.outbound.inj hm).symm
  · rw [ht] at htm
    exact h.delivered_eq t (List.mem_filter.mp htm).1
  · rw [ha, ht, h.arrivals_iff]
    refine exists_congr fun t => ?_
    simp only [List.mem_filter, bne_iff_ne, ne_eq, hb]
    refine ⟨fun ⟨hm, hl, hs⟩ => ⟨⟨hm, fun htd => ?_⟩, hl, hs⟩, fun ⟨⟨hm, _⟩, hl, hs⟩ => ⟨hm, hl, hs⟩⟩
    rw [htd, hd] at hs
    cases hs

section Head

/-- The ARRIVAL of the BOUND copy of descriptor `d` has been taken from the queue. -/
structure HeadTaken (d : DescNo) (ps ps' : PortState) : Prop where
  take : ∃ t ∈ ps.takes.matched, t.bound = d ∧ ps.arrivals = t.fields.label :: ps'.arrivals

/-- The ARRIVALs left are those of the other BOUND copies. -/
theorem HeadTaken.mem_iff (hh : HeadTaken d ps ps') (h : ps.CopiesAgree slot len) (l : Half) :
    l ∈ ps'.arrivals ↔ ∃ t ∈ ps.takes.matched, t.bound ≠ d ∧ t.fields.label = l ∧ slot t.bound = .bound := by
  obtain ⟨t, ht, htd, ha⟩ := hh.take
  have hnd := h.arrivals_nodup
  rw [ha, List.nodup_cons] at hnd
  have hmem : l ∈ ps'.arrivals ↔ l ≠ t.fields.label ∧ l ∈ ps.arrivals := by
    rw [ha, List.mem_cons]
    refine ⟨fun hl => ⟨?_, .inr hl⟩, fun ⟨hne, hl⟩ => hl.resolve_left hne⟩
    rintro rfl
    exact hnd.1 hl
  rw [hmem, h.arrivals_iff]
  constructor
  · rintro ⟨hne, u, hu, hl, hs⟩
    refine ⟨u, hu, fun hud => hne ?_, hl, hs⟩
    rw [← hl, h.take_of_bound hu ht (hud.trans htd.symm)]
  · rintro ⟨u, hu, hud, hl, hs⟩
    refine ⟨fun hlt => hud ?_, u, hu, hl, hs⟩
    rw [h.take_of_label hu ht (hl.trans hlt), htd]

theorem HeadTaken.nodup (hh : HeadTaken d ps ps') (h : ps.CopiesAgree slot len) : ps'.arrivals.Nodup := by
  obtain ⟨t, -, -, ha⟩ := hh.take
  have hnd := h.arrivals_nodup
  rw [ha, List.nodup_cons] at hnd
  exact hnd.2

/-- The answer to an ARRIVAL ends its take, and the copy leaves the port (R30). -/
theorem PortState.CopiesAgree.endBound (h : ps.CopiesAgree slot len) (he : OthersKept d slot slot')
    (hd : slot d = .bound) (hd' : (slot' d).live = false) (hu : ps'.unclaimed = ps.unclaimed)
    (ht : ps'.takes.matched = ps.takes.matched.filter (fun t => t.bound != d)) (hp : ps'.takes.posted = ps.takes.posted)
    (ho : ps'.lane.owner = ps.lane.owner) (hh : HeadTaken d ps ps') : ps'.CopiesAgree slot' len := by
  have hm : ∀ e, slot' e = .moving ↔ slot e = .moving := he.eq_iff (by simp [hd]) (SlotState.ne_of_not_live hd' rfl)
  refine ⟨h.endTake_waiting_iff he (by simp [hd]) (SlotState.ne_of_not_live hd' rfl) hu, hu ▸ h.list_nodup,
    h.endTake_matched_iff he hd' ht, ?_, fun e => by rw [hm, ho, h.moving_iff], h.endTake_labels hp ht, fun t htm => ?_,
    fun l => ?_, hh.nodup h⟩
  · rw [ht]
    exact h.matched_nodup.sublist (List.filter_sublist.map _)
  · rw [ht] at htm
    exact h.delivered_eq t (List.mem_filter.mp htm).1
  · rw [hh.mem_iff h, ht]
    refine exists_congr fun t => ?_
    simp only [List.mem_filter, bne_iff_ne, ne_eq, and_assoc]
    refine and_congr_right fun _ => and_congr_right fun htd => ?_
    rw [he t.bound htd]

/-- ACCEPT of an ARRIVAL starts its delivery on an IDLE lane (R129). -/
theorem PortState.CopiesAgree.startMoving (h : ps.CopiesAgree slot len) (he : OthersKept d slot slot')
    (hd : slot d = .bound) (hd' : slot' d = .moving) (hu : ps'.unclaimed = ps.unclaimed) (ht : ps'.takes = ps.takes)
    (hidle : ps.lane.owner = .idle) (ho : ps'.lane.owner = .outbound d) (hh : HeadTaken d ps ps') :
    ps'.CopiesAgree slot' len := by
  refine ⟨h.endTake_waiting_iff he (by simp [hd]) (by simp [hd']) hu, hu ▸ h.list_nodup, fun e => ?_, ht ▸ h.matched_nodup,
    fun e => ?_, ht ▸ h.labels_nodup, ht ▸ h.delivered_eq, fun l => ?_, hh.nodup h⟩
  · rw [ht, ← h.matched_iff]
    by_cases hed : e = d
    · subst hed
      simp [hd, hd']
    · rw [he e hed]
  · rw [ho]
    by_cases hed : e = d
    · subst hed
      simp [hd']
    · rw [he e hed, h.moving_iff, hidle]
      exact iff_of_false (by simp) (fun hi => hed (LaneOwner.outbound.inj hi).symm)
  · rw [hh.mem_iff h, ht]
    refine exists_congr fun t => and_congr_right fun _ => ?_
    by_cases htd : t.bound = d
    · simp [htd, hd']
    · simp [htd, he t.bound htd]

end Head

/-- A copy is bound to a take: it is MATCHED and its ARRIVAL is queued (R26). -/
theorem PortState.CopiesAgree.bind (h : ps.CopiesAgree slot len) (he : OthersKept d slot slot') {f : TakeFields}
    (hd : (slot d).live = false) (hd' : slot' d = .bound) (hu : ps'.unclaimed = ps.unclaimed)
    (ht : ps'.takes.matched = ps.takes.matched ++ [{ fields := f, bound := d, delivered := min (len d) f.capacity }])
    (hl : ps'.takes.labels.Nodup) (ho : ps'.lane.owner = ps.lane.owner) (ha : ps'.arrivals = ps.arrivals ++ [f.label]) :
    ps'.CopiesAgree slot' len := by
  have hm : ∀ e, slot' e = .moving ↔ slot e = .moving := he.eq_iff (SlotState.ne_of_not_live hd rfl) (by simp [hd'])
  have hnew : d ∉ ps.takes.matched.map (·.bound) := fun hmem =>
    ((h.matched_iff d).mpr hmem).elim (SlotState.ne_of_not_live hd rfl) (SlotState.ne_of_not_live hd rfl)
  have hold : ∀ t ∈ ps.takes.matched, slot' t.bound = slot t.bound := fun t htm =>
    he t.bound fun htd => hnew (List.mem_map.mpr ⟨t, htm, htd⟩)
  have hfresh : f.label ∉ ps.arrivals := fun hmem => by
    obtain ⟨t, htm, htl, -⟩ := (h.arrivals_iff _).mp hmem
    have hmatched : (ps'.takes.matched.map (·.fields.label)).Nodup := (List.nodup_append.mp hl).2.1
    rw [ht, List.map_append, List.nodup_append] at hmatched
    exact hmatched.2.2 _ (List.mem_map.mpr ⟨t, htm, rfl⟩) _ (by simp) htl
  refine ⟨h.endTake_waiting_iff he (SlotState.ne_of_not_live hd rfl) (by simp [hd']) hu, hu ▸ h.list_nodup, fun e => ?_, ?_,
    fun e => by rw [hm, ho, h.moving_iff], hl, fun t htm => ?_, fun l => ?_, ?_⟩
  · rw [ht, List.map_append, List.mem_append, ← h.matched_iff]
    by_cases hed : e = d
    · subst hed
      simp [hd']
    · simp [he e hed, hed]
  · rw [ht, List.map_append]
    exact List.nodup_append.mpr ⟨h.matched_nodup, by simp, fun a ha b hb hab => hnew (by simp_all)⟩
  · rw [ht, List.mem_append, List.mem_singleton] at htm
    obtain htm | rfl := htm
    · exact h.delivered_eq t htm
    · rfl
  · rw [ha, ht, List.mem_append, h.arrivals_iff, List.mem_singleton]
    simp only [List.mem_append, List.mem_singleton]
    constructor
    · rintro (⟨t, htm, htl, hs⟩ | rfl)
      · exact ⟨t, .inl htm, htl, by rw [hold t htm, hs]⟩
      · exact ⟨_, .inr rfl, rfl, hd'⟩
    · rintro ⟨t, htm | rfl, htl, hs⟩
      · exact .inl ⟨t, htm, htl, by rw [← hold t htm, hs]⟩
      · exact .inr htl.symm
  · rw [ha]
    exact List.nodup_append.mpr ⟨h.arrivals_nodup, by simp, fun a ha b hb hab => hfresh (by simp_all)⟩

end Column

end Sys2Proof.Machine
end

