-- ==== Sys2Proof/Proofs/EndOfCopy.lean ====
section
/-! PROOFS. The end of one copy: its descriptor, the RECEIPT, and the copies after it (R8, R9, R10). -/

namespace Sys2Proof.Machine

/-! ### Descriptors whose copies at one port end -/

/-- What the end of copies at port `p` may do to a descriptor: nothing; settle its live copy at `p` while another is
live; or free it, with no copy live elsewhere and, if it was GATHERING, with `p` its sender. A copy that only changes its
place at the port lives on. -/
inductive Descriptor.Ends (p : Port) (x y : Descriptor) : Prop
  | same : y = x → Descriptor.Ends p x y
  | moved : (x.slots.get p).state.live = true → (y.slots.get p).state.live = true → (∀ q, q ≠ p → y.slots.get q = x.slots.get q) →
      y = { x with slots := y.slots } → Descriptor.Ends p x y
  | settled (o : CopyOutcome) : x.EndsAt p o y → x.otherLive p = true → Descriptor.Ends p x y
  | freed : x.otherLive p = false → (x.state = .gathering → x.sender = p) → y = x.freed → Descriptor.Ends p x y

section Ends

variable {x y : Descriptor} {p : Port}

theorem Tally.count_sum (t : Tally) (o : CopyOutcome) :
    (t.count o).delivered + (t.count o).cut + (t.count o).expired + (t.count o).dropped + (t.count o).undeliverable
      + (t.count o).stopped = t.delivered + t.cut + t.expired + t.dropped + t.undeliverable + t.stopped + 1 := by
  cases o <;> simp only [Tally.count] <;> omega

@[simp] theorem Descriptor.freed_slot (x : Descriptor) (q : Port) : x.freed.slots.get q = CopySlot.empty :=
  PerPort.get_replicate _ q

/-- A FREE descriptor's slots and tally are those of one that carries no copies (R1). -/
theorem Descriptor.freed_lawful (x : Descriptor) : x.freed.CopiesLawful where
  held_iff := iff_of_false (by simp [Descriptor.freed]) fun h => by
    obtain ⟨q, hq⟩ := x.freed.liveCount_pos_iff.mp h
    simp [CopySlot.empty, SlotState.live] at hq
  unheld_blank _ := ⟨rfl, rfl⟩
  tally_sum := by
    rw [Descriptor.settledCount_eq_sum]
    rfl

theorem Descriptor.otherLive_eq_true : x.otherLive p = true ↔ ∃ q, q ≠ p ∧ (x.slots.get q).state.live = true := by
  simp [Descriptor.otherLive, Port.mem_all]

/-- The SETTLED slots of two descriptors that differ in one slot. -/
theorem Descriptor.settledCount_of_slot (h : ∀ q, q ≠ p → y.slots.get q = x.slots.get q) :
    y.settledCount + (x.slots.get p).state.isSettled.toNat = x.settledCount + (y.slots.get p).state.isSettled.toNat := by
  rw [Descriptor.settledCount_eq_sum, Descriptor.settledCount_eq_sum]
  cases p
  all_goals
    have ha := h .a
    have hb := h .b
    have hc := h .c
    have hd := h .d
    simp only [PerPort.get, ne_eq, reduceCtorEq, not_false_eq_true, forall_const, not_true_eq_false, false_implies] at *
    simp only [*]
    omega

theorem Descriptor.Ends.lawful (h : x.Ends p y) (hx : x.CopiesLawful) : y.CopiesLawful := by
  cases h with
  | same h => exact h ▸ hx
  | moved hlive hlive' helse h =>
    have hstate : y.state = x.state := by rw [h]
    have htally : y.tally = x.tally := by rw [h]
    have hheld : x.state = .held := hx.held_iff.mpr (x.liveCount_pos_iff.mpr ⟨p, hlive⟩)
    have hcount := Descriptor.settledCount_of_slot helse
    rw [SlotState.isSettled_of_live hlive, SlotState.isSettled_of_live hlive'] at hcount
    exact ⟨iff_of_true (hstate.trans hheld) (y.liveCount_pos_iff.mpr ⟨p, hlive'⟩), fun hne => absurd (hstate.trans hheld) hne,
      by rw [htally, hx.tally_sum]; exact hcount.symm⟩
  | freed _ _ h => exact h ▸ x.freed_lawful
  | settled o h hother =>
    have hheld : x.state = .held := hx.held_iff.mpr (x.liveCount_pos_iff.mpr ⟨p, h.live⟩)
    have hstate : y.state = .held := by rw [h.rest, hheld]
    obtain ⟨q, hq, hlive⟩ := Descriptor.otherLive_eq_true.mp hother
    refine ⟨iff_of_true hstate (y.liveCount_pos_iff.mpr ⟨q, by rw [h.elsewhere q hq, hlive]⟩), fun hne => absurd hstate hne, ?_⟩
    rw [h.tally, h.settledCount, Tally.count_sum, hx.tally_sum]

/-- Another port sees the copies of such a descriptor as they were. -/
theorem Descriptor.Ends.sameLive (h : x.Ends p y) {q : Port} (hq : q ≠ p) :
    (x.slots.get q).state.SameLive (y.slots.get q).state := by
  cases h with
  | same h => exact .inl (by rw [h])
  | moved _ _ helse _ => exact .inl (by rw [helse q hq])
  | settled o h _ => exact .inl (by rw [h.elsewhere q hq])
  | freed hother _ h =>
    refine .inr ⟨by rw [h, Descriptor.freed_slot]; rfl, Descriptor.otherLive_eq_false.mp hother q hq⟩

theorem Descriptor.Ends.length (h : x.Ends p y) : y.length = x.length := by
  cases h with
  | same h => rw [h]
  | moved _ _ _ h => rw [h]
  | settled o h _ => rw [h.rest]
  | freed _ _ h => rw [h]; rfl

/-- Such a descriptor was not the GATHERING one of another port. -/
theorem Descriptor.Ends.inbound (h : x.Ends p y) {q : Port} (hq : q ≠ p) {d : DescNo} {ps ps' : PortState}
    (hps : ps.SameTransfers ps') (hin : InboundAgrees x d ps q) : InboundAgrees y d ps' q := by
  have hkept : y.state = x.state → y.sender = x.sender → y.bytesInPool = x.bytesInPool → y.length = x.length →
      InboundAgrees y d ps' q := fun hstate hsender hbytes hlength =>
    ⟨by rw [hps.owner, hstate, hsender, hin.iff], by rw [hps.owner, hps.poolCount, hbytes, hlength]; exact hin.count⟩
  cases h with
  | same h => exact h ▸ ⟨by rw [hps.owner, hin.iff], by rw [hps.owner, hps.poolCount]; exact hin.count⟩
  | moved _ _ _ h => exact hkept (by rw [h]) (by rw [h]) (by rw [h]) (by rw [h])
  | settled o h _ => exact hkept (by rw [h.rest]) (by rw [h.rest]) (by rw [h.rest]) (by rw [h.rest])
  | freed _ hsender h =>
    have hne : ¬ (x.state = .gathering ∧ x.sender = q) := fun ⟨hg, hs⟩ => hq (hs.symm.trans (hsender hg))
    have howner : ps'.lane.owner ≠ .inbound d := fun ho => hne (hin.iff.mp (hps.owner ▸ ho))
    exact ⟨iff_of_false howner (by simp [h, Descriptor.freed]), fun ho => absurd ho howner⟩

end Ends

/-- Copies stay in agreement where copies at one port end, if that port's own column agrees with what is left. -/
theorem State.copiesSound.ends {s t : State} {p : Port} (hs : s.copiesSound) (hd : ∀ d, (s.desc d).Ends p (t.desc d))
    (hother : ∀ q, q ≠ p → (s.port q).SameTransfers (t.port q)) (hown : (t.port p).CopiesAgree (t.slotStates p) s.lengths)
    (hin : ∀ d, InboundAgrees (t.desc d) d (t.port p) p) : t.copiesSound := by
  obtain ⟨hports, hdescs, hinbound⟩ := s.copiesSound_iff.mp hs
  have hlen : t.lengths = s.lengths := funext fun d => (hd d).length
  refine t.copiesSound_iff.mpr ⟨fun q => ?_, fun d => (hd d).lawful (hdescs d), fun d q => ?_⟩
  · by_cases hq : q = p
    · subst hq
      rwa [hlen]
    · exact (hports q).congr (hother q hq).toSameCopies (fun d => (hd d).sameLive hq) (fun u _ => by rw [hlen])
  · by_cases hq : q = p
    · subst hq
      exact hin d
    · exact (hd d).inbound hq (hother q hq) (hinbound d q)

/-! ### One copy ends -/

/-- The copy of descriptor `d` at port `p` ends with outcome `o`, the port's column being changed by `f`: the common
part of every end of a single copy. -/
def State.endCopy (s : State) (p : Port) (d : DescNo) (o : CopyOutcome) (f : PortState → PortState) : State :=
  ((s.modPort p f).settleCopy d p o).settleIfDone d

section EndCopy

variable {s : State} {p : Port} {d : DescNo} {o : CopyOutcome} {f : PortState → PortState}

theorem State.endCopy_sameFloor (s : State) (p : Port) (d : DescNo) (o : CopyOutcome) (f : PortState → PortState) :
    s.SameFloor (s.endCopy p d o f) :=
  ((s.modPort_sameFloor p f).trans (State.settleCopy_sameFloor _ d p o)).trans (State.settleIfDone_sameFloor _ d)

theorem State.endCopy_onlyFrees {P : DescState → Prop} (hheld : P .held) : s.OnlyFrees P (s.endCopy p d o f) :=
  ((State.OnlyFrees.start.modPort p f).quiet (State.settleCopy_sameAllocation _ d p o)).trans
    (State.settleIfDone_onlyFrees hheld _ d)

theorem State.endCopy_desc_other {e : DescNo} (h : e ≠ d) : (s.endCopy p d o f).desc e = s.desc e := by
  rw [State.endCopy, State.settleIfDone_desc_other _ h, State.settleCopy_desc_other _ p o h, State.modPort_desc]

variable (hs : s.copiesSound) (hl : (s.slot d p).state.live = true)
include hs hl

omit hs in
theorem State.endCopy_endsAt : (s.desc d).EndsAt p o (((s.modPort p f).settleCopy d p o).desc d) := by
  rw [State.settleCopy_desc_same]
  exact Descriptor.settleCopy_endsAt o hl

/-- The descriptor of the copy is settled, or freed if that was its last live copy (R8, R9). -/
theorem State.endCopy_desc_same : (s.endCopy p d o f).desc d = (s.desc d).afterCopy p o := by
  have hend := State.endCopy_endsAt (o := o) (f := f) hl
  rw [State.endCopy, State.settleIfDone_desc, State.isDone_of_ended hend (hs.held_of_live hl), hend.freed,
    Descriptor.afterCopy_eq o hl, State.settleCopy_desc_same, State.modPort_desc]
  cases (s.desc d).otherLive p <;> simp

/-- The RECEIPT due goes to the sender (R10). -/
theorem State.endCopy_port (hf : (f (s.port p)).session = (s.port p).session) (q : Port) :
    (s.endCopy p d o f).port q = PortState.receive s.tickCount (s.receiptsDue p q [{ desc := d, outcome := o }])
      (if q = p then f (s.port p) else s.port q) := by
  have hport : ((s.modPort p f).settleCopy d p o).port q = if q = p then f (s.port p) else s.port q := by
    rw [State.settleCopy_port]
    by_cases hq : q = p
    · subst hq
      rw [State.modPort_port_same, if_pos rfl]
    · rw [State.modPort_port_other s f hq, if_neg hq]
  have hsession : (((s.modPort p f).settleCopy d p o).port q).session = (s.port q).session := by
    rw [hport]
    split
    · next h => rw [h, hf]
    · rfl
  rw [State.endCopy, State.settleIfDone_port_eq,
    State.dueReceipt_of_ended (State.endCopy_endsAt hl) (hs.held_of_live hl) hsession, hport, State.receiptsDue_eq]
  simp only [List.filterMap_cons, List.filterMap_nil]
  cases s.endReceipt p q { desc := d, outcome := o } <;> rfl

omit hs in
theorem Descriptor.afterCopy_dead : (((s.desc d).afterCopy p o).slots.get p).state.live = false := by
  rw [Descriptor.afterCopy_eq o hl]
  split
  · rw [Descriptor.settleCopy_of_live o hl]
    simp [SlotState.live]
  · simp [CopySlot.empty, SlotState.live]

theorem Descriptor.afterCopy_ends : (s.desc d).Ends p ((s.desc d).afterCopy p o) := by
  rw [Descriptor.afterCopy_eq o hl]
  cases hother : (s.desc d).otherLive p with
  | true => exact .settled o (Descriptor.settleCopy_endsAt o hl) hother
  | false =>
    refine .freed hother (fun hg => ?_) rfl
    rw [hs.held_of_live hl] at hg
    cases hg

/-- The end of one copy keeps copies in agreement, if it keeps its port's column so. -/
theorem State.endCopy_copiesSound (hf : (f (s.port p)).session = (s.port p).session)
    (hown : ∀ slot', OthersKept d (s.slotStates p) slot' → (slot' d).live = false → (f (s.port p)).CopiesAgree slot' s.lengths)
    (howner : ∀ e, (f (s.port p)).lane.owner = .inbound e ↔ (s.port p).lane.owner = .inbound e)
    (hcount : ∀ e, (s.port p).lane.owner = .inbound e → (f (s.port p)).lane.poolCount = (s.port p).lane.poolCount) :
    (s.endCopy p d o f).copiesSound := by
  have hports := fun q => State.endCopy_port (o := o) hs hl hf q
  have hsame := State.endCopy_desc_same (o := o) (f := f) hs hl
  have hown' : (f (s.port p)).SameTransfers ((s.endCopy p d o f).port p) := by
    rw [hports p, if_pos rfl]
    exact PortState.receive_sameTransfers _ _ _
  refine hs.ends (p := p) (fun e => ?_) (fun q hq => ?_) ?_ (fun e => ?_)
  · by_cases he : e = d
    · subst he
      rw [hsame]
      exact Descriptor.afterCopy_ends hs hl
    · exact .same (State.endCopy_desc_other he)
  · rw [hports q, if_neg hq]
    exact PortState.receive_sameTransfers _ _ _
  · refine (hown ((s.endCopy p d o f).slotStates p) (fun e he => ?_) ?_).congr hown'.toSameCopies (fun e => .inl rfl) (fun u _ => rfl)
    · rw [State.slotStates, State.slot, State.endCopy_desc_other he]
      rfl
    · rw [State.slotStates, State.slot, hsame, Descriptor.afterCopy_dead hl]
  · have hin := ((s.copiesSound_iff.mp hs).2.2 e p)
    by_cases he : e = d
    · subst he
      have hheld := hs.held_of_live hl
      have hne : (s.port p).lane.owner ≠ .inbound e := fun ho => by
        rw [((hin.iff.mp ho)).1] at hheld
        cases hheld
      have hne' : ((s.endCopy p e o f).port p).lane.owner ≠ .inbound e := fun ho => hne ((howner e).mp (hown'.owner ▸ ho))
      refine ⟨iff_of_false hne' ?_, fun ho => absurd ho hne'⟩
      rw [hsame, Descriptor.afterCopy_eq o hl]
      split
      · rw [Descriptor.settleCopy_of_live o hl]
        simp [hheld]
      · simp [Descriptor.freed]
    · rw [State.endCopy_desc_other he]
      refine ⟨by rw [hown'.owner, howner e, hin.iff], fun ho => ?_⟩
      have ho' := (howner e).mp (hown'.owner ▸ ho)
      rw [hown'.poolCount, hcount e ho']
      exact hin.count ho'

end EndCopy

end Sys2Proof.Machine
end

