-- ==== Sys2Proof/Proofs/Deliveries.lean ====
section
/-! PROOFS. The end of a delivery, the stalls, and what every end of a session does to the descriptors (O7, O47). -/

namespace Sys2Proof.Machine

/-! ### The end of a delivery -/

/-- What the end of the delivery of descriptor `d` does to its port's column, but for the notices (R32). -/
def PortState.endTransfer (d : DescNo) (ps : PortState) : PortState := (ps.endTake d).idleLane

theorem State.endDelivery_eq (s : State) (p : Port) (d : DescNo) (o : CopyOutcome) :
    s.endDelivery p d o = (s.endCopy p d o (PortState.endTransfer d)).offer p := by
  unfold State.endDelivery State.endCopy
  simp only [State.settleCopy, State.modPort_modDesc, State.modPort_modPort]
  rfl

section Delivery

variable {s : State} {p : Port} {d : DescNo} {o : CopyOutcome} (hs : s.copiesSound)
  (howner : (s.port p).lane.owner = .outbound d)
include hs howner

theorem State.copiesSound.moving_of_outbound : (s.slot d p).state = .moving := (hs.moving_iff d p).mpr howner

theorem State.copiesSound.live_of_outbound : (s.slot d p).state.live = true := by
  rw [hs.moving_of_outbound howner]
  rfl

theorem State.endDelivery_desc (e : DescNo) : (s.endDelivery p d o).desc e = if e = d then (s.desc d).afterCopy p o else s.desc e := by
  rw [State.endDelivery_eq, State.offer, State.modPort_desc]
  by_cases he : e = d
  · subst he
    rw [State.endCopy_desc_same hs (hs.live_of_outbound howner), if_pos rfl]
  · rw [State.endCopy_desc_other he, if_neg he]

theorem State.endDelivery_port_other {q : Port} (hq : q ≠ p) :
    (s.endDelivery p d o).port q = (s.port q).receive s.tickCount (s.receiptsDue p q [{ desc := d, outcome := o }]) := by
  rw [State.endDelivery_eq, State.offer, State.modPort_port_other _ _ hq, State.endCopy_port hs (hs.live_of_outbound howner) rfl,
    if_neg hq]

theorem State.endDelivery_port_same : ((s.port p).endTransfer d).OnlyNotices ((s.endDelivery p d o).port p) := by
  rw [State.endDelivery_eq, State.offer, State.modPort_port_same, State.endCopy_port hs (hs.live_of_outbound howner) rfl,
    if_pos rfl]
  exact (PortState.receive_onlyNotices _ _ _).trans (PortState.offer_onlyNotices _ _)

/-- The end of a delivery keeps copies in agreement (R32). -/
theorem State.endDelivery_copiesSound : (s.endDelivery p d o).copiesSound := by
  have hmoving := hs.moving_of_outbound howner
  rw [State.endDelivery_eq]
  refine State.modPort_copiesSound (State.endCopy_copiesSound hs (hs.live_of_outbound howner) rfl (fun slot' he hd' => ?_)
    (fun e => ?_) (fun e he => ?_)) (PortState.offer_sameTransfers _ _)
  · exact ((s.copiesSound_iff.mp hs).1 p).endMoving he hmoving hd' rfl rfl rfl rfl rfl
  · rw [howner]
    exact iff_of_false (by simp [PortState.endTransfer]) (by simp)
  · rw [howner] at he
    cases he

end Delivery

theorem State.endDelivery_onlyFrees {P : DescState → Prop} (hheld : P .held) (s : State) (p : Port) (d : DescNo) (o : CopyOutcome) :
    s.OnlyFrees P (s.endDelivery p d o) := by
  rw [State.endDelivery_eq]
  exact (State.endCopy_onlyFrees hheld).modPort p _

/-! ### Every end of a session -/

/-- What the end of a session at `p` by a teardown alone does to descriptors and the pool. -/
structure State.SessionEnds (s : State) (p : Port) (t : State) : Prop where
  desc : ∀ d, t.desc d = if (s.slot d p).state.live then (s.desc d).afterTeardown p
    else if (s.port p).lane.owner = .inbound d then (s.desc d).freed else s.desc d
  frees : s.OnlyFrees (· ≠ .free) t

theorem State.teardown_sessionEnds {s : State} (hs : s.copiesSound) (p : Port) : s.SessionEnds p (s.teardown p) :=
  ⟨State.teardown_desc hs p, State.teardown_frees hs p⟩

theorem State.SessionEnds.modPort {s t : State} {p : Port} (h : s.SessionEnds p t) (f : PortState → PortState) :
    s.SessionEnds p (t.modPort p f) :=
  ⟨h.desc, h.frees.modPort p f⟩

theorem State.lapse_sessionEnds {s : State} (hs : s.copiesSound) (p : Port) : s.SessionEnds p (s.lapse p) := by
  have hcause : (s.modPort p (PortState.setLapsedCause true)).copiesSound :=
    State.modPort_copiesSound hs ⟨⟨rfl, rfl, rfl, rfl, List.Sublist.refl _⟩, rfl⟩
  have h := (State.teardown_sessionEnds hcause p).modPort (PortState.setSession .lapsed)
  refine ⟨fun d => ?_, (State.OnlyFrees.start.modPort p _).trans h.frees⟩
  rw [State.lapse_eq, h.desc, State.modPort_port_same]
  rfl

/-- A stalled delivery ends first; the lapse that follows ends the other copies (R166, R176). -/
theorem State.stall_desc {s : State} (hs : s.copiesSound) {p : Port} {d : DescNo} (howner : (s.port p).lane.owner = .outbound d)
    (e : DescNo) : ((s.endDelivery p d .stopped).lapse p).desc e =
      if e = d then (s.desc d).afterCopy p .stopped
      else if (s.slot e p).state.live then (s.desc e).afterTeardown p else s.desc e := by
  have hidle : ((s.endDelivery p d .stopped).port p).lane.owner = .idle := by
    rw [(State.endDelivery_port_same hs howner).lane]
    rfl
  have hdesc := State.endDelivery_desc (o := .stopped) hs howner e
  rw [(State.lapse_sessionEnds (State.endDelivery_copiesSound hs howner) p).desc, hidle, State.slot, hdesc]
  by_cases he : e = d
  · subst he
    have hdead := Descriptor.afterCopy_dead (o := .stopped) (hs.live_of_outbound howner)
    simp [hdead]
  · rw [if_neg he, if_neg he]
    simp only [reduceCtorEq, if_false]
    rfl

theorem State.exec_outboundStall {s : State} (hrun : s.resetAsserted = false) {p : Port} {d : DescNo}
    (howner : (s.port p).lane.owner = .outbound d) (hstall : (s.port p).lane.stall = some s.tickCount) :
    exec (.outboundStall p) s = .next ((s.endDelivery p d .stopped).lapse p) := by
  show Host.Outcome.next (s.unlessInReset (s.stallOutbound p)) = _
  rw [State.unlessInReset_released s _ hrun, State.stallOutbound, howner]
  simp [State.stallReached, hstall]

theorem State.exec_portReset {s : State} (hrun : s.resetAsserted = false) (p : Port) :
    exec (.portReset p) s = .next (s.resetPort p) := by
  show Host.Outcome.next (s.unlessInReset (s.resetPort p)) = _
  rw [State.unlessInReset_released s _ hrun]

/-- CLOSE, reopen, port reset and the framing unit's lapses end the session by a teardown alone (R177). -/
theorem State.exec_sessionEnds {s t : State} {p : Port} {c : Instr} (hrun : s.resetAsserted = false) (hs : s.copiesSound)
    (hopen : (s.port p).session.state = .opened)
    (hc : c = .closePort p ∨ c = .portReset p
      ∨ (∃ limit : Half, c = .openPort p limit ∧ (limit = 0 ∨ (10 ≤ limit.toNat ∧ limit.toNat ≤ 2000)))
      ∨ (c = .byteDeadline p ∧ s.byteDeadlineReached p = true) ∨ (c = .answerDeadline p ∧ s.answerDeadlineReached p = true))
    (ht : exec c s = .next t) : s.SessionEnds p t := by
  have hdown := State.teardown_sessionEnds hs p
  obtain rfl | rfl | ⟨limit, rfl, hlimit⟩ | ⟨rfl, hreached⟩ | ⟨rfl, hreached⟩ := hc
  · rw [State.exec_closePort hrun (by simp [hopen]), State.closeSession, State.teardownIfOpen_of_open hopen] at ht
    cases ht
    exact (hdown.modPort _).modPort _
  · rw [State.exec_portReset hrun, State.resetPort_of_open hopen] at ht
    cases ht
    exact hdown.modPort _
  · rw [State.exec_openPort hrun hlimit, State.openSession, State.teardownIfOpen_of_open hopen] at ht
    cases ht
    exact (hdown.modPort _).modPort _
  · rw [State.exec_byteDeadline hrun, if_pos hreached] at ht
    cases ht
    exact State.lapse_sessionEnds hs p
  · rw [State.exec_answerDeadline hrun, if_pos hreached] at ht
    cases ht
    exact State.lapse_sessionEnds hs p

/-- Settles O7: a teardown alone, or the stalled delivery's end before it. -/
theorem sessionEndSettlesCopiesUndeliverable : Obligations.SessionEndSettlesCopiesUndeliverable := by
  intro s t p c hrun hs hopen hc ht
  simp only [← or_assoc] at hc
  obtain hc | ⟨rfl, ⟨d, howner⟩, hstall⟩ := hc
  · simp only [or_assoc] at hc
    have hc' : c ≠ .outboundStall p := by
      rintro rfl
      simp at hc
    have hend := State.exec_sessionEnds hrun hs hopen hc ht
    exact ⟨fun d => (hend.desc d).trans (if_neg fun h => hc' h.1).symm, hend.frees.releases⟩
  · rw [State.exec_outboundStall hrun howner hstall] at ht
    cases ht
    have hlapse := State.lapse_sessionEnds (State.endDelivery_copiesSound (o := .stopped) hs howner) p
    refine ⟨fun e => ?_, ((State.endDelivery_onlyFrees (by simp) s p d .stopped).trans hlapse.frees).releases⟩
    rw [State.stall_desc hs howner, howner]
    simp only [LaneOwner.outbound.injEq, true_and, reduceCtorEq, if_false, eq_comm (a := d)]
    by_cases he : e = d
    · rw [if_pos he, if_pos he, he]
    · rw [if_neg he, if_neg he]

/-! ### Stalls -/

theorem PortState.OnlyNotices.tornDown {x y : PortState} (h : x.OnlyNotices y) : y.tornDown = x.tornDown := by
  unfold PortState.tornDown
  rw [h.session, h.lane, h.inbound, h.enables, h.width, h.readData]

/-- The end of its delivery leaves to a teardown what the teardown would have left. -/
theorem PortState.endTransfer_tornDown (d : DescNo) (ps : PortState) (h : ps.lane.owner ≠ .idle) :
    (ps.endTransfer d).tornDown = ps.tornDown := by
  simp [PortState.tornDown, PortState.endTransfer, PortState.endTake, PortState.idleLane, h]

section Stall

variable {s : State} {p : Port} {d : DescNo} (hs : s.copiesSound) (howner : (s.port p).lane.owner = .outbound d)
include hs howner

/-- The RECEIPTs of the teardown that follows a stalled delivery are those due in the state before it, but for the copy
that the stall itself ended. -/
theorem State.receiptsDue_after_stall {q : Port} (hq : q ≠ p) :
    (s.endDelivery p d .stopped).receiptsDue p q ((s.endDelivery p d .stopped).tornCopies p) =
      s.receiptsDue p q ((s.tornCopies p).filter (fun e => e.desc != d)) := by
  have hdesc := State.endDelivery_desc (o := .stopped) hs howner
  have hlist : (List.finRange 64).filter (fun e => ((s.endDelivery p d .stopped).slot e p).state.live) =
      ((List.finRange 64).filter (fun e => (s.slot e p).state.live)).filter (fun e => e != d) := by
    rw [List.filter_filter]
    refine List.filter_congr fun e _ => ?_
    by_cases he : e = d
    · subst he
      have hend := Descriptor.afterCopy_dead (o := .stopped) (hs.live_of_outbound howner)
      simp [State.slot, hdesc, hend]
    · simp [State.slot, hdesc, he]
  have hsession : ((s.endDelivery p d .stopped).port q).session = (s.port q).session := by
    rw [State.endDelivery_port_other hs howner hq, (PortState.receive_onlyNotices _ _ _).session]
  rw [State.receiptsDue_eq, State.receiptsDue_eq, State.tornCopies, State.tornCopies, hlist, List.filter_map,
    List.filterMap_map, List.filterMap_map]
  refine List.filterMap_congr fun e he => ?_
  have hne : e ≠ d := by simpa using (List.mem_filter.mp he).2
  simp [State.endReceipt, hdesc, hne, hsession]

theorem State.stall_keeps : s.TeardownKeeps p (s.stalledCopies p d) ((s.endDelivery p d .stopped).lapse p) := by
  have hfloor := s.endDelivery_sameFloor p d .stopped
  obtain ⟨hkeeps, -⟩ := (s.endDelivery p d .stopped).lapse_spec p
  have hreceipts : ∀ q, q ≠ p → ((s.endDelivery p d .stopped).lapse p).port q =
      (s.port q).receive s.tickCount (s.receiptsDue p q (s.stalledCopies p d)) := fun q hq => by
    rw [hkeeps.receipts (State.endDelivery_copiesSound hs howner) q hq, State.receiptsDue_after_stall hs howner hq,
      State.endDelivery_port_other hs howner hq, hfloor.tickCount, ← PortState.receive_append]
    simp only [State.receiptsDue_eq, State.stalledCopies, ← List.filterMap_append, List.singleton_append]
  refine ⟨hkeeps.tickCount.trans hfloor.tickCount, hkeeps.pointer.trans hfloor.pointer, hkeeps.setupPort.trans hfloor.setupPort,
    ⟨hkeeps.limits.1.trans hfloor.reserve, hkeeps.limits.2.1.trans hfloor.ceiling, hkeeps.limits.2.2.trans hfloor.stallLimit⟩,
    hkeeps.bytes.trans hfloor.mem, fun g q => ?_, fun q hq => ?_, fun _ => hreceipts⟩
  · rw [hkeeps.memberships, State.members, hfloor.groups]
    rfl
  · have ho := PortState.receive_onlyNotices s.tickCount (s.receiptsDue p q (s.stalledCopies p d)) (s.port q)
    rw [hreceipts q hq]
    exact ⟨ho.session, ho.inbound, ho.takes, ho.unclaimed, ho.lane, ho.enables, PortState.receive_notices _ _ _⟩

theorem State.stall_port : ((s.endDelivery p d .stopped).lapse p).port p = { (s.port p).tornDown with
    session := { (s.port p).session with state := .lapsed, lapsedCause := true, tearingDown := false } } := by
  have hport := State.endDelivery_port_same (o := .stopped) hs howner
  rw [((s.endDelivery p d .stopped).lapse_spec p).2, hport.tornDown, hport.session,
    PortState.endTransfer_tornDown d _ (by simp [howner])]
  rfl

end Stall

theorem State.exec_inboundStall {s : State} (hrun : s.resetAsserted = false) (p : Port) :
    exec (.inboundStall p) s = .next (s.stallInbound p) := by
  show Host.Outcome.next (s.unlessInReset (s.stallInbound p)) = _
  rw [State.unlessInReset_released s _ hrun]

theorem State.exec_outboundStall_eq {s : State} (hrun : s.resetAsserted = false) (p : Port) :
    exec (.outboundStall p) s = .next (s.stallOutbound p) := by
  show Host.Outcome.next (s.unlessInReset (s.stallOutbound p)) = _
  rw [State.unlessInReset_released s _ hrun]

/-- A stall that is not reached, or of a lane in the other state, does nothing (R166). -/
theorem State.stallInbound_of_not {s : State} {p : Port}
    (h : s.stallReached p = false ∨ ∀ d, (s.port p).lane.owner ≠ .inbound d) : s.stallInbound p = s := by
  unfold State.stallInbound
  cases howner : (s.port p).lane.owner with
  | idle => rfl
  | outbound d => rfl
  | inbound d => exact if_neg (by simpa [howner] using h)

theorem State.stallOutbound_of_not {s : State} {p : Port}
    (h : s.stallReached p = false ∨ ∀ d, (s.port p).lane.owner ≠ .outbound d) : s.stallOutbound p = s := by
  unfold State.stallOutbound
  cases howner : (s.port p).lane.owner with
  | idle => rfl
  | inbound d => rfl
  | outbound d => exact if_neg (by simpa [howner] using h)

/-- Settles O47. -/
theorem stalledLaneEndsItsTransfer : Obligations.StalledLaneEndsItsTransfer := by
  intro s p hrun ps
  simp only [State.exec_inboundStall hrun, State.exec_outboundStall_eq hrun]
  refine ⟨fun d howner hsender hstall => ?_, fun d hs _ howner hstall => ?_, fun h => ?_, fun d howner => ?_, fun d howner => ?_⟩
  · have hreached : s.stallReached p = true := by simpa [State.stallReached] using hstall
    rw [State.stallInbound, howner, ← State.abandonTransfer_eq hsender]
    simp only [hreached, if_true]
  · have hreached : s.stallReached p = true := by simpa [State.stallReached] using hstall
    refine ⟨(s.endDelivery p d .stopped).lapse p, ?_, State.stall_keeps hs howner, ?_, State.stall_port hs howner⟩
    · rw [State.stallOutbound, howner]
      simp only [hreached, if_true]
    · rw [State.stall_desc hs howner, if_pos rfl]
  · have h' : s.stallReached p = false ∨ (s.port p).lane.owner = .idle := h.imp (fun h => by simpa [State.stallReached] using h) id
    rw [State.stallInbound_of_not (h'.imp id fun h => by simp [h]), State.stallOutbound_of_not (h'.imp id fun h => by simp [h])]
    exact ⟨rfl, rfl⟩
  · rw [State.stallOutbound_of_not (.inr fun e => by simp [show (s.port p).lane.owner = .inbound d from howner])]
  · rw [State.stallInbound_of_not (.inr fun e => by simp [show (s.port p).lane.owner = .outbound d from howner])]

end Sys2Proof.Machine
end

