-- ==== Sys2Proof/Proofs/HoldExpiry.lean ====
section
/-! PROOFS. The expiry of holds: the due copies of a list leave it one after another (O44). -/

namespace Sys2Proof.Machine

/-! ### A RECEIPT does not depend on the list -/

theorem PortState.offer_withUnclaimed (now : Tick) (ps : PortState) (u : List DescNo) :
    PortState.offer now { ps with unclaimed := u } = { ps.offer now with unclaimed := u } := by
  have hidle : PortState.laneIdle { ps with unclaimed := u } = ps.laneIdle := rfl
  cases htx : ps.outbound.tx <;> cases hq : ps.queue.notices <;> simp only [PortState.offer, htx, hq, hidle]
  split <;> rfl

theorem PortState.appendReceipt_withUnclaimed (now : Tick) (r : Receipt) (ps : PortState) (u : List DescNo) :
    PortState.appendReceipt now r { ps with unclaimed := u } = { ps.appendReceipt now r with unclaimed := u } := by
  by_cases hres : 0 < ps.queue.receiptReserved
  · simp only [PortState.appendReceipt, hres, if_true]
    exact PortState.offer_withUnclaimed now { ps with queue := _ } u
  · by_cases h24 : ps.queue.reserved < 24
    · simp only [PortState.appendReceipt, hres, h24, if_true, if_false]
      exact PortState.offer_withUnclaimed now { ps with queue := _ } u
    · simp only [PortState.appendReceipt, hres, h24, if_false]

theorem PortState.receive_withUnclaimed (now : Tick) (rs : List Receipt) (ps : PortState) (u : List DescNo) :
    PortState.receive now rs { ps with unclaimed := u } = { ps.receive now rs with unclaimed := u } := by
  induction rs generalizing ps with
  | nil => rfl
  | cons r rs ih => rw [PortState.receive_cons, PortState.appendReceipt_withUnclaimed, ih, PortState.receive_cons]

/-! ### One copy expires -/

/-- The column of the port without the copies of some descriptors in its list. -/
def PortState.withoutCopies (ds : List DescNo) (ps : PortState) : PortState :=
  { ps with unclaimed := ps.unclaimed.filter (fun d => !ds.contains d) }

theorem PortState.receive_withoutCopies (now : Tick) (rs : List Receipt) (ds : List DescNo) (ps : PortState) :
    (ps.withoutCopies ds).receive now rs = (ps.receive now rs).withoutCopies ds := by
  rw [PortState.withoutCopies, PortState.receive_withUnclaimed, PortState.withoutCopies,
    (PortState.receive_onlyNotices now rs ps).unclaimed]

theorem State.expireCopy_eq (s : State) (p : Port) (d : DescNo) :
    s.expireCopy p d = s.endCopy p d .expired (fun ps => { ps with unclaimed := ps.unclaimed.erase d }) := rfl

section ExpireCopy

variable {s : State} {p : Port} {d : DescNo} (hs : s.copiesSound) (hd : d ∈ (s.port p).unclaimed)
include hs hd

theorem State.copiesSound.live_of_waiting : (s.slot d p).state.live = true := by
  rw [(hs.waiting_iff d p).mpr hd]
  rfl

/-- A copy that expires leaves the others in agreement (R46). -/
theorem State.expireCopy_copiesSound : (s.expireCopy p d).copiesSound :=
  State.endCopy_copiesSound hs (hs.live_of_waiting hd) rfl
    (fun _ he hd' => ((s.copiesSound_iff.mp hs).1 p).leaveList he ((hs.waiting_iff d p).mpr hd) hd' rfl rfl rfl rfl)
    (fun _ => Iff.rfl) (fun _ _ => rfl)

theorem State.expireCopy_port (q : Port) : (s.expireCopy p d).port q =
    PortState.receive s.tickCount (s.receiptsDue p q [{ desc := d, outcome := .expired }])
      (if q = p then (s.port p).withoutCopies [d] else s.port q) := by
  have herase : (s.port p).withoutCopies [d] = { s.port p with unclaimed := (s.port p).unclaimed.erase d } := by
    rw [PortState.withoutCopies, (hs.list_nodup p).erase_eq_filter]
    congr 2
    funext e
    simp [bne, beq_eq_decide]
  rw [State.expireCopy_eq, State.endCopy_port hs (hs.live_of_waiting hd) rfl, herase]

end ExpireCopy

/-! ### Several copies expire -/

/-- The copies of the descriptors `ds` at port `p` have expired, in that order, from `s` to `t`. -/
structure State.Expired (s : State) (p : Port) (ds : List DescNo) (t : State) : Prop where
  copies : t.copiesSound
  floor : s.SameFloor t
  frees : s.OnlyFrees (· ≠ .free) t
  desc : ∀ d, t.desc d = if d ∈ ds then (s.desc d).afterCopy p .expired else s.desc d
  port : ∀ q, t.port q = PortState.receive s.tickCount
    (s.receiptsDue p q (ds.map (fun d => { desc := d, outcome := .expired })))
    (if q = p then (s.port p).withoutCopies ds else s.port q)

theorem PortState.withoutCopies_cons (d : DescNo) (ds : List DescNo) (ps : PortState) :
    (ps.withoutCopies [d]).withoutCopies ds = ps.withoutCopies (d :: ds) := by
  simp only [PortState.withoutCopies, List.filter_filter]
  congr 2
  funext e
  by_cases h : e = d <;> simp [h]

theorem State.foldl_expireCopy (p : Port) (ds : List DescNo) : ∀ s : State, s.copiesSound → ds.Nodup →
    (∀ d ∈ ds, d ∈ (s.port p).unclaimed) → s.Expired p ds (ds.foldl (fun t d => t.expireCopy p d) s) := by
  induction ds with
  | nil =>
    intro s hs _ _
    refine ⟨hs, State.SameFloor.refl s, .start, fun d => by simp, fun q => ?_⟩
    by_cases hq : q = p <;> simp [PortState.withoutCopies, State.receiptsDue, hq]
  | cons d ds ih =>
    intro s hs hnd hmem
    obtain ⟨hd, hnd'⟩ := List.nodup_cons.mp hnd
    have hwait := hmem d List.mem_cons_self
    have hport := State.expireCopy_port hs hwait
    have hfloor : s.SameFloor (s.expireCopy p d) := State.endCopy_sameFloor s p d .expired _
    have hdesc : ∀ e, e ≠ d → (s.expireCopy p d).desc e = s.desc e := fun e he => State.endCopy_desc_other he
    have hlist : ((s.expireCopy p d).port p).unclaimed = (s.port p).unclaimed.filter (fun e => !List.contains [d] e) := by
      rw [hport, if_pos rfl, (PortState.receive_onlyNotices _ _ _).unclaimed]
      rfl
    have hrest := ih (s.expireCopy p d) (State.expireCopy_copiesSound hs hwait) hnd' fun e he => by
      rw [hlist]
      exact List.mem_filter.mpr ⟨hmem e (List.mem_cons_of_mem d he), by simpa using fun h : e = d => hd (h ▸ he)⟩
    have hreceipts : ∀ q, (s.expireCopy p d).receiptsDue p q (ds.map (fun d => { desc := d, outcome := .expired })) =
        s.receiptsDue p q (ds.map (fun d => { desc := d, outcome := .expired })) := fun q => by
      rw [State.receiptsDue_eq, State.receiptsDue_eq, List.filterMap_map, List.filterMap_map]
      refine List.filterMap_congr fun e he => ?_
      have hsession : ((s.expireCopy p d).port q).session = (s.port q).session := by
        rw [hport, (PortState.receive_onlyNotices _ _ _).session]
        split
        · next h => rw [h]; rfl
        · rfl
      simp [State.endReceipt, hdesc e (fun h => hd (h ▸ he)), hsession]
    refine ⟨hrest.copies, hfloor.trans hrest.floor, (State.endCopy_onlyFrees (by simp)).trans hrest.frees, fun e => ?_, fun q => ?_⟩
    · rw [List.foldl_cons, hrest.desc]
      by_cases he : e = d
      · subst he
        simp only [hd, if_false, List.mem_cons_self, if_true]
        exact State.endCopy_desc_same hs (hs.live_of_waiting hwait)
      · simp [he, hdesc e he]
    · rw [List.foldl_cons, hrest.port, hreceipts, hfloor.tickCount, List.map_cons]
      have hsplit : s.receiptsDue p q ({ desc := d, outcome := .expired } :: ds.map (fun d => { desc := d, outcome := .expired })) =
          s.receiptsDue p q [{ desc := d, outcome := .expired }] ++
            s.receiptsDue p q (ds.map (fun d => { desc := d, outcome := .expired })) := by
        simp only [State.receiptsDue_eq, ← List.filterMap_append, List.singleton_append]
      rw [hsplit, PortState.receive_append]
      by_cases hq : q = p
      · subst hq
        simp only [if_true]
        congr 1
        rw [← PortState.withoutCopies_cons d ds, hport, if_pos rfl]
        exact (PortState.receive_withoutCopies _ _ ds _).symm
      · simp [hq, hport]

/-- Settles O44. -/
theorem holdExpirySettlesWaitingCopies : Obligations.HoldExpirySettlesWaitingCopies := by
  intro s p hrun hs
  have hexec : exec (.holdExpiry p) s = .next (s.expireHolds p) := by
    show Host.Outcome.next (s.unlessInReset (s.expireHolds p)) = _
    rw [State.unlessInReset_released s _ hrun]
  refine ⟨fun hclosed => by rw [hexec, State.expireHolds, if_neg (by simp [PortState.isOpen, hclosed])], fun hopen => ?_⟩
  intro due
  have hexpired := State.foldl_expireCopy p ((s.port p).unclaimed.filter due) s hs ((hs.list_nodup p).filter _)
    (fun d hd => (List.mem_filter.mp hd).1)
  have hfold : s.expireHolds p = ((s.port p).unclaimed.filter due).foldl (fun t d => t.expireCopy p d) s := by
    rw [State.expireHolds, if_pos (by simp [PortState.isOpen, hopen])]
    rfl
  have hwithout : (s.port p).withoutCopies ((s.port p).unclaimed.filter due) =
      { s.port p with unclaimed := (s.port p).unclaimed.filter (fun d => !due d) } := by
    unfold PortState.withoutCopies
    congr 1
    exact List.filter_congr fun d hd => by simp [hd]
  rw [← hfold] at hexpired
  have hport := hexpired.port
  rw [hwithout] at hport
  refine ⟨_, hexec, ?_, fun d => ?_, fun q => ?_, hport, hexpired.frees.releases, hexpired.floor.reserve,
    hexpired.floor.ceiling, hexpired.floor.stallLimit, hexpired.floor.groups, hexpired.floor.tickCount, hexpired.floor.mem,
    hexpired.floor.pointer⟩
  · rw [hport, if_pos rfl, (PortState.receive_onlyNotices _ _ _).unclaimed]
  · rw [hexpired.desc]
    simp only [List.mem_filter]
  · have ho := PortState.receive_onlyNotices s.tickCount (s.receiptsDue p q
      (((s.port p).unclaimed.filter due).map (fun d => { desc := d, outcome := .expired })))
      (if q = p then { s.port p with unclaimed := (s.port p).unclaimed.filter (fun d => !due d) } else s.port q)
    rw [hport, ho.session, ho.inbound, ho.takes, ho.lane, ho.enables, ho.unclaimed]
    by_cases hq : q = p
    · subst hq
      simp
    · simp [hq]

end Sys2Proof.Machine
end

