-- ==== Sys2Proof/Proofs/ColumnMoves.lean ====
section
/-! PROOFS. What a happening can do to a port column within a session, said once, and the laws of one column that every such
move keeps (R43, R117, R126, R127, R134, R137, R144, R154). -/

namespace Sys2Proof.Machine

/-! ### The moves of a port column -/

/-- A lane without a transfer (R154). -/
structure Lane.Idle (l : Lane) : Prop where
  owner : l.owner = .idle
  fifo : l.fifo = []
  hostCount : l.hostCount = 0
  poolCount : l.poolCount = 0
  stall : l.stall = none
  grantDue : l.grantDue = false

/-- One move of a port column within its session. The conditions are those that the commands test. -/
inductive PortState.Move (ps : PortState) : PortState → Prop
  /-- The inbound side changes (R138, R140). -/
  | input (x : InboundSide) (hx : ps.inbound.sound → x.sound) : Move ps { ps with inbound := x }
  /-- The enables are written, or a read shows its value (R185). -/
  | window (e : Enables) (r : Half) : Move ps { ps with enables := e, readData := r }
  /-- The host reads an outbound byte (R146). -/
  | readByte (now : Tick) : Move ps { ps with outbound := (ps.readByte now).1 }
  /-- The lane goes on with its transfer, or changes its flags (R157, R158, R162). -/
  | lane (l : Lane) (howner : l.owner = ps.lane.owner) (hl : ps.lane.sound → l.sound) : Move ps { ps with lane := l }
  /-- A SEND claims the lane (R103, R155). -/
  | claim (l : Lane) (hopen : ps.isOpen = true) (hhead : ps.headIsArrival = false) (howner : l.owner ≠ .idle)
      (hl : ps.lane.sound → l.sound) : Move ps { ps with lane := l }
  /-- The lane returns to IDLE, and the head is offered (R127). -/
  | returnLane (now : Tick) (l : Lane) (hl : l.Idle) : Move ps (PortState.offer now { ps with lane := l })
  /-- A RECEIPT comes (R120). -/
  | receipt (now : Tick) (r : Receipt) (hopen : ps.isOpen = true) : Move ps (ps.appendReceipt now r)
  /-- A slot is booked for a RECEIPT (R118). -/
  | bookReceipt (hopen : ps.isOpen = true) (h24 : ps.queue.reserved < 24) : Move ps ps.bookReceipt
  /-- A REPORT is appended in a slot of its own (R113). -/
  | report (now : Tick) (r : Report) (hopen : ps.isOpen = true) (h24 : ps.queue.reserved < 24) :
      Move ps (ps.bookSlot.append now [.report r])
  /-- A take is POSTED (R25). -/
  | postTake (t : PostedTake) (hopen : ps.isOpen = true) (h24 : ps.queue.reserved < 24) (h16 : ps.takes.liveCount < 16) :
      Move ps { ps.bookSlot with takes := { ps.takes with posted := ps.takes.posted ++ [t] } }
  /-- POSTED takes end, each with its TAKE_ENDED (R33, R34). -/
  | endTakes (now : Tick) (posted : List PostedTake) (ns : List Notice) (hlen : posted.length + ns.length = ps.takes.posted.length) :
      Move ps (PortState.append now ns { ps with takes := { ps.takes with posted := posted } })
  /-- A copy is bound to a POSTED take (R26, R28). -/
  | bindPosted (now : Tick) (posted : List PostedTake) (m : MatchedTake) (a : Arrival)
      (hlen : posted.length + 1 = ps.takes.posted.length) :
      Move ps (PortState.append now [.arrival a] { ps with takes := { posted := posted, matched := ps.takes.matched ++ [m] } })
  /-- A waiting copy is bound to a new take (R25, R26). -/
  | bindListed (now : Tick) (u : List DescNo) (m : MatchedTake) (a : Arrival) (hopen : ps.isOpen = true)
      (h24 : ps.queue.reserved < 24) (h16 : ps.takes.liveCount < 16) (hu : u.length ≤ ps.unclaimed.length) :
      Move ps (PortState.append now [.arrival a] { ps.bookSlot with
        unclaimed := u, takes := { ps.takes with matched := ps.takes.matched ++ [m] } })
  /-- A copy joins the list (R44). -/
  | joinList (d : DescNo) (hopen : ps.isOpen = true) (h32 : ps.unclaimed.length < 32) :
      Move ps { ps with unclaimed := ps.unclaimed ++ [d] }
  /-- Copies leave the list (R46). -/
  | leaveList (u : List DescNo) (hu : u.Sublist ps.unclaimed) : Move ps { ps with unclaimed := u }
  /-- A delivery ends: its take goes, the lane is IDLE, RECEIPTs may come, and the head is offered (R32, R127). -/
  | endTransfer (now : Tick) (m : List MatchedTake) (l : Lane) (rs : List Receipt) (hm : m.Sublist ps.takes.matched) (hl : l.Idle)
      (hrs : rs = [] ∨ ps.isOpen = true) :
      Move ps (PortState.offer now (PortState.receive now rs { ps with takes := { ps.takes with matched := m }, lane := l }))
  /-- The host answers the head of the queue, which its owner may act on (R128 to R132). -/
  | answer (now : Tick) (t : Tick) (m : List MatchedTake) (u : List DescNo) (l : Lane) (rs : List Receipt)
      (htx : ps.outbound.tx = .answer t) (hqueue : ps.queue.notices ≠ []) (hm : m.Sublist ps.takes.matched)
      (hu : u.length ≤ ps.unclaimed.length ∨ u.length ≤ 32)
      (hl : l = ps.lane ∨ (ps.headIsArrival = true ∧ (ps.laneIdle = true → ps.lane.sound → l.sound))) :
      Move ps (PortState.offer now (PortState.receive now rs
        { ps.removeHead with takes := { ps.takes with matched := m }, unclaimed := u, lane := l }))

/-! ### The account of notice slots -/

theorem PortState.offer_slotsBooked {now : Tick} {ps : PortState} (h : ps.slotsBooked) : (ps.offer now).slotsBooked := by
  have ho := PortState.offer_onlyNotices now ps
  unfold PortState.slotsBooked
  rw [PortState.offer_queue, ho.takes, ho.unclaimed]
  exact h

theorem PortState.appendReceipt_slotsBooked {now : Tick} {r : Receipt} {ps : PortState} (h : ps.slotsBooked) :
    (ps.appendReceipt now r).slotsBooked := by
  obtain ⟨hbooked, h24, h16, h32⟩ := h
  unfold PortState.appendReceipt
  split
  · exact PortState.offer_slotsBooked ⟨by simp; omega, h24, h16, h32⟩
  · split
    · exact PortState.offer_slotsBooked ⟨by simp [PortState.bookSlot]; omega, by simp [PortState.bookSlot]; omega, h16, h32⟩
    · exact ⟨hbooked, h24, h16, h32⟩

theorem PortState.receive_slotsBooked {now : Tick} {rs : List Receipt} {ps : PortState} (h : ps.slotsBooked) :
    (ps.receive now rs).slotsBooked := by
  induction rs generalizing ps with
  | nil => exact h
  | cons r rs ih => exact ih (PortState.appendReceipt_slotsBooked h)

/-- Every move keeps the account of slots (R21, R43, R117). -/
theorem PortState.Move.slotsBooked {ps ps' : PortState} (hmove : ps.Move ps') (h : ps.slotsBooked) : ps'.slotsBooked := by
  obtain ⟨hbooked, h24, h16, h32⟩ := id h
  cases hmove with
  | input | window | readByte | lane | claim => exact h
  | returnLane => exact PortState.offer_slotsBooked h
  | receipt => exact PortState.appendReceipt_slotsBooked h
  | bookReceipt _ hfree => exact ⟨by simp [PortState.bookReceipt]; omega, by simp [PortState.bookReceipt]; omega, h16, h32⟩
  | report now r _ hfree =>
    exact PortState.offer_slotsBooked ⟨by simp [PortState.bookSlot]; omega, by simp [PortState.bookSlot]; omega, h16, h32⟩
  | postTake t _ hfree hroom =>
    simp only [TakeTable.liveCount] at hroom
    exact ⟨by simp [PortState.bookSlot]; omega, by simp [PortState.bookSlot]; omega, by simp [TakeTable.liveCount]; omega, h32⟩
  | endTakes now posted ns hlen =>
    simp only [TakeTable.liveCount] at h16
    exact PortState.offer_slotsBooked ⟨by simp; omega, h24, by simp [TakeTable.liveCount]; omega, h32⟩
  | bindPosted now posted m a hlen =>
    simp only [TakeTable.liveCount] at h16
    exact PortState.offer_slotsBooked ⟨by simp; omega, h24, by simp [TakeTable.liveCount]; omega, h32⟩
  | bindListed now u m a _ hfree hroom hu =>
    simp only [TakeTable.liveCount] at hroom
    exact PortState.offer_slotsBooked ⟨by simp [PortState.bookSlot]; omega, by simp [PortState.bookSlot]; omega,
      by simp [TakeTable.liveCount]; omega, by simpa using hu.trans h32⟩
  | joinList d _ hroom => exact ⟨hbooked, h24, h16, by simpa using hroom⟩
  | leaveList u hu => exact ⟨hbooked, h24, h16, hu.length_le.trans h32⟩
  | endTransfer now m l rs hm =>
    have := hm.length_le
    simp only [TakeTable.liveCount] at h16
    exact PortState.offer_slotsBooked (PortState.receive_slotsBooked ⟨hbooked, h24, by simp [TakeTable.liveCount]; omega, h32⟩)
  | answer now t m u l rs htx hqueue hm hu =>
    have := hm.length_le
    have := List.length_pos_iff.mpr hqueue
    simp only [TakeTable.liveCount] at h16
    refine PortState.offer_slotsBooked (PortState.receive_slotsBooked ⟨?_, ?_, ?_, ?_⟩)
    · simp [PortState.removeHead]
      omega
    · simp [PortState.removeHead]
      omega
    · simp [TakeTable.liveCount]
      omega
    · exact hu.elim (fun h => h.trans h32) id

end Sys2Proof.Machine
end

