-- ==== Sys2Proof/Proofs/ColumnLaws.lean ====
section
/-! PROOFS. The laws of the framing unit, the lane and the session that every move of a port column keeps (R126, R127, R134,
R137, R144, R154). -/

namespace Sys2Proof.Machine

/-! ### The outbound side -/

/-- The outbound side agrees with the queue, or is as after reset and the head may still be offered. -/
def PortState.outboundReady (ps : PortState) : Prop := ps.outboundSound ∨ ps.outbound = OutboundSide.reset

theorem PortState.outboundSound_of_empty {ps : PortState} (ho : ps.outbound = OutboundSide.reset) (hn : ps.queue.notices = []) :
    ps.outboundSound := by
  simp [PortState.outboundSound, ho, hn, OutboundSide.reset]

/-- The law reads the outbound side, the queue, and whether the lane is IDLE. -/
theorem PortState.outboundSound.congr {ps ps' : PortState} (h : ps.outboundSound) (ho : ps'.outbound = ps.outbound)
    (hn : ps'.queue.notices = ps.queue.notices) (hl : ps'.laneIdle = ps.laneIdle) : ps'.outboundSound := by
  have hh : ps'.headIsArrival = ps.headIsArrival := by rw [PortState.headIsArrival, hn, PortState.headIsArrival]
  unfold PortState.outboundSound
  rw [ho, hn, hl, hh]
  exact h

theorem Notice.bytes_head (n : Notice) : some n.code = n.bytes[0]? ∧ 1 ≤ n.bytes.length := by
  cases n <;> simp [Notice.bytes, Notice.code]

/-- An offer brings the outbound side into agreement with the queue (R126, R127). -/
theorem PortState.outboundReady.offer {ps : PortState} (h : ps.outboundReady) (now : Tick) : (ps.offer now).outboundSound := by
  have hready : ps.outbound.tx = .idle → ps.outbound.byte = none ∧ ps.outbound.closingMark = false := fun htx => by
    obtain h | h := h
    · rw [PortState.outboundSound, htx] at h
      exact ⟨h.1, h.2.1⟩
    · rw [h]
      exact ⟨rfl, rfl⟩
  by_cases htx : ps.outbound.tx = .idle
  · obtain ⟨hbyte, hmark⟩ := hready htx
    cases hq : ps.queue.notices with
    | nil => simp [PortState.offer, PortState.outboundSound, htx, hq, hbyte, hmark]
    | cons n rest =>
      by_cases hheld : (n.isArrival && !ps.laneIdle) = true
      · have hh : ps.headIsArrival = true ∧ ps.laneIdle = false := by
          simpa [PortState.headIsArrival, hq] using hheld
        have hoffer : ps.offer now = ps := by
          rw [PortState.offer, htx, hq]
          exact if_pos hheld
        rw [hoffer]
        simp [PortState.outboundSound, htx, hbyte, hmark, hh]
      · obtain ⟨hcode, hlen⟩ := n.bytes_head
        simp only [PortState.offer, htx, hq, hheld, PortState.outboundSound]
        exact ⟨n, rest, hq, le_refl 1, hcode, hlen, hmark⟩
  · have hoffer : ps.offer now = ps := by
      obtain h' | ⟨n, rest, h', -⟩ := PortState.offer_cases now ps
      · exact h'
      · exact absurd h' htx
    rw [hoffer]
    exact h.resolve_right fun h => htx (by rw [h]; rfl)

/-- More notices at the tail leave the transmission of the head as it is. -/
theorem PortState.outboundReady.addNotices {ps ps' : PortState} (h : ps.outboundReady) {ns : List Notice}
    (ho : ps'.outbound = ps.outbound) (hn : ps'.queue.notices = ps.queue.notices ++ ns) : ps'.outboundReady := by
  obtain h | h := h
  · unfold PortState.outboundSound at h
    cases htx : ps.outbound.tx with
    | idle =>
      refine .inr ?_
      rw [htx] at h
      rw [ho]
      cases hout : ps.outbound
      simp_all [OutboundSide.reset]
    | data position t =>
      rw [htx] at h
      obtain ⟨n, rest, hq, h⟩ := h
      refine .inl ?_
      unfold PortState.outboundSound
      rw [ho, htx]
      exact ⟨n, rest ++ ns, by simp [hn, hq], h⟩
    | length t =>
      rw [htx] at h
      obtain ⟨n, rest, hq, h⟩ := h
      refine .inl ?_
      unfold PortState.outboundSound
      rw [ho, htx]
      exact ⟨n, rest ++ ns, by simp [hn, hq], h⟩
    | answer t =>
      rw [htx] at h
      refine .inl ?_
      unfold PortState.outboundSound
      rw [ho, htx]
      exact ⟨by simp [hn, h.1], h.2⟩
  · exact .inr (ho.trans h)

theorem PortState.outboundReady.append {ps : PortState} (h : ps.outboundReady) (now : Tick) (ns : List Notice) :
    (ps.append now ns).outboundSound := by
  refine PortState.outboundReady.offer ?_ now
  exact h.addNotices rfl rfl

/-- A RECEIPT is appended, or lost in a full queue (R120). -/
theorem PortState.outboundReady.appendReceipt {ps : PortState} (h : ps.outboundReady) (now : Tick) (r : Receipt) :
    (ps.appendReceipt now r).outboundSound ∨ ps.appendReceipt now r = ps := by
  have hq : ∀ q : NoticeQueue, q.notices = ps.queue.notices → PortState.outboundReady { ps with queue := q } :=
    fun q hq => h.addNotices (ns := []) rfl (by simp [hq])
  unfold PortState.appendReceipt
  split
  · refine .inl (PortState.outboundReady.append ?_ now _)
    exact hq _ rfl
  · split
    · refine .inl (PortState.outboundReady.append ?_ now _)
      exact hq _ rfl
    · exact .inr rfl

theorem PortState.outboundReady.receive {ps : PortState} (h : ps.outboundReady) (now : Tick) (rs : List Receipt) :
    (ps.receive now rs).outboundReady := by
  induction rs generalizing ps with
  | nil => exact h
  | cons r rs ih =>
    rw [PortState.receive_cons]
    refine ih ?_
    obtain hs | hs := h.appendReceipt now r
    · exact .inl hs
    · rwa [hs]

theorem PortState.outboundSound.appendReceipt {ps : PortState} (h : ps.outboundSound) (now : Tick) (r : Receipt) :
    (ps.appendReceipt now r).outboundSound := by
  obtain hs | hs := PortState.outboundReady.appendReceipt (.inl h) now r
  · exact hs
  · rwa [hs]

theorem PortState.outboundSound.ready_of_eq {ps : PortState} (h : ps.outboundSound) {ps' : PortState}
    (ho : ps'.outbound = ps.outbound) (hn : ps'.queue.notices = ps.queue.notices) : ps'.outboundReady :=
  PortState.outboundReady.addNotices (ns := []) (.inl h) ho (by simp [hn])

/-- A read of the outbound byte goes on to the next byte, the length byte, or the answer (R146). -/
theorem PortState.outboundSound.readByte {ps : PortState} (h : ps.outboundSound) (now : Tick) :
    PortState.outboundSound { ps with outbound := (ps.readByte now).1 } := by
  have hkeep := h
  unfold PortState.outboundSound at h
  cases htx : ps.outbound.tx with
  | idle => simpa [PortState.readByte, htx] using hkeep
  | answer t => simpa [PortState.readByte, htx] using hkeep
  | length t =>
    rw [htx] at h
    obtain ⟨n, rest, hq, hbyte, -⟩ := h
    simp [PortState.readByte, htx, hq, hbyte, PortState.outboundSound]
  | data position t =>
    rw [htx] at h
    obtain ⟨n, rest, hq, hpos, hbyte, hlen, hmark⟩ := h
    obtain ⟨b, hb⟩ : ∃ b, ps.outbound.byte = some b := ⟨n.bytes[position - 1], by
      rw [hbyte]
      exact List.getElem?_eq_getElem (by omega)⟩
    cases hnext : n.bytes[position]? with
    | none => simp [PortState.readByte, htx, hq, hb, hnext, PortState.outboundSound]
    | some next =>
      have hlt := (List.getElem?_eq_some_iff.mp hnext).1
      simp only [PortState.readByte, htx, hq, hb, hnext, PortState.outboundSound]
      exact ⟨n, rest, rfl, by omega, by simp [hnext], by omega, hmark⟩

theorem PortState.laneIdle_of_idle {ps : PortState} {l : Lane} (h : l.owner = ps.lane.owner) :
    PortState.laneIdle { ps with lane := l } = ps.laneIdle := by
  simp [PortState.laneIdle, h]

/-- Every move keeps the outbound side in agreement with the queue (R126, R144, R145). -/
theorem PortState.Move.outboundSound {ps ps' : PortState} (hmove : ps.Move ps') (h : ps.outboundSound) : ps'.outboundSound := by
  cases hmove with
  | input | window | bookReceipt | postTake | joinList | leaveList => exact h.congr rfl rfl rfl
  | readByte now => exact h.readByte now
  | lane l howner => exact h.congr rfl rfl (PortState.laneIdle_of_idle howner)
  | claim l hopen hhead =>
    unfold PortState.outboundSound at h ⊢
    cases htx : ps.outbound.tx with
    | idle =>
      rw [htx] at h
      obtain ⟨hbyte, hmark, hheld⟩ := h
      refine ⟨hbyte, hmark, fun hne => ?_⟩
      rw [(hheld hne).1] at hhead
      cases hhead
    | data | length | answer => simpa only [htx] using h
  | returnLane now l =>
    refine PortState.outboundReady.offer ?_ now
    exact h.ready_of_eq rfl rfl
  | receipt now r => exact h.appendReceipt now r
  | report now | endTakes now | bindPosted now | bindListed now =>
    refine PortState.outboundReady.append ?_ now _
    exact h.ready_of_eq rfl rfl
  | endTransfer now m l rs =>
    refine PortState.outboundReady.offer (PortState.outboundReady.receive ?_ now rs) now
    exact h.ready_of_eq rfl rfl
  | answer now t m u l rs htx =>
    refine PortState.outboundReady.offer (PortState.outboundReady.receive (.inr ?_) now rs) now
    unfold PortState.outboundSound at h
    rw [htx] at h
    obtain ⟨-, hbyte, hmark⟩ := h
    cases hout : ps.outbound
    simp_all [PortState.removeHead, OutboundSide.reset]

/-! ### The lane -/

/-- The lane is sound, and while a notice is in transmission or awaits its answer it heads the queue, an ARRIVAL only at an
IDLE lane (R127). -/
structure PortState.LaneLaw (ps : PortState) : Prop where
  lane : ps.lane.sound
  head : ps.outbound.tx ≠ .idle → ps.queue.notices ≠ [] ∧ (ps.headIsArrival = true → ps.laneIdle = true)

theorem Lane.Idle.sound {l : Lane} (h : l.Idle) : l.sound := by
  simp [Lane.sound, h.owner, h.fifo, h.hostCount, h.poolCount, h.stall, h.grantDue]

theorem PortState.laneLaw_of_idle_tx {ps : PortState} (hl : ps.lane.sound) (htx : ps.outbound.tx = .idle) : ps.LaneLaw :=
  ⟨hl, fun h => absurd htx h⟩

theorem PortState.outboundSound.laneLaw {ps : PortState} (h : ps.outboundSound) (hl : ps.lane.sound)
    (hhead : ps.outbound.tx ≠ .idle → ps.headIsArrival = true → ps.laneIdle = true) : ps.LaneLaw := by
  refine ⟨hl, fun htx => ⟨?_, hhead htx⟩⟩
  unfold PortState.outboundSound at h
  cases hcase : ps.outbound.tx with
  | idle => exact absurd hcase htx
  | data position t =>
    rw [hcase] at h
    obtain ⟨n, rest, hq, -⟩ := h
    simp [hq]
  | length t =>
    rw [hcase] at h
    obtain ⟨n, rest, hq, -⟩ := h
    simp [hq]
  | answer t =>
    rw [hcase] at h
    exact h.1

/-- More notices at the tail leave the head where one is in transmission. -/
theorem PortState.LaneLaw.addNotices {ps ps' : PortState} (h : ps.LaneLaw) {ns : List Notice} (hl : ps'.lane = ps.lane)
    (ho : ps'.outbound = ps.outbound) (hn : ps'.queue.notices = ps.queue.notices ++ ns) : ps'.LaneLaw := by
  refine ⟨hl ▸ h.lane, fun htx => ?_⟩
  rw [ho] at htx
  obtain ⟨hne, hidle⟩ := h.head htx
  obtain ⟨n, rest, hq⟩ := List.exists_cons_of_ne_nil hne
  simp only [PortState.headIsArrival, PortState.laneIdle, hn, hq, hl, List.cons_append] at hidle ⊢
  exact ⟨by simp, hidle⟩

theorem PortState.LaneLaw.offer {ps : PortState} (h : ps.LaneLaw) (now : Tick) : (ps.offer now).LaneLaw := by
  obtain h' | ⟨n, rest, -, hq, hidle, h'⟩ := PortState.offer_cases now ps
  · rwa [h']
  · rw [h']
    exact ⟨h.lane, fun _ => ⟨by simp [hq], by simpa [PortState.headIsArrival, hq, PortState.laneIdle] using hidle⟩⟩

theorem PortState.LaneLaw.append {ps : PortState} (h : ps.LaneLaw) (now : Tick) (ns : List Notice) :
    (ps.append now ns).LaneLaw := by
  refine PortState.LaneLaw.offer ?_ now
  exact h.addNotices rfl rfl rfl

theorem PortState.LaneLaw.appendReceipt {ps : PortState} (h : ps.LaneLaw) (now : Tick) (r : Receipt) :
    (ps.appendReceipt now r).LaneLaw := by
  have hq : ∀ q : NoticeQueue, q.notices = ps.queue.notices → PortState.LaneLaw { ps with queue := q } :=
    fun q hq => h.addNotices (ns := []) rfl rfl (by simp [hq])
  unfold PortState.appendReceipt
  split
  · refine PortState.LaneLaw.append ?_ now _
    exact hq _ rfl
  · split
    · refine PortState.LaneLaw.append ?_ now _
      exact hq _ rfl
    · exact h

theorem PortState.LaneLaw.receive {ps : PortState} (h : ps.LaneLaw) (now : Tick) (rs : List Receipt) :
    (ps.receive now rs).LaneLaw := by
  induction rs generalizing ps with
  | nil => exact h
  | cons r rs ih =>
    rw [PortState.receive_cons]
    exact ih (h.appendReceipt now r)

/-- A column whose lane is IDLE, with the head in transmission as it was. -/
theorem PortState.LaneLaw.idleLane {ps ps' : PortState} (h : ps.LaneLaw) (hl : ps'.lane.Idle) (ho : ps'.outbound = ps.outbound)
    (hq : ps'.queue = ps.queue) : ps'.LaneLaw :=
  ⟨hl.sound, fun htx => ⟨hq ▸ (h.head (ho ▸ htx)).1, fun _ => by simp [PortState.laneIdle, hl.owner]⟩⟩

/-- A read of the outbound byte starts no transmission (R146). -/
theorem PortState.readByte_tx_idle {ps : PortState} (now : Tick) (h : ps.outbound.tx = .idle) : (ps.readByte now).1.tx = .idle := by
  simp [PortState.readByte, h]

/-- Every move keeps the lane sound, and IDLE while an ARRIVAL is handed over (R127, R154). -/
theorem PortState.Move.laneLaw {ps ps' : PortState} (hmove : ps.Move ps') (h : ps.LaneLaw) : ps'.LaneLaw := by
  cases hmove with
  | input | window | bookReceipt | postTake | joinList | leaveList => exact ⟨h.lane, h.head⟩
  | readByte now => exact ⟨h.lane, fun htx => h.head fun hidle => htx (PortState.readByte_tx_idle now hidle)⟩
  | lane l howner hl =>
    refine ⟨hl h.lane, fun htx => ?_⟩
    obtain ⟨hne, hidle⟩ := h.head htx
    exact ⟨hne, fun hhead => (PortState.laneIdle_of_idle howner).trans (hidle hhead)⟩
  | claim l hopen hhead howner hl =>
    refine ⟨hl h.lane, fun htx => ⟨(h.head htx).1, fun harrival => ?_⟩⟩
    exact absurd (hhead.symm.trans harrival) (by simp)
  | returnLane now l hl =>
    refine PortState.LaneLaw.offer ?_ now
    exact h.idleLane hl rfl rfl
  | receipt now r => exact h.appendReceipt now r
  | report now | endTakes now | bindPosted now | bindListed now =>
    refine PortState.LaneLaw.append ?_ now _
    exact h.addNotices (ns := []) rfl rfl (by simp [PortState.bookSlot])
  | endTransfer now m l rs hm hl =>
    refine PortState.LaneLaw.offer (PortState.LaneLaw.receive ?_ now rs) now
    exact h.idleLane hl rfl rfl
  | answer now t m u l rs htx hqueue hm hu hl =>
    refine PortState.LaneLaw.offer (PortState.LaneLaw.receive (PortState.laneLaw_of_idle_tx ?_ rfl) now rs) now
    show l.sound
    obtain rfl | ⟨hhead, hl⟩ := hl
    · exact h.lane
    · exact hl ((h.head (by simp [htx])).2 hhead) h.lane

/-! ### The inbound side and the session -/

/-- Every move keeps the inbound side in its ranges (R137). -/
theorem PortState.Move.inbound {ps ps' : PortState} (hmove : ps.Move ps') (h : ps.inbound.sound) : ps'.inbound.sound := by
  cases hmove with
  | input x hx => exact hx h
  | window | readByte | lane | claim | bookReceipt | postTake | joinList | leaveList => exact h
  | returnLane now =>
    rw [(PortState.offer_onlyNotices now _).inbound]
    exact h
  | receipt now r =>
    rw [(PortState.appendReceipt_onlyNotices now r _).inbound]
    exact h
  | report now | endTakes now | bindPosted now | bindListed now =>
    rw [(PortState.append_onlyNotices now _ _).inbound]
    exact h
  | endTransfer now m l rs | answer now t m u l rs =>
    rw [(PortState.offer_onlyNotices now _).inbound, (PortState.receive_onlyNotices now rs _).inbound]
    exact h

/-- No move is the beginning or the end of a session. -/
theorem PortState.Move.session {ps ps' : PortState} (hmove : ps.Move ps') : ps'.session = ps.session := by
  cases hmove with
  | input | window | readByte | lane | claim | bookReceipt | postTake | joinList | leaveList => rfl
  | returnLane now => exact (PortState.offer_onlyNotices now _).session
  | receipt now r => exact (PortState.appendReceipt_onlyNotices now r _).session
  | report now | endTakes now | bindPosted now | bindListed now => exact (PortState.append_onlyNotices now _ _).session
  | endTransfer now m l rs | answer now t m u l rs =>
    exact (PortState.offer_onlyNotices now _).session.trans (PortState.receive_onlyNotices now rs _).session

theorem PortState.offer_of_empty {now : Tick} {ps : PortState} (h : ps.queue.notices = []) : ps.offer now = ps := by
  unfold PortState.offer
  split
  · next hq => simp [h] at hq
  · rfl

theorem PortState.append_nil_of_empty {now : Tick} {ps : PortState} (h : ps.queue.notices = []) : ps.append now [] = ps := by
  rw [PortState.append, PortState.offer_of_empty (by simp [h])]
  simp

/-- A column without a session gets nothing of one by a move (R134, R172). -/
theorem PortState.Move.sessionless {ps ps' : PortState} (hmove : ps.Move ps') (hopen : ps.isOpen = false) (h : ps.sessionless) :
    ps'.sessionless := by
  obtain ⟨hposted, hmatched, hlist, hnotices, hreserved, hreceipts, howner, hout⟩ := id h
  have hcontra : ∀ {P : Prop}, ps.isOpen = true → P := fun ho => absurd (hopen.symm.trans ho) (by simp)
  cases hmove with
  | input | window => exact h
  | readByte now => exact ⟨hposted, hmatched, hlist, hnotices, hreserved, hreceipts, howner, by simp [PortState.readByte, hout, OutboundSide.reset]⟩
  | lane l hl => exact ⟨hposted, hmatched, hlist, hnotices, hreserved, hreceipts, hl.trans howner, hout⟩
  | claim _ ho | receipt _ _ ho | bookReceipt ho | report _ _ ho | postTake _ ho | bindListed _ _ _ _ ho | joinList _ ho =>
    exact hcontra ho
  | returnLane now l hl =>
    rw [PortState.offer_of_empty]
    · exact ⟨hposted, hmatched, hlist, hnotices, hreserved, hreceipts, hl.owner, hout⟩
    · exact hnotices
  | endTakes now posted ns hlen =>
    simp only [hposted, List.length_nil, Nat.add_eq_zero_iff, List.length_eq_zero_iff] at hlen
    obtain ⟨rfl, rfl⟩ := hlen
    rw [PortState.append_nil_of_empty]
    · exact ⟨rfl, hmatched, hlist, hnotices, hreserved, hreceipts, howner, hout⟩
    · exact hnotices
  | bindPosted now posted m a hlen => simp [hposted] at hlen
  | leaveList u hu => exact ⟨hposted, hmatched, List.eq_nil_of_sublist_nil (hlist ▸ hu), hnotices, hreserved, hreceipts, howner, hout⟩
  | endTransfer now m l rs hm hl hrs =>
    obtain rfl := hrs.resolve_right fun ho => hcontra ho
    rw [PortState.receive_nil, PortState.offer_of_empty]
    · exact ⟨hposted, List.eq_nil_of_sublist_nil (hmatched ▸ hm), hlist, hnotices, hreserved, hreceipts, hl.owner, hout⟩
    · exact hnotices
  | answer now t m u l rs htx =>
    rw [hout] at htx
    cases htx

end Sys2Proof.Machine
end

