-- ==== Sys2Proof/Proofs/ColumnChanges.lean ====
section
/-! PROOFS. Everything a happening can do to one port, its memberships included: moves within a session, and the
beginnings and ends of sessions (R60, R134, R170, R177, R179). -/

namespace Sys2Proof.Machine

/-- A port column with the port's memberships (R59). -/
structure Column where
  port : PortState
  member : GroupNo → Bool

def State.column (s : State) (p : Port) : Column := { port := s.port p, member := fun g => (s.members g).get p }

/-- The LAPSED cause is pending exactly while LAPSED (R170). -/
def SessionControl.causeSound (x : SessionControl) : Prop := x.lapsedCause = true ↔ x.state = .lapsed

/-- What the end of a session leaves of its column (R177). -/
structure PortState.Ended (ps ps' : PortState) : Prop where
  takes : ps'.takes = { posted := [], matched := [] }
  unclaimed : ps'.unclaimed = []
  queue : ps'.queue = { notices := [], reserved := 0, receiptReserved := 0 }
  outbound : ps'.outbound = OutboundSide.reset
  inbound : ps'.inbound = ps.inbound
  lane : ps.lane.sound → ps'.lane.sound
  owner : ps'.lane.owner = .idle
  cause : ps.session.causeSound → ps'.session.causeSound
  tearingDown : ps'.session.tearingDown = false
  answerLimit : ps'.session.answerLimit = ps.session.answerLimit

/-- One change of a port. -/
inductive Column.Change (c : Column) : Column → Prop
  | move (ps : PortState) (hmove : c.port.Move ps) : Change c { c with port := ps }
  /-- JOIN and LEAVE (R61, R62). -/
  | member (m : GroupNo → Bool) (hopen : c.port.isOpen = true) : Change c { c with member := m }
  /-- A teardown, and what its command does to the session state after it (R174 to R176). -/
  | ended (ps : PortState) (h : c.port.Ended ps) : Change c { port := ps, member := fun _ => false }
  /-- A session opens (R173). -/
  | opening (limit : Nat) (hlow : 10 ≤ limit) (hhigh : limit ≤ 2000) : Change c { c with port := c.port.opening limit }
  /-- A port without a session, or one just torn down, is CLOSED, its LAPSED cause clear (R175). -/
  | closed (hfree : c.port.isOpen = true → c.port.sessionless ∧ ∀ g, c.member g = false) : Change c { c with port := (c.port.setLapsedCause false).setSession .closed }
  /-- The last steps of a port reset (R179). -/
  | clearWindow (hclosed : c.port.isOpen = false) : Change c { c with port := c.port.clearWindow }

section Laws

variable {c c' : Column}

/-! ### The laws of a port that every change keeps -/

theorem Column.Change.slotsBooked (hchange : c.Change c') (h : c.port.slotsBooked) : c'.port.slotsBooked := by
  cases hchange with
  | move ps hmove => exact hmove.slotsBooked h
  | member | opening | closed | clearWindow => exact h
  | ended ps hend => simp [PortState.slotsBooked, TakeTable.liveCount, hend.takes, hend.unclaimed, hend.queue]

theorem InboundSide.reset_sound : InboundSide.reset.sound := by
  unfold InboundSide.sound
  decide

theorem Column.Change.inbound (hchange : c.Change c') (h : c.port.inbound.sound) : c'.port.inbound.sound := by
  cases hchange with
  | move ps hmove => exact hmove.inbound h
  | member | opening | closed => exact h
  | ended ps hend => exact hend.inbound ▸ h
  | clearWindow => exact InboundSide.reset_sound

/-- A lane is sound whatever its flags are (R154). -/
theorem Lane.sound.withFlags {l : Lane} (h : l.sound) (done overrun underrun : Bool) :
    Lane.sound { l with done := done, overrun := overrun, underrun := underrun } := h

theorem Column.Change.laneLaw (hchange : c.Change c') (h : c.port.LaneLaw) : c'.port.LaneLaw := by
  cases hchange with
  | move ps hmove => exact hmove.laneLaw h
  | member | opening | closed => exact ⟨h.lane, h.head⟩
  | ended ps hend => exact PortState.laneLaw_of_idle_tx (hend.lane h.lane) (by rw [hend.outbound]; rfl)
  | clearWindow => exact PortState.laneLaw_of_idle_tx (h.lane.withFlags false false false) rfl

/-- The port's part of `State.sessionsSound`, and of `State.outboundSound`. -/
structure Column.SessionLaw (c : Column) : Prop where
  cause : c.port.session.causeSound
  tearingDown : c.port.session.tearingDown = false
  low : 10 ≤ c.port.session.answerLimit
  high : c.port.session.answerLimit ≤ 2000
  closed : c.port.isOpen = false → c.port.sessionless ∧ ∀ g, c.member g = false
  outbound : c.port.outboundSound

theorem PortState.Ended.sessionless {ps ps' : PortState} (h : ps.Ended ps') : ps'.sessionless := by
  simp [PortState.sessionless, h.takes, h.unclaimed, h.queue, h.owner, h.outbound]

theorem Column.Change.sessionLaw (hchange : c.Change c') (h : c.SessionLaw) : c'.SessionLaw := by
  obtain ⟨hcause, htearing, hlow, hhigh, hclosed, hout⟩ := h
  cases hchange with
  | move ps hmove =>
    have hsession := hmove.session
    have hopen : ps.isOpen = c.port.isOpen := by rw [PortState.isOpen, hsession, PortState.isOpen]
    refine ⟨hsession ▸ hcause, hsession ▸ htearing, hsession ▸ hlow, hsession ▸ hhigh, fun hc => ?_, hmove.outboundSound hout⟩
    obtain ⟨hless, hmember⟩ := hclosed (hopen ▸ hc)
    exact ⟨hmove.sessionless (hopen ▸ hc) hless, hmember⟩
  | member m hopen => exact ⟨hcause, htearing, hlow, hhigh, fun hc => absurd (hc.symm.trans hopen) (by simp), hout⟩
  | ended ps hend =>
    exact ⟨hend.cause hcause, hend.tearingDown, hend.answerLimit ▸ hlow, hend.answerLimit ▸ hhigh,
      fun _ => ⟨hend.sessionless, fun _ => rfl⟩, PortState.outboundSound_of_empty hend.outbound (by rw [hend.queue])⟩
  | opening limit hlow' hhigh' =>
    exact ⟨by simp [SessionControl.causeSound, PortState.opening], htearing, hlow', hhigh',
      fun hc => absurd hc (by simp [PortState.isOpen, PortState.opening]), hout⟩
  | closed hfree =>
    refine ⟨by simp [SessionControl.causeSound, PortState.setSession, PortState.setLapsedCause], htearing, hlow, hhigh,
      fun _ => ?_, hout⟩
    cases hopen : c.port.isOpen with
    | true => exact hfree hopen
    | false => exact hclosed hopen
  | clearWindow hc =>
    obtain ⟨⟨hposted, hmatched, hlist, hnotices, hreserved, hreceipts, howner, -⟩, hmember⟩ := hclosed hc
    exact ⟨hcause, htearing, hlow, hhigh,
      fun _ => ⟨⟨hposted, hmatched, hlist, hnotices, hreserved, hreceipts, howner, rfl⟩, hmember⟩,
      PortState.outboundSound_of_empty rfl hnotices⟩

/-! ### Changes one after another -/

/-- What every change keeps, changes one after another keep. -/
theorem Column.keeps_of_changes {P : Column → Prop} (hP : ∀ c c' : Column, c.Change c' → P c → P c')
    (h : Relation.ReflTransGen Column.Change c c') (hc : P c) : P c' := by
  induction h with
  | refl => exact hc
  | tail _ hstep ih => exact hP _ _ hstep ih

end Laws

/-- From `s` to `t` port `q` makes changes one after another. -/
def State.ChangesAt (q : Port) (s t : State) : Prop := Relation.ReflTransGen Column.Change (s.column q) (t.column q)

/-- From `s` to `t` every port makes changes, one after another. -/
def State.Changes (s t : State) : Prop := ∀ q, s.ChangesAt q t

section Changes

variable {s t u : State} {p q : Port}

theorem State.ChangesAt.of_eq (hp : t.port q = s.port q) (hg : t.groups = s.groups) : s.ChangesAt q t := by
  have hcol : t.column q = s.column q := by simp only [State.column, State.members, hp, hg]
  rw [State.ChangesAt, hcol]

theorem State.ChangesAt.trans (h : s.ChangesAt q t) (h' : t.ChangesAt q u) : s.ChangesAt q u := Relation.ReflTransGen.trans h h'

theorem State.ChangesAt.single (h : (s.column q).Change (t.column q)) : s.ChangesAt q t := Relation.ReflTransGen.single h

theorem State.ChangesAt.of_move (h : (s.port q).Move (t.port q)) (hg : t.groups = s.groups) : s.ChangesAt q t := by
  have hcol : t.column q = { s.column q with port := t.port q } := by simp only [State.column, State.members, hg]
  refine .single ?_
  rw [hcol]
  exact .move _ h

theorem State.Changes.refl (s : State) : s.Changes s := fun _ => .refl

theorem State.Changes.trans (h : s.Changes t) (h' : t.Changes u) : s.Changes u := fun q => (h q).trans (h' q)

theorem State.Changes.of_eq (hp : ∀ q, t.port q = s.port q) (hg : t.groups = s.groups) : s.Changes t := fun q => .of_eq (hp q) hg

/-- A change of one port leaves the others as they are. -/
theorem State.Changes.of_modPort {f : PortState → PortState} (h : s.ChangesAt p (s.modPort p f)) : s.Changes (s.modPort p f) := by
  intro q
  by_cases hq : q = p
  · exact hq ▸ h
  · exact .of_eq (State.modPort_port_other s f hq) rfl

theorem State.modPort_changes {f : PortState → PortState} (h : (s.port p).Move (f (s.port p))) : s.Changes (s.modPort p f) :=
  .of_modPort (.of_move (by rwa [State.modPort_port_same]) rfl)

theorem State.foldl_changesAt {α : Type} {f : State → α → State} (hf : ∀ s a, State.ChangesAt q s (f s a)) (as : List α) :
    ∀ s : State, s.ChangesAt q (as.foldl f s) := by
  induction as with
  | nil => exact fun s => .refl
  | cons a as ih => exact fun s => (hf s a).trans (ih (f s a))

theorem State.foldl_changes {α : Type} {f : State → α → State} (hf : ∀ s a, State.Changes s (f s a)) (as : List α) (s : State) :
    s.Changes (as.foldl f s) := fun q => State.foldl_changesAt (fun s a => hf s a q) as s

/-! ### The laws of all ports -/

theorem State.Changes.slotsBooked (h : s.Changes t) (hs : s.slotsBooked) : t.slotsBooked := fun q =>
  Column.keeps_of_changes (P := fun c => c.port.slotsBooked) (fun _ _ => Column.Change.slotsBooked) (h q) (hs q)

theorem State.Changes.inbound (h : s.Changes t) (hs : ∀ p, (s.port p).inbound.sound) : ∀ p, (t.port p).inbound.sound := fun q =>
  Column.keeps_of_changes (P := fun c => c.port.inbound.sound) (fun _ _ => Column.Change.inbound) (h q) (hs q)

theorem State.Changes.lanesSound (h : s.Changes t) (hout : s.outboundSound) (hs : s.lanesSound) : t.lanesSound := fun q => by
  obtain ⟨hlane, hhead⟩ := hs q
  have hlaw := Column.keeps_of_changes (P := fun c => c.port.LaneLaw) (fun _ _ => Column.Change.laneLaw) (h q)
    ((hout q).laneLaw hlane hhead)
  exact ⟨hlaw.lane, fun htx => (hlaw.head htx).2⟩

theorem State.sessionLaw_of_sound (hs : s.sessionsSound) (hout : s.outboundSound) (q : Port) : (s.column q).SessionLaw := by
  obtain ⟨hcause, htearing, hlow, hhigh, hclosed⟩ := hs q
  exact ⟨hcause, htearing, hlow, hhigh, hclosed, hout q⟩

theorem State.Changes.sessionsSound (h : s.Changes t) (hs : s.sessionsSound) (hout : s.outboundSound) :
    t.sessionsSound ∧ t.outboundSound := by
  have hlaw := fun q => Column.keeps_of_changes (fun _ _ => Column.Change.sessionLaw) (h q) (State.sessionLaw_of_sound hs hout q)
  exact ⟨fun q => ⟨(hlaw q).cause, (hlaw q).tearingDown, (hlaw q).low, (hlaw q).high, (hlaw q).closed⟩, fun q => (hlaw q).outbound⟩

end Changes

end Sys2Proof.Machine
end

