-- ==== Sys2Proof/Proofs/Happenings.lean ====
section
/-! PROOFS. Every command as a run of happenings that each keep the laws of the part: the short list that all invariants
are proved over. -/

namespace Sys2Proof.Machine

/-! ### The list -/

/-- One happening. The conditions are those that the commands test before it. -/
inductive State.Happening (s : State) : State → Prop
  /-- Counters, pins and the queue of commands change, and nothing else. -/
  | idle (t : State) (hports : t.ports = s.ports) (hdescs : t.descs = s.descs) (hgroups : t.groups = s.groups)
      (hpool : t.pool = s.pool) : Happening s t
  | advance : Happening s s.advance
  /-- One port changes in what no copy sees. -/
  | quiet (p : Port) (f : PortState → PortState) (hchange : s.ChangesAt p (s.modPort p f))
      (hsame : (s.port p).SameTransfers (f (s.port p))) : Happening s (s.modPort p f)
  /-- JOIN and LEAVE (R61, R62). -/
  | membership (p : Port) (g : GroupNo) (b : Bool) (hopen : (s.port p).isOpen = true) :
      Happening s (s.modGroup g (fun m => m.set p b))
  /-- CONFIGURE (R83). -/
  | configure (reserve ceiling : PerPort Nat) (stallLimit : Nat) (h : s.pool.configLegal reserve ceiling stallLimit = true) :
      Happening s (s.modPool (fun x => { x with reserve := reserve, ceiling := ceiling, stallLimit := stallLimit }))
  /-- SEND (R105). -/
  | send (p : Port) (f : SendFields) (d : DescNo) (hopen : (s.port p).isOpen = true) (hhold : f.hold < 65536)
      (hcheck : s.checkSend p f = .ok d) : Happening s (s.doSend p f d)
  /-- TAKE (R25). -/
  | take (p : Port) (f : TakeFields) (hopen : (s.port p).isOpen = true) (h16 : (s.port p).takes.liveCount < 16)
      (hlabel : (s.port p).takes.hasLabel f.label = false) (h24 : (s.port p).queue.reserved < 24) : Happening s (s.doTake p f)
  /-- ACCEPT and REFUSE (R128). -/
  | answer (p : Port) (accepted : Bool) : Happening s (s.answerNotice p accepted)
  /-- An INBOUND transfer ends, the lane's flags and FIFO having changed (R157, R164, R166). -/
  | abandon (p : Port) (d : DescNo) (f : Lane → Lane) (howner : (s.port p).lane.owner = .inbound d)
      (hsame : (s.port p).SameTransfers ((s.port p).modLane f)) :
      Happening s ((s.modPort p (PortState.modLane f)).abandonTransfer p d)
  /-- A delivery ends (R163, R164, R166). -/
  | endDelivery (p : Port) (d : DescNo) (o : CopyOutcome) (f : Lane → Lane) (howner : (s.port p).lane.owner = .outbound d)
      (hsame : (s.port p).SameTransfers ((s.port p).modLane f)) :
      Happening s ((s.modPort p (PortState.modLane f)).endDelivery p d o)
  | expireHolds (p : Port) : Happening s (s.expireHolds p)
  | markHolds (p : Port) : Happening s (s.markHolds p)
  /-- A session ends by a teardown (R177). -/
  | endSession (p : Port) (cause : Bool) (x : SessionState)
      (hcause : (s.port p).session.causeSound → (cause = true ↔ x = .lapsed)) :
      Happening s (((s.modPort p (PortState.setLapsedCause cause)).teardown p).modPort p (PortState.setSession x))
  /-- A grant of the mover (R162). -/
  | grant (p : Port) : Happening s (s.grantTo p)

/-- Happenings one after another. -/
abbrev State.Happenings (s t : State) : Prop := Relation.ReflTransGen State.Happening s t

section Happenings

variable {s t u : State} {p : Port}

theorem State.Happening.happenings (h : s.Happening t) : s.Happenings t := .single h

theorem State.foldl_happenings {α : Type} {f : State → α → State} (hf : ∀ s a, State.Happenings s (f s a)) (as : List α) :
    ∀ s : State, s.Happenings (as.foldl f s) := by
  induction as with
  | nil => exact fun s => .refl
  | cons a as ih => exact fun s => (hf s a).trans (ih (f s a))

/-! ### What no copy sees -/

theorem PortState.SameTransfers.of_eq {ps ps' : PortState} (hu : ps'.unclaimed = ps.unclaimed) (ht : ps'.takes = ps.takes)
    (hq : ps'.queue.notices = ps.queue.notices) (ho : ps'.lane.owner = ps.lane.owner)
    (hc : ps'.lane.poolCount = ps.lane.poolCount) : ps.SameTransfers ps' :=
  ⟨⟨hu, by rw [ht], ho, by rw [PortState.arrivals, hq, PortState.arrivals], by rw [ht]⟩, hc⟩

theorem State.quiet_happenings {f : PortState → PortState} (hmove : (s.port p).Move (f (s.port p)))
    (hsame : (s.port p).SameTransfers (f (s.port p))) : s.Happenings (s.modPort p f) :=
  (Happening.quiet p f (State.modPort_changes hmove p) hsame).happenings

theorem State.setReadData_happenings (s : State) (p : Port) (r : Half) :
    s.Happenings (s.modPort p (fun ps => { ps with readData := r })) :=
  State.quiet_happenings (.window (s.port p).enables r) (.of_eq rfl rfl rfl rfl rfl)

theorem State.setEnables_happenings (s : State) (p : Port) (e : Enables) :
    s.Happenings (s.modPort p (fun ps => { ps with enables := e })) :=
  State.quiet_happenings (.window e (s.port p).readData) (.of_eq rfl rfl rfl rfl rfl)

theorem State.modInbound_happenings {f : InboundSide → InboundSide} (hf : (s.port p).inbound.sound → (f (s.port p).inbound).sound) :
    s.Happenings (s.modInbound p f) :=
  State.quiet_happenings (.input _ hf) (.of_eq rfl rfl rfl rfl rfl)

theorem State.modLane_happenings {f : Lane → Lane} (howner : (f (s.port p).lane).owner = (s.port p).lane.owner)
    (hcount : (f (s.port p).lane).poolCount = (s.port p).lane.poolCount) (hsound : (s.port p).lane.sound → (f (s.port p).lane).sound) :
    s.Happenings (s.modPort p (PortState.modLane f)) :=
  State.quiet_happenings (.lane _ howner hsound) (.of_eq rfl rfl rfl howner hcount)

theorem State.unlessInReset_happenings (h : s.Happenings t) : s.Happenings (s.unlessInReset t) := by
  unfold State.unlessInReset
  split
  · exact .refl
  · exact h

theorem State.readUnlessInReset_happenings (h : s.Happenings t) : s.Happenings (s.readUnlessInReset p t) := by
  unfold State.readUnlessInReset
  split
  · exact s.setReadData_happenings p 0
  · exact h

/-! ### The inbound side -/

theorem InboundSide.gather_sound (b : Byte) {x : InboundSide} (h : x.sound) : (x.gather b).sound := by
  obtain ⟨hring, hgathered, hoverflow, hfull, hstray, -⟩ := h
  have hlen : (x.gather b).ring.length = min 64 (x.ring.length + 1) := by
    simp only [InboundSide.gather, List.length_append, List.length_singleton, apply_ite List.length, List.length_drop]
    split_ifs <;> omega
  refine ⟨by omega, ?_, ?_, ?_, hstray, by simp [InboundSide.gather], by simp [InboundSide.gather], by simp [InboundSide.gather]⟩
  · rw [hlen]
    simp only [InboundSide.gather]
    split_ifs <;> omega
  all_goals
    simp only [InboundSide.gather]
    split_ifs <;> omega

theorem InboundSide.beginClosing_sound {x : InboundSide} (h : x.sound) : x.beginClosing.sound := by
  obtain ⟨hring, hgathered, hoverflow, hfull, hstray, -⟩ := h
  exact ⟨hring, hgathered, hoverflow, hfull, hstray, by simp [InboundSide.beginClosing], by simp [InboundSide.beginClosing],
    by simp [InboundSide.beginClosing]⟩

theorem InboundSide.setStray_sound (n : Nat) {x : InboundSide} (h : x.sound) : (x.setStray n).sound := by
  obtain ⟨hring, hgathered, hoverflow, hfull, -, hposted, haccepted, hrefused⟩ := h
  exact ⟨hring, hgathered, hoverflow, hfull, by simp [InboundSide.setStray], hposted, haccepted, hrefused⟩

theorem InboundSide.post_sound (r : Option Reason) {x : InboundSide} (h : x.sound) : (x.post r).sound := by
  obtain ⟨hring, -, -, -, hstray, -⟩ := h
  cases r <;> simp [InboundSide.sound, InboundSide.post, hring, hstray]

theorem State.post_happenings (s : State) (p : Port) (r : Option Reason) : s.Happenings (s.post p r) :=
  State.modInbound_happenings (f := InboundSide.post r) (InboundSide.post_sound r)

/-! ### The lane -/

theorem Lane.sound_of_inbound {l : Lane} {d : DescNo} (h : l.owner = .inbound d) : l.sound ↔
    l.fifo.length ≤ 32 ∧ (l.grantDue = true → l.eligible = true) ∧ l.fifo.length + l.hostCount = l.poolCount ∧ l.stall.isSome := by
  simp [Lane.sound, h]

theorem Lane.sound_of_outbound {l : Lane} {d : DescNo} (h : l.owner = .outbound d) : l.sound ↔
    l.fifo.length ≤ 32 ∧ (l.grantDue = true → l.eligible = true) ∧ l.fifo.length + l.poolCount = l.hostCount ∧ l.stall.isSome := by
  simp [Lane.sound, h]

theorem State.setOverrun_happenings (s : State) (p : Port) : s.Happenings (s.setOverrun p) :=
  State.modLane_happenings rfl rfl (fun h => h)

theorem State.setUnderrun_happenings (s : State) (p : Port) : s.Happenings (s.setUnderrun p) := by
  have h := (State.modLane_happenings (s := s) (p := p) (f := fun l => { l with underrun := true }) rfl rfl (fun h => h)).trans
    (State.setReadData_happenings _ p 0)
  rwa [State.modPort_modPort] at h

theorem Lane.sound.restart {l : Lane} (h : l.sound) (howner : l.owner ≠ .idle) (t : Tick) : Lane.sound { l with stall := some t } := by
  cases ho : l.owner with
  | idle => exact absurd ho howner
  | inbound d =>
    obtain ⟨hlen, hdue, hcount, -⟩ := (Lane.sound_of_inbound ho).mp h
    exact ho ▸ (Lane.sound_of_inbound (l := { l with stall := some t }) ho).mpr ⟨hlen, hdue, hcount, rfl⟩
  | outbound d =>
    obtain ⟨hlen, hdue, hcount, -⟩ := (Lane.sound_of_outbound ho).mp h
    exact ho ▸ (Lane.sound_of_outbound (l := { l with stall := some t }) ho).mpr ⟨hlen, hdue, hcount, rfl⟩

theorem State.restartStall_happenings (howner : (s.port p).lane.owner ≠ .idle) : s.Happenings (s.restartStall p) :=
  State.modLane_happenings rfl rfl (fun h => h.restart howner _)

theorem laneWriteBytes_length {n : Nat} (h : n = 1 ∨ n = 2) (data : Half) : (laneWriteBytes n data).length = n := by
  obtain rfl | rfl := h <;> rfl

theorem laneAccessSize_cases (w : Width) (n : Nat) : laneAccessSize w n = 1 ∨ (laneAccessSize w n = 2 ∧ n ≠ 1) := by
  unfold laneAccessSize
  cases w
  · exact .inl rfl
  · by_cases h : n = 1 <;> simp [h]

/-- Bytes that the message still lacks, and that the FIFO has room for, keep an INBOUND lane sound (R157). -/
theorem Lane.sound.takeIn {l : Lane} (h : l.sound) {d : DescNo} (howner : l.owner = .inbound d) {bytes : List Byte}
    (hroom : l.fifo.length + bytes.length ≤ 32) (hcount : bytes.length ≤ l.hostCount) : (l.takeIn bytes).sound := by
  obtain ⟨-, hdue, hsum, hstall⟩ := (Lane.sound_of_inbound howner).mp h
  refine (Lane.sound_of_inbound (l := l.takeIn bytes) howner).mpr ⟨by simpa [Lane.takeIn] using hroom, fun hd => ?_, ?_, hstall⟩
  · have := hdue hd
    simp only [Lane.eligible, howner, Lane.takeIn, Bool.and_eq_true, Bool.or_eq_true, decide_eq_true_eq, List.length_append] at this ⊢
    omega
  · simp only [Lane.takeIn, List.length_append]
    omega

/-- Bytes of the FIFO that the host has taken leave an OUTBOUND lane sound (R158). -/
theorem Lane.sound.giveOut {l : Lane} (h : l.sound) {d : DescNo} (howner : l.owner = .outbound d) {n : Nat} (hn : n ≤ l.fifo.length) :
    (l.giveOut n).sound := by
  obtain ⟨hlen, hdue, hsum, hstall⟩ := (Lane.sound_of_outbound howner).mp h
  refine (Lane.sound_of_outbound (l := l.giveOut n) howner).mpr ⟨?_, fun hd => ?_, ?_, hstall⟩
  · simp only [Lane.giveOut, List.length_drop]
    omega
  · have := hdue hd
    simp only [Lane.eligible, howner, Lane.giveOut, Bool.and_eq_true, Bool.or_eq_true, decide_eq_true_eq, List.length_drop] at this ⊢
    omega
  · simp only [Lane.giveOut, List.length_drop]
    omega

theorem State.setOverrun_owner (s : State) (p : Port) : ((s.setOverrun p).port p).lane.owner = (s.port p).lane.owner := by
  rw [State.setOverrun, State.modPort_port_same]
  rfl

theorem State.setUnderrun_owner (s : State) (p : Port) : ((s.setUnderrun p).port p).lane.owner = (s.port p).lane.owner := by
  rw [State.setUnderrun, State.modPort_port_same]
  rfl

theorem State.restartStall_owner (s : State) (p : Port) : ((s.restartStall p).port p).lane.owner = (s.port p).lane.owner := by
  rw [State.restartStall, State.modPort_port_same]
  rfl

/-- A host write (R157). -/
theorem State.writeLane_happenings (s : State) (p : Port) (data : Half) : s.Happenings (s.writeLane p data) := by
  have hrestart : (s.port p).lane.owner ≠ .idle → s.Happenings ((s.setOverrun p).restartStall p) := fun h =>
    (s.setOverrun_happenings p).trans (State.restartStall_happenings ((s.setOverrun_owner p).trans_ne h))
  cases howner : (s.port p).lane.owner with
  | idle =>
    simp only [State.writeLane, howner]
    exact s.setOverrun_happenings p
  | outbound d =>
    simp only [State.writeLane, howner]
    exact hrestart (by simp [howner])
  | inbound d =>
    simp only [State.writeLane, howner]
    split
    · exact hrestart (by simp [howner])
    · next hcount =>
      split
      · next hroom =>
        obtain hsize := laneAccessSize_cases (s.port p).width (s.port p).lane.hostCount
        have hlen : (laneWriteBytes (s.port p).accessSize data).length = (s.port p).accessSize :=
          laneWriteBytes_length (hsize.imp_right And.left) data
        have hbytes : (s.port p).accessSize ≤ (s.port p).lane.hostCount := by
          unfold PortState.accessSize
          omega
        refine (State.modLane_happenings (f := Lane.takeIn (laneWriteBytes (s.port p).accessSize data)) rfl rfl
          (fun h => h.takeIn howner (by omega) (by omega))).trans (State.restartStall_happenings ?_)
        rw [State.modPort_port_same]
        simp [PortState.modLane, Lane.takeIn, howner]
      · exact (Happening.abandon p d (fun l => { l with overrun := true }) howner (.of_eq rfl rfl rfl rfl rfl)).happenings

theorem State.endDelivery_happenings {d : DescNo} (howner : (s.port p).lane.owner = .outbound d) (o : CopyOutcome) :
    s.Happenings (s.endDelivery p d o) := by
  have h := (Happening.endDelivery p d o id howner (PortState.SameTransfers.refl _)).happenings
  rwa [State.modPort_of_fixed rfl] at h

theorem State.abandonTransfer_happenings {d : DescNo} (howner : (s.port p).lane.owner = .inbound d) :
    s.Happenings (s.abandonTransfer p d) := by
  have h := (Happening.abandon p d id howner (PortState.SameTransfers.refl _)).happenings
  rwa [State.modPort_of_fixed rfl] at h

/-- A host read (R158). -/
theorem State.readLane_happenings (s : State) (p : Port) : s.Happenings (s.readLane p) := by
  have hrestart : (s.port p).lane.owner ≠ .idle → s.Happenings ((s.setUnderrun p).restartStall p) := fun h =>
    (s.setUnderrun_happenings p).trans (State.restartStall_happenings ((s.setUnderrun_owner p).trans_ne h))
  cases howner : (s.port p).lane.owner with
  | idle =>
    simp only [State.readLane, howner]
    exact s.setUnderrun_happenings p
  | inbound d =>
    simp only [State.readLane, howner]
    exact hrestart (by simp [howner])
  | outbound d =>
    simp only [State.readLane, howner]
    split
    · next hready =>
      have hgive := (State.modLane_happenings (f := Lane.giveOut (s.port p).accessSize) rfl rfl
        (fun h => h.giveOut howner hready)).trans
          (State.setReadData_happenings _ p (laneReadValue ((s.port p).lane.fifo.take (s.port p).accessSize)))
      rw [State.modPort_modPort] at hgive
      have hout : ∀ r : Half, ((s.modPort p (fun x => { x.modLane (Lane.giveOut (s.port p).accessSize) with readData := r })).port
          p).lane.owner = .outbound d := fun r => by
        rw [State.modPort_port_same]
        exact howner
      have hgiven := hgive.trans (State.restartStall_happenings (by rw [hout]; simp))
      split
      · refine hgiven.trans (State.endDelivery_happenings ?_ _)
        exact (State.restartStall_owner _ p).trans (hout _)
      · exact hgiven
    · exact hrestart (by simp [howner])

/-- The purge of a lane (R164). -/
theorem State.purgeLane_happenings (s : State) (p : Port) : s.Happenings (s.purgeLane p) := by
  unfold State.purgeLane
  cases howner : (s.port p).lane.owner with
  | idle =>
    refine State.modLane_happenings rfl rfl fun h => ?_
    simp only [Lane.sound, howner] at h
    obtain ⟨-, hdue, hfifo, hhost, hpool, hstall⟩ := h
    refine ⟨by simp, fun hd => ?_, ?_⟩
    · have := hdue hd
      simp [Lane.eligible, howner] at this
    · simp [howner, hhost, hpool, hstall]
  | inbound d => exact (Happening.abandon p d _ howner (.of_eq rfl rfl rfl rfl rfl)).happenings
  | outbound d => exact (Happening.endDelivery p d .stopped _ howner (.of_eq rfl rfl rfl rfl rfl)).happenings

end Happenings

end Sys2Proof.Machine
end

