-- ==== Sys2Proof/Proofs/Commands.lean ====
section
/-! PROOFS. Every step is a run of happenings, or the hard reset. -/

namespace Sys2Proof.Machine

section Commands

variable {s t : State} {p : Port}

/-! ### Sessions -/

theorem State.modPort_column_same (s : State) (p : Port) (f : PortState → PortState) :
    (s.modPort p f).column p = { s.column p with port := f (s.port p) } := by
  simp [State.column]

/-- A change of the session, or of the window, that no copy sees. -/
theorem State.change_happenings {f : PortState → PortState} (hchange : (s.column p).Change { s.column p with port := f (s.port p) })
    (hsame : (s.port p).SameTransfers (f (s.port p))) : s.Happenings (s.modPort p f) :=
  (Happening.quiet p f (.single (by rwa [State.modPort_column_same])) hsame).happenings

theorem State.teardownIfOpen_happenings (s : State) (p : Port) : s.Happenings (s.teardownIfOpen p) := by
  unfold State.teardownIfOpen
  split
  · have h := (Happening.endSession p (s.port p).session.lapsedCause (s.port p).session.state (fun h => h)).happenings (s := s)
    have hsession : ((s.teardown p).port p).session.state = (s.port p).session.state := by
      rw [(s.teardown_tornDown p).own]
      rfl
    rw [State.modPort_of_fixed (s := s) rfl, State.modPort_of_fixed] at h
    · exact h
    · rw [← hsession]
      rfl
  · exact .refl

theorem PortState.tornDown_sessionless (ps : PortState) : ps.tornDown.sessionless := by
  have howner : ps.tornDown.lane.owner = .idle := by
    simp only [PortState.tornDown]
    split
    · assumption
    · rfl
  exact ⟨rfl, rfl, rfl, rfl, rfl, rfl, howner, rfl⟩

/-- A port still OPEN here has just been torn down (R177). -/
theorem State.teardownIfOpen_free (s : State) (p : Port) (h : ((s.teardownIfOpen p).column p).port.isOpen = true) :
    ((s.teardownIfOpen p).column p).port.sessionless ∧ ∀ g, ((s.teardownIfOpen p).column p).member g = false := by
  unfold State.teardownIfOpen at h ⊢
  split at h
  · next hopen =>
    rw [if_pos hopen]
    have htorn := s.teardown_tornDown p
    refine ⟨?_, fun g => (htorn.members g p).trans (by simp)⟩
    show ((s.teardown p).port p).sessionless
    rw [htorn.own]
    exact PortState.tornDown_sessionless _
  · next hopen => exact absurd h hopen

/-- OPEN (R173). -/
theorem State.openSession_happenings (s : State) (p : Port) {limit : Nat} (hlow : 10 ≤ limit) (hhigh : limit ≤ 2000) :
    s.Happenings (s.openSession p limit) :=
  (s.teardownIfOpen_happenings p).trans (State.change_happenings (.opening limit hlow hhigh) (.of_eq rfl rfl rfl rfl rfl))

/-- CLOSE (R175). -/
theorem State.closeSession_happenings (s : State) (p : Port) : s.Happenings (s.closeSession p) :=
  (s.teardownIfOpen_happenings p).trans
    (State.change_happenings (.closed (s.teardownIfOpen_free p)) (.of_eq rfl rfl rfl rfl rfl))

/-- A lapse (R176). -/
theorem State.lapse_happenings (s : State) (p : Port) : s.Happenings (s.lapse p) :=
  (Happening.endSession p true .lapsed (fun _ => by simp)).happenings

theorem State.purgeLane_session (s : State) (p : Port) : ((s.purgeLane p).port p).session = (s.port p).session := by
  have hlane : ∀ f, ((s.modPort p (PortState.modLane f)).port p).session = (s.port p).session := fun f => by
    rw [State.modPort_port_same]
    rfl
  unfold State.purgeLane
  cases (s.port p).lane.owner with
  | idle => exact hlane _
  | inbound d =>
    simp only [State.abandonTransfer, State.returnLane_spec]
    rw [State.modPort_port_same, (PortState.offer_onlyNotices _ _).session, PortState.idleLane_session,
      ((State.abandon_freed _ d).ports p).session, hlane]
  | outbound d =>
    simp only [State.endDelivery_eq, State.offer, State.endCopy]
    rw [State.modPort_port_same, (PortState.offer_onlyNotices _ _).session, (State.settleIfDone_port _ d p).session,
      State.settleCopy_port, State.modPort_port_same]
    exact hlane _

/-- The port reset (R179). -/
theorem State.resetPort_happenings (s : State) (p : Port) : s.Happenings (s.resetPort p) := by
  refine (((s.teardownIfOpen_happenings p).trans (State.change_happenings (.closed (s.teardownIfOpen_free p))
    (.of_eq rfl rfl rfl rfl rfl))).trans (State.purgeLane_happenings _ p)).trans
      (State.change_happenings (.clearWindow ?_) (.of_eq rfl rfl rfl rfl rfl))
  show PortState.isOpen (State.port _ p) = false
  rw [PortState.isOpen, State.purgeLane_session, State.modPort_port_same]
  rfl

/-! ### Requests -/

theorem PortState.isOpen_of_sessionRefusal {ps : PortState} (h : ps.sessionRefusal = none) : ps.isOpen = true := by
  simp [PortState.isOpen, sessionRefusal_eq_none.mp h]

theorem PortState.reserved_of_noSlot {ps : PortState} (h : ps.noSlot = false) : ps.queue.reserved < 24 := by
  simpa [PortState.noSlot] using h

theorem State.acceptOpen_happenings {limit : Half} (h : s.acceptOpen p limit = .ok t) : s.Happenings t := by
  unfold State.acceptOpen at h
  split at h
  · cases h
  · next hlegal =>
    cases h
    simp only [answerLimitLegal, Bool.not_eq_true', Bool.not_eq_false, Bool.or_eq_true, Bool.and_eq_true, beq_iff_eq,
      decide_eq_true_eq] at hlegal
    refine s.openSession_happenings p ?_ ?_ <;> unfold answerLimitOf <;> split <;> omega

theorem State.acceptClose_happenings (h : s.acceptClose p = .ok t) : s.Happenings t := by
  unfold State.acceptClose at h
  split at h <;> cases h
  exact s.closeSession_happenings p

theorem State.acceptSend_happenings {destination channel : Byte} {length hold label : Half} {options : Byte}
    (h : s.acceptSend p destination channel length hold label options = .ok t) : s.Happenings t := by
  unfold State.acceptSend at h
  split at h
  · cases h
  · split at h
    · cases h
    · split at h
      · cases h
      · next hsession =>
        simp only at h
        split at h
        · cases h
        · next d hcheck =>
          cases h
          exact (Happening.send p _ d (PortState.isOpen_of_sessionRefusal hsession) hold.isLt hcheck).happenings

theorem State.acceptTake_happenings {label : Half} {source value mask : Byte} {capacity timeout : Half}
    (h : s.acceptTake p label source value mask capacity timeout = .ok t) : s.Happenings t := by
  unfold State.acceptTake at h
  split at h
  · cases h
  · split at h
    · cases h
    · split at h
      · cases h
      · next hsession =>
        split_ifs at h with h16 hlabel hslot
        cases h
        exact (Happening.take p _ (PortState.isOpen_of_sessionRefusal hsession) (by omega) (by simpa using hlabel)
          (PortState.reserved_of_noSlot (by simpa using hslot))).happenings

/-- CANCEL: one POSTED take ends with its TAKE_ENDED (R33). -/
theorem State.acceptCancel_happenings {label : Half} (h : s.acceptCancel p label = .ok t) : s.Happenings t := by
  unfold State.acceptCancel at h
  split at h
  · cases h
  · split_ifs at h with hlive hmatched
    cases h
    have hposted : ∃ u ∈ (s.port p).takes.posted, (u.fields.label == label) = true := by
      simpa [TakeTable.hasLabel, hmatched] using hlive
    obtain ⟨u, hu, hlabel⟩ := hposted
    have hlen := List.length_eraseP_add_one (p := fun v : PostedTake => v.fields.label == label) hu hlabel
    rw [State.appendNotice, State.modPort_modPort]
    refine State.quiet_happenings (.endTakes s.tickCount _ [.takeEnded label .cancelled] (by simpa using hlen)) ?_
    refine PortState.SameTransfers.trans ?_ (PortState.append_sameTransfers _ (by simp [Notice.arrivalLabel]) _)
    exact ⟨⟨rfl, rfl, rfl, rfl, List.Sublist.map _ List.eraseP_sublist⟩, rfl⟩

theorem State.acceptJoin_happenings {group : Byte} (h : s.acceptJoin p group = .ok t) : s.Happenings t := by
  unfold State.acceptJoin at h
  split at h
  · cases h
  · split at h
    · cases h
    · next hsession =>
      split at h <;> cases h
      exact (Happening.membership p _ true (PortState.isOpen_of_sessionRefusal hsession)).happenings

theorem State.acceptLeave_happenings {group : Byte} (h : s.acceptLeave p group = .ok t) : s.Happenings t := by
  unfold State.acceptLeave at h
  split at h
  · cases h
  · split at h
    · cases h
    · next hsession =>
      split at h <;> cases h
      exact (Happening.membership p _ false (PortState.isOpen_of_sessionRefusal hsession)).happenings

theorem State.acceptQuery_happenings (h : s.acceptQuery p = .ok t) : s.Happenings t := by
  unfold State.acceptQuery at h
  split at h
  · cases h
  · next hsession =>
    split at h
    · cases h
    · next hslot =>
      cases h
      rw [State.appendNotice, State.modPort_modPort]
      refine State.quiet_happenings (.report s.tickCount _ (PortState.isOpen_of_sessionRefusal hsession)
        (PortState.reserved_of_noSlot (by simpa using hslot))) ?_
      refine PortState.SameTransfers.trans ?_ (PortState.append_sameTransfers _ (by simp [Notice.arrivalLabel]) _)
      exact .of_eq rfl rfl rfl rfl rfl

theorem State.acceptConfigure_happenings {reserve ceiling : PerPort Byte} {stallLimit : Half}
    (h : s.acceptConfigure p reserve ceiling stallLimit = .ok t) : s.Happenings t := by
  unfold State.acceptConfigure at h
  split at h
  · cases h
  · split_ifs at h with hsetup hlegal
    cases h
    exact (Happening.configure _ _ _ (by simpa using hlegal)).happenings

theorem State.acceptRequest_happenings {r : Request} (h : s.acceptRequest p r = .ok t) : s.Happenings t := by
  cases r with
  | openPort limit => exact State.acceptOpen_happenings h
  | closePort => exact State.acceptClose_happenings h
  | send => exact State.acceptSend_happenings h
  | take => exact State.acceptTake_happenings h
  | cancel => exact State.acceptCancel_happenings h
  | join => exact State.acceptJoin_happenings h
  | leave => exact State.acceptLeave_happenings h
  | query => exact State.acceptQuery_happenings h
  | configure => exact State.acceptConfigure_happenings h

/-- The decoder's verdict is posted (R142). -/
theorem State.answerRequest_happenings {verdict : Except Reason State} (h : ∀ t, verdict = .ok t → s.Happenings t) :
    s.Happenings (s.answerRequest p verdict) := by
  cases verdict with
  | ok t => exact (h t rfl).trans (t.post_happenings p none)
  | error r => exact s.post_happenings p (some r)

theorem State.request_happenings (r : Request) : s.Happenings (s.answerRequest p (s.acceptRequest p r)) :=
  State.answerRequest_happenings fun _ => State.acceptRequest_happenings

/-! ### The framing unit -/

theorem State.closeBlock_happenings (s : State) (p : Port) (b : Byte) : s.Happenings (s.closeBlock p b) := by
  have hbegin := State.modInbound_happenings (s := s) (p := p) InboundSide.beginClosing_sound
  have hstray := fun n => hbegin.trans (State.modInbound_happenings (p := p) (InboundSide.setStray_sound n))
  unfold State.closeBlock
  simp only
  split
  · exact (hstray _).trans (State.post_happenings _ p _)
  · refine (hstray _).trans (State.answerRequest_happenings fun t ht => ?_)
    unfold State.decodeBlock at ht
    split at ht
    · cases ht
    · exact State.acceptRequest_happenings ht

theorem State.writeCommandByte_happenings (s : State) (p : Port) (data : Half) : s.Happenings (s.writeCommandByte p data) := by
  unfold State.writeCommandByte
  split
  · exact s.closeBlock_happenings p _
  · exact State.modInbound_happenings (InboundSide.gather_sound _)

theorem State.readCommandByte_happenings (s : State) (p : Port) : s.Happenings (s.readCommandByte p) := by
  have h := (State.quiet_happenings (s := s) (p := p) (f := fun ps => { ps with outbound := (ps.readByte s.tickCount).1 })
    (.readByte s.tickCount) (.of_eq rfl rfl rfl rfl rfl)).trans
      (State.setReadData_happenings _ p ((s.port p).readByte s.tickCount).2)
  rw [State.modPort_modPort] at h
  exact h

theorem State.testByteDeadline_happenings (s : State) (p : Port) : s.Happenings (s.testByteDeadline p) := by
  unfold State.testByteDeadline
  split
  · exact s.lapse_happenings p
  · exact .refl

theorem State.testAnswerDeadline_happenings (s : State) (p : Port) : s.Happenings (s.testAnswerDeadline p) := by
  unfold State.testAnswerDeadline
  split
  · exact s.lapse_happenings p
  · exact .refl

/-! ### Stalls, takes and grants -/

theorem State.stallInbound_happenings (s : State) (p : Port) : s.Happenings (s.stallInbound p) := by
  cases howner : (s.port p).lane.owner with
  | idle | outbound d => simpa only [State.stallInbound, howner] using .refl
  | inbound d =>
    simp only [State.stallInbound, howner]
    split
    · exact State.abandonTransfer_happenings howner
    · exact .refl

theorem State.stallOutbound_happenings (s : State) (p : Port) : s.Happenings (s.stallOutbound p) := by
  cases howner : (s.port p).lane.owner with
  | idle | inbound d => simpa only [State.stallOutbound, howner] using .refl
  | outbound d =>
    simp only [State.stallOutbound, howner]
    split
    · exact (State.endDelivery_happenings howner .stopped).trans (State.lapse_happenings _ p)
    · exact .refl

/-- The POSTED takes whose deadline is reached end (R34). -/
theorem State.expireTakes_happenings (s : State) (p : Port) : s.Happenings (s.expireTakes p) := by
  unfold State.expireTakes
  simp only
  split
  · exact .refl
  · refine State.quiet_happenings (.endTakes s.tickCount _ _ ?_) ?_
    · rw [List.length_map, Nat.add_comm, ← List.length_eq_length_filter_add]
    · refine PortState.SameTransfers.trans ?_ (PortState.append_sameTransfers _ ?_ _)
      · exact ⟨⟨rfl, rfl, rfl, rfl, List.Sublist.map _ List.filter_sublist⟩, rfl⟩
      · simp [Notice.arrivalLabel]

theorem State.moverTurn_happenings (s : State) : s.Happenings s.moverTurn := by
  unfold State.moverTurn
  split
  · exact .refl
  · exact (Happening.grant _).happenings

/-! ### The tick -/

theorem State.takeDue_happenings (s : State) (h : DueHappening) : s.Happenings (s.takeDue h) := by
  unfold State.takeDue
  split
  · cases h with
    | takes p => exact s.expireTakes_happenings p
    | list p => exact (Happening.expireHolds p).happenings.trans (Happening.markHolds p).happenings
    | framing p => exact (s.testByteDeadline_happenings p).trans (State.testAnswerDeadline_happenings _ p)
    | lane p => exact (s.stallInbound_happenings p).trans (State.stallOutbound_happenings _ p)
    | grant => exact s.moverTurn_happenings
  · exact .refl

theorem State.catchUp_happenings (s : State) : s.Happenings s.catchUp := by
  have hall : ∀ (hs : List DueHappening) (u : State), u.Happenings (u.takeAllDue hs) :=
    State.foldl_happenings State.takeDue_happenings
  unfold State.catchUp
  split
  · exact .refl
  · exact hall _ s
  · exact (Happening.idle (s := s) { s with draws := s.draws + 1 } rfl rfl rfl rfl).happenings.trans (hall _ _)

/-! ### Every command -/

/-- Every command but the hard reset is a run of happenings. -/
theorem State.exec_happenings {c : Instr} (h : exec c s = .next t) : s.Happenings t ∨ ∃ straps, c = .hardReset straps := by
  cases c with
  | hardReset straps => exact .inr ⟨straps, rfl⟩
  | undecodedWrite p address data =>
    refine .inl ?_
    simp only [exec, execUndecodedWrite] at h
    split at h <;> cases h
    exact .refl
  | gatheringWrite p data | closingWrite p data =>
    cases h
    exact .inl (State.unlessInReset_happenings (s.writeCommandByte_happenings p data))
  | openPort p limit =>
    cases h
    exact .inl (State.unlessInReset_happenings (State.request_happenings (.openPort limit)))
  | closePort p =>
    cases h
    exact .inl (State.unlessInReset_happenings (State.request_happenings .closePort))
  | send p destination channel length hold label options =>
    cases h
    exact .inl (State.unlessInReset_happenings (State.request_happenings (.send destination channel length hold label options)))
  | take p label source value mask capacity timeout =>
    cases h
    exact .inl (State.unlessInReset_happenings (State.request_happenings (.take label source value mask capacity timeout)))
  | cancel p label =>
    cases h
    exact .inl (State.unlessInReset_happenings (State.request_happenings (.cancel label)))
  | join p group =>
    cases h
    exact .inl (State.unlessInReset_happenings (State.request_happenings (.join group)))
  | leave p group =>
    cases h
    exact .inl (State.unlessInReset_happenings (State.request_happenings (.leave group)))
  | query p =>
    cases h
    exact .inl (State.unlessInReset_happenings (State.request_happenings .query))
  | configure p reserve ceiling stallLimit =>
    cases h
    exact .inl (State.unlessInReset_happenings (State.request_happenings (.configure reserve ceiling stallLimit)))
  | setClosingMark p =>
    cases h
    exact .inl (State.unlessInReset_happenings (State.modInbound_happenings fun h => h))
  | accept p =>
    cases h
    exact .inl (State.unlessInReset_happenings (Happening.answer p true).happenings)
  | refuse p =>
    cases h
    exact .inl (State.unlessInReset_happenings (Happening.answer p false).happenings)
  | outboundByteRead p =>
    cases h
    exact .inl (State.readUnlessInReset_happenings (s.readCommandByte_happenings p))
  | laneWrite p data =>
    cases h
    exact .inl (State.unlessInReset_happenings (s.writeLane_happenings p data))
  | laneRead p =>
    cases h
    exact .inl (State.readUnlessInReset_happenings (s.readLane_happenings p))
  | writeEnables p enables =>
    cases h
    exact .inl (State.unlessInReset_happenings (s.setEnables_happenings p enables))
  | doneClear p | clearLaneFlags p =>
    cases h
    exact .inl (State.unlessInReset_happenings (State.modLane_happenings rfl rfl fun h => h))
  | purge p =>
    cases h
    exact .inl (State.unlessInReset_happenings (s.purgeLane_happenings p))
  | portReset p =>
    cases h
    exact .inl (State.unlessInReset_happenings (s.resetPort_happenings p))
  | tick =>
    cases h
    exact .inl (State.unlessInReset_happenings (s.catchUp_happenings.trans Happening.advance.happenings))
  | takeDeadline p =>
    cases h
    exact .inl (State.unlessInReset_happenings (s.expireTakes_happenings p))
  | holdExpiry p =>
    cases h
    exact .inl (State.unlessInReset_happenings (Happening.expireHolds p).happenings)
  | holdDeadlineMark p =>
    cases h
    exact .inl (State.unlessInReset_happenings (Happening.markHolds p).happenings)
  | byteDeadline p =>
    cases h
    exact .inl (State.unlessInReset_happenings (s.testByteDeadline_happenings p))
  | answerDeadline p =>
    cases h
    exact .inl (State.unlessInReset_happenings (s.testAnswerDeadline_happenings p))
  | inboundStall p =>
    cases h
    exact .inl (State.unlessInReset_happenings (s.stallInbound_happenings p))
  | outboundStall p =>
    cases h
    exact .inl (State.unlessInReset_happenings (s.stallOutbound_happenings p))
  | grant =>
    cases h
    exact .inl (State.unlessInReset_happenings s.moverTurn_happenings)

/-- Every step is a run of happenings, or the hard reset of the command at the front. -/
theorem State.step_happenings (h : step s = .next t) :
    s.Happenings t ∨ ∃ straps rest, execHardReset straps { s with pending := rest } = .next t := by
  unfold step at h
  split at h
  · cases h
    exact .inl .refl
  · next c rest hpending =>
    have hidle : s.Happenings { s with pending := rest } := (Happening.idle (s := s) { s with pending := rest } rfl rfl rfl rfl).happenings
    obtain hrun | ⟨straps, rfl⟩ := State.exec_happenings h
    · exact .inl (hidle.trans hrun)
    · exact .inr ⟨straps, rest, h⟩

end Commands

end Sys2Proof.Machine
end

