-- ==== Sys2Proof/Proofs/HappeningChanges.lean ====
section
/-! PROOFS. What each happening does to the port columns, as changes of one port after another. -/

namespace Sys2Proof.Machine

section

variable {s t : State} {p q : Port} {d : DescNo}

/-! ### RECEIPTs -/

theorem PortState.receive_moves (now : Tick) (rs : List Receipt) {ps : PortState} (h : rs = [] ∨ ps.isOpen = true) :
    Relation.ReflTransGen PortState.Move ps (ps.receive now rs) := by
  induction rs generalizing ps with
  | nil => exact .refl
  | cons r rs ih =>
    have hopen := h.resolve_left (by simp)
    have hopen' : (ps.appendReceipt now r).isOpen = true := by
      rw [PortState.isOpen, (PortState.appendReceipt_onlyNotices now r ps).session]
      exact hopen
    exact .head (.receipt now r hopen) (ih (.inr hopen'))

theorem State.ChangesAt.of_moves (h : Relation.ReflTransGen PortState.Move (s.port q) (t.port q)) (hg : t.groups = s.groups) :
    s.ChangesAt q t := by
  have hlift : Relation.ReflTransGen Column.Change (s.column q) { s.column q with port := t.port q } :=
    Relation.ReflTransGen.lift (fun ps => ({ s.column q with port := ps } : Column))
      (fun _ _ hm => Column.Change.move (c := { s.column q with port := _ }) _ hm) _ _ h
  have hcol : t.column q = { s.column q with port := t.port q } := by simp only [State.column, State.members, hg]
  rwa [State.ChangesAt, hcol]

theorem State.isOpen_of_receiptCheck (hs : (s.desc d).sender = q) (h : s.receiptCheck d = true) : (s.port q).isOpen = true := by
  obtain ⟨-, hopen, -⟩ := (s.receiptCheck_iff d).mp h
  simpa [PortState.isOpen, hs] using hopen

/-- A RECEIPT comes to an OPEN port alone (R10). -/
theorem State.closingReceipt_nil_or_open (s : State) (q : Port) (d : DescNo) :
    (s.closingReceipt q d).toList = [] ∨ (s.port q).isOpen = true := by
  unfold State.closingReceipt
  split
  · next h => exact .inr (State.isOpen_of_receiptCheck h.1 h.2)
  · exact .inl rfl

theorem State.dueReceipt_nil_or_open (s : State) (q : Port) (d : DescNo) :
    (s.dueReceipt q d).toList = [] ∨ (s.port q).isOpen = true := by
  unfold State.dueReceipt
  split
  · exact s.closingReceipt_nil_or_open q d
  · exact .inl rfl

theorem State.settleDescriptor_changes (s : State) (d : DescNo) : s.Changes (s.settleDescriptor d) := fun q => by
  refine .of_moves ?_ (s.settleDescriptor_freed d).floor.groups
  rw [State.settleDescriptor_port_eq]
  exact PortState.receive_moves _ _ (s.closingReceipt_nil_or_open q d)

theorem State.settleIfDone_changes (s : State) (d : DescNo) : s.Changes (s.settleIfDone d) := fun q => by
  refine .of_moves ?_ (s.settleIfDone_sameFloor d).groups
  rw [State.settleIfDone_port_eq]
  exact PortState.receive_moves _ _ (s.dueReceipt_nil_or_open q d)

/-- The RECEIPTs of an abandonment (R13). -/
def State.abandonReceipts (s : State) (q : Port) (d : DescNo) : List Receipt :=
  if (s.desc d).sender = q ∧ s.receiptCheck d = true then [(s.desc d).abandonReceipt] else []

theorem State.abandon_port (s : State) (d : DescNo) (q : Port) :
    (s.abandon d).port q = (s.port q).receive s.tickCount (s.abandonReceipts q d) := s.abandon_port_eq d q

theorem State.abandonReceipts_nil_or_open (s : State) (q : Port) (d : DescNo) :
    s.abandonReceipts q d = [] ∨ (s.port q).isOpen = true := by
  unfold State.abandonReceipts
  split
  · next h => exact .inr (State.isOpen_of_receiptCheck h.1 h.2)
  · exact .inl rfl

theorem State.abandon_changes (s : State) (d : DescNo) : s.Changes (s.abandon d) := fun q => by
  refine .of_moves ?_ (s.abandon_freed d).floor.groups
  rw [State.abandon_port]
  exact PortState.receive_moves _ _ (s.abandonReceipts_nil_or_open q d)

theorem State.settleCopy_changes (s : State) (d : DescNo) (p : Port) (o : CopyOutcome) : s.Changes (s.settleCopy d p o) :=
  .of_eq (fun _ => rfl) rfl

/-! ### Completion -/

theorem State.matchCopy_changes (s : State) (d : DescNo) (q : Port) : s.Changes (s.matchCopy d q) := by
  have hnew : s.Changes (s.newCopy d q) := .of_eq (fun _ => rfl) rfl
  refine hnew.trans ?_
  obtain ⟨-, h⟩ | ⟨hopen, ⟨ahead, t, behind, hposted, -, -, h⟩ | ⟨-, ⟨hroom, h⟩ | ⟨-, h⟩⟩⟩ := s.matchCopy_cases d q <;> rw [h]
  · exact State.settleCopy_changes _ d q _
  · intro p
    by_cases hp : p = q
    · subst hp
      refine .of_move ?_ rfl
      rw [State.bindCopy_port_same, State.modPort_port_same]
      exact .bindPosted _ (ahead ++ behind) _ _ (by simp [State.newCopy, hposted]; omega)
    · exact .of_eq (by rw [State.bindCopy_port_other _ _ _ hp, State.modPort_port_other _ _ hp]) rfl
  · have hjoin : (s.newCopy d q).Changes ((s.newCopy d q).modPort q (fun x => { x with unclaimed := x.unclaimed ++ [d] })) :=
      State.modPort_changes (.joinList d hopen hroom)
    exact hjoin.trans (.of_eq (fun _ => rfl) rfl)
  · exact State.settleCopy_changes _ d q _

/-- A completion (R4). -/
theorem State.complete_changes (s : State) (d : DescNo) : s.Changes (s.complete d) := by
  have hstamped : s.Changes (s.stamped d) := .of_eq (fun _ => rfl) rfl
  have hmatched : s.Changes (s.matched d) :=
    hstamped.trans (State.foldl_changes (fun t q => t.matchCopy_changes d q) _ _)
  rw [State.complete_eq]
  split
  · exact hmatched.trans (.of_eq (fun _ => rfl) rfl)
  · exact hmatched.trans (State.settleDescriptor_changes _ d)

theorem Lane.ended_idle (l : Lane) : l.ended.Idle := ⟨rfl, rfl, rfl, rfl, rfl, rfl⟩

theorem State.returnLane_changes (s : State) (p : Port) : s.Changes (s.returnLane p) := by
  rw [State.returnLane_spec]
  exact State.modPort_changes (.returnLane _ _ (s.port p).lane.ended_idle)

/-! ### Transfers that end -/

theorem PortState.receive_withLane (now : Tick) (rs : List Receipt) (ps : PortState) {l : Lane} (h : l.owner = ps.lane.owner) :
    PortState.receive now rs { ps with lane := l } = { ps.receive now rs with lane := l } := by
  induction rs generalizing ps with
  | nil => rfl
  | cons r rs ih =>
    rw [PortState.receive_cons, PortState.receive_cons, PortState.appendReceipt_withLane now r ps h, ih]
    rw [(PortState.appendReceipt_onlyNotices now r ps).lane]
    exact h

/-- An INBOUND transfer ends (R12, R127). -/
theorem State.abandonTransfer_changes {f : Lane → Lane} (hf : (f (s.port p).lane).owner = (s.port p).lane.owner) :
    s.Changes ((s.modPort p (PortState.modLane f)).abandonTransfer p d) := by
  let u := s.modPort p (PortState.modLane f)
  have hu : u.port p = { s.port p with lane := f (s.port p).lane } := State.modPort_port_same s p _
  intro q
  by_cases hq : q = p
  · subst hq
    refine .of_moves ?_ (State.abandonTransfer_spec u q d).1.groups
    have hopen : u.abandonReceipts q d = [] ∨ (s.port q).isOpen = true := by
      have h := u.abandonReceipts_nil_or_open q d
      rwa [hu] at h
    have hport : (u.abandonTransfer q d).port q = PortState.offer (u.abandon d).tickCount
        { (s.port q).receive s.tickCount (u.abandonReceipts q d) with lane := (f (s.port q).lane).ended } := by
      rw [State.abandonTransfer, State.returnLane_spec, State.modPort_port_same, State.abandon_port, hu,
        PortState.receive_withLane _ _ _ hf]
      rfl
    show Relation.ReflTransGen PortState.Move (s.port q) ((u.abandonTransfer q d).port q)
    rw [hport]
    exact (PortState.receive_moves _ _ hopen).tail (.returnLane _ _ (Lane.ended_idle _))
  · refine State.ChangesAt.trans (t := u) (.of_eq (State.modPort_port_other s _ hq) rfl) ?_
    exact (u.abandon_changes d q).trans (State.returnLane_changes _ p q)

/-- A delivery ends (R32, R127). -/
theorem State.endDelivery_changes {f : Lane → Lane} (o : CopyOutcome) :
    s.Changes ((s.modPort p (PortState.modLane f)).endDelivery p d o) := by
  let u := (s.modPort p (PortState.modLane f)).modPort p (PortState.endTransfer d)
  let w := u.settleCopy d p o
  have hu : w.port p = { s.port p with
      takes := { (s.port p).takes with matched := (s.port p).takes.matched.filter (fun t => t.bound != d) },
      lane := (f (s.port p).lane).ended } := by
    show u.port p = _
    simp only [u, State.modPort_port_same]
    rfl
  have hend : (s.modPort p (PortState.modLane f)).endDelivery p d o = (w.settleIfDone d).offer p := State.endDelivery_eq _ p d o
  have hgroups : ((w.settleIfDone d).offer p).groups = s.groups := (w.settleIfDone_sameFloor d).groups
  rw [hend]
  intro q
  by_cases hq : q = p
  · subst hq
    have htick : (w.settleIfDone d).tickCount = w.tickCount := (w.settleIfDone_sameFloor d).tickCount
    refine .of_move ?_ hgroups
    have hopen : (w.dueReceipt q d).toList = [] ∨ (s.port q).isOpen = true := by
      have h := w.dueReceipt_nil_or_open q d
      rwa [hu] at h
    rw [State.offer, State.modPort_port_same, State.settleIfDone_port_eq, hu, htick]
    exact .endTransfer _ _ _ _ List.filter_sublist (Lane.ended_idle _) hopen
  · have hw : s.ChangesAt q w := .of_eq (by
      show u.port q = _
      simp only [u, State.modPort_port_other _ _ hq]) rfl
    refine hw.trans ((w.settleIfDone_changes d q).trans ?_)
    exact .of_eq (State.modPort_port_other _ _ hq) rfl

/-! ### Requests -/

/-- A lane claimed while IDLE is sound (R155). -/
theorem Lane.sound.claimed {l : Lane} (h : l.sound) (hidle : l.owner = .idle) {owner : LaneOwner} (howner : owner ≠ .idle) (n : Nat)
    (t : Tick) : Lane.sound { l with owner := owner, hostCount := n, poolCount := n, done := false, stall := some t } := by
  simp only [Lane.sound, hidle] at h
  obtain ⟨-, hdue, hfifo, -⟩ := h
  have hdue' : l.grantDue ≠ true := fun hd => by
    have := hdue hd
    simp [Lane.eligible, hidle] at this
  cases owner with
  | idle => exact absurd rfl howner
  | inbound d | outbound d => simp [Lane.sound, hfifo, hdue']

theorem State.checkSend_lane {f : SendFields} (h : s.checkSend p f = .ok d) :
    (s.port p).lane.owner = .idle ∧ (s.port p).headIsArrival = false ∧
      (f.receiptWanted = true → (s.port p).queue.reserved < 24) := by
  unfold State.checkSend at h
  split at h
  · cases h
  · next hbusy =>
    split at h
    · cases h
    · split at h
      · cases h
      · next hslot =>
        simp only [PortState.laneBusy, PortState.laneIdle, Bool.or_eq_true, Bool.not_eq_true', beq_eq_false_iff_ne, not_or, ne_eq,
          not_not, Bool.not_eq_true] at hbusy
        refine ⟨hbusy.1, hbusy.2, fun hwanted => PortState.reserved_of_noSlot ?_⟩
        simpa [hwanted] using hslot

/-- An accepted SEND (R105). -/
theorem State.doSend_changes {f : SendFields} (hopen : (s.port p).isOpen = true) (hcheck : s.checkSend p f = .ok d) :
    s.Changes (s.doSend p f d) := by
  obtain ⟨hidle, hhead, hslot⟩ := State.checkSend_lane hcheck
  have hallot : s.Changes (s.allotted p f d) := by
    have hpool : ∀ n g, s.Changes ((s.modDesc d g).modPool (Pool.reserveSegments p n)) := fun n g => .of_eq (fun _ => rfl) rfl
    unfold State.allotted
    split
    · next hwanted => exact (hpool _ _).trans (State.modPort_changes (.bookReceipt hopen (hslot hwanted)))
    · exact hpool _ _
  have hport : (s.allotted p f d).port p = (s.port p).bookIf f.receiptWanted := by
    rw [State.allotted_eq, State.modPort_port_same]
    rfl
  rw [State.doSend_eq]
  split
  · refine hallot.trans (State.modPort_changes ?_)
    refine .claim _ ?_ ?_ (by simp) (fun h => h.claimed ?_ (by simp) _ _) <;> rw [hport]
    · exact hopen
    · exact hhead
    · exact hidle
  · exact hallot.trans (State.complete_changes _ d)

/-- An accepted TAKE (R25). -/
theorem State.doTake_changes {f : TakeFields} (hopen : (s.port p).isOpen = true) (h16 : (s.port p).takes.liveCount < 16)
    (h24 : (s.port p).queue.reserved < 24) : s.Changes (s.doTake p f) := by
  unfold State.doTake
  simp only
  split
  · next e _ =>
    intro q
    by_cases hq : q = p
    · subst hq
      refine .of_move ?_ rfl
      rw [State.bindCopy_port_same, State.modPort_port_same, State.modPort_port_same]
      exact .bindListed _ _ _ _ hopen h24 h16 List.length_erase_le
    · refine .of_eq ?_ rfl
      rw [State.bindCopy_port_other _ _ _ hq, State.modPort_port_other _ _ hq, State.modPort_port_other _ _ hq]
  · rw [State.modPort_modPort]
    exact State.modPort_changes (.postTake _ hopen h24 h16)

/-! ### Answers -/

/-- The answer to the head, once its owner has acted on the columns: RECEIPTs may follow, then the next head is offered. -/
theorem State.answer_changes {u w : State} {tick : Tick} {m : List MatchedTake} {l : List DescNo} {lane : Lane}
    (hw : w = u ∨ ∃ d, w = u.settleIfDone d)
    (htx : (s.port p).outbound.tx = .answer tick) (hqueue : (s.port p).queue.notices ≠ [])
    (hu : u.port p = { (s.port p).removeHead with
      takes := { (s.port p).takes with matched := m }, unclaimed := l, lane := lane })
    (hother : ∀ q, q ≠ p → u.port q = s.port q) (hgroups : u.groups = s.groups)
    (hm : m.Sublist (s.port p).takes.matched) (hl : l.length ≤ (s.port p).unclaimed.length ∨ l.length ≤ 32)
    (hlane : lane = (s.port p).lane ∨ ((s.port p).headIsArrival = true ∧
      ((s.port p).laneIdle = true → (s.port p).lane.sound → lane.sound))) :
    s.Changes (w.offer p) := by
  have hreceipts : ∃ rs, w.port p = (u.port p).receive u.tickCount rs ∧ w.tickCount = u.tickCount ∧ w.groups = s.groups ∧
      u.Changes w := by
    obtain rfl | ⟨d, rfl⟩ := hw
    · exact ⟨[], rfl, rfl, hgroups, .refl _⟩
    · exact ⟨_, State.settleIfDone_port_eq u d p, (u.settleIfDone_sameFloor d).tickCount,
        (u.settleIfDone_sameFloor d).groups.trans hgroups, u.settleIfDone_changes d⟩
  obtain ⟨rs, hport, htick, hg, hchanges⟩ := hreceipts
  intro q
  by_cases hq : q = p
  · subst hq
    refine .of_move ?_ hg
    rw [State.offer, State.modPort_port_same, hport, hu, htick]
    exact .answer _ tick m l lane rs htx hqueue hm hl hlane
  · exact (State.ChangesAt.of_eq (hother q hq) hgroups).trans
      ((hchanges q).trans (.of_eq (State.modPort_port_other _ _ hq) rfl))

theorem State.answerNotice_changes (s : State) (p : Port) (accepted : Bool) : s.Changes (s.answerNotice p accepted) := by
  unfold State.answerNotice
  split
  · next tick n rest htx hq =>
    have hne : (s.port p).queue.notices ≠ [] := by simp [hq]
    have hpop : (s.modPort p PortState.removeHead).port p = (s.port p).removeHead := State.modPort_port_same s p _
    have hother : ∀ q, q ≠ p → (s.modPort p PortState.removeHead).port q = s.port q := fun q hq => State.modPort_port_other s _ hq
    have hplain : ∀ w, (w = s.modPort p PortState.removeHead ∨ ∃ d, w = (s.modPort p PortState.removeHead).settleIfDone d) →
        s.Changes (w.offer p) := fun w hw =>
      State.answer_changes hw htx hne (by rw [hpop]; rfl) hother rfl (List.Sublist.refl _) (.inl le_rfl) (.inl rfl)
    cases n with
    | takeEnded | receipt | report => exact hplain _ (.inl rfl)
    | arrival a =>
      have hhead : (s.port p).headIsArrival = true := by simp [PortState.headIsArrival, hq, Notice.isArrival]
      have hended : ∀ (e : DescNo) (u : State), u.port p = (s.port p).removeHead.endTake e →
          (∀ q, q ≠ p → u.port q = s.port q) → u.groups = s.groups → s.Changes ((u.settleIfDone e).offer p) := fun e u hu ho hg =>
        State.answer_changes (.inr ⟨e, rfl⟩) htx hne (by rw [hu]; rfl) ho hg List.filter_sublist (.inl le_rfl) (.inl rfl)
      cases accepted with
      | true =>
        simp only [State.answerOwner, if_true, State.acceptArrival]
        split
        · exact hplain _ (.inl rfl)
        · next m _ =>
          split
          · refine State.answer_changes (m := (s.port p).takes.matched) (l := (s.port p).unclaimed)
              (lane := { (s.port p).lane with
                owner := .outbound m.bound, hostCount := m.delivered, poolCount := m.delivered, done := false,
                stall := some (deadlineAfter s.tickCount s.pool.stallLimit) })
              (.inl rfl) htx hne ?_ (fun q hq => ?_) rfl (List.Sublist.refl _) (.inl le_rfl) ?_
            · rw [State.claimLane, State.modPort_port_same, State.modSlot_port, hpop]
              rfl
            · exact (State.modPort_port_other _ _ hq).trans (hother q hq)
            · refine .inr ⟨hhead, fun hidle h => ?_⟩
              exact h.claimed (by simpa [PortState.laneIdle] using hidle) (by simp) _ _
          · refine hended m.bound _ ?_ (fun q hq => ?_) rfl
            · rw [State.modPort_port_same, State.settleCopy_port, hpop]
            · rw [State.modPort_port_other _ _ hq, State.settleCopy_port, hother q hq]
      | false =>
        simp only [State.answerOwner, Bool.false_eq_true, if_false, State.refuseArrival]
        split
        · exact hplain _ (.inl rfl)
        · next m _ =>
          let u := (s.modPort p PortState.removeHead).modPort p (PortState.endTake m.bound)
          have hport : u.port p = (s.port p).removeHead.endTake m.bound := by
            simp only [u, State.modPort_port_same]
          have hport' : ∀ q, q ≠ p → u.port q = s.port q := fun q hq => by
            simp only [u, State.modPort_port_other _ _ hq]
          obtain ⟨-, h⟩ | ⟨-, -, h⟩ | ⟨-, hroom, h⟩ := u.returnCopy_cases p m.bound
          · rw [h]
            exact hended m.bound (u.settleCopy m.bound p .expired) hport hport' rfl
          · rw [h]
            exact hended m.bound (u.settleCopy m.bound p .dropped) hport hport' rfl
          · rw [h]
            refine State.answer_changes (m := (s.port p).takes.matched.filter (fun v => v.bound != m.bound))
              (l := m.bound :: (s.port p).unclaimed) (lane := (s.port p).lane) (.inl rfl) htx hne ?_ (fun q hq => ?_) rfl
              List.filter_sublist (.inr ?_) (.inl rfl)
            · rw [State.modSlot_port, State.modPort_port_same, hport]
              rfl
            · rw [State.modSlot_port, State.modPort_port_other _ _ hq, hport' q hq]
            · rw [hport] at hroom
              exact hroom
  · exact .refl s

/-! ### Holds, sessions and grants -/

theorem State.expireCopy_changes (s : State) (p : Port) (d : DescNo) : s.Changes (s.expireCopy p d) := by
  have hleave : s.Changes (s.modPort p (fun ps => { ps with unclaimed := ps.unclaimed.erase d })) :=
    State.modPort_changes (.leaveList _ List.erase_sublist)
  exact hleave.trans ((State.settleCopy_changes _ d p .expired).trans (State.settleIfDone_changes _ d))

theorem State.expireHolds_changes (s : State) (p : Port) : s.Changes (s.expireHolds p) := by
  unfold State.expireHolds
  split
  · exact State.foldl_changes (fun t d => t.expireCopy_changes p d) _ s
  · exact .refl s

/-- A teardown brings another port RECEIPTs alone (R178). -/
theorem State.teardown_changesAt_other (s : State) (hq : q ≠ p) : s.ChangesAt q (s.teardown p) := by
  have hstart : s.ChangesAt q (s.teardownStart p) := by
    have hcol : (s.teardownStart p).column q = s.column q := by
      simp only [State.column, State.teardownStart_port_other s hq, State.teardownStart_members, Column.mk.injEq, true_and]
      exact funext fun g => by simp [hq]
    rw [State.ChangesAt, hcol]
  have hin : (s.teardownStart p).ChangesAt q ((s.teardownStart p).endInbound p) := by
    obtain ⟨-, he⟩ | ⟨d, -, he⟩ := (s.teardownStart p).endInbound_cases p <;> rw [he]
    · exact .refl
    · exact (State.ChangesAt.of_eq (State.modPort_port_other _ _ hq) rfl).trans (State.abandon_changes _ d q)
  have hcopies : ((s.teardownStart p).endInbound p).ChangesAt q (s.teardownEmptied p) :=
    .of_eq (State.teardownCopies_port_other _ hq) (State.teardownCopies_sameFloor _ p).groups
  have hsettle := fun ds => State.foldl_changes State.settleIfDone_changes ds (s.teardownEmptied p) q
  rw [State.teardown_eq]
  exact ((hstart.trans hin).trans hcopies).trans ((hsettle _).trans (.of_eq (State.modPort_port_other _ _ hq) rfl))

theorem PortState.tornDown_ended (ps : PortState) {cause : Bool} {x : SessionState}
    (hcause : ps.session.causeSound → (cause = true ↔ x = .lapsed)) :
    ps.Ended ((ps.setLapsedCause cause).tornDown.setSession x) where
  takes := rfl
  unclaimed := rfl
  queue := rfl
  outbound := rfl
  inbound := rfl
  lane h := by
    show Lane.sound (if ps.lane.owner = .idle then ps.lane else ps.lane.ended)
    split
    · exact h
    · exact ps.lane.ended_idle.sound
  owner := by
    show (if ps.lane.owner = .idle then ps.lane else ps.lane.ended).owner = .idle
    split
    · assumption
    · rfl
  cause := hcause
  tearingDown := rfl
  answerLimit := rfl

/-- The end of a session (R177). -/
theorem State.endSession_changes {cause : Bool} {x : SessionState}
    (hcause : (s.port p).session.causeSound → (cause = true ↔ x = .lapsed)) :
    s.Changes (((s.modPort p (PortState.setLapsedCause cause)).teardown p).modPort p (PortState.setSession x)) := by
  have htorn := (s.modPort p (PortState.setLapsedCause cause)).teardown_tornDown p
  intro q
  by_cases hq : q = p
  · subst hq
    have hcol : (((s.modPort q (PortState.setLapsedCause cause)).teardown q).modPort q (PortState.setSession x)).column q =
        { port := ((s.port q).setLapsedCause cause).tornDown.setSession x, member := fun _ => false } := by
      simp only [State.column, State.modPort_port_same, htorn.own, State.modPort_members, htorn.members]
      simp
    refine .single ?_
    rw [hcol]
    exact .ended _ ((s.port q).tornDown_ended hcause)
  · exact ((State.ChangesAt.of_eq (State.modPort_port_other _ _ hq) rfl).trans (State.teardown_changesAt_other _ hq)).trans
      (.of_eq (State.modPort_port_other _ _ hq) rfl)

theorem chunkSize_le (poolCount position room : Nat) :
    chunkSize poolCount position room ≤ poolCount ∧ chunkSize poolCount position room ≤ room := by
  unfold chunkSize
  omega

/-- A chunk that goes from the FIFO to the pool leaves an INBOUND lane sound (R162). -/
theorem Lane.sound.drained {l : Lane} (h : l.sound) (howner : l.owner = .inbound d) {n : Nat} (hpool : n ≤ l.poolCount)
    (hfifo : n ≤ l.fifo.length) : (l.afterGrant (l.fifo.drop n) n).sound := by
  obtain ⟨hlen, -, hsum, hstall⟩ := (Lane.sound_of_inbound howner).mp h
  refine (Lane.sound_of_inbound (l := l.afterGrant (l.fifo.drop n) n) howner).mpr ⟨?_, by simp [Lane.afterGrant], ?_, hstall⟩ <;>
    simp only [Lane.afterGrant, List.length_drop] <;> omega

/-- A chunk that joins the FIFO leaves an OUTBOUND lane sound (R162). -/
theorem Lane.sound.filled {l : Lane} (h : l.sound) (howner : l.owner = .outbound d) {bytes : List Byte}
    (hpool : bytes.length ≤ l.poolCount) (hroom : bytes.length ≤ 32 - l.fifo.length) :
    (l.afterGrant (l.fifo ++ bytes) bytes.length).sound := by
  obtain ⟨hlen, -, hsum, hstall⟩ := (Lane.sound_of_outbound howner).mp h
  refine (Lane.sound_of_outbound (l := l.afterGrant (l.fifo ++ bytes) bytes.length) howner).mpr
    ⟨?_, by simp [Lane.afterGrant], ?_, hstall⟩ <;> simp only [Lane.afterGrant, List.length_append] <;> omega

theorem Memory.loadPayload_length (m : Memory) (chain : List Nat) (k n : Nat) : (m.loadPayload chain k n).length = n := by
  simp [Memory.loadPayload]

/-- A grant (R162, R163). -/
theorem State.grantTo_changes (s : State) (p : Port) : s.Changes (s.grantTo p) := by
  cases howner : (s.port p).lane.owner with
  | idle => simpa only [State.grantTo, howner] using .refl s
  | inbound d =>
    obtain ⟨hpool, hfifo⟩ := chunkSize_le (s.port p).lane.poolCount (s.desc d).bytesInPool (s.port p).lane.fifo.length
    have hstored : s.Changes (s.chunkStored p d (chunkSize (s.port p).lane.poolCount (s.desc d).bytesInPool
        (s.port p).lane.fifo.length)) := by
      intro q
      by_cases hq : q = p
      · subst hq
        refine .of_move ?_ rfl
        have hport := PerPort.get_set_same s.ports q
        rw [State.port, State.chunkStored]
        show PortState.Move _ ((s.ports.set q _).get q)
        rw [hport]
        exact .lane _ rfl (fun h => h.drained howner hpool hfifo)
      · exact .of_eq (PerPort.get_set_other _ _ hq) rfl
    rw [State.grantTo_inbound howner]
    split
    · exact (hstored.trans (State.complete_changes _ d)).trans (State.returnLane_changes _ p)
    · exact hstored
  | outbound d =>
    obtain ⟨hpool, hroom⟩ := chunkSize_le (s.port p).lane.poolCount ((s.port p).deliveredLength d - (s.port p).lane.poolCount)
      (32 - (s.port p).lane.fifo.length)
    simp only [State.grantTo, howner, State.grantOutbound]
    have hpointer : s.Changes { s with pointer := p } := .of_eq (fun _ => rfl) rfl
    refine hpointer.trans (State.modPort_changes (.lane _ rfl (fun h => ?_)))
    have hfilled := h.filled howner (bytes := Memory.loadPayload s.pool.mem (s.desc d).chain
      ((s.port p).deliveredLength d - (s.port p).lane.poolCount) (chunkSize (s.port p).lane.poolCount
        ((s.port p).deliveredLength d - (s.port p).lane.poolCount) (32 - (s.port p).lane.fifo.length)))
      (by rwa [Memory.loadPayload_length]) (by rwa [Memory.loadPayload_length])
    rwa [Memory.loadPayload_length] at hfilled

/-! ### Every happening -/

theorem State.advance_changes (s : State) : s.Changes s.advance := fun q => by
  refine .of_move ?_ rfl
  have hport : s.advance.port q = (s.port q).oweGrant := PerPort.get_map _ _ _
  rw [hport]
  exact .lane _ rfl (fun ⟨hlen, _, hcounts⟩ => ⟨hlen, id, hcounts⟩)

theorem State.modGroup_changes {g : GroupNo} {b : Bool} (hopen : (s.port p).isOpen = true) :
    s.Changes (s.modGroup g (fun m => m.set p b)) := fun q => by
  by_cases hq : q = p
  · subst hq
    refine .single ?_
    exact .member _ hopen
  · have hcol : (s.modGroup g (fun m => m.set p b)).column q = s.column q := by
      simp only [State.column, Column.mk.injEq]
      refine ⟨rfl, funext fun e => ?_⟩
      by_cases he : e = g
      · subst he
        rw [State.modGroup_members_same, PerPort.get_set_other _ _ hq]
      · rw [State.modGroup_members_other _ _ he]
    rw [State.ChangesAt, hcol]

/-- Every happening changes each port as the list of changes allows. -/
theorem State.Happening.changes (h : s.Happening t) : s.Changes t := by
  cases h with
  | idle t hports hdescs hgroups => exact .of_eq (fun q => congrArg (PerPort.get · q) hports) hgroups
  | advance => exact s.advance_changes
  | quiet p f hchange => exact .of_modPort hchange
  | membership p g b hopen => exact State.modGroup_changes hopen
  | configure => exact .of_eq (fun _ => rfl) rfl
  | send p f d hopen hhold hcheck => exact State.doSend_changes hopen hcheck
  | take p f hopen h16 hlabel h24 => exact State.doTake_changes hopen h16 h24
  | answer p accepted => exact s.answerNotice_changes p accepted
  | abandon p d f howner hsame => exact State.abandonTransfer_changes hsame.owner
  | endDelivery p d o f => exact State.endDelivery_changes o
  | expireHolds p => exact s.expireHolds_changes p
  | markHolds p =>
    unfold State.markHolds
    split
    · exact .of_eq (fun _ => rfl) rfl
    · exact .refl s
  | endSession p cause x hcause => exact State.endSession_changes hcause
  | grant p => exact s.grantTo_changes p

/-- What every happening keeps, a run of happenings keeps. -/
theorem State.Happenings.keeps {P : State → Prop} (hP : ∀ u w : State, u.Happening w → P u → P w) (h : s.Happenings t) (hs : P s) :
    P t := by
  induction h with
  | refl => exact hs
  | tail _ hstep ih => exact hP _ _ hstep ih

theorem State.Happenings.changes (h : s.Happenings t) : s.Changes t :=
  State.Happenings.keeps (P := s.Changes) (fun _ _ hstep hs => hs.trans hstep.changes) h (.refl s)

end

end Sys2Proof.Machine
end

