-- ==== Sys2Proof/Proofs/Ledger.lean ====
section
/-! PROOFS. The ledger of segments, descriptors and limits, and the three ways in which it changes: descriptors are freed,
a SEND takes one, a CONFIGURE sets the limits (R74, R76, R77, R79, R80, R83). -/

namespace Sys2Proof.Machine

/-! ### Segments -/

theorem insertSegment_perm (seg : Nat) (free : List Nat) : (insertSegment seg free).Perm (seg :: free) := by
  induction free with
  | nil => exact .refl _
  | cons x rest ih =>
    unfold insertSegment
    split
    · exact .refl _
    · exact (ih.cons x).trans (.swap seg x rest)

theorem releaseSegments_perm (chain free : List Nat) : (releaseSegments chain free).Perm (chain ++ free) := by
  induction chain with
  | nil => exact .refl _
  | cons x rest ih => exact (insertSegment_perm x _).trans (ih.cons x)

/-- The free list stays rising when segments that are not in it go back (R80). -/
theorem releaseSegments_pairwise {chain free : List Nat} (hfree : free.Pairwise (· < ·)) (hnd : (chain ++ free).Nodup) :
    (releaseSegments chain free).Pairwise (· < ·) := by
  induction chain with
  | nil => exact hfree
  | cons x rest ih =>
    obtain ⟨hx, hrest⟩ := List.nodup_cons.mp hnd
    refine insertSegment_pairwise x _ (ih hrest) fun hmem => hx ?_
    exact List.mem_append.mpr ((mem_releaseSegments rest free x).mp hmem)

/-- The segments in the chains of the descriptors other than `d`. -/
def State.chainedBut (s : State) (d : DescNo) : List Nat := ((List.finRange 64).erase d).flatMap (fun e => (s.desc e).chain)

theorem State.chained_perm (s : State) (d : DescNo) : s.chained.Perm ((s.desc d).chain ++ s.chainedBut d) :=
  (List.perm_cons_erase (List.mem_finRange d)).flatMap_right _

theorem State.chainedBut_congr {s t : State} {d : DescNo} (h : ∀ e, e ≠ d → (t.desc e).chain = (s.desc e).chain) :
    t.chainedBut d = s.chainedBut d := by
  have hcongr : ∀ e ∈ (List.finRange 64).erase d, (t.desc e).chain = (s.desc e).chain := fun e he =>
    h e ((List.nodup_finRange 64).mem_erase_iff.mp he).1
  unfold State.chainedBut
  rw [List.flatMap_def, List.flatMap_def, List.map_congr_left hcongr]

/-- What one descriptor adds to a port's charge (R76). -/
def Descriptor.charge (x : Descriptor) (p : Port) : Nat := if x.sender = p then x.chain.length else 0

theorem State.charged_eq (s : State) (p : Port) : s.charged p = ((List.finRange 64).map (fun d => (s.desc d).charge p)).sum := rfl

/-- The charges of two states that differ in one descriptor. -/
theorem State.charged_of_update {s t : State} {d : DescNo} {p : Port} {n : Nat} (h : ∀ e, e ≠ d → (t.desc e).charge p = (s.desc e).charge p)
    (hd : (s.desc d).charge p = (t.desc d).charge p + n) : s.charged p = t.charged p + n := by
  have hpoint : ∀ e, (s.desc e).charge p = (t.desc e).charge p + (if e = d then n else 0) := fun e => by
    by_cases he : e = d
    · subst he
      rw [hd, if_pos rfl]
    · rw [h e he, if_neg he, Nat.add_zero]
  rw [State.charged_eq, State.charged_eq, List.map_congr_left (fun e _ => hpoint e), List.sum_map_add, sum_single]

/-- The part of `State.segmentsSound` that concerns no lane (R74, R76). -/
structure State.Ledger (s : State) : Prop where
  perm : (s.pool.free ++ s.chained).Perm (List.range 96)
  rising : s.pool.free.Pairwise (· < ·)
  length : ∀ d, (s.desc d).chain.length = if (s.desc d).state = .free then 0 else segmentsNeeded (s.desc d).length
  held : ∀ p, s.pool.held.get p = s.charged p

/-- The ledger with the limits, the holds and the memory's form. -/
structure State.Books (s : State) : Prop where
  ledger : s.Ledger
  covered : s.pool.covered
  holds : ∀ d, (s.desc d).hold < 65536
  memory : s.pool.mem.wf = true

/-! ### What changes the ledger -/

/-- One change of the ledger. -/
inductive State.Allocates (s : State) : State → Prop
  | frees {t : State} (h : s.OnlyFrees (fun _ => True) t) : Allocates s t
  | allot (p : Port) (f : SendFields) (d : DescNo) (hhold : f.hold < 65536) (hcheck : s.checkSend p f = .ok d) :
      Allocates s (s.allotted p f d)
  | limits (reserve ceiling : PerPort Nat) (stallLimit : Nat) (h : s.pool.configLegal reserve ceiling stallLimit = true) :
      Allocates s (s.modPool (fun x => { x with reserve := reserve, ceiling := ceiling, stallLimit := stallLimit }))

section Kept

variable {s t u : State} {p : Port} {d : DescNo}

/-! ### Freeing -/

theorem State.SameAllocation.ledger (h : s.SameAllocation t) (hs : s.Ledger) : t.Ledger := by
  have hchained : t.chained = s.chained := by
    unfold State.chained
    rw [List.flatMap_def, List.flatMap_def, List.map_congr_left fun e _ => h.chain e]
  refine ⟨by rw [h.free, hchained]; exact hs.perm, h.free ▸ hs.rising, fun e => ?_, fun q => ?_⟩
  · rw [h.chain, hs.length, h.length]
    simp only [h.state]
  · have hcharge : ∀ e, (t.desc e).charge q = (s.desc e).charge q := fun e => by
      rw [Descriptor.charge, h.sender, h.chain, Descriptor.charge]
    rw [h.held, hs.held, State.charged_eq, State.charged_eq, List.map_congr_left fun e _ => hcharge e]

theorem State.Freed.ledger (h : s.Freed d t) (hs : s.Ledger) : t.Ledger := by
  have hnil : (t.desc d).chain = [] := by rw [h.freed]; rfl
  have hbut : t.chainedBut d = s.chainedBut d := State.chainedBut_congr fun e he => by rw [h.others e he]
  have hchained : t.chained.Perm (s.chainedBut d) := by
    have := t.chained_perm d
    rwa [hnil, List.nil_append, hbut] at this
  have hall : ((s.desc d).chain ++ s.pool.free ++ s.chainedBut d).Perm (List.range 96) := by
    refine List.Perm.trans ?_ hs.perm
    refine (List.perm_append_comm.append_right _).trans ?_
    rw [List.append_assoc]
    exact (s.chained_perm d).symm.append_left _
  have hnd : ((s.desc d).chain ++ s.pool.free).Nodup :=
    (List.nodup_append.mp (hall.nodup_iff.mpr List.nodup_range)).1
  refine ⟨?_, ?_, fun e => ?_, fun q => ?_⟩
  · rw [h.free]
    exact (((releaseSegments_perm _ _).append_right _).trans (hchained.append_left _)).trans hall
  · rw [h.free]
    exact releaseSegments_pairwise hs.rising hnd
  · by_cases he : e = d
    · subst he
      rw [hnil, h.freed]
      rfl
    · rw [h.others e he]
      exact hs.length e
  · have hcharge : s.charged q = t.charged q + (s.desc d).charge q :=
      State.charged_of_update (d := d) (fun e he => by rw [h.others e he]) (by simp [Descriptor.charge, hnil])
    rw [h.held]
    by_cases hq : q = (s.desc d).sender
    · subst hq
      rw [PerPort.get_modify_same, hs.held, hcharge, Descriptor.charge, if_pos rfl]
      omega
    · rw [PerPort.get_modify_other _ _ hq, hs.held, hcharge, Descriptor.charge, if_neg (Ne.symm hq), Nat.add_zero]

/-- Segments that go back to the free list make up for the reserve of their port that falls unmet (R80). -/
theorem State.Freed.covered (h : s.Freed d t) (hs : s.pool.covered) : t.pool.covered := by
  obtain ⟨hranges, hlow, hhigh, hsum⟩ := hs
  have hfloor := h.floor
  refine ⟨by rw [hfloor.reserve, hfloor.ceiling]; exact hranges, hfloor.stallLimit ▸ hlow, hfloor.stallLimit ▸ hhigh, ?_⟩
  have hlen : t.pool.free.length = (s.desc d).chain.length + s.pool.free.length := by rw [h.free, releaseSegments_length]
  have hunmet : ∀ q, t.pool.unmet q ≤ s.pool.unmet q + if (s.desc d).sender = q then (s.desc d).chain.length else 0 := fun q => by
    unfold Pool.unmet
    rw [hfloor.reserve, h.held]
    by_cases hq : q = (s.desc d).sender
    · subst hq
      rw [PerPort.get_modify_same, if_pos rfl]
      omega
    · rw [PerPort.get_modify_other _ _ hq, if_neg (Ne.symm hq)]
      omega
  calc (Port.all.map t.pool.unmet).sum
      ≤ (Port.all.map (fun q => s.pool.unmet q + if (s.desc d).sender = q then (s.desc d).chain.length else 0)).sum :=
        List.sum_le_sum fun q _ => hunmet q
    _ = (Port.all.map s.pool.unmet).sum + (s.desc d).chain.length := by rw [List.sum_map_add, sum_ports_single]
    _ ≤ t.pool.free.length := by omega

theorem State.SameAllocation.covered (h : s.SameAllocation t) (hs : s.pool.covered) : t.pool.covered := by
  have hunmet : t.pool.unmet = s.pool.unmet := funext fun q => by rw [Pool.unmet, h.reserve, h.held, Pool.unmet]
  unfold Pool.covered at hs ⊢
  rwa [hunmet, h.reserve, h.ceiling, h.stallLimit, h.free]

theorem State.SameAllocation.books (h : s.SameAllocation t) (hs : s.Books) : t.Books :=
  ⟨h.ledger hs.ledger, h.covered hs.covered, fun e => h.hold e ▸ hs.holds e, h.mem hs.memory⟩

theorem State.Freed.books (h : s.Freed d t) (hs : s.Books) : t.Books := by
  refine ⟨h.ledger hs.ledger, h.covered hs.covered, fun e => ?_, h.floor.mem ▸ hs.memory⟩
  by_cases he : e = d
  · subst he
    rw [h.freed]
    exact hs.holds e
  · rw [h.others e he]
    exact hs.holds e

/-! ### A SEND takes a descriptor and segments -/

theorem State.freeDescriptor_free (h : s.freeDescriptor = some d) : (s.desc d).state = .free := by
  simpa using List.find?_some h

theorem State.checkSend_allocation {f : SendFields} (h : s.checkSend p f = .ok d) :
    (s.desc d).state = .free ∧ segmentsNeeded f.length + s.pool.othersUnmet p ≤ s.pool.free.length := by
  unfold State.checkSend at h
  split at h
  · cases h
  · split at h
    · cases h
    · next e hfree =>
      split_ifs at h with hslot hquota hfull hclosed
      cases h
      exact ⟨State.freeDescriptor_free hfree, by omega⟩

section Allotted

variable {f : SendFields}

theorem State.allotted_desc_same (s : State) (p : Port) (f : SendFields) (d : DescNo) : (s.allotted p f d).desc d =
    (s.desc d).allocated p (s.port p).session.epoch f (s.pool.free.take (segmentsNeeded f.length)) := by
  rw [State.allotted_eq]
  exact s.modDesc_desc_same d (fun x => x.allocated p (s.port p).session.epoch f (s.pool.free.take (segmentsNeeded f.length)))

theorem State.allotted_desc_other {e : DescNo} (he : e ≠ d) : (s.allotted p f d).desc e = s.desc e := by
  rw [State.allotted_eq]
  exact s.modDesc_desc_other (fun x => x.allocated p (s.port p).session.epoch f (s.pool.free.take (segmentsNeeded f.length))) he

theorem State.allotted_pool (s : State) (p : Port) (f : SendFields) (d : DescNo) :
    (s.allotted p f d).pool = s.pool.reserveSegments p (segmentsNeeded f.length) := by
  rw [State.allotted_eq]
  rfl

variable (hcheck : s.checkSend p f = .ok d)
include hcheck

theorem State.allotted_ledger (hs : s.Ledger) : (s.allotted p f d).Ledger := by
  obtain ⟨hfree, henough⟩ := State.checkSend_allocation hcheck
  have hnil : (s.desc d).chain = [] := List.eq_nil_of_length_eq_zero (by rw [hs.length, if_pos hfree])
  have hlen : (s.pool.free.take (segmentsNeeded f.length)).length = segmentsNeeded f.length := by
    rw [List.length_take]
    omega
  have hbut : (s.allotted p f d).chainedBut d = s.chainedBut d :=
    State.chainedBut_congr fun e he => by rw [State.allotted_desc_other he]
  have hbefore : s.chained.Perm (s.chainedBut d) := by
    have := s.chained_perm d
    rwa [hnil, List.nil_append] at this
  have hafter := (s.allotted p f d).chained_perm d
  rw [State.allotted_desc_same, hbut] at hafter
  refine ⟨?_, ?_, fun e => ?_, fun q => ?_⟩
  · rw [State.allotted_pool]
    refine List.Perm.trans ?_ hs.perm
    refine (hafter.append_left _).trans (List.Perm.trans ?_ (hbefore.symm.append_left _))
    rw [← List.append_assoc]
    refine List.Perm.append_right _ (List.perm_append_comm.trans ?_)
    exact .of_eq (List.take_append_drop _ _)
  · rw [State.allotted_pool]
    exact hs.rising.sublist (List.drop_sublist _ _)
  · by_cases he : e = d
    · subst he
      rw [State.allotted_desc_same]
      exact hlen
    · rw [State.allotted_desc_other he]
      exact hs.length e
  · have hcharge : (s.allotted p f d).charged q = s.charged q + if p = q then segmentsNeeded f.length else 0 := by
      refine State.charged_of_update (d := d) (fun e he => by rw [State.allotted_desc_other he]) ?_
      rw [State.allotted_desc_same]
      simp only [Descriptor.charge, Descriptor.allocated, hlen, hnil, List.length_nil, ite_self, Nat.zero_add]
    rw [hcharge, State.allotted_pool, Pool.reserveSegments]
    by_cases hq : q = p
    · subst hq
      rw [PerPort.get_modify_same, hs.held, if_pos rfl]
    · rw [PerPort.get_modify_other _ _ hq, hs.held, if_neg (Ne.symm hq), Nat.add_zero]

omit hcheck in
theorem Pool.unmet_sum (x : Pool) (p : Port) : (Port.all.map x.unmet).sum = x.unmet p + x.othersUnmet p := by
  cases p <;> simp [Port.all, Pool.othersUnmet, Port.others] <;> omega

/-- The check of the free segments leaves the other ports' unmet reserves covered (R79). -/
theorem State.allotted_covered (hs : s.pool.covered) : (s.allotted p f d).pool.covered := by
  obtain ⟨-, henough⟩ := State.checkSend_allocation hcheck
  obtain ⟨hranges, hlow, hhigh, hsum⟩ := hs
  rw [State.allotted_pool]
  refine ⟨hranges, hlow, hhigh, ?_⟩
  have hothers : (s.pool.reserveSegments p (segmentsNeeded f.length)).othersUnmet p = s.pool.othersUnmet p := by
    refine congrArg List.sum (List.map_congr_left fun q hq => ?_)
    have hqp : q ≠ p := by simpa [Port.others] using (List.mem_filter.mp hq).2
    simp only [Pool.unmet, Pool.reserveSegments, PerPort.get_modify_other _ _ hqp]
  have hown : (s.pool.reserveSegments p (segmentsNeeded f.length)).unmet p = s.pool.unmet p - segmentsNeeded f.length := by
    simp only [Pool.unmet, Pool.reserveSegments, PerPort.get_modify_same]
    omega
  have hfree : (s.pool.reserveSegments p (segmentsNeeded f.length)).free.length = s.pool.free.length - segmentsNeeded f.length :=
    List.length_drop
  rw [Pool.unmet_sum _ p] at hsum
  rw [Pool.unmet_sum _ p, hothers, hown, hfree]
  omega

theorem State.allotted_books (hhold : f.hold < 65536) (hs : s.Books) : (s.allotted p f d).Books := by
  refine ⟨State.allotted_ledger hcheck hs.ledger, State.allotted_covered hcheck hs.covered, fun e => ?_, ?_⟩
  · by_cases he : e = d
    · subst he
      rw [State.allotted_desc_same]
      exact hhold
    · rw [State.allotted_desc_other he]
      exact hs.holds e
  · rw [State.allotted_pool]
    exact hs.memory

end Allotted

/-! ### A CONFIGURE sets the limits -/

theorem Pool.configLegal_covered {x : Pool} {reserve ceiling : PerPort Nat} {stallLimit : Nat}
    (h : x.configLegal reserve ceiling stallLimit = true) :
    Pool.covered { x with reserve := reserve, ceiling := ceiling, stallLimit := stallLimit } := by
  simp only [Pool.configLegal, Bool.and_eq_true, decide_eq_true_eq, List.all_eq_true, Port.mem_all, true_implies] at h
  obtain ⟨⟨⟨hranges, hlow⟩, hhigh⟩, hsum⟩ := h
  refine ⟨fun q => ?_, hlow, hhigh, hsum⟩
  obtain ⟨⟨⟨hreserve, hceiling⟩, hmax⟩, hle⟩ := hranges q
  exact ⟨hreserve, hceiling, hmax, hle⟩

/-! ### Every change -/

theorem State.OnlyFrees.books {P : DescState → Prop} (h : s.OnlyFrees P t) (hs : s.Books) : t.Books := by
  induction h with
  | start => exact hs
  | quiet _ hq ih => exact hq.books ih
  | freed d _ _ hf ih => exact hf.books ih

/-- Every change of the ledger keeps its laws. -/
theorem State.Allocates.books (h : s.Allocates t) (hs : s.Books) : t.Books := by
  cases h with
  | frees h => exact h.books hs
  | allot p f d hhold hcheck => exact State.allotted_books hcheck hhold hs
  | limits reserve ceiling stallLimit h =>
    exact ⟨⟨hs.ledger.perm, hs.ledger.rising, hs.ledger.length, hs.ledger.held⟩, Pool.configLegal_covered h, hs.holds, hs.memory⟩

end Kept

end Sys2Proof.Machine
end

