-- ==== Sys2Proof/Proofs/HappeningBooks.lean ====
section
/-! PROOFS. What each happening does to the ledger of segments, descriptors and limits. -/

namespace Sys2Proof.Machine

/-- Descriptors are freed, whatever they were, and nothing else of the allocation changes. -/
abbrev State.Frees (s t : State) : Prop := s.OnlyFrees (fun _ => True) t

/-- Changes of the ledger one after another. -/
abbrev State.Allocations (s t : State) : Prop := Relation.ReflTransGen State.Allocates s t

section

variable {s t : State} {p : Port} {d : DescNo}

theorem State.OnlyFrees.allocations (h : s.Frees t) : s.Allocations t := .single (.frees h)

theorem State.Frees.of_eq (hpool : t.pool = s.pool) (hdescs : t.descs = s.descs) : s.Frees t :=
  (State.SameAllocation.of_eq hpool hdescs).onlyFrees

theorem State.modSlot_frees (s : State) (d : DescNo) (p : Port) (f : CopySlot → CopySlot) : s.Frees (s.modSlot d p f) :=
  (s.modSlot_sameAllocation d p f).onlyFrees

theorem State.settleCopy_frees (s : State) (d : DescNo) (p : Port) (o : CopyOutcome) : s.Frees (s.settleCopy d p o) :=
  (s.settleCopy_sameAllocation d p o).onlyFrees

theorem State.settleIfDone_frees (s : State) (d : DescNo) : s.Frees (s.settleIfDone d) := State.settleIfDone_onlyFrees trivial s d

theorem State.modPort_frees (s : State) (p : Port) (f : PortState → PortState) : s.Frees (s.modPort p f) :=
  State.OnlyFrees.start.modPort p f

theorem State.bindCopy_frees (s : State) (p : Port) (f : TakeFields) (d : DescNo) : s.Frees (s.bindCopy p f d) :=
  ((s.modSlot_frees d p _).modPort p _).modPort p _

/-! ### Completion -/

theorem State.matchCopy_frees (s : State) (d : DescNo) (q : Port) : s.Frees (s.matchCopy d q) := by
  have hnew : s.Frees (s.newCopy d q) := s.modSlot_frees d q _
  obtain ⟨-, h⟩ | ⟨-, ⟨ahead, t, behind, -, -, -, h⟩ | ⟨-, ⟨-, h⟩ | ⟨-, h⟩⟩⟩ := s.matchCopy_cases d q <;> rw [h]
  · exact hnew.trans (State.settleCopy_frees _ d q _)
  · exact (hnew.modPort q _).trans (State.bindCopy_frees _ q _ d)
  · exact (hnew.modPort q _).trans (State.modSlot_frees _ d q _)
  · exact hnew.trans (State.settleCopy_frees _ d q _)

theorem State.matched_frees (s : State) (d : DescNo) : s.Frees (s.matched d) :=
  (s.modDesc_sameAllocation d (f := fun x => { x with completionTick := s.tickCount }) ⟨Iff.rfl, rfl, rfl, rfl, rfl⟩).onlyFrees.trans
    (State.foldl_onlyFrees (fun t q => t.matchCopy_frees d q) _ _)

theorem State.matchCopy_descState (s : State) (d : DescNo) (q : Port) : ((s.matchCopy d q).desc d).state = (s.desc d).state := by
  have hnew : ((s.newCopy d q).desc d).state = (s.desc d).state := by simp [State.newCopy, State.modSlot]
  have hsettle : ∀ (x : Descriptor) (o : CopyOutcome), (x.settleCopy q o).state = x.state := fun x o => by
    unfold Descriptor.settleCopy
    split <;> rfl
  obtain ⟨-, h⟩ | ⟨-, ⟨ahead, t, behind, -, -, -, h⟩ | ⟨-, ⟨-, h⟩ | ⟨-, h⟩⟩⟩ := s.matchCopy_cases d q <;> rw [h]
  · rw [State.settleCopy_desc_same, hsettle, hnew]
  · rw [State.bindCopy_desc, State.modSlot, State.modDesc_desc_same]
    exact hnew
  · rw [State.modSlot, State.modDesc_desc_same]
    exact hnew
  · rw [State.settleCopy_desc_same, hsettle, hnew]

@[simp] theorem State.stamped_desc (s : State) (d : DescNo) :
    (s.stamped d).desc d = { s.desc d with completionTick := s.tickCount } :=
  s.modDesc_desc_same d (fun x => { x with completionTick := s.tickCount })

/-- Matching leaves the message in the state it was in (R4). -/
theorem State.matched_descState (s : State) (d : DescNo) : ((s.matched d).desc d).state = (s.desc d).state :=
  State.foldl_matchCopy (P := fun t => (t.desc d).state = (s.desc d).state) (fun t q h => (t.matchCopy_descState d q).trans h) _ _
    (by rw [State.stamped_desc])

/-- A completed message stays allocated, or is freed at once (R4). -/
theorem State.complete_frees (h : (s.desc d).state ≠ .free) : s.Frees (s.complete d) := by
  rw [State.complete_eq]
  split
  · refine (s.matched_frees d).quiet (State.modDesc_sameAllocation _ d ⟨?_, rfl, rfl, rfl, rfl⟩)
    exact iff_of_false (by simp) (by rwa [State.matched_descState])
  · exact (s.matched_frees d).freed d trivial (State.settleDescriptor_freed _ d)

/-! ### Requests and answers -/

theorem State.doSend_allocations {f : SendFields} (hhold : f.hold < 65536) (hcheck : s.checkSend p f = .ok d) :
    s.Allocations (s.doSend p f d) := by
  have hallot : s.Allocations (s.allotted p f d) := .single (.allot p f d hhold hcheck)
  rw [State.doSend_eq]
  split
  · exact hallot.trans (State.modPort_frees _ p _).allocations
  · refine hallot.trans (State.complete_frees ?_).allocations
    rw [State.allotted_desc_same]
    simp [Descriptor.allocated]

theorem State.doTake_frees (s : State) (p : Port) (f : TakeFields) : s.Frees (s.doTake p f) := by
  unfold State.doTake
  simp only
  split
  · exact ((s.modPort_frees p _).modPort p _).trans (State.bindCopy_frees _ p f _)
  · exact (s.modPort_frees p _).modPort p _

theorem State.returnCopy_frees (s : State) (p : Port) (d : DescNo) : s.Frees (s.returnCopy p d) := by
  obtain ⟨-, h⟩ | ⟨-, -, h⟩ | ⟨-, -, h⟩ := s.returnCopy_cases p d <;> rw [h]
  · exact (s.settleCopy_frees d p _).trans (State.settleIfDone_frees _ d)
  · exact (s.settleCopy_frees d p _).trans (State.settleIfDone_frees _ d)
  · exact (s.modPort_frees p _).trans (State.modSlot_frees _ d p _)

theorem State.acceptArrival_frees (s : State) (p : Port) (a : Arrival) : s.Frees (s.acceptArrival p a) := by
  unfold State.acceptArrival
  split
  · exact .start
  · split
    · exact (s.modSlot_frees _ p _).modPort p _
    · exact ((s.settleCopy_frees _ p _).modPort p _).trans (State.settleIfDone_frees _ _)

theorem State.refuseArrival_frees (s : State) (p : Port) (a : Arrival) : s.Frees (s.refuseArrival p a) := by
  unfold State.refuseArrival
  split
  · exact .start
  · exact (s.modPort_frees p _).trans (State.returnCopy_frees _ p _)

theorem State.answerNotice_frees (s : State) (p : Port) (accepted : Bool) : s.Frees (s.answerNotice p accepted) := by
  unfold State.answerNotice
  split
  · next n _ _ _ =>
    have howner : (s.modPort p PortState.removeHead).Frees ((s.modPort p PortState.removeHead).answerOwner p accepted n) := by
      cases n with
      | takeEnded | receipt | report => exact .start
      | arrival a =>
        cases accepted with
        | true => exact State.acceptArrival_frees _ p a
        | false => exact State.refuseArrival_frees _ p a
    exact ((s.modPort_frees p _).trans howner).modPort p _
  · exact .start

/-! ### Ends of transfers, holds and grants -/

theorem State.abandonTransfer_frees (s : State) (p : Port) (d : DescNo) : s.Frees (s.abandonTransfer p d) := by
  rw [State.abandonTransfer, State.returnLane_spec]
  exact (State.OnlyFrees.start.freed d trivial (s.abandon_freed d)).modPort p _

theorem State.expireHolds_frees (s : State) (p : Port) : s.Frees (s.expireHolds p) := by
  unfold State.expireHolds
  split
  · refine State.foldl_onlyFrees (fun t d => ?_) _ s
    exact ((t.modPort_frees p _).trans (State.settleCopy_frees _ d p _)).trans (State.settleIfDone_frees _ d)
  · exact .start

theorem Descriptor.markPassed_sameAllocation (now : Tick) (p : Port) (x : Descriptor) : x.SameAllocation (x.markPassed now p) := by
  unfold Descriptor.markPassed
  split <;> exact ⟨Iff.rfl, rfl, rfl, rfl, rfl⟩

theorem State.markHolds_desc (s : State) (p : Port) (d : DescNo) : (s.markHolds p).desc d =
    if (s.port p).isOpen = true then (s.desc d).markPassed s.tickCount p else s.desc d := by
  unfold State.markHolds
  split
  · exact vector_get_map s.descs _ d
  · rfl

theorem State.markHolds_frees (s : State) (p : Port) : s.Frees (s.markHolds p) := by
  have hdesc : ∀ e, (s.desc e).SameAllocation ((s.markHolds p).desc e) := fun e => by
    rw [State.markHolds_desc]
    split
    · exact (s.desc e).markPassed_sameAllocation s.tickCount p
    · exact ⟨Iff.rfl, rfl, rfl, rfl, rfl⟩
  have hpool : (s.markHolds p).pool = s.pool := by
    unfold State.markHolds
    split <;> rfl
  refine State.SameAllocation.onlyFrees ⟨?_, ?_, ?_, ?_, ?_, ?_, fun e => (hdesc e).state, fun e => (hdesc e).sender,
    fun e => (hdesc e).chain, fun e => (hdesc e).length, fun e => (hdesc e).hold⟩ <;> rw [hpool]
  exact id

theorem State.chunkStored_sameAllocation (s : State) (p : Port) (d : DescNo) (n : Nat) : s.SameAllocation (s.chunkStored p d n) := by
  have hdesc : ∀ e, (s.desc e).SameAllocation ((s.chunkStored p d n).desc e) := fun e => by
    by_cases he : e = d
    · subst he
      rw [State.chunkStored_desc]
      exact ⟨Iff.rfl, rfl, rfl, rfl, rfl⟩
    · have hother : (s.chunkStored p d n).desc e = s.desc e := vector_get_set_other s.descs _ he
      rw [hother]
      exact ⟨Iff.rfl, rfl, rfl, rfl, rfl⟩
  exact ⟨rfl, rfl, rfl, rfl, rfl, fun h => Memory.storePayload_wf _ _ _ _ h, fun e => (hdesc e).state, fun e => (hdesc e).sender,
    fun e => (hdesc e).chain, fun e => (hdesc e).length, fun e => (hdesc e).hold⟩

/-- A grant frees nothing but a completed message without copies, if an INBOUND lane's message is allocated. -/
theorem State.grantTo_frees (hin : ∀ d, (s.port p).lane.owner = .inbound d → (s.desc d).state ≠ .free) : s.Frees (s.grantTo p) := by
  cases howner : (s.port p).lane.owner with
  | idle =>
    simp only [State.grantTo, howner]
    exact .start
  | outbound d =>
    simp only [State.grantTo, howner, State.grantOutbound]
    have hpointer : s.Frees { s with pointer := p } := State.Frees.of_eq rfl rfl
    exact hpointer.modPort p _
  | inbound d =>
    rw [State.grantTo_inbound howner]
    have hstored := fun n => (s.chunkStored_sameAllocation p d n).onlyFrees (P := fun _ => True)
    split
    · rw [State.returnLane_spec]
      refine ((hstored _).trans (State.complete_frees ?_)).modPort p _
      rw [State.chunkStored_desc]
      exact hin d howner
    · exact hstored _

/-! ### Every happening -/

/-- Every happening changes the ledger in the three ways alone, where INBOUND lanes' messages are allocated. -/
theorem State.Happening.allocations (h : s.Happening t)
    (hin : ∀ p d, (s.port p).lane.owner = .inbound d → (s.desc d).state ≠ .free) : s.Allocations t := by
  cases h with
  | idle t hports hdescs hgroups hpool => exact (State.Frees.of_eq hpool hdescs).allocations
  | advance => exact (State.Frees.of_eq (s := s) (t := s.advance) rfl rfl).allocations
  | quiet p f => exact (s.modPort_frees p f).allocations
  | membership p g b => exact (State.Frees.of_eq (s := s) (t := s.modGroup g (fun m => m.set p b)) rfl rfl).allocations
  | configure reserve ceiling stallLimit hlegal => exact .single (.limits reserve ceiling stallLimit hlegal)
  | send p f d hopen hhold hcheck => exact State.doSend_allocations hhold hcheck
  | take p f => exact (s.doTake_frees p f).allocations
  | answer p accepted => exact (s.answerNotice_frees p accepted).allocations
  | abandon p d f => exact ((s.modPort_frees p _).trans (State.abandonTransfer_frees _ p d)).allocations
  | endDelivery p d o f => exact ((s.modPort_frees p _).trans (State.endDelivery_onlyFrees trivial _ p d o)).allocations
  | expireHolds p => exact (s.expireHolds_frees p).allocations
  | markHolds p => exact (s.markHolds_frees p).allocations
  | endSession p cause x =>
    exact (((s.modPort_frees p _).trans (State.teardown_onlyFrees trivial _ p fun _ _ => trivial)).modPort p _).allocations
  | grant p => exact (State.grantTo_frees (hin p)).allocations

theorem State.Happening.books (h : s.Happening t) (hin : ∀ p d, (s.port p).lane.owner = .inbound d → (s.desc d).state ≠ .free)
    (hs : s.Books) : t.Books := by
  have hchanges := h.allocations hin
  clear h
  induction hchanges with
  | refl => exact hs
  | tail _ hstep ih => exact hstep.books ih

end

end Sys2Proof.Machine
end

