-- ==== Sys2Proof/Proofs/CopiesKept.lean ====
section
/-! PROOFS. The happenings that move or end copies keep them in agreement with takes, lists, lanes and ARRIVALs: abandonment,
teardown, marks, and a copy bound from the list. -/

namespace Sys2Proof.Machine

/-! ### Columns -/

section Column

variable {slot slot' : DescNo → SlotState} {len : DescNo → Nat} {ps ps' : PortState}

/-- The copies see of the lane's owner only which delivery it has. -/
theorem PortState.CopiesAgree.withOwner (h : ps.CopiesAgree slot len) (ho : ∀ e, ps'.lane.owner = .outbound e ↔ ps.lane.owner = .outbound e)
    (hu : ps'.unclaimed = ps.unclaimed) (ht : ps'.takes = ps.takes) (ha : ps'.arrivals = ps.arrivals) : ps'.CopiesAgree slot len :=
  ⟨hu ▸ h.waiting_iff, hu ▸ h.list_nodup, ht ▸ h.matched_iff, ht ▸ h.matched_nodup, fun e => by rw [h.moving_iff, ho],
    ht ▸ h.labels_nodup, ht ▸ h.delivered_eq, by rw [ha, ht]; exact h.arrivals_iff, ha ▸ h.arrivals_nodup⟩

/-- A column without a session agrees with no live copy. -/
theorem PortState.copiesAgree_of_empty (hslot : ∀ e, (slot e).live = false) (hu : ps.unclaimed = [])
    (ht : ps.takes = { posted := [], matched := [] }) (hq : ps.queue.notices = []) (ho : ps.lane.owner = .idle) :
    ps.CopiesAgree slot len := by
  have hne : ∀ e {x : SlotState}, x.live = true → slot e ≠ x := fun e x hx => SlotState.ne_of_not_live (hslot e) hx
  refine ⟨fun e => ?_, by simp [hu], fun e => ?_, by simp [ht], fun e => ?_, by simp [ht, TakeTable.labels], by simp [ht],
    fun l => by simp [PortState.arrivals, hq, ht], by simp [PortState.arrivals, hq]⟩
  · exact iff_of_false (hne e rfl) (by simp [hu])
  · exact iff_of_false (fun h => h.elim (hne e rfl) (hne e rfl)) (by simp [ht])
  · exact iff_of_false (hne e rfl) (by simp [ho])

theorem inboundAgrees_of_idle {x : Descriptor} {d : DescNo} {p : Port} (ho : ps.lane.owner = .idle)
    (h : ¬ (x.state = .gathering ∧ x.sender = p)) : InboundAgrees x d ps p :=
  have hne : ps.lane.owner ≠ .inbound d := by simp [ho]
  ⟨iff_of_false hne h, fun h' => absurd h' hne⟩

end Column

section

variable {s t : State} {p : Port} {d : DescNo}

theorem State.copiesSound.ports (hs : s.copiesSound) (q : Port) : (s.port q).CopiesAgree (s.slotStates q) s.lengths :=
  (s.copiesSound_iff.mp hs).1 q

theorem State.copiesSound.inbound (hs : s.copiesSound) (e : DescNo) (q : Port) : InboundAgrees (s.desc e) e (s.port q) q :=
  (s.copiesSound_iff.mp hs).2.2 e q

/-- At a port whose lane is not INBOUND no message is being gathered (R154). -/
theorem State.copiesSound.not_gathering (hs : s.copiesSound) {e : DescNo} (h : (s.port p).lane.owner ≠ .inbound e) :
    ¬ ((s.desc e).state = .gathering ∧ (s.desc e).sender = p) := fun hg => h ((hs.inbound e p).iff.mpr hg)

/-! ### Abandonment -/

theorem State.copiesSound.inbound_otherLive (hs : s.copiesSound) (howner : (s.port p).lane.owner = .inbound d) (q : Port) :
    (s.desc d).otherLive q = false :=
  Descriptor.otherLive_eq_false.mpr fun r _ => hs.not_live_of_inbound (p := r) howner

theorem State.abandonTransfer_port (s : State) (p : Port) (d : DescNo) (q : Port) : (s.abandonTransfer p d).port q =
    if q = p then PortState.offer (s.abandon d).tickCount ((s.port p).receive s.tickCount (s.abandonReceipts p d)).idleLane
    else (s.port q).receive s.tickCount (s.abandonReceipts q d) := by
  rw [State.abandonTransfer, State.returnLane_spec]
  by_cases hq : q = p
  · subst hq
    rw [State.modPort_port_same, State.abandon_port, if_pos rfl]
  · rw [State.modPort_port_other _ _ hq, State.abandon_port, if_neg hq]

/-- The end of an INBOUND transfer keeps copies in agreement (R12, R157). -/
theorem State.abandonTransfer_copiesSound (hs : s.copiesSound) (howner : (s.port p).lane.owner = .inbound d) :
    (s.abandonTransfer p d).copiesSound := by
  have hown := s.abandonTransfer_port p d p
  rw [if_pos rfl] at hown
  have hfreed := (s.abandonTransfer_spec p d).2.1
  have hother : ∀ e, e ≠ d → (s.abandonTransfer p d).desc e = s.desc e := fun e he => by
    rw [State.abandonTransfer, State.returnLane_desc]
    exact (s.abandon_freed d).others e he
  have hslot : ∀ e, (s.slotStates p e).SameLive ((s.abandonTransfer p d).slotStates p e) := fun e => by
    by_cases he : e = d
    · subst he
      refine .inr ⟨?_, hs.not_live_of_inbound howner⟩
      rw [State.slotStates, State.slot, hfreed, Descriptor.freed_slot]
      rfl
    · refine .inl ?_
      rw [State.slotStates, State.slot, hother e he]
      rfl
  have hidle : ((s.port p).receive s.tickCount (s.abandonReceipts p d)).idleLane.CopiesAgree (s.slotStates p) s.lengths := by
    have hreceived := (hs.ports p).congr (PortState.receive_sameTransfers s.tickCount (s.abandonReceipts p d) _).toSameCopies
      (fun e => .inl rfl) (fun u _ => rfl)
    refine hreceived.withOwner (fun e => ?_) rfl rfl rfl
    rw [(PortState.receive_onlyNotices _ _ _).lane, howner]
    simp
  refine hs.ends (p := p) (fun e => ?_) (fun q hq => ?_) ?_ (fun e => ?_)
  · by_cases he : e = d
    · subst he
      exact .freed (hs.inbound_otherLive howner p) (fun _ => ((hs.inbound e p).iff.mp howner).2) hfreed
    · exact .same (hother e he)
  · rw [State.abandonTransfer_port, if_neg hq]
    exact PortState.receive_sameTransfers _ _ _
  · rw [hown]
    exact hidle.congr (PortState.offer_sameTransfers _ _).toSameCopies hslot (fun u _ => rfl)
  · refine inboundAgrees_of_idle ?_ ?_
    · rw [hown, (PortState.offer_onlyNotices _ _).lane]
      rfl
    · by_cases he : e = d
      · subst he
        rw [hfreed]
        simp [Descriptor.freed]
      · rw [hother e he]
        refine hs.not_gathering fun ho => he ?_
        rw [howner] at ho
        exact (LaneOwner.inbound.inj ho).symm

/-! ### Teardown -/

theorem Descriptor.afterTeardown_ends (hs : s.copiesSound) (hl : (s.slot d p).state.live = true) :
    (s.desc d).Ends p ((s.desc d).afterTeardown p) := by
  rw [Descriptor.afterTeardown_eq hl]
  cases hother : (s.desc d).otherLive p with
  | true => exact .settled .undeliverable (Descriptor.undelivered_endsAt hl) hother
  | false =>
    refine .freed hother (fun hg => ?_) rfl
    rw [hs.held_of_live hl] at hg
    cases hg

theorem Descriptor.afterTeardown_dead (hl : (s.slot d p).state.live = true) :
    (((s.desc d).afterTeardown p).slots.get p).state.live = false := by
  rw [Descriptor.afterTeardown_eq hl]
  split
  · rw [(Descriptor.undelivered_endsAt hl).here]
    rfl
  · simp [CopySlot.empty, SlotState.live]

theorem State.teardown_ends (hs : s.copiesSound) (p : Port) (d : DescNo) : (s.desc d).Ends p ((s.teardown p).desc d) := by
  rw [State.teardown_desc hs]
  split
  · next hl => exact Descriptor.afterTeardown_ends hs hl
  · split
    · next howner =>
      exact .freed (hs.inbound_otherLive howner p) (fun _ => ((hs.inbound d p).iff.mp howner).2) rfl
    · exact .same rfl

theorem State.teardown_dead (hs : s.copiesSound) (p : Port) (d : DescNo) : ((s.teardown p).slotStates p d).live = false := by
  rw [State.slotStates, State.slot, State.teardown_desc hs]
  split
  · next hl => exact Descriptor.afterTeardown_dead hl
  · next hl =>
    split
    · simp [CopySlot.empty, SlotState.live]
    · exact Bool.not_eq_true _ ▸ hl

/-- A teardown keeps copies in agreement (R17, R177). -/
theorem State.teardown_copiesSound (hs : s.copiesSound) (p : Port) : (s.teardown p).copiesSound := by
  have htorn := s.teardown_tornDown p
  have hidle : (s.port p).tornDown.lane.owner = .idle := (s.port p).tornDown_sessionless.2.2.2.2.2.2.1
  refine hs.ends (p := p) (State.teardown_ends hs p) (fun q hq => ?_) ?_ (fun e => ?_)
  · obtain ⟨rs, hrs⟩ := htorn.others q hq
    rw [hrs]
    exact PortState.receive_sameTransfers _ _ _
  · rw [htorn.own]
    exact PortState.copiesAgree_of_empty (State.teardown_dead hs p) rfl rfl rfl hidle
  · rw [htorn.own]
    refine inboundAgrees_of_idle hidle ?_
    rw [State.teardown_desc hs]
    split
    · next hl =>
      rw [Descriptor.afterTeardown_eq hl]
      split
      · rw [(Descriptor.undelivered_endsAt hl).rest]
        simp [hs.held_of_live hl]
      · simp [Descriptor.freed]
    · split
      · simp [Descriptor.freed]
      · next hne => exact hs.not_gathering hne

/-! ### Marks -/

theorem Descriptor.markPassed_slot (now : Tick) (p : Port) (x : Descriptor) (q : Port) :
    ((x.markPassed now p).slots.get q).state = (x.slots.get q).state := by
  unfold Descriptor.markPassed
  split
  · by_cases hq : q = p
    · subst hq
      simp
    · simp [hq]
  · rfl

/-- A mark goes to a live copy alone (R47). -/
theorem Descriptor.markPassed_cases (now : Tick) (p : Port) (x : Descriptor) : x.markPassed now p = x ∨
    ((x.slots.get p).state.live = true ∧ x.markPassed now p = { x with slots := (x.markPassed now p).slots } ∧
      ∀ q, q ≠ p → (x.markPassed now p).slots.get q = x.slots.get q) := by
  unfold Descriptor.markPassed
  split
  · next hdue =>
    refine .inr ⟨?_, rfl, fun q hq => by simp [hq]⟩
    simp only [CopySlot.markDue, Bool.and_eq_true, Bool.or_eq_true, beq_iff_eq] at hdue
    obtain ⟨⟨h | h, -⟩, -⟩ := hdue <;> rw [h] <;> rfl
  · exact .inl rfl

theorem Descriptor.markPassed_ends (now : Tick) (p : Port) (x : Descriptor) : x.Ends p (x.markPassed now p) := by
  obtain h | ⟨hlive, hrest, helse⟩ := x.markPassed_cases now p
  · exact .same h
  · exact .moved hlive (by rw [Descriptor.markPassed_slot, hlive]) helse hrest

theorem State.markHolds_copiesSound (hs : s.copiesSound) (p : Port) : (s.markHolds p).copiesSound := by
  have hport : ∀ q, (s.markHolds p).port q = s.port q := fun q => by
    unfold State.markHolds
    split <;> rfl
  have hslot : (s.markHolds p).slotStates p = s.slotStates p := funext fun e => by
    rw [State.slotStates, State.slot, State.markHolds_desc]
    split
    · exact Descriptor.markPassed_slot _ _ _ _
    · rfl
  have hends : ∀ e, (s.desc e).Ends p ((s.markHolds p).desc e) := fun e => by
    rw [State.markHolds_desc]
    split
    · exact (s.desc e).markPassed_ends s.tickCount p
    · exact .same rfl
  refine hs.ends hends (fun q _ => by rw [hport]; exact .refl _) (by rw [hslot, hport]; exact hs.ports p) fun e => ?_
  obtain ⟨hiff, hcount⟩ := hs.inbound e p
  have hfields : ((s.markHolds p).desc e).state = (s.desc e).state ∧ ((s.markHolds p).desc e).sender = (s.desc e).sender ∧
      ((s.markHolds p).desc e).bytesInPool = (s.desc e).bytesInPool ∧ ((s.markHolds p).desc e).length = (s.desc e).length := by
    rw [State.markHolds_desc]
    split
    · unfold Descriptor.markPassed
      split <;> exact ⟨rfl, rfl, rfl, rfl⟩
    · exact ⟨rfl, rfl, rfl, rfl⟩
  obtain ⟨hstate, hsender, hbytes, hlength⟩ := hfields
  exact ⟨by rw [hport, hstate, hsender, hiff], by rw [hport, hbytes, hlength]; exact hcount⟩

/-! ### A copy that changes its place at its port -/

/-- A live copy of descriptor `d` at port `p` has only changed its state. -/
structure State.Moves (s : State) (p : Port) (d : DescNo) (x : SlotState) (t : State) : Prop where
  desc : t.desc d = { s.desc d with slots := (s.desc d).slots.modify p (fun sl => { sl with state := x }) }
  others : ∀ e, e ≠ d → t.desc e = s.desc e
  ports : ∀ q, q ≠ p → t.port q = s.port q

/-- The descriptors are those of a state in which one slot has changed. -/
theorem State.Moves.of_modSlot {u : State} {x : SlotState} (hu : ∀ e, u.desc e = s.desc e)
    (ht : ∀ e, t.desc e = (u.modSlot d p (fun sl => { sl with state := x })).desc e) (hports : ∀ q, q ≠ p → t.port q = s.port q) :
    s.Moves p d x t where
  desc := by rw [ht, State.modSlot, State.modDesc_desc_same, hu]
  others e he := by rw [ht, State.modSlot, State.modDesc_desc_other _ _ he, hu]
  ports := hports

theorem State.Moves.slot (h : s.Moves p d x t) : t.slotStates p d = x := by
  rw [State.slotStates, State.slot, h.desc]
  simp

theorem State.Moves.othersKept (h : s.Moves p d x t) : OthersKept d (s.slotStates p) (t.slotStates p) := fun e he => by
  rw [State.slotStates, State.slot, h.others e he]
  rfl

/-- Such a change keeps copies in agreement, if the port's own column does (R29, R43, R154). -/
theorem State.copiesSound.moves {x : SlotState} (hs : s.copiesSound) (h : s.Moves p d x t) (hlive : (s.slot d p).state.live = true)
    (hx : x.live = true) (hown : (t.port p).CopiesAgree (t.slotStates p) s.lengths)
    (howner : ∀ e, (t.port p).lane.owner = .inbound e ↔ (s.port p).lane.owner = .inbound e)
    (hcount : ∀ e, (s.port p).lane.owner = .inbound e → (t.port p).lane.poolCount = (s.port p).lane.poolCount) : t.copiesSound := by
  refine hs.ends (p := p) (fun e => ?_) (fun q hq => by rw [h.ports q hq]; exact .refl _) hown (fun e => ?_)
  · by_cases he : e = d
    · subst he
      refine .moved hlive ?_ (fun q hq => by rw [h.desc]; simp [hq]) (by rw [h.desc])
      have := h.slot
      rw [State.slotStates, State.slot] at this
      rw [this, hx]
    · exact .same (h.others e he)
  · obtain ⟨hiff, hcount'⟩ := hs.inbound e p
    have hfields : (t.desc e).state = (s.desc e).state ∧ (t.desc e).sender = (s.desc e).sender ∧
        (t.desc e).bytesInPool = (s.desc e).bytesInPool ∧ (t.desc e).length = (s.desc e).length := by
      by_cases he : e = d
      · subst he
        rw [h.desc]
        exact ⟨rfl, rfl, rfl, rfl⟩
      · rw [h.others e he]
        exact ⟨rfl, rfl, rfl, rfl⟩
    obtain ⟨hstate, hsender, hbytes, hlength⟩ := hfields
    refine ⟨by rw [howner, hstate, hsender, hiff], fun ho => ?_⟩
    have ho' := (howner e).mp ho
    rw [hbytes, hlength, hcount e ho', hcount' ho']

/-- The states of the copies with that of descriptor `d` gone: the copy between two places. -/
def slotsWithout (d : DescNo) (slot : DescNo → SlotState) : DescNo → SlotState := Function.update slot d .absent

theorem slotsWithout_same (d : DescNo) (slot : DescNo → SlotState) : slotsWithout d slot d = .absent := Function.update_self ..

theorem slotsWithout_kept (d : DescNo) (slot : DescNo → SlotState) : OthersKept d slot (slotsWithout d slot) :=
  fun _ he => Function.update_of_ne he ..

theorem OthersKept.of_without {slot slot' : DescNo → SlotState} (h : OthersKept d slot slot') : OthersKept d (slotsWithout d slot) slot' :=
  fun e he => (h e he).trans (slotsWithout_kept d slot e he).symm

/-- A new take's label is carried by no live take (R21). -/
theorem TakeTable.hasLabel_eq_false {ts : TakeTable} {label : Half} : ts.hasLabel label = false ↔ label ∉ ts.labels := by
  rw [← Bool.not_eq_true, not_iff_not]
  simp [TakeTable.hasLabel, TakeTable.labels]

section Bind

variable (s p) (f : TakeFields) (d)

theorem State.bindCopy_takes : ((s.bindCopy p f d).port p).takes = { (s.port p).takes with
    matched := (s.port p).takes.matched ++ [{ fields := f, bound := d, delivered := min (s.desc d).length f.capacity }] } := by
  rw [State.bindCopy_port_same, (PortState.append_onlyNotices _ _ _).takes]

theorem State.bindCopy_unclaimed : ((s.bindCopy p f d).port p).unclaimed = (s.port p).unclaimed := by
  rw [State.bindCopy_port_same, (PortState.append_onlyNotices _ _ _).unclaimed]

theorem State.bindCopy_lane : ((s.bindCopy p f d).port p).lane = (s.port p).lane := by
  rw [State.bindCopy_port_same, (PortState.append_onlyNotices _ _ _).lane]

theorem State.bindCopy_arrivals : ((s.bindCopy p f d).port p).arrivals = (s.port p).arrivals ++ [f.label] := by
  rw [State.bindCopy_port_same, PortState.arrivals, PortState.append_notices, List.filterMap_append]
  rfl

end Bind

/-- A take that joins a table under a label of its own (R21). -/
theorem nodup_label_append {labels : List Half} {label : Half} (h : labels.Nodup) (hnew : label ∉ labels) :
    (labels ++ [label]).Nodup :=
  List.nodup_append.mpr ⟨h, by simp, fun a ha b hb hab => hnew (by simp_all)⟩

/-- A TAKE that finds its copy in the list (R26). -/
theorem State.bindListed_copiesSound {f : TakeFields} {e : DescNo} (hs : s.copiesSound) (hmem : e ∈ (s.port p).unclaimed)
    (hnew : f.label ∉ (s.port p).takes.labels) :
    (((s.modPort p PortState.bookSlot).modPort p (fun ps => { ps with unclaimed := ps.unclaimed.erase e })).bindCopy p f e).copiesSound := by
  have hwaiting : s.slotStates p e = .waiting := ((hs.ports p).waiting_iff e).mpr hmem
  let u := (s.modPort p PortState.bookSlot).modPort p (fun ps => { ps with unclaimed := ps.unclaimed.erase e })
  have hu : u.port p = { (s.port p).bookSlot with unclaimed := (s.port p).unclaimed.erase e } := by
    simp only [u, State.modPort_port_same]
    rfl
  have hmoves : s.Moves p e .bound (u.bindCopy p f e) := by
    refine .of_modSlot (u := u) (fun _ => rfl) (State.bindCopy_desc u p f e) (fun q hq => ?_)
    rw [State.bindCopy_port_other u f e hq]
    simp only [u, State.modPort_port_other _ _ hq]
  have htakes := u.bindCopy_takes p e f
  have hlist := u.bindCopy_unclaimed p e f
  have hlane := u.bindCopy_lane p e f
  have harrivals := u.bindCopy_arrivals p e f
  rw [hu] at htakes hlist hlane harrivals
  refine hs.moves hmoves (by show (s.slotStates p e).live = true; rw [hwaiting]; rfl) rfl ?_ (fun e' => ?_) (fun e' _ => ?_)
  · have hleft := (hs.ports p).leaveList (ps' := { (s.port p).bookSlot with unclaimed := (s.port p).unclaimed.erase e })
      (slotsWithout_kept e _) hwaiting (by rw [slotsWithout_same]; rfl) rfl rfl rfl rfl
    refine hleft.bind hmoves.othersKept.of_without (f := f) (by rw [slotsWithout_same]; rfl) hmoves.slot hlist
      (congrArg TakeTable.matched htakes) ?_ (congrArg Lane.owner hlane) harrivals
    rw [htakes]
    have hnd := nodup_label_append (hs.ports p).labels_nodup hnew
    simpa [TakeTable.labels, PortState.bookSlot] using hnd
  · rw [hlane]
    rfl
  · rw [hlane]
    rfl

/-- A TAKE that is POSTED (R25). -/
theorem State.postTake_copiesSound {t : PostedTake} (hs : s.copiesSound) (hnew : t.fields.label ∉ (s.port p).takes.labels) :
    (s.modPort p (fun ps => { ps.bookSlot with takes := { ps.takes with posted := ps.takes.posted ++ [t] } })).copiesSound := by
  let u := s.modPort p (fun ps => { ps.bookSlot with takes := { ps.takes with posted := ps.takes.posted ++ [t] } })
  have hsame : u.port p = { (s.port p).bookSlot with takes := { (s.port p).takes with posted := (s.port p).takes.posted ++ [t] } } :=
    State.modPort_port_same s p _
  have hother : ∀ q, q ≠ p → u.port q = s.port q := fun q hq => State.modPort_port_other s _ hq
  refine hs.ends (t := u) (p := p) (fun e => .same rfl) (fun q hq => by rw [hother q hq]; exact .refl _) ?_ (fun e => ?_)
  · obtain ⟨hwaiting, hlist, hmatched, hbound, hmoving, hlabels, hdelivered, harrivals, hnodup⟩ := hs.ports p
    rw [hsame]
    refine ⟨hwaiting, hlist, hmatched, hbound, hmoving, ?_, hdelivered, harrivals, hnodup⟩
    have hnd := nodup_label_append hlabels hnew
    simp only [TakeTable.labels, List.map_append, List.map_cons, List.map_nil] at hnd ⊢
    refine List.Perm.nodup_iff ?_ |>.mp hnd
    rw [List.append_assoc, List.append_assoc]
    exact List.perm_append_comm.append_left _
  · rw [hsame]
    exact ⟨(hs.inbound e p).iff, (hs.inbound e p).count⟩

/-- A TAKE keeps copies in agreement (R25). -/
theorem State.doTake_copiesSound {f : TakeFields} (hs : s.copiesSound) (hlabel : (s.port p).takes.hasLabel f.label = false) :
    (s.doTake p f).copiesSound := by
  have hnew := TakeTable.hasLabel_eq_false.mp hlabel
  unfold State.doTake
  simp only
  split
  · next e hfind => exact State.bindListed_copiesSound hs (List.mem_of_find?_eq_some hfind) hnew
  · rw [State.modPort_modPort]
    exact State.postTake_copiesSound hs hnew

end

end Sys2Proof.Machine
end

