-- ==== Sys2Proof/Proofs/AnswersKept.lean ====
section
/-! PROOFS. The host's answers keep copies in agreement with takes, lists, lanes and ARRIVALs (R128 to R132). -/

namespace Sys2Proof.Machine

section

variable {s : State} {p : Port} {d : DescNo} {a : Arrival} {rest : List Notice}

/-- The ARRIVAL at the head names a MATCHED take whose copy is BOUND (R26, R29). -/
theorem State.copiesSound.take_of_arrival (hs : s.copiesSound) (hq : (s.port p).queue.notices = .arrival a :: rest) :
    ∃ m ∈ (s.port p).takes.matched, (s.port p).matchedTake a.takeLabel = some m ∧ m.fields.label = a.takeLabel ∧
      s.slotStates p m.bound = .bound := by
  have hports := hs.ports p
  obtain ⟨m, hm, hlabel, hbound⟩ := (hports.arrivals_iff a.takeLabel).mp (by simp [PortState.arrivals, hq, Notice.arrivalLabel])
  have hsome : ((s.port p).matchedTake a.takeLabel).isSome := by
    rw [PortState.matchedTake, List.find?_isSome]
    exact ⟨m, hm, by simp [hlabel]⟩
  obtain ⟨u, hu⟩ := Option.isSome_iff_exists.mp hsome
  have hul : u.fields.label = a.takeLabel := by simpa using List.find?_some hu
  have hum : u = m := hports.take_of_label (List.mem_of_find?_eq_some hu) hm (hul.trans hlabel.symm)
  exact ⟨m, hm, hum ▸ hu, hlabel, hbound⟩

/-- The head removed is the ARRIVAL of the copy of its take. -/
theorem HeadTaken.of_removeHead {m : MatchedTake} {ps' : PortState} (hm : m ∈ (s.port p).takes.matched)
    (hlabel : m.fields.label = a.takeLabel) (hq : (s.port p).queue.notices = .arrival a :: rest)
    (hn : ps'.queue.notices = (s.port p).queue.notices.tail) : HeadTaken m.bound (s.port p) ps' :=
  ⟨⟨m, hm, rfl, by simp [PortState.arrivals, hn, hq, Notice.arrivalLabel, hlabel]⟩⟩

theorem SlotState.live_of_bound {x : SlotState} (h : x = .bound) : x.live = true := by
  rw [h]
  rfl

/-- The answer ends the take and the copy (R30, R130). -/
theorem State.endAnswered_copiesSound {m : MatchedTake} (hs : s.copiesSound) (hm : m ∈ (s.port p).takes.matched)
    (hlabel : m.fields.label = a.takeLabel) (hbound : s.slotStates p m.bound = .bound)
    (hq : (s.port p).queue.notices = .arrival a :: rest) (o : CopyOutcome) :
    (s.endCopy p m.bound o (fun ps => ps.removeHead.endTake m.bound)).copiesSound :=
  State.endCopy_copiesSound hs (SlotState.live_of_bound hbound) rfl
    (fun _ he hd' => (hs.ports p).endBound he hbound hd' rfl rfl rfl rfl (HeadTaken.of_removeHead hm hlabel hq rfl))
    (fun _ => Iff.rfl) (fun _ _ => rfl)

/-- ACCEPT of an ARRIVAL (R129, R130). -/
theorem State.acceptArrival_copiesSound (hs : s.copiesSound) (hq : (s.port p).queue.notices = .arrival a :: rest)
    (hidle : (s.port p).laneIdle = true) : ((s.modPort p PortState.removeHead).acceptArrival p a).copiesSound := by
  obtain ⟨m, hm, hfind, hlabel, hbound⟩ := hs.take_of_arrival hq
  have howner : (s.port p).lane.owner = .idle := by simpa [PortState.laneIdle] using hidle
  have hpop : (s.modPort p PortState.removeHead).port p = (s.port p).removeHead := State.modPort_port_same s p _
  have hfind' : ((s.modPort p PortState.removeHead).port p).matchedTake a.takeLabel = some m := by
    rw [hpop]
    exact hfind
  simp only [State.acceptArrival, hfind']
  split
  · let t := ((s.modPort p PortState.removeHead).modSlot m.bound p (fun sl => { sl with state := .moving })).claimLane p
      (.outbound m.bound) m.delivered
    have hmoves : s.Moves p m.bound .moving t := by
      refine .of_modSlot (u := s.modPort p PortState.removeHead) (fun _ => rfl) (fun _ => rfl) (fun q hq => ?_)
      simp only [t, State.claimLane, State.modPort_port_other _ _ hq, State.modSlot_port]
    have hport : t.port p = { (s.port p).removeHead with lane := (t.port p).lane } := by
      simp only [t, State.claimLane, State.modPort_port_same, State.modSlot_port]
    have hlane : (t.port p).lane.owner = .outbound m.bound := by
      simp only [t, State.claimLane, State.modPort_port_same]
    refine hs.moves hmoves (SlotState.live_of_bound hbound) rfl ?_ (fun e => ?_) (fun e he => ?_)
    · refine (hs.ports p).startMoving hmoves.othersKept hbound hmoves.slot (by rw [hport]; rfl) (by rw [hport]; rfl) howner hlane ?_
      exact HeadTaken.of_removeHead hm hlabel hq (by rw [hport]; rfl)
    · rw [hlane, howner]
      simp
    · rw [howner] at he
      cases he
  · have heq : ∀ o, (((s.modPort p PortState.removeHead).settleCopy m.bound p o).modPort p (PortState.endTake m.bound)).settleIfDone
        m.bound = s.endCopy p m.bound o (fun ps => ps.removeHead.endTake m.bound) := fun o => by
      simp only [State.endCopy, State.settleCopy, State.modPort_modDesc, State.modPort_modPort]
    rw [heq]
    exact State.endAnswered_copiesSound hs hm hlabel hbound hq _

/-- REFUSE of an ARRIVAL (R131, R49). -/
theorem State.refuseArrival_copiesSound (hs : s.copiesSound) (hq : (s.port p).queue.notices = .arrival a :: rest) :
    ((s.modPort p PortState.removeHead).refuseArrival p a).copiesSound := by
  obtain ⟨m, hm, hfind, hlabel, hbound⟩ := hs.take_of_arrival hq
  have hpop : (s.modPort p PortState.removeHead).port p = (s.port p).removeHead := State.modPort_port_same s p _
  have hfind' : ((s.modPort p PortState.removeHead).port p).matchedTake a.takeLabel = some m := by
    rw [hpop]
    exact hfind
  simp only [State.refuseArrival, hfind', State.modPort_modPort]
  obtain ⟨-, h⟩ | ⟨-, -, h⟩ | ⟨-, -, h⟩ := State.returnCopy_cases
    (s.modPort p (fun ps => ps.removeHead.endTake m.bound)) p m.bound <;> rw [h]
  · exact State.endAnswered_copiesSound hs hm hlabel hbound hq .expired
  · exact State.endAnswered_copiesSound hs hm hlabel hbound hq .dropped
  · let u := s.modPort p (fun ps => ps.removeHead.endTake m.bound)
    let t := (u.modPort p (fun ps => { ps with unclaimed := m.bound :: ps.unclaimed })).modSlot m.bound p
      (fun sl => { sl with state := .waiting })
    have hmoves : s.Moves p m.bound .waiting t := by
      refine .of_modSlot (u := u.modPort p (fun ps => { ps with unclaimed := m.bound :: ps.unclaimed })) (fun _ => rfl) (fun _ => rfl)
        (fun q hq => ?_)
      simp only [t, u, State.modSlot_port, State.modPort_port_other _ _ hq]
    have hport : t.port p = { (s.port p).removeHead.endTake m.bound with unclaimed := m.bound :: (s.port p).unclaimed } := by
      simp only [t, u, State.modSlot_port, State.modPort_port_same]
      rfl
    refine hs.moves hmoves (SlotState.live_of_bound hbound) rfl ?_ (fun e => by rw [hport]; rfl) (fun e _ => by rw [hport]; rfl)
    have hgone := (hs.ports p).endBound (ps' := (s.port p).removeHead.endTake m.bound) (slotsWithout_kept m.bound _) hbound
      (by rw [slotsWithout_same]; rfl) rfl rfl rfl rfl (HeadTaken.of_removeHead hm hlabel hq rfl)
    rw [hport]
    exact hgone.joinList hmoves.othersKept.of_without (by rw [slotsWithout_same]; rfl) hmoves.slot (.refl _) rfl rfl rfl

/-- An answer keeps copies in agreement, the lane being IDLE while an ARRIVAL awaits its answer (R127, R128). -/
theorem State.answerNotice_copiesSound (hs : s.copiesSound) (accepted : Bool)
    (hidle : (s.port p).outbound.tx ≠ .idle → (s.port p).headIsArrival = true → (s.port p).laneIdle = true) :
    (s.answerNotice p accepted).copiesSound := by
  have hoffer : ∀ t : State, t.copiesSound → (t.offer p).copiesSound := fun t ht =>
    State.modPort_copiesSound ht (PortState.offer_sameTransfers _ _)
  unfold State.answerNotice
  split
  · next tick n rest htx hq =>
    have hplain : n.arrivalLabel = none → (s.modPort p PortState.removeHead).copiesSound := fun hn =>
      State.modPort_copiesSound hs ⟨⟨rfl, rfl, rfl, by simp [PortState.arrivals, PortState.removeHead, hq, hn], .refl _⟩, rfl⟩
    cases n with
    | takeEnded | receipt | report => exact hoffer _ (hplain rfl)
    | arrival a =>
      cases accepted with
      | true =>
        exact hoffer _ (State.acceptArrival_copiesSound hs hq
          (hidle (by simp [htx]) (by simp [PortState.headIsArrival, hq, Notice.isArrival])))
      | false => exact hoffer _ (State.refuseArrival_copiesSound hs hq)
  · exact hs

end

end Sys2Proof.Machine
end

