-- ==== Sys2Proof/Proofs/CompletionKept.lean ====
section
/-! PROOFS. A SEND, a grant and the completion of a message, whatever its destination, keep copies in agreement with takes,
lists, lanes and ARRIVALs (R4, R28, R105, R162). -/

namespace Sys2Proof.Machine

section

variable {s t : State} {p q : Port} {d : DescNo}

/-! ### One copy is made and matched -/

/-- The counts of a message once a copy of it is in state `x`, just made (R8). -/
def Tally.withCopy (t : Tally) : SlotState → Tally
  | .settled o => t.count o
  | .absent | .waiting | .bound | .moving => t

/-- What matching at `q` does to the descriptors: the copy of `d` there is in state `x` (R28, R44, R45). -/
structure State.Matches (s : State) (d : DescNo) (q : Port) (x : SlotState) (t : State) : Prop where
  others : ∀ e, e ≠ d → t.desc e = s.desc e
  elsewhere : ∀ r, r ≠ q → (t.desc d).slots.get r = (s.desc d).slots.get r
  here : t.slotStates q d = x
  length : (t.desc d).length = (s.desc d).length
  tally : (t.desc d).tally = (s.desc d).tally.withCopy x

theorem State.newCopy_desc (s : State) (d : DescNo) (q : Port) : (s.newCopy d q).desc d = { s.desc d with
    slots := (s.desc d).slots.modify q (fun sl => { sl with deadline := (s.desc d).holdDeadline, passed := false }) } :=
  State.modDesc_desc_same s d (fun x => { x with
    slots := x.slots.modify q (fun sl => { sl with deadline := (s.desc d).holdDeadline, passed := false }) })

theorem State.newCopy_desc_other {e : DescNo} (he : e ≠ d) : (s.newCopy d q).desc e = s.desc e :=
  State.modDesc_desc_other s _ he

/-- A copy just made takes a place at its port. -/
theorem State.Matches.of_modSlot {u : State} {x : SlotState} (hx : x.live = true) (hu : ∀ e, u.desc e = (s.newCopy d q).desc e)
    (ht : ∀ e, t.desc e = (u.modSlot d q (fun sl => { sl with state := x })).desc e) : s.Matches d q x t := by
  have hd : t.desc d = { (s.newCopy d q).desc d with
      slots := ((s.newCopy d q).desc d).slots.modify q (fun sl => { sl with state := x }) } := by
    rw [ht, State.modSlot, State.modDesc_desc_same, hu]
  refine ⟨fun e he => ?_, fun r hr => ?_, ?_, ?_, ?_⟩
  · rw [ht, State.modSlot, State.modDesc_desc_other _ _ he, hu, State.newCopy_desc_other he]
  · rw [hd, State.newCopy_desc]
    simp [hr]
  · rw [State.slotStates, State.slot, hd]
    simp
  · rw [hd, State.newCopy_desc]
  · rw [hd, State.newCopy_desc]
    cases x with
    | absent | settled => cases hx
    | waiting | bound | moving => rfl

/-- A copy that is settled as it is made. -/
theorem State.Matches.of_settled (habsent : s.slotStates q d = .absent) (o : CopyOutcome) :
    s.Matches d q (.settled o) ((s.newCopy d q).settleCopy d q o) := by
  have hnot : (((s.newCopy d q).desc d).slots.get q).state.isSettled = false := by
    have hstate : (((s.newCopy d q).desc d).slots.get q).state = s.slotStates q d := by
      rw [State.newCopy_desc, PerPort.get_modify_same]
      rfl
    rw [hstate, habsent]
    rfl
  refine ⟨fun e he => ?_, fun r hr => ?_, ?_, ?_, ?_⟩
  · rw [State.settleCopy_desc_other _ _ _ he, State.newCopy_desc_other he]
  · rw [State.settleCopy_desc_same, Descriptor.settleCopy_otherSlot _ _ hr, State.newCopy_desc]
    simp [hr]
  · rw [State.slotStates, State.slot, State.settleCopy_desc_same, Descriptor.settleCopy_slot, hnot]
    rfl
  · rw [State.settleCopy_desc_same, Descriptor.settleCopy, hnot, State.newCopy_desc]
    rfl
  · rw [State.settleCopy_desc_same, Descriptor.settleCopy_tally, hnot, State.newCopy_desc]
    rfl

/-! ### The laws while a message is being matched -/

/-- The counts of a message agree with its SETTLED slots (R8). -/
def Descriptor.Tallied (x : Descriptor) : Prop :=
  x.tally.delivered + x.tally.cut + x.tally.expired + x.tally.dropped + x.tally.undeliverable + x.tally.stopped = x.settledCount

/-- The laws of copies, but those that the state of descriptor `d` has a part in. -/
structure State.CopiesBut (s : State) (d : DescNo) : Prop where
  ports : ∀ q, (s.port q).CopiesAgree (s.slotStates q) s.lengths
  descs : ∀ e, e ≠ d → (s.desc e).CopiesLawful
  tally : (s.desc d).Tallied

section Matches

variable {x : SlotState} (h : s.Matches d q x t)
include h

theorem State.Matches.othersKept : OthersKept d (s.slotStates q) (t.slotStates q) := fun e he => by
  rw [State.slotStates, State.slot, h.others e he]
  rfl

theorem State.Matches.slotStates_other {r : Port} (hr : r ≠ q) : t.slotStates r = s.slotStates r := funext fun e => by
  rw [State.slotStates, State.slot]
  by_cases he : e = d
  · subst he
    rw [h.elsewhere r hr]
    rfl
  · rw [h.others e he]
    rfl

theorem State.Matches.lengths : t.lengths = s.lengths := funext fun e => by
  rw [State.lengths]
  by_cases he : e = d
  · subst he
    rw [h.length]
    rfl
  · rw [h.others e he]
    rfl

theorem State.Matches.tallied (habsent : s.slotStates q d = .absent) (ht : (s.desc d).Tallied) : (t.desc d).Tallied := by
  have hcount := Descriptor.settledCount_of_slot h.elsewhere
  have hbefore : ((s.desc d).slots.get q).state.isSettled = false := by
    have : ((s.desc d).slots.get q).state = .absent := habsent
    rw [this]
    rfl
  have hafter : ((t.desc d).slots.get q).state = x := h.here
  rw [hbefore, hafter] at hcount
  unfold Descriptor.Tallied at ht ⊢
  rw [h.tally]
  cases x with
  | absent | waiting | bound | moving =>
    simp only [SlotState.isSettled, Bool.toNat_false, Tally.withCopy] at hcount ⊢
    omega
  | settled o =>
    simp only [SlotState.isSettled, Bool.toNat_true, Bool.toNat_false] at hcount ⊢
    rw [Tally.withCopy, Tally.count_sum]
    omega

/-- Matching keeps the laws, if it keeps those of its port's column. -/
theorem State.Matches.kept (hs : s.CopiesBut d) (habsent : s.slotStates q d = .absent) (hports : ∀ r, r ≠ q → t.port r = s.port r)
    (hown : (t.port q).CopiesAgree (t.slotStates q) s.lengths) : t.CopiesBut d := by
  refine ⟨fun r => ?_, fun e he => h.others e he ▸ hs.descs e he, h.tallied habsent hs.tally⟩
  rw [h.lengths]
  by_cases hr : r = q
  · exact hr ▸ hown
  · rw [hports r hr, h.slotStates_other hr]
    exact hs.ports r

end Matches

/-- The copy made for a port, with the column's other copies as they were. -/
theorem State.matchCopy_kept (hs : s.CopiesBut d) (habsent : s.slotStates q d = .absent) : (s.matchCopy d q).CopiesBut d := by
  have hports : ∀ r, r ≠ q → (s.matchCopy d q).port r = s.port r := fun r hr => s.matchCopy_port_other d hr
  have hdead : (s.slotStates q d).live = false := by rw [habsent]; rfl
  have hsettled : ∀ o, s.matchCopy d q = (s.newCopy d q).settleCopy d q o → (s.matchCopy d q).CopiesBut d := fun o h => by
    have hm : s.Matches d q (.settled o) (s.matchCopy d q) := h ▸ .of_settled habsent o
    refine hm.kept hs habsent hports ?_
    have hport : (s.matchCopy d q).port q = s.port q := by rw [h]; rfl
    rw [hport]
    refine (hs.ports q).congr (.refl _) (fun e => ?_) (fun u _ => rfl)
    by_cases he : e = d
    · subst he
      exact .inr ⟨by rw [hm.here]; rfl, hdead⟩
    · exact .inl (hm.othersKept e he)
  obtain ⟨-, h⟩ | ⟨-, ⟨ahead, u, behind, hposted, -, -, h⟩ | ⟨-, ⟨-, h⟩ | ⟨-, h⟩⟩⟩ := s.matchCopy_cases d q
  · exact hsettled _ h
  · let w := (s.newCopy d q).modPort q (fun ps => { ps with takes := { ps.takes with posted := ahead ++ behind } })
    have hw : w.port q = { s.port q with takes := { (s.port q).takes with posted := ahead ++ behind } } :=
      State.modPort_port_same _ q _
    have hlength : (w.desc d).length = s.lengths d := by
      show ((s.newCopy d q).desc d).length = _
      rw [State.newCopy_desc]
      rfl
    have hm : s.Matches d q .bound (s.matchCopy d q) :=
      .of_modSlot rfl (u := w) (fun _ => rfl) (fun e => by rw [h]; exact State.bindCopy_desc w q u.fields d e)
    have htakes := State.bindCopy_takes (s := w) (p := q) (d := d) (f := u.fields)
    rw [← h, hw, hlength] at htakes
    have hlist := State.bindCopy_unclaimed (s := w) (p := q) (d := d) (f := u.fields)
    rw [← h, hw] at hlist
    have hlane := State.bindCopy_lane (s := w) (p := q) (d := d) (f := u.fields)
    rw [← h, hw] at hlane
    have harrivals := State.bindCopy_arrivals (s := w) (p := q) (d := d) (f := u.fields)
    rw [← h, hw] at harrivals
    refine hm.kept hs habsent hports ((hs.ports q).bind hm.othersKept hdead hm.here hlist (congrArg TakeTable.matched htakes) ?_
      (congrArg Lane.owner hlane) harrivals)
    have hnd := (hs.ports q).labels_nodup
    rw [htakes]
    simp only [TakeTable.labels, hposted, List.map_append, List.map_cons, List.map_nil] at hnd ⊢
    refine List.Perm.nodup_iff ?_ |>.mp hnd
    simp only [List.append_assoc, List.cons_append]
    refine List.Perm.append_left _ ?_
    rw [← List.append_assoc]
    exact (List.perm_append_singleton _ _).symm
  · have hm : s.Matches d q .waiting (s.matchCopy d q) :=
      .of_modSlot rfl (u := (s.newCopy d q).modPort q (fun ps => { ps with unclaimed := ps.unclaimed ++ [d] })) (fun _ => rfl)
        (fun e => by rw [h])
    have hport : (s.matchCopy d q).port q = { s.port q with unclaimed := (s.port q).unclaimed ++ [d] } := by
      rw [h, State.modSlot_port, State.modPort_port_same]
      rfl
    refine hm.kept hs habsent hports ?_
    rw [hport]
    exact (hs.ports q).joinList hm.othersKept hdead hm.here (List.perm_append_singleton _ _) rfl rfl rfl
  · exact hsettled _ h

theorem State.matchCopy_matches (habsent : s.slotStates q d = .absent) : ∃ x, s.Matches d q x (s.matchCopy d q) := by
  obtain ⟨-, h⟩ | ⟨-, ⟨ahead, u, behind, -, -, -, h⟩ | ⟨-, ⟨-, h⟩ | ⟨-, h⟩⟩⟩ := s.matchCopy_cases d q <;> rw [h]
  · exact ⟨_, .of_settled habsent _⟩
  · exact ⟨.bound, .of_modSlot rfl (u := (s.newCopy d q).modPort q _) (fun _ => rfl)
      (State.bindCopy_desc ((s.newCopy d q).modPort q _) q u.fields d)⟩
  · exact ⟨.waiting, .of_modSlot rfl (u := (s.newCopy d q).modPort q _) (fun _ => rfl) (fun _ => rfl)⟩
  · exact ⟨_, .of_settled habsent _⟩

/-! ### All copies are made -/

theorem State.foldl_matchCopy_kept (qs : List Port) : ∀ s : State, qs.Nodup → s.CopiesBut d → (∀ q ∈ qs, s.slotStates q d = .absent) →
    (qs.foldl (fun t q => t.matchCopy d q) s).CopiesBut d ∧
      ∀ e, e ≠ d → (qs.foldl (fun t q => t.matchCopy d q) s).desc e = s.desc e := by
  induction qs with
  | nil => exact fun s _ hs _ => ⟨hs, fun _ _ => rfl⟩
  | cons q qs ih =>
    intro s hnd hs habsent
    obtain ⟨hq, hqs⟩ := List.nodup_cons.mp hnd
    have hq' := habsent q List.mem_cons_self
    obtain ⟨x, hm⟩ := State.matchCopy_matches hq'
    obtain ⟨hkept, hothers⟩ := ih (s.matchCopy d q) hqs (State.matchCopy_kept hs hq') (fun r hr => by
      rw [hm.slotStates_other (fun h => hq (h ▸ hr))]
      exact habsent r (List.mem_cons_of_mem q hr))
    exact ⟨hkept, fun e he => (hothers e he).trans (hm.others e he)⟩

theorem State.recipients_nodup (s : State) (d : DescNo) : (s.recipients d).Nodup := by
  unfold State.recipients
  split
  · exact List.nodup_singleton _
  · exact List.Nodup.filter _ (by decide)

theorem State.stamped_kept (hs : s.CopiesBut d) : (s.stamped d).CopiesBut d ∧ ∀ q, (s.stamped d).slotStates q = s.slotStates q := by
  have hother : ∀ e, e ≠ d → (s.stamped d).desc e = s.desc e := fun e he => State.modDesc_desc_other s _ he
  have hslots : ∀ q, (s.stamped d).slotStates q = s.slotStates q := fun q => funext fun e => by
    rw [State.slotStates, State.slot]
    by_cases he : e = d
    · subst he
      rw [State.stamped_desc]
      rfl
    · rw [hother e he]
      rfl
  have hlengths : (s.stamped d).lengths = s.lengths := funext fun e => by
    rw [State.lengths]
    by_cases he : e = d
    · subst he
      rw [State.stamped_desc]
      rfl
    · rw [hother e he]
      rfl
  refine ⟨⟨fun q => ?_, fun e he => hother e he ▸ hs.descs e he, ?_⟩, hslots⟩
  · rw [hslots, hlengths]
    exact hs.ports q
  · rw [State.stamped_desc]
    exact hs.tally

/-- Every recipient's copy is made, and the laws hold but for the state of the message (R4). -/
theorem State.matched_kept (hs : s.CopiesBut d) (habsent : ∀ q, s.slotStates q d = .absent) :
    (s.matched d).CopiesBut d ∧ ∀ e, e ≠ d → (s.matched d).desc e = s.desc e := by
  obtain ⟨hstamped, hslots⟩ := State.stamped_kept hs
  obtain ⟨hkept, hothers⟩ := State.foldl_matchCopy_kept _ (s.stamped d) ((s.stamped d).recipients_nodup d) hstamped
    (fun q _ => by rw [hslots, habsent])
  exact ⟨hkept, fun e he => (hothers e he).trans (State.modDesc_desc_other s _ he)⟩

/-- What a completion leaves: the laws of ports and descriptors, no message being gathered under `d` (R4). -/
structure State.Completed (s : State) (d : DescNo) (t : State) : Prop where
  ports : ∀ q, (t.port q).CopiesAgree (t.slotStates q) t.lengths
  descs : ∀ e, (t.desc e).CopiesLawful
  others : ∀ e, e ≠ d → t.desc e = s.desc e
  state : (t.desc d).state ≠ .gathering
  lanes : ∀ q, (t.port q).lane = (s.port q).lane

theorem State.complete_completed (hs : s.CopiesBut d) (habsent : ∀ q, s.slotStates q d = .absent) : s.Completed d (s.complete d) := by
  obtain ⟨hkept, hothers⟩ := State.matched_kept hs habsent
  have hlanes := fun q => s.complete_lane d q
  rw [State.complete_eq] at hlanes ⊢
  split at hlanes
  · next hlive =>
    rw [if_pos hlive]
    have hd : ((s.matched d).modDesc d (fun x => { x with state := .held })).desc d = { (s.matched d).desc d with state := .held } :=
      State.modDesc_desc_same _ d (fun x => { x with state := .held })
    have ho : ∀ e, e ≠ d → ((s.matched d).modDesc d (fun x => { x with state := .held })).desc e = (s.matched d).desc e :=
      fun e he => State.modDesc_desc_other _ _ he
    refine ⟨fun q => ?_, fun e => ?_, fun e he => (ho e he).trans (hothers e he), by rw [hd]; simp, hlanes⟩
    · refine (hkept.ports q).congr (.refl _) (fun e => .inl ?_) (fun u _ => ?_)
      · rw [State.slotStates, State.slot]
        by_cases he : e = d
        · subst he
          rw [hd]
          rfl
        · rw [ho e he]
          rfl
      · rw [State.lengths]
        by_cases he : u.bound = d
        · rw [he, hd]
          rfl
        · rw [ho _ he]
          rfl
    · by_cases he : e = d
      · subst he
        rw [hd]
        exact ⟨iff_of_true rfl hlive, fun hne => absurd rfl hne, hkept.tally⟩
      · rw [ho e he]
        exact hkept.descs e he
  · next hdead =>
    rw [if_neg hdead]
    have hfreed := (s.matched d).settleDescriptor_freed d
    have hnone := ((s.matched d).desc d).liveCount_eq_zero_iff.mp (Nat.eq_zero_of_not_pos hdead)
    refine ⟨fun q => ?_, fun e => ?_, fun e he => (hfreed.others e he).trans (hothers e he), by rw [hfreed.freed]; simp [Descriptor.freed],
      hlanes⟩
    · rw [State.settleDescriptor_port_eq]
      refine (hkept.ports q).congr (PortState.receive_sameTransfers _ _ _).toSameCopies (fun e => ?_) (fun u _ => ?_)
      · by_cases he : e = d
        · subst he
          refine .inr ⟨?_, hnone q⟩
          rw [State.slotStates, State.slot, hfreed.freed, Descriptor.freed_slot]
          rfl
        · refine .inl ?_
          rw [State.slotStates, State.slot, hfreed.others e he]
          rfl
      · rw [State.lengths]
        by_cases he : u.bound = d
        · rw [he, hfreed.freed]
          rfl
        · rw [hfreed.others _ he]
          rfl
    · by_cases he : e = d
      · subst he
        rw [hfreed.freed]
        exact Descriptor.freed_lawful _
      · rw [hfreed.others e he]
        exact hkept.descs e he

/-! ### SEND -/

theorem State.copiesSound.blank (hs : s.copiesSound) (h : (s.desc d).state ≠ .held) (q : Port) : s.slotStates q d = .absent := by
  obtain ⟨hslots, -⟩ := hs.unheld_blank d h
  rw [State.slotStates, State.slot, hslots, PerPort.get_replicate]
  rfl

/-- A MATCHED take's copy is live (R29). -/
theorem PortState.CopiesAgree.live_of_matched {slot : DescNo → SlotState} {len : DescNo → Nat} {ps : PortState}
    (h : ps.CopiesAgree slot len) {u : MatchedTake} (hu : u ∈ ps.takes.matched) : (slot u.bound).live = true := by
  obtain h' | h' := (h.matched_iff u.bound).mpr (List.mem_map.mpr ⟨u, hu, rfl⟩) <;> rw [h'] <;> rfl

/-- A message just allocated has no copies (R2). -/
theorem Descriptor.allocated_lawful (x : Descriptor) (p : Port) (epoch : Byte) (f : SendFields) (chain : List Nat) :
    (x.allocated p epoch f chain).CopiesLawful where
  held_iff := iff_of_false (by simp [Descriptor.allocated]) fun h => by
    obtain ⟨q, hq⟩ := (x.allocated p epoch f chain).liveCount_pos_iff.mp h
    simp [Descriptor.allocated, CopySlot.empty, SlotState.live] at hq
  unheld_blank _ := ⟨rfl, rfl⟩
  tally_sum := by
    rw [Descriptor.settledCount_eq_sum]
    rfl

theorem State.allotted_port (s : State) (p : Port) (f : SendFields) (d : DescNo) (q : Port) : (s.allotted p f d).port q =
    if q = p then (s.port p).bookIf f.receiptWanted else s.port q := by
  rw [State.allotted_eq]
  by_cases hq : q = p
  · subst hq
    rw [State.modPort_port_same, if_pos rfl]
    rfl
  · rw [State.modPort_port_other _ _ hq, if_neg hq]
    rfl

theorem State.allotted_lane (s : State) (p : Port) (f : SendFields) (d : DescNo) (q : Port) :
    ((s.allotted p f d).port q).lane = (s.port q).lane := by
  rw [State.allotted_port]
  split
  · next h => rw [h]; rfl
  · rfl

theorem State.allotted_blank {f : SendFields} (q : Port) : (s.allotted p f d).slotStates q d = .absent := by
  rw [State.slotStates, State.slot, State.allotted_desc_same, Descriptor.allocated, PerPort.get_replicate]
  rfl

theorem State.copiesSound.no_lane (hs : s.copiesSound) (hfree : (s.desc d).state = .free) (q : Port) :
    (s.port q).lane.owner ≠ .inbound d := fun h => by
  have := ((hs.inbound d q).iff.mp h).1
  rw [hfree] at this
  cases this

section Send

variable {f : SendFields} (hs : s.copiesSound) (hfree : (s.desc d).state = .free)
include hs hfree

/-- A descriptor taken for a SEND has no copies yet, and the others keep theirs (R105). -/
theorem State.allotted_kept : (s.allotted p f d).CopiesBut d := by
  obtain ⟨hports, hdescs, -⟩ := s.copiesSound_iff.mp hs
  refine ⟨fun q => ?_, fun e he => by rw [State.allotted_desc_other he]; exact hdescs e, ?_⟩
  · have hsame : (s.port q).SameCopies ((s.allotted p f d).port q) := by
      rw [State.allotted_port]
      split
      · next h => exact h ▸ ⟨rfl, rfl, rfl, rfl, .refl _⟩
      · exact .refl _
    refine (hports q).congr hsame (fun e => ?_) (fun u hu => ?_)
    · by_cases he : e = d
      · subst he
        exact .inl ((State.allotted_blank q).trans (hs.blank (by simp [hfree]) q).symm)
      · refine .inl ?_
        rw [State.slotStates, State.slot, State.allotted_desc_other he]
        rfl
    · have hlive := (hports q).live_of_matched hu
      have hne : u.bound ≠ d := fun h => by
        rw [h, hs.blank (by simp [hfree]) q] at hlive
        cases hlive
      rw [State.lengths, State.allotted_desc_other hne]
      rfl
  · rw [State.allotted_desc_same]
    exact (Descriptor.allocated_lawful _ _ _ _ _).tally_sum

/-- A SEND of nothing is completed at once (R106). -/
theorem State.allotted_complete_copiesSound : ((s.allotted p f d).complete d).copiesSound := by
  have hdone := State.complete_completed (State.allotted_kept (p := p) (f := f) hs hfree) State.allotted_blank
  refine (State.copiesSound_iff _).mpr ⟨hdone.ports, hdone.descs, fun e q => ?_⟩
  have hlane : (((s.allotted p f d).complete d).port q).lane = (s.port q).lane := (hdone.lanes q).trans (s.allotted_lane p f d q)
  by_cases he : e = d
  · subst he
    have hne := State.copiesSound.no_lane hs hfree q
    exact ⟨by rw [hlane]; exact iff_of_false hne fun h => hdone.state h.1, by rw [hlane]; exact fun h => absurd h hne⟩
  · rw [hdone.others e he, State.allotted_desc_other he]
    exact ⟨by rw [hlane]; exact (hs.inbound e q).iff, by rw [hlane]; exact (hs.inbound e q).count⟩

/-- A SEND claims the IDLE lane for its message (R105, R155). -/
theorem State.allotted_claimLane_copiesSound (hidle : (s.port p).lane.owner = .idle) :
    ((s.allotted p f d).claimLane p (.inbound d) f.length).copiesSound := by
  have hkept := State.allotted_kept (p := p) (f := f) hs hfree
  let u := (s.allotted p f d).claimLane p (.inbound d) f.length
  have hother : ∀ q, q ≠ p → u.port q = (s.allotted p f d).port q := fun q hq => State.modPort_port_other _ _ hq
  have hport : u.port p = { (s.allotted p f d).port p with lane := (u.port p).lane } := by
    simp only [u, State.claimLane, State.modPort_port_same]
  have howner : (u.port p).lane.owner = .inbound d := by simp only [u, State.claimLane, State.modPort_port_same]
  have hpool : (u.port p).lane.poolCount = f.length := by simp only [u, State.claimLane, State.modPort_port_same]
  have hdesc : ∀ e, u.desc e = (s.allotted p f d).desc e := fun _ => rfl
  refine (State.copiesSound_iff u).mpr ⟨fun q => ?_, fun e => ?_, fun e q => ?_⟩
  · by_cases hq : q = p
    · subst hq
      refine (hkept.ports q).withOwner (fun e => ?_) (by rw [hport]) (by rw [hport]) (by rw [hport]; rfl)
      rw [howner, State.allotted_lane, hidle]
      simp
    · rw [hother q hq]
      exact hkept.ports q
  · rw [hdesc]
    by_cases he : e = d
    · subst he
      rw [State.allotted_desc_same]
      exact Descriptor.allocated_lawful _ _ _ _ _
    · exact hkept.descs e he
  · rw [hdesc]
    by_cases he : e = d
    · subst he
      rw [State.allotted_desc_same]
      by_cases hq : q = p
      · subst hq
        exact ⟨iff_of_true howner ⟨rfl, rfl⟩, fun _ => by rw [hpool]; exact Nat.zero_add _⟩
      · have hne : (u.port q).lane.owner ≠ .inbound e := by
          rw [hother q hq, State.allotted_lane]
          exact State.copiesSound.no_lane hs hfree q
        exact ⟨iff_of_false hne fun h => hq h.2.symm, fun h => absurd h hne⟩
    · rw [State.allotted_desc_other he]
      by_cases hq : q = p
      · subst hq
        have hne : (u.port q).lane.owner ≠ .inbound e := by
          rw [howner]
          exact fun h => he (LaneOwner.inbound.inj h).symm
        exact ⟨iff_of_false hne (hs.not_gathering (by simp [hidle])), fun h => absurd h hne⟩
      · rw [hother q hq]
        exact ⟨by rw [State.allotted_lane]; exact (hs.inbound e q).iff, by rw [State.allotted_lane]; exact (hs.inbound e q).count⟩

end Send

theorem State.doSend_copiesSound {f : SendFields} (hs : s.copiesSound) (hcheck : s.checkSend p f = .ok d) : (s.doSend p f d).copiesSound := by
  obtain ⟨hfree, -⟩ := State.checkSend_allocation hcheck
  rw [State.doSend_eq]
  split
  · exact State.allotted_claimLane_copiesSound hs hfree (State.checkSend_lane hcheck).1
  · exact State.allotted_complete_copiesSound hs hfree

/-! ### Grants -/

theorem State.chunkStored_port_other {n : Nat} (hq : q ≠ p) : (s.chunkStored p d n).port q = s.port q := PerPort.get_set_other _ _ hq

theorem State.chunkStored_port_same (s : State) (p : Port) (d : DescNo) (n : Nat) : (s.chunkStored p d n).port p =
    { s.port p with lane := (s.port p).lane.afterGrant ((s.port p).lane.fifo.drop n) n } := PerPort.get_set_same _ _ _

/-- A chunk stored makes up for what the pool count falls by (R162). -/
theorem State.chunkStored_copiesSound {n : Nat} (hs : s.copiesSound) (howner : (s.port p).lane.owner = .inbound d)
    (hn : n ≤ (s.port p).lane.poolCount) : (s.chunkStored p d n).copiesSound := by
  obtain ⟨hports, hdescs, hin⟩ := s.copiesSound_iff.mp hs
  have hother : ∀ e, e ≠ d → (s.chunkStored p d n).desc e = s.desc e := fun e he => vector_get_set_other s.descs _ he
  refine (State.copiesSound_iff _).mpr ⟨fun q => ?_, fun e => ?_, fun e q => ?_⟩
  · have hsame : (s.port q).SameCopies ((s.chunkStored p d n).port q) := by
      by_cases hq : q = p
      · subst hq
        rw [State.chunkStored_port_same]
        exact ⟨rfl, rfl, rfl, rfl, .refl _⟩
      · rw [State.chunkStored_port_other hq]
        exact .refl _
    refine (hports q).congr hsame (fun e => .inl ?_) (fun u _ => ?_)
    · rw [State.slotStates, State.slot]
      by_cases he : e = d
      · subst he
        rw [State.chunkStored_desc]
        rfl
      · rw [hother e he]
        rfl
    · rw [State.lengths]
      by_cases he : u.bound = d
      · rw [he, State.chunkStored_desc]
        rfl
      · rw [hother _ he]
        rfl
  · by_cases he : e = d
    · subst he
      rw [State.chunkStored_desc]
      exact ⟨(hdescs e).held_iff, (hdescs e).unheld_blank, (hdescs e).tally_sum⟩
    · rw [hother e he]
      exact hdescs e
  · obtain ⟨hiff, hcount⟩ := hin e q
    by_cases hq : q = p
    · subst hq
      rw [State.chunkStored_port_same]
      by_cases he : e = d
      · subst he
        rw [State.chunkStored_desc]
        refine ⟨hiff, fun h => ?_⟩
        have := hcount h
        show (s.desc e).bytesInPool + n + ((s.port q).lane.poolCount - n) = (s.desc e).length
        omega
      · rw [hother e he]
        exact ⟨hiff, fun h => absurd (LaneOwner.inbound.inj (howner.symm.trans h)) (Ne.symm he)⟩
    · rw [State.chunkStored_port_other hq]
      by_cases he : e = d
      · subst he
        rw [State.chunkStored_desc]
        refine ⟨hiff, fun h => absurd ?_ hq⟩
        exact (hiff.mp h).2.symm.trans ((hin e p).iff.mp howner).2
      · rw [hother e he]
        exact ⟨hiff, hcount⟩

/-- The message of an INBOUND lane completes, and the lane returns to IDLE (R163). -/
theorem State.complete_returnLane_copiesSound (hs : s.copiesSound) (howner : (s.port p).lane.owner = .inbound d) :
    ((s.complete d).returnLane p).copiesSound := by
  obtain ⟨hports, hdescs, hin⟩ := s.copiesSound_iff.mp hs
  obtain ⟨hgathering, hsender⟩ := (hin d p).iff.mp howner
  have hdone := State.complete_completed ⟨hports, fun e _ => hdescs e, (hdescs d).tally_sum⟩ (hs.blank (by simp [hgathering]))
  rw [State.returnLane_spec]
  have hsame := State.modPort_port_same (s.complete d) p (fun ps => ps.idleLane.offer (s.complete d).tickCount)
  refine (State.copiesSound_iff _).mpr ⟨fun q => ?_, hdone.descs, fun e q => ?_⟩
  · by_cases hq : q = p
    · subst hq
      rw [hsame]
      have hidle : ((s.complete d).port q).idleLane.CopiesAgree ((s.complete d).slotStates q) (s.complete d).lengths := by
        refine (hdone.ports q).withOwner (fun e => ?_) rfl rfl rfl
        rw [hdone.lanes, howner]
        simp
      exact hidle.congr (PortState.offer_sameTransfers _ _).toSameCopies (fun _ => .inl rfl) (fun _ _ => rfl)
    · rw [State.modPort_port_other _ _ hq]
      exact hdone.ports q
  · rw [State.modPort_desc]
    by_cases hq : q = p
    · subst hq
      rw [hsame]
      refine inboundAgrees_of_idle (by rw [(PortState.offer_onlyNotices _ _).lane]; rfl) ?_
      by_cases he : e = d
      · subst he
        exact fun h => hdone.state h.1
      · rw [hdone.others e he]
        exact hs.not_gathering fun h => he (LaneOwner.inbound.inj (howner.symm.trans h)).symm
    · rw [State.modPort_port_other _ _ hq]
      by_cases he : e = d
      · subst he
        have hne : ((s.complete e).port q).lane.owner ≠ .inbound e := by
          rw [hdone.lanes]
          exact fun h => hq (((hin e q).iff.mp h).2.symm.trans hsender)
        exact ⟨iff_of_false hne fun h => hdone.state h.1, fun h => absurd h hne⟩
      · rw [hdone.others e he]
        exact ⟨by rw [hdone.lanes]; exact (hin e q).iff, by rw [hdone.lanes]; exact (hin e q).count⟩

theorem State.grantTo_copiesSound (hs : s.copiesSound) (p : Port) : (s.grantTo p).copiesSound := by
  cases howner : (s.port p).lane.owner with
  | idle => simpa only [State.grantTo, howner] using hs
  | inbound d =>
    have hstored := State.chunkStored_copiesSound hs howner
      (chunkSize_le (s.port p).lane.poolCount (s.desc d).bytesInPool (s.port p).lane.fifo.length).1
    rw [State.grantTo_inbound howner]
    split
    · refine State.complete_returnLane_copiesSound hstored ?_
      rw [State.chunkStored_port_same]
      exact howner
    · exact hstored
  | outbound d =>
    simp only [State.grantTo, howner, State.grantOutbound]
    let u : State := { s with pointer := p }
    have hu : u.copiesSound := hs.congr (fun _ => rfl) (fun _ => .refl _)
    refine hu.ends (p := p) (fun e => .same rfl) (fun q hq => ?_) ?_ (fun e => ?_)
    · rw [State.modPort_port_other _ _ hq]
      exact .refl _
    · rw [State.modPort_port_same]
      exact (hu.ports p).congr ⟨rfl, rfl, rfl, rfl, .refl _⟩ (fun _ => .inl rfl) (fun _ _ => rfl)
    · rw [State.modPort_port_same]
      refine ⟨(hu.inbound e p).iff, fun h => ?_⟩
      have hout : (s.port p).lane.owner = .inbound e := h
      rw [howner] at hout
      cases hout

end

end Sys2Proof.Machine
end

