-- ==== Sys2Proof/Proofs/PartSound.lean ====
section
/-! PROOFS. Every happening and the hard reset keep the laws of the part together (O60). -/

namespace Sys2Proof.Machine

section

variable {s t : State} {p : Port} {d : DescNo}

/-! ### Copies -/

theorem State.advance_copiesSound (hs : s.copiesSound) : s.advance.copiesSound := by
  refine hs.congr (fun _ => rfl) fun q => ?_
  have hport : s.advance.port q = (s.port q).oweGrant := PerPort.get_map _ _ _
  rw [hport]
  exact .of_eq rfl rfl rfl rfl rfl

theorem State.expireHolds_copiesSound (hs : s.copiesSound) (p : Port) : (s.expireHolds p).copiesSound := by
  unfold State.expireHolds
  split
  · exact (State.foldl_expireCopy p _ s hs ((hs.list_nodup p).filter _) fun d hd => (List.mem_filter.mp hd).1).copies
  · exact hs

/-- What the copies do not see leaves the lane's owner. -/
theorem State.modPort_owner {f : PortState → PortState} (h : (s.port p).SameTransfers (f (s.port p))) :
    ((s.modPort p f).port p).lane.owner = (s.port p).lane.owner := by
  rw [State.modPort_port_same]
  exact h.owner

/-- Every happening keeps copies in agreement with takes, lists, lanes and ARRIVALs. -/
theorem State.Happening.copiesSound (h : s.Happening t) (hlanes : s.lanesSound) (hs : s.copiesSound) : t.copiesSound := by
  cases h with
  | idle t hports hdescs hgroups hpool =>
    have hdesc : ∀ d, t.desc d = s.desc d := fun d => by rw [State.desc, hdescs, State.desc]
    have hport : ∀ q, t.port q = s.port q := fun q => by rw [State.port, hports, State.port]
    exact hs.congr hdesc fun q => hport q ▸ .refl _
  | advance => exact State.advance_copiesSound hs
  | quiet p f hchange hsame => exact State.modPort_copiesSound hs hsame
  | membership | configure => exact hs.congr (fun _ => rfl) fun _ => .refl _
  | send p f d hopen hhold hcheck => exact State.doSend_copiesSound hs hcheck
  | take p f hopen h16 hlabel h24 => exact State.doTake_copiesSound hs hlabel
  | answer p accepted => exact State.answerNotice_copiesSound hs accepted (hlanes p).2
  | abandon p d f howner hsame =>
    exact State.abandonTransfer_copiesSound (State.modPort_copiesSound hs hsame) ((State.modPort_owner hsame).trans howner)
  | endDelivery p d o f howner hsame =>
    exact State.endDelivery_copiesSound (State.modPort_copiesSound hs hsame) ((State.modPort_owner hsame).trans howner)
  | expireHolds p => exact State.expireHolds_copiesSound hs p
  | markHolds p => exact State.markHolds_copiesSound hs p
  | endSession p cause x hcause =>
    have hsession : ∀ (u : State) (f : PortState → PortState), u.copiesSound → (∀ ps : PortState, ps.SameTransfers (f ps)) →
        (u.modPort p f).copiesSound := fun u f hu hf => State.modPort_copiesSound hu (hf _)
    refine hsession _ _ (State.teardown_copiesSound (hsession _ _ hs fun ps => ?_) p) fun ps => ?_
    · exact .of_eq rfl rfl rfl rfl rfl
    · exact .of_eq rfl rfl rfl rfl rfl
  | grant p => exact State.grantTo_copiesSound hs p

/-! ### All laws together -/

theorem State.sound.books (hs : s.sound) : s.Books := by
  obtain ⟨hperm, hrising, hlength, hheld, -⟩ := hs.segments
  exact ⟨⟨hperm, hrising, hlength, hheld⟩, hs.reserves, hs.holds, hs.memory⟩

theorem State.sound.inbound_allocated (hs : s.sound) (p : Port) (d : DescNo) (h : (s.port p).lane.owner = .inbound d) :
    (s.desc d).state ≠ .free := by
  simp [((hs.copies.inbound_iff d p).mp h).1]

/-- The laws of the blocks make up the law of the part. -/
theorem State.sound.of_books (hb : s.Books) (hslots : s.slotsBooked) (hlanes : s.lanesSound) (hin : ∀ p, (s.port p).inbound.sound)
    (hsessions : s.sessionsSound) (hout : s.outboundSound) (hcopies : s.copiesSound) : s.sound where
  holds := hb.holds
  slots := hslots
  lanes := hlanes
  segments := ⟨hb.ledger.perm, hb.ledger.rising, hb.ledger.length, hb.ledger.held, fun p d => (hcopies.inbound_iff d p).mp⟩
  reserves := hb.covered
  inbound := hin
  sessions := hsessions
  outbound := hout
  copies := hcopies
  memory := hb.memory

theorem State.Happening.sound (h : s.Happening t) (hs : s.sound) : t.sound := by
  obtain ⟨hsessions, hout⟩ := h.changes.sessionsSound hs.sessions hs.outbound
  exact .of_books (h.books hs.inbound_allocated hs.books) (h.changes.slotsBooked hs.slots)
    (h.changes.lanesSound hs.outbound hs.lanes) (h.changes.inbound hs.inbound) hsessions hout (h.copiesSound hs.lanes hs.copies)

/-! ### The hard reset -/

/-- Every block is at its hard-reset values, whatever the straps and the bytes of the segments are (R182). -/
structure State.IsReset (s : State) : Prop where
  port : ∀ p, ∃ w, s.port p = PortState.reset w
  desc : ∀ d, s.desc d = Descriptor.reset
  members : ∀ g p, (s.members g).get p = false
  pool : s.pool = { Pool.reset with mem := s.pool.mem }

theorem execHardReset_isReset {straps : Straps} (h : execHardReset straps s = .next t) : t.IsReset ∧ t.pool.mem = s.pool.mem := by
  cases h
  refine ⟨⟨fun q => ⟨_, PerPort.get_map _ _ _⟩, fun d => ?_, fun g q => ?_, rfl⟩, rfl⟩
  · simp [State.desc, State.reset]
  · simp [State.members, State.reset]

section Reset

variable (h : s.IsReset)
include h

theorem State.IsReset.books (hmem : s.pool.mem.wf = true) : s.Books := by
  have hchained : s.chained = [] := by
    simp [State.chained, h.desc, Descriptor.reset]
  refine ⟨⟨?_, ?_, fun d => ?_, fun q => ?_⟩, ?_, fun d => ?_, hmem⟩
  · rw [hchained, List.append_nil, h.pool]
    exact .refl _
  · rw [h.pool]
    exact List.pairwise_lt_range
  · simp [h.desc, Descriptor.reset]
  · rw [h.pool, State.charged]
    simp [h.desc, Descriptor.reset, Pool.reset]
  · rw [h.pool]
    simp [Pool.covered, Pool.reset, Pool.unmet, Port.all]
  · simp [h.desc, Descriptor.reset]

theorem State.IsReset.copiesSound : s.copiesSound := by
  have habsent : ∀ q e, s.slotStates q e = .absent := fun q e => by
    simp [State.slotStates, State.slot, h.desc, Descriptor.reset, CopySlot.empty]
  refine (State.copiesSound_iff s).mpr ⟨fun q => ?_, fun d => ?_, fun d q => ?_⟩
  · obtain ⟨w, hw⟩ := h.port q
    rw [hw]
    exact PortState.copiesAgree_of_empty (fun e => by rw [habsent]; rfl) rfl rfl rfl rfl
  · rw [h.desc]
    refine ⟨iff_of_false (by simp [Descriptor.reset]) fun hlive => ?_, fun _ => ⟨rfl, rfl⟩, ?_⟩
    · obtain ⟨q, hq⟩ := (Descriptor.liveCount_pos_iff _).mp hlive
      simp [Descriptor.reset, CopySlot.empty, SlotState.live] at hq
    · rw [Descriptor.settledCount_eq_sum]
      rfl
  · obtain ⟨w, hw⟩ := h.port q
    rw [hw]
    exact inboundAgrees_of_idle rfl (by simp [h.desc, Descriptor.reset])

theorem State.IsReset.sound (hmem : s.pool.mem.wf = true) : s.sound := by
  refine .of_books (h.books hmem) (fun q => ?_) (fun q => ?_) (fun q => ?_) (fun q => ?_) (fun q => ?_) h.copiesSound
  all_goals obtain ⟨w, hw⟩ := h.port q
  · simp [hw, PortState.slotsBooked, PortState.reset, TakeTable.liveCount]
  · simp [hw, Lane.sound, PortState.reset, Lane.reset, OutboundSide.reset]
  · rw [hw]
    exact InboundSide.reset_sound
  · simp [hw, PortState.sessionless, PortState.reset, SessionControl.reset, Lane.reset, h.members]
  · simp [hw, PortState.outboundSound, PortState.reset, OutboundSide.reset]

end Reset

end

/-- Settles O60: a step is a run of happenings, each of which keeps the laws, or a hard reset. -/
theorem stepKeepsThePartSound : Obligations.StepKeepsThePartSound := by
  intro s t hs hstep
  obtain hrun | ⟨straps, rest, hreset⟩ := State.step_happenings hstep
  · exact hrun.keeps (fun _ _ h => h.sound) hs
  · obtain ⟨hisReset, hmem⟩ := execHardReset_isReset hreset
    exact hisReset.sound (hmem ▸ hs.memory)

end Sys2Proof.Machine
end

