-- ==== Sys2Proof/Proofs/SlotAccount.lean ====
section
/-! PROOFS. The account of notice slots, takes and waiting copies over every step (O54). -/

namespace Sys2Proof.Machine

theorem PortState.reset_slotsBooked (w : Width) : (PortState.reset w).slotsBooked := by
  simp [PortState.slotsBooked, PortState.reset, TakeTable.liveCount]

/-- Settles O54: a step is a run of changes of the port columns, each of which keeps its column's account, or a hard
reset, which empties every column. -/
theorem stepKeepsSlotsBooked : Obligations.StepKeepsSlotsBooked := by
  intro s t hs hstep
  obtain hrun | ⟨straps, rest, hreset⟩ := State.step_happenings hstep
  · exact hrun.changes.slotsBooked hs
  · intro q
    obtain ⟨w, hw⟩ := (execHardReset_isReset hreset).1.port q
    rw [hw]
    exact PortState.reset_slotsBooked w

end Sys2Proof.Machine
end

