-- ==== Sys2Proof/Proofs/Takes.lean ====
section
/-! PROOFS. Takes that find no copy, that are cancelled or expire, and the filter that matches them (O11, O13, O17,
O43). -/

namespace Sys2Proof.Machine

/-! ### The filter -/

/-- Two bytes agree under a mask exactly when they agree in each bit the mask has. -/
theorem and_mask_eq_iff (x v m : Byte) :
    x &&& m = v &&& m ↔ ∀ i : Nat, i < 8 → m.getLsbD i = true → x.getLsbD i = v.getLsbD i := by
  constructor
  · intro h i _ hm
    have hbit := congrArg (fun b : Byte => b.getLsbD i) h
    simpa [hm] using hbit
  · intro h
    refine BitVec.eq_of_getLsbD_eq fun i hi => ?_
    cases hm : m.getLsbD i with
    | false => simp [hm]
    | true => simp [hm, h i hi hm]

/-- Settles O17. -/
theorem filterTestsTheMaskedChannel : Obligations.FilterTestsTheMaskedChannel := by
  intro f x
  rw [← and_mask_eq_iff, TakeFields.accepts, Bool.and_eq_true, beq_iff_eq]
  cases f.source <;> simp

/-! ### A TAKE without a copy -/

theorem deadlineAfter_toNat (now : Tick) (n : Half) : deadlineAfter now n.toNat = now + n.setWidth 32 := by
  rw [deadlineAfter, BitVec.ofNat_toNat]

/-- The deadline of a TAKE's fields, from its timeout as the block carries it (R24). -/
theorem takeFieldsOf_deadline (label : Half) (src : Option Port) (value mask : Byte) (capacity timeout : Half) (now : Tick) :
    (takeFieldsOf label src value mask capacity timeout).deadline now =
      if timeout = 0 then none else some (now + timeout.setWidth 32) := by
  have hzero : 0 < timeout.toNat ↔ ¬ timeout = 0 := by
    rw [BitVec.toNat_eq]
    exact Nat.pos_iff_ne_zero
  simp only [TakeFields.deadline, takeFieldsOf, deadlineAfter_toNat, hzero, ite_not]

/-- A TAKE whose search finds nothing books a slot and joins the posting order (R25). -/
theorem State.doTake_of_no_match {s : State} {p : Port} {f : TakeFields}
    (hnone : ∀ d ∈ (s.port p).unclaimed, f.accepts (s.desc d) = false) :
    s.doTake p f = s.modPort p (fun ps => { ps.bookSlot with takes := { ps.takes with
      posted := ps.takes.posted ++ [{ fields := f, deadline := f.deadline s.tickCount }] } }) := by
  have hfind : (s.port p).unclaimed.find? (fun d => f.accepts (s.desc d)) = none :=
    List.find?_eq_none.mpr fun d hd => by simp [hnone d hd]
  rw [State.doTake, hfind]
  exact s.modPort_modPort p _ _

/-- Settles O11. -/
theorem takeIsPosted : Obligations.TakeIsPosted := by
  intro s p label source value mask capacity timeout src hrun hpass hsrc f hnone
  show Host.Outcome.next (s.unlessInReset (s.answerRequest p (s.acceptTake p label source value mask capacity timeout))) = _
  rw [State.unlessInReset_released s _ hrun, State.acceptTake_of_checks hpass hsrc]
  show Host.Outcome.next ((s.doTake p f).post p none) = _
  rw [State.doTake_of_no_match hnone, State.post, State.modPort_modPort, ← takeFieldsOf_deadline label src value mask capacity]
  rfl

/-! ### CANCEL -/

/-- A CANCEL whose checks all pass is accepted (R111). -/
theorem State.acceptCancel_of_checks {s : State} {p : Port} {label : Half}
    (hpass : firstFailure (s.checks p (.cancel label)) = none) :
    s.acceptCancel p label = .ok ((s.modPort p (PortState.dropPosted label)).appendNotice p (.takeEnded label .cancelled)) := by
  have hall := firstFailure_eq_none.mp hpass
  simp only [State.checks, List.forall_mem_append, List.forall_mem_cons, failsIf, PortState.labelLive_eq] at hall
  obtain ⟨hsession, hlive, hmatched, -⟩ := hall
  have hopen := sessionRefusal_eq_none.mpr (State.sessionChecks_pass hsession)
  simp only [State.acceptCancel, hopen, hlive, hmatched, Bool.false_eq_true, if_false]

/-- The take with a label leaves the posting order, and the others keep theirs (R33). -/
theorem PortState.dropPosted_of_split {ps : PortState} {label : Half} {ahead behind : List PostedTake} {t : PostedTake}
    (hposted : ps.takes.posted = ahead ++ t :: behind) (ht : t.fields.label = label)
    (hahead : ∀ u ∈ ahead, u.fields.label ≠ label) :
    ps.dropPosted label = { ps with takes := { ps.takes with posted := ahead ++ behind } } := by
  have herase : (ahead ++ t :: behind).eraseP (fun u => u.fields.label == label) = ahead ++ behind := by
    rw [List.eraseP_append_right _ fun u hu => by simpa using hahead u hu, List.eraseP_cons_of_pos (by simpa using ht)]
  rw [PortState.dropPosted, hposted, herase]

/-- Settles O13. -/
theorem cancelEndsAPostedTake : Obligations.CancelEndsAPostedTake := by
  intro s p label ahead behind t hrun hpass hposted ht hahead
  show Host.Outcome.next (s.unlessInReset (s.answerRequest p (s.acceptCancel p label))) = _
  rw [State.unlessInReset_released s _ hrun, State.acceptCancel_of_checks hpass, ← PortState.dropPosted_of_split hposted ht hahead]
  simp only [State.answerRequest, State.post, State.appendNotice, State.modPort_modPort]
  rfl

/-! ### Deadlines of takes -/

theorem State.exec_takeDeadline {s : State} (hrun : s.resetAsserted = false) (p : Port) :
    exec (.takeDeadline p) s = .next (s.expireTakes p) := by
  show Host.Outcome.next (s.unlessInReset (s.expireTakes p)) = _
  rw [State.unlessInReset_released s _ hrun]

/-- The takes whose deadline is reached leave the posting order together, or there is none and nothing changes (R34). -/
theorem State.expireTakes_cases (s : State) (p : Port) :
    ((s.port p).takes.posted.filter (PostedTake.reached s.tickCount) = [] ∧ s.expireTakes p = s) ∨
    ((s.port p).takes.posted.filter (PostedTake.reached s.tickCount) ≠ [] ∧ s.expireTakes p = s.modPort p (fun ps =>
      PortState.append s.tickCount
        (((s.port p).takes.posted.filter (PostedTake.reached s.tickCount)).map fun t => .takeEnded t.fields.label .expired)
        { ps with takes := { ps.takes with posted := ps.takes.posted.filter (fun t => !t.reached s.tickCount) } })) := by
  unfold State.expireTakes
  simp only
  split
  · next h => exact .inl ⟨List.isEmpty_iff.mp h, rfl⟩
  · next h => exact .inr ⟨fun hnil => h (List.isEmpty_iff.mpr hnil), rfl⟩

/-- Settles O43. -/
theorem takeDeadlineEndsTheDueTakes : Obligations.TakeDeadlineEndsTheDueTakes := by
  intro s p hrun ps due
  rw [State.exec_takeDeadline hrun]
  obtain ⟨hnone, h⟩ | ⟨hsome, h⟩ := s.expireTakes_cases p <;> rw [h]
  · exact ⟨fun _ => rfl, fun hdue => absurd hnone hdue⟩
  · exact ⟨fun hdue => absurd hdue hsome, fun _ => rfl⟩

end Sys2Proof.Machine
end

