-- ==== Sys2Proof/Proofs/Answers.lean ====
section
/-! PROOFS. Answers to ARRIVALs and the last read of a delivery: the ends of one copy that do not claim the lane (O31, O32,
O37). -/

namespace Sys2Proof.Machine

/-! ### A take among the MATCHED ones -/

section Matched

variable {ps : PortState} {ahead behind : List MatchedTake} {m : MatchedTake}
  (hmatched : ps.takes.matched = ahead ++ m :: behind)
include hmatched

/-- The first take with a label is the one that the label names (R21). -/
theorem PortState.matchedTake_of_split {label : Half} (hlabel : m.fields.label = label)
    (hahead : ∀ u ∈ ahead, u.fields.label ≠ label) : ps.matchedTake label = some m :=
  List.find?_eq_some_iff_append.mpr ⟨by simpa using hlabel, ahead, behind, hmatched, fun u hu => by simpa using hahead u hu⟩

variable (hothers : ∀ u ∈ ahead ++ behind, u.bound ≠ m.bound)
include hothers

/-- The one take that names a descriptor ends (R30 to R32). -/
theorem PortState.endTake_of_split :
    ps.endTake m.bound = { ps with takes := { ps.takes with matched := ahead ++ behind } } := by
  have hfilter : (ahead ++ m :: behind).filter (fun t => t.bound != m.bound) = ahead ++ behind := by
    rw [List.filter_append, List.filter_cons_of_neg (by simp), ← List.filter_append,
      List.filter_eq_self.mpr fun u hu => by simpa using hothers u hu]
  rw [PortState.endTake, hmatched, hfilter]

/-- The delivery's length is the one that its take fixed (R27). -/
theorem PortState.deliveredLength_of_split : ps.deliveredLength m.bound = m.delivered := by
  have hfind : ps.takes.matched.find? (fun t => t.bound == m.bound) = some m :=
    List.find?_eq_some_iff_append.mpr ⟨by simp, ahead, behind, hmatched,
      fun u hu => by simpa using hothers u (List.mem_append_left _ hu)⟩
  rw [PortState.deliveredLength, hfind]

end Matched

/-! ### One copy settled -/

/-- A copy that is live is settled, and the tally counts it (R8). -/
theorem State.settleCopy_eq_putDesc {s : State} {d : DescNo} {p : Port} (o : CopyOutcome) (hl : (s.slot d p).state.live = true) :
    s.settleCopy d p o = s.putDesc d { s.desc d with
      slots := (s.desc d).slots.set p { (s.desc d).slots.get p with state := .settled o }, tally := (s.desc d).tally.count o } := by
  rw [State.settleCopy, State.modDesc_eq_putDesc, Descriptor.settleCopy_of_live o hl]

/-- The end of one live copy, in the words of the statements. -/
theorem State.endCopy_eq {s : State} {d : DescNo} {p : Port} (o : CopyOutcome) (f : PortState → PortState)
    (hl : (s.slot d p).state.live = true) :
    s.endCopy p d o f = ((s.putDesc d { s.desc d with
      slots := (s.desc d).slots.set p { (s.desc d).slots.get p with state := .settled o },
      tally := (s.desc d).tally.count o }).putPort p (f (s.port p))).settleIfDone d := by
  rw [← State.settleCopy_eq_putDesc o hl]
  rfl

/-! ### Answers -/

theorem State.exec_accept {s : State} (hrun : s.resetAsserted = false) (p : Port) :
    exec (.accept p) s = .next (s.answerNotice p true) := by
  show Host.Outcome.next (s.unlessInReset (s.answerNotice p true)) = _
  rw [State.unlessInReset_released s _ hrun]

theorem State.exec_refuse {s : State} (hrun : s.resetAsserted = false) (p : Port) :
    exec (.refuse p) s = .next (s.answerNotice p false) := by
  show Host.Outcome.next (s.unlessInReset (s.answerNotice p false)) = _
  rw [State.unlessInReset_released s _ hrun]

/-- The answer to an ARRIVAL removes it and goes to the take's owner (R128). -/
theorem State.answerNotice_arrival {s : State} {p : Port} {t : Tick} {a : Arrival} {rest : List Notice} (accepted : Bool)
    (htx : (s.port p).outbound.tx = .answer t) (hq : (s.port p).queue.notices = .arrival a :: rest) :
    s.answerNotice p accepted = (if accepted then (s.modPort p PortState.removeHead).acceptArrival p a
      else (s.modPort p PortState.removeHead).refuseArrival p a).offer p := by
  unfold State.answerNotice
  rw [htx, hq]
  rfl

/-- What the answer to the ARRIVAL of a take does to the column, the take ending at once (R30, R31, R121). -/
def PortState.answerTake (d : DescNo) (ps : PortState) : PortState := ps.removeHead.endTake d

theorem PortState.answerTake_of_split {ps : PortState} {n : Notice} {rest : List Notice} {ahead behind : List MatchedTake}
    {m : MatchedTake} (hq : ps.queue.notices = n :: rest) (hmatched : ps.takes.matched = ahead ++ m :: behind)
    (hothers : ∀ u ∈ ahead ++ behind, u.bound ≠ m.bound) :
    ps.answerTake m.bound = { ps with
      outbound := { ps.outbound with tx := .idle },
      queue := { ps.queue with notices := rest, reserved := ps.queue.reserved - 1 },
      takes := { ps.takes with matched := ahead ++ behind } } := by
  rw [PortState.answerTake, PortState.endTake_of_split (ps := ps.removeHead) hmatched hothers, PortState.removeHead, hq]
  rfl

section Arrival

variable {s : State} {p : Port} {a : Arrival} {m : MatchedTake}
  (htake : (s.port p).matchedTake a.takeLabel = some m)
include htake

theorem State.removeHead_matchedTake : ((s.modPort p PortState.removeHead).port p).matchedTake a.takeLabel = some m := by
  rw [State.modPort_port_same]
  exact htake

/-- ACCEPT of an ARRIVAL of no bytes ends the copy and the take (R130). -/
theorem State.acceptArrival_of_nothing (hzero : m.delivered = 0) :
    (s.modPort p PortState.removeHead).acceptArrival p a =
      s.endCopy p m.bound (finishOutcome 0 (s.desc m.bound).length) (PortState.answerTake m.bound) := by
  rw [State.acceptArrival, State.removeHead_matchedTake htake]
  simp only [hzero, Nat.lt_irrefl, if_false, State.settleCopy, ← State.modPort_modDesc, State.modPort_modPort]
  rfl

/-- REFUSE of an ARRIVAL ends the take and hands the copy back (R131). -/
theorem State.refuseArrival_of_take :
    (s.modPort p PortState.removeHead).refuseArrival p a =
      (s.modPort p (PortState.answerTake m.bound)).returnCopy p m.bound := by
  rw [State.refuseArrival, State.removeHead_matchedTake htake]
  simp only [State.modPort_modPort]
  rfl

end Arrival

/-- Settles O31. -/
theorem acceptOfNothingSettlesTheCopy : Obligations.AcceptOfNothingSettlesTheCopy := by
  intro s p a rest t ahead behind m hrun ps x o htx hq hmatched hlabel hahead hothers hzero hbound
  have hlive : (s.slot m.bound p).state.live = true := by
    rw [State.slot, hbound]
    rfl
  have ho : o = finishOutcome 0 x.length := by
    simp only [o, finishOutcome, eq_comm]
  rw [State.exec_accept hrun, State.answerNotice_arrival true htx hq, if_pos rfl,
    State.acceptArrival_of_nothing (PortState.matchedTake_of_split hmatched hlabel hahead) hzero, ← ho,
    State.endCopy_eq o _ hlive, PortState.answerTake_of_split hq hmatched hothers]

/-- Settles O32: the three ends of a refused copy, its take having ended. -/
theorem refuseReturnsTheCopy : Obligations.RefuseReturnsTheCopy := by
  intro s p a rest t ahead behind m hrun ps x slot ps' settled htx hq hmatched hlabel hahead hothers hbound
  have hlive : (s.slot m.bound p).state.live = true := by
    rw [State.slot, hbound]
    rfl
  have hcolumn : ps.answerTake m.bound = ps' := PortState.answerTake_of_split hq hmatched hothers
  have hended : ∀ o, ((s.endCopy p m.bound o (PortState.answerTake m.bound)).offer p) = settled o := fun o => by
    rw [State.endCopy_eq o _ hlive, hcolumn]
  have hlist : ((s.modPort p (PortState.answerTake m.bound)).port p).unclaimed = ps.unclaimed := by
    rw [State.modPort_port_same, hcolumn]
  rw [State.exec_refuse hrun, State.answerNotice_arrival false htx hq, if_neg (by simp),
    State.refuseArrival_of_take (PortState.matchedTake_of_split hmatched hlabel hahead)]
  obtain ⟨hpassed, h⟩ | ⟨hpassed, hfull, h⟩ | ⟨hpassed, hroom, h⟩ :=
    (s.modPort p (PortState.answerTake m.bound)).returnCopy_cases p m.bound <;> rw [h]
  · have hpassed' : slot.passed = true := hpassed
    exact ⟨fun _ => congrArg _ (hended .expired), fun h => by simp [hpassed'] at h, fun h => by simp [hpassed'] at h⟩
  · have hpassed' : slot.passed = false := hpassed
    rw [hlist] at hfull
    exact ⟨fun h => by simp [hpassed'] at h, fun _ _ => congrArg _ (hended .dropped), fun _ h => by omega⟩
  · have hpassed' : slot.passed = false := hpassed
    rw [hlist] at hroom
    refine ⟨fun h => by simp [hpassed'] at h, fun _ h => by omega, fun _ _ => ?_⟩
    rw [State.modSlot, State.modPort_modDesc, State.modPort_modDesc, State.offer, State.modPort_modPort,
      State.modPort_modPort, State.modPort_eq_putPort, State.modDesc_port, ← hcolumn]
    rfl

/-! ### The last read of a delivery -/

theorem State.exec_laneRead {s : State} (hrun : s.resetAsserted = false) (p : Port) :
    exec (.laneRead p) s = .next (s.readLane p) := by
  show Host.Outcome.next (s.readUnlessInReset p (s.readLane p)) = _
  rw [State.readUnlessInReset_released s p _ hrun]

/-- What the last read of a delivery does to the column, but for the notices (R158, R163). -/
def PortState.lastRead (d : DescNo) (now : Tick) (stallLimit : Nat) (ps : PortState) : PortState :=
  PortState.endTransfer d ((PortState.modLane (fun l => { l with stall := some (deadlineAfter now stallLimit) }))
    { ps.modLane (Lane.giveOut ps.accessSize) with readData := laneReadValue (ps.lane.fifo.take ps.accessSize) })

/-- The read that leaves the host nothing to read ends the delivery (R163). -/
theorem State.readLane_of_last {s : State} {p : Port} {d : DescNo} (howner : (s.port p).lane.owner = .outbound d)
    (hready : (s.port p).accessSize ≤ (s.port p).lane.fifo.length)
    (hlast : (s.port p).lane.hostCount - (s.port p).accessSize = 0) :
    s.readLane p = (s.endCopy p d (finishOutcome ((s.port p).deliveredLength d) (s.desc d).length)
      (PortState.lastRead d s.tickCount s.pool.stallLimit)).offer p := by
  rw [State.readLane, howner]
  simp only [hready, hlast, if_true, State.restartStall, State.endDelivery_eq, State.endCopy, State.modPort_modPort]
  rfl

/-- A last read that takes the whole FIFO leaves LANE DONE set and the lane ended (R158, R163). -/
theorem PortState.lastRead_of_all {ps : PortState} {ahead behind : List MatchedTake} {m : MatchedTake} (now : Tick) (stallLimit : Nat)
    (hmatched : ps.takes.matched = ahead ++ m :: behind) (hothers : ∀ u ∈ ahead ++ behind, u.bound ≠ m.bound)
    (hfifo : ps.accessSize = ps.lane.fifo.length) (hcount : ps.accessSize = ps.lane.hostCount) :
    ps.lastRead m.bound now stallLimit = { ps with
      takes := { ps.takes with matched := ahead ++ behind },
      lane := { ps.lane.ended with done := true }, readData := laneReadValue ps.lane.fifo } := by
  have hdone : (ps.lane.giveOut ps.accessSize).done = true := by
    simp [Lane.giveOut, hcount]
  calc ps.lastRead m.bound now stallLimit
      = { ps.endTake m.bound with
          lane := { ps.lane.ended with done := (ps.lane.giveOut ps.accessSize).done },
          readData := laneReadValue (ps.lane.fifo.take ps.accessSize) } := rfl
    _ = _ := by rw [PortState.endTake_of_split hmatched hothers, hdone, hfifo, List.take_length]

theorem laneAccessSize_one (w : Width) : laneAccessSize w 1 = 1 := by
  cases w <;> rfl

/-- Settles O37: either access takes the whole FIFO and leaves the host nothing to read. -/
theorem lastReadEndsTheDelivery : Obligations.LastReadEndsTheDelivery := by
  intro s p d ahead behind m hrun ps x o ends howner hmatched hbound hothers hmoving
  subst hbound
  have hlive : (s.slot m.bound p).state.live = true := by
    rw [State.slot, hmoving]
    rfl
  have hends : ps.accessSize = ps.lane.fifo.length → ps.accessSize = ps.lane.hostCount → ends (laneReadValue ps.lane.fifo) :=
    fun hfifo hcount => by
      show exec (.laneRead p) s = _
      rw [State.exec_laneRead hrun, State.readLane_of_last howner hfifo.le (by rw [← hcount, Nat.sub_self]),
        PortState.deliveredLength_of_split hmatched hothers, State.endCopy_eq _ _ hlive,
        PortState.lastRead_of_all _ _ hmatched hothers hfifo hcount]
      rfl
  refine ⟨fun b hcount hfifo => ?_, fun lo hi hwidth hcount hfifo => ?_⟩
  · have hsize : ps.accessSize = 1 := by rw [PortState.accessSize, hcount, laneAccessSize_one]
    have h := hends (by rw [hsize, hfifo]; rfl) (hsize.trans hcount.symm)
    rwa [hfifo] at h
  · have hsize : ps.accessSize = 2 := by rw [PortState.accessSize, hcount, hwidth]; rfl
    have h := hends (by rw [hsize, hfifo]; rfl) (hsize.trans hcount.symm)
    rwa [hfifo] at h

end Sys2Proof.Machine
end

