-- ==== Sys2Proof/Proofs/NothingComesDue.lean ====
section
/-! PROOFS. What the blocks do about deadlines, and what the mover does, makes nothing due at the present tick: every
deadline they set lies after it (R34, R46, R47, R148, R160, R166). -/

namespace Sys2Proof.Machine

/-! ### What is due in a column, a slot -/

/-- A deadline some ticks ahead, fewer than the count wraps at, is not now. -/
theorem deadlineAfter_ne (now : Tick) {n : Nat} (hpos : 0 < n) (hlt : n < 2 ^ 32) : deadlineAfter now n ≠ now := by
  unfold deadlineAfter
  intro h
  have hzero : BitVec.ofNat 32 n = 0#32 := by simpa using h
  have := congrArg BitVec.toNat hzero
  simp only [BitVec.toNat_ofNat, Nat.mod_eq_of_lt hlt, Nat.zero_mod] at this
  omega

/-- The byte or answer deadline of a transmission (R144). -/
def Transmission.deadline (x : Transmission) : Option Tick :=
  match x with
  | .idle => none
  | .data _ t => some t
  | .length t => some t
  | .answer t => some t

/-- A transfer is under way and its stall deadline is now (R166). -/
def Lane.Stalled (now : Tick) (l : Lane) : Prop := l.owner ≠ .idle ∧ l.stall = some now

/-- The hold deadline is now, and the copy waits for its expiry or for its mark (R46, R47). -/
def CopySlot.Due (now : Tick) (x : CopySlot) : Prop :=
  x.deadline = some now ∧ (x.state = .waiting ∨ ((x.state = .bound ∨ x.state = .moving) ∧ x.passed = false))

theorem CopySlot.not_due_of_not_live {now : Tick} {x : CopySlot} (h : x.state.live = false) : ¬ x.Due now := by
  rintro ⟨-, hs | ⟨hs | hs, -⟩⟩ <;> simp [hs, SlotState.live] at h

/-- The same clock, pin and count of free orders. -/
structure State.SameClock (s t : State) : Prop where
  tickCount : t.tickCount = s.tickCount
  draws : t.draws = s.draws
  resetAsserted : t.resetAsserted = s.resetAsserted

theorem State.SameClock.trans {s t u : State} (h : s.SameClock t) (h' : t.SameClock u) : s.SameClock u :=
  ⟨h'.tickCount.trans h.tickCount, h'.draws.trans h.draws, h'.resetAsserted.trans h.resetAsserted⟩

theorem State.SameFloor.sameClock {s t : State} (h : s.SameFloor t) : s.SameClock t := ⟨h.tickCount, h.draws, h.resetAsserted⟩

/-! ### Columns -/

/-- From `ps` to `ps'` nothing of the column comes due at `now`, if a deadline by the port's answer limit does not. -/
structure PortState.NoNewDue (now : Tick) (ps ps' : PortState) : Prop where
  limit : ps'.session.answerLimit = ps.session.answerLimit
  posted : ∀ t ∈ ps'.takes.posted, t ∈ ps.takes.posted
  framing : ps.answerDeadlineFrom now ≠ now → ps'.outbound.tx.deadline = some now → ps.outbound.tx.deadline = some now
  lane : ps'.lane.Stalled now → ps.lane.Stalled now
  grant : ps'.lane.grantDue = true → ps.lane.grantDue = true

section Columns

variable {now : Tick} {x y z : PortState}

theorem PortState.NoNewDue.trans (h : x.NoNewDue now y) (h' : y.NoNewDue now z) : x.NoNewDue now z where
  limit := h'.limit.trans h.limit
  posted v hv := h.posted v (h'.posted v hv)
  framing hne hz := h.framing hne (h'.framing (by rwa [PortState.answerDeadlineFrom, h.limit]) hz)
  lane hz := h.lane (h'.lane hz)
  grant hz := h.grant (h'.grant hz)

/-- A column whose deadlines, lane and POSTED takes are as they were. -/
theorem PortState.NoNewDue.of_eq (hlimit : y.session.answerLimit = x.session.answerLimit) (hposted : y.takes.posted = x.takes.posted)
    (hout : y.outbound = x.outbound) (hlane : y.lane = x.lane) : x.NoNewDue now y :=
  ⟨hlimit, fun _ ht => hposted ▸ ht, fun _ h => hout ▸ h, fun h => hlane ▸ h, fun h => hlane ▸ h⟩

theorem PortState.NoNewDue.refl (now : Tick) (x : PortState) : x.NoNewDue now x := .of_eq rfl rfl rfl rfl

/-- The first byte of a notice is placed with a deadline by the answer limit (R145, R152). -/
theorem PortState.offer_noNewDue (now : Tick) (x : PortState) : x.NoNewDue now (x.offer now) := by
  obtain h | ⟨n, rest, -, -, -, h⟩ := x.offer_cases now <;> rw [h]
  · exact .refl now x
  · exact ⟨rfl, fun _ ht => ht, fun hne hd => absurd (Option.some.inj hd) hne, id, id⟩

theorem PortState.append_noNewDue (now : Tick) (ns : List Notice) (x : PortState) : x.NoNewDue now (x.append now ns) :=
  .trans (y := { x with queue := { x.queue with notices := x.queue.notices ++ ns } }) (.of_eq rfl rfl rfl rfl)
    (PortState.offer_noNewDue now _)

theorem PortState.appendReceipt_noNewDue (now : Tick) (r : Receipt) (x : PortState) : x.NoNewDue now (x.appendReceipt now r) := by
  have hqueue : ∀ q : NoticeQueue, x.NoNewDue now (PortState.append now [.receipt r] { x with queue := q }) := fun q =>
    .trans (y := { x with queue := q }) (.of_eq rfl rfl rfl rfl) (PortState.append_noNewDue now _ _)
  unfold PortState.appendReceipt
  split
  · exact hqueue _
  · split
    · exact hqueue _
    · exact .refl now x

theorem PortState.receive_noNewDue (now : Tick) (rs : List Receipt) (x : PortState) : x.NoNewDue now (x.receive now rs) := by
  induction rs generalizing x with
  | nil => exact .refl now x
  | cons r rs ih => exact (PortState.appendReceipt_noNewDue now r x).trans (ih _)

/-- A lane without a transfer has no deadline and is owed no grant (R163). -/
theorem PortState.idleLane_noNewDue (now : Tick) (x : PortState) : x.NoNewDue now x.idleLane :=
  ⟨rfl, fun _ ht => ht, fun _ h => h, fun h => absurd rfl h.1, fun h => nomatch h⟩

theorem PortState.discardNotices_noNewDue (now : Tick) (x : PortState) : x.NoNewDue now x.discardNotices :=
  ⟨rfl, fun _ ht => ht, (fun _ h => nomatch h), id, id⟩

theorem PortState.dropTakes_noNewDue (now : Tick) (x : PortState) : x.NoNewDue now x.dropTakes := by
  have hcleared : x.NoNewDue now { x with takes := { posted := [], matched := [] } } :=
    ⟨rfl, (fun _ ht => nomatch ht), fun _ h => h, id, id⟩
  unfold PortState.dropTakes
  split
  · exact hcleared.trans (PortState.idleLane_noNewDue now _)
  · exact hcleared
  · exact hcleared

end Columns

/-! ### States -/

/-- From `s` to `t` the clock stands still and nothing comes due at its tick. -/
structure State.NoNewDue (s t : State) : Prop where
  clock : s.SameClock t
  ports : ∀ p, (s.port p).NoNewDue s.tickCount (t.port p)
  slots : ∀ d p, (t.slot d p).Due s.tickCount → (s.slot d p).Due s.tickCount

section States

variable {s t u : State} {p q : Port} {d : DescNo}

theorem State.NoNewDue.trans (h : s.NoNewDue t) (h' : t.NoNewDue u) : s.NoNewDue u where
  clock := h.clock.trans h'.clock
  ports p := (h.ports p).trans (h.clock.tickCount ▸ h'.ports p)
  slots d p hu := h.slots d p (by rw [← h.clock.tickCount]; exact h'.slots d p (by rwa [h.clock.tickCount]))

theorem State.NoNewDue.of_eq (hclock : s.SameClock t) (hports : t.ports = s.ports) (hdescs : t.descs = s.descs) : s.NoNewDue t := by
  refine ⟨hclock, fun q => ?_, fun e q h => ?_⟩
  · have hport : t.port q = s.port q := by rw [State.port, hports, State.port]
    rw [hport]
    exact .refl _ _
  · rwa [State.slot, State.desc, hdescs] at h

theorem State.NoNewDue.refl (s : State) : s.NoNewDue s := .of_eq ⟨rfl, rfl, rfl⟩ rfl rfl

theorem State.foldl_noNewDue {α : Type} {f : State → α → State} (hf : ∀ s a, State.NoNewDue s (f s a)) (as : List α) :
    ∀ s : State, s.NoNewDue (as.foldl f s) := by
  induction as with
  | nil => exact State.NoNewDue.refl
  | cons a as ih => exact fun s => (hf s a).trans (ih (f s a))

theorem State.modPort_noNewDue {f : PortState → PortState} (h : (s.port p).NoNewDue s.tickCount (f (s.port p))) :
    s.NoNewDue (s.modPort p f) := by
  refine ⟨(s.modPort_sameFloor p f).sameClock, fun q => ?_, fun _ _ h => h⟩
  by_cases hq : q = p
  · subst hq
    rwa [State.modPort_port_same]
  · rw [State.modPort_port_other s f hq]
    exact .refl _ _

theorem State.modDesc_noNewDue {f : Descriptor → Descriptor}
    (h : ∀ q, ((f (s.desc d)).slots.get q).Due s.tickCount → ((s.desc d).slots.get q).Due s.tickCount) :
    s.NoNewDue (s.modDesc d f) := by
  refine ⟨(s.modDesc_sameFloor d f).sameClock, fun q => .refl _ _, fun e q hdue => ?_⟩
  by_cases he : e = d
  · subst he
    rw [State.slot, State.modDesc_desc_same] at hdue
    exact h q hdue
  · rwa [State.slot, State.modDesc_desc_other s f he] at hdue

theorem State.modSlot_noNewDue {f : CopySlot → CopySlot} (h : (f (s.slot d p)).Due s.tickCount → (s.slot d p).Due s.tickCount) :
    s.NoNewDue (s.modSlot d p f) := by
  refine State.modDesc_noNewDue fun q hdue => ?_
  by_cases hq : q = p
  · subst hq
    rw [PerPort.get_modify_same] at hdue
    exact h hdue
  · rwa [PerPort.get_modify_other _ _ hq] at hdue

/-! ### Ends of copies and messages -/

/-- A copy that ends is no longer due. -/
theorem State.settleCopy_noNewDue (s : State) (d : DescNo) (p : Port) (o : CopyOutcome) : s.NoNewDue (s.settleCopy d p o) := by
  refine State.modDesc_noNewDue fun q hdue => ?_
  by_cases hq : q = p
  · subst hq
    refine absurd hdue (CopySlot.not_due_of_not_live ?_)
    rw [Descriptor.settleCopy_slot]
    cases hstate : ((s.desc d).slots.get q).state <;> rfl
  · rwa [Descriptor.settleCopy_otherSlot _ _ hq] at hdue

/-- A descriptor that becomes FREE has no copies, and its sender gets at most RECEIPTs (R9, R12). -/
theorem State.Freed.noNewDue (h : s.Freed d t) (hports : ∀ q, ∃ rs, t.port q = (s.port q).receive s.tickCount rs) :
    s.NoNewDue t := by
  refine ⟨h.floor.sameClock, fun q => ?_, fun e q hdue => ?_⟩
  · obtain ⟨rs, hrs⟩ := hports q
    rw [hrs]
    exact PortState.receive_noNewDue _ rs _
  · by_cases he : e = d
    · subst he
      rw [State.slot, h.freed, Descriptor.freed, PerPort.get_replicate] at hdue
      exact absurd hdue (CopySlot.not_due_of_not_live rfl)
    · rwa [State.slot, h.others e he] at hdue

theorem State.settleDescriptor_noNewDue (s : State) (d : DescNo) : s.NoNewDue (s.settleDescriptor d) :=
  (s.settleDescriptor_freed d).noNewDue fun q => ⟨_, s.settleDescriptor_port_eq d q⟩

theorem State.abandon_noNewDue (s : State) (d : DescNo) : s.NoNewDue (s.abandon d) :=
  (s.abandon_freed d).noNewDue fun q => ⟨_, s.abandon_port_eq d q⟩

theorem State.settleIfDone_noNewDue (s : State) (d : DescNo) : s.NoNewDue (s.settleIfDone d) := by
  obtain ⟨-, h⟩ | ⟨-, h⟩ := s.settleIfDone_cases d <;> rw [h]
  · exact s.settleDescriptor_noNewDue d
  · exact .refl s

theorem State.endCopy_noNewDue {f : PortState → PortState} (h : (s.port p).NoNewDue s.tickCount (f (s.port p))) (d : DescNo)
    (o : CopyOutcome) : s.NoNewDue (s.endCopy p d o f) :=
  ((State.modPort_noNewDue h).trans (State.settleCopy_noNewDue _ d p o)).trans (State.settleIfDone_noNewDue _ d)

theorem State.offer_noNewDue (s : State) (p : Port) : s.NoNewDue (s.offer p) := State.modPort_noNewDue (PortState.offer_noNewDue _ _)

theorem State.endDelivery_noNewDue (s : State) (p : Port) (d : DescNo) (o : CopyOutcome) : s.NoNewDue (s.endDelivery p d o) := by
  rw [State.endDelivery_eq]
  refine (State.endCopy_noNewDue ?_ d o).trans (State.offer_noNewDue _ p)
  exact .trans (y := (s.port p).endTake d) (.of_eq rfl rfl rfl rfl) (PortState.idleLane_noNewDue _ _)

theorem State.returnLane_noNewDue (s : State) (p : Port) : s.NoNewDue (s.returnLane p) :=
  (State.modPort_noNewDue (PortState.idleLane_noNewDue _ _)).trans (State.offer_noNewDue _ p)

theorem State.abandonTransfer_noNewDue (s : State) (p : Port) (d : DescNo) : s.NoNewDue (s.abandonTransfer p d) :=
  (s.abandon_noNewDue d).trans (State.returnLane_noNewDue _ p)

/-! ### Lapses -/

theorem State.undeliver_noNewDue (s : State) (d : DescNo) (p : Port) : s.NoNewDue (s.undeliver d p) := by
  have hdesc : s.undeliver d p = s.modDesc d (Descriptor.undelivered p) := by
    rw [State.undeliver, State.settleCopy, State.modDesc_modDesc]
    rfl
  rw [hdesc]
  refine State.modDesc_noNewDue fun q hdue => ?_
  by_cases hq : q = p
  · subst hq
    refine absurd hdue (CopySlot.not_due_of_not_live ?_)
    rw [Descriptor.undelivered, Descriptor.settleCopy_slot]
    cases hstate : (((s.desc d).dropMark q).slots.get q).state <;> rfl
  · rwa [Descriptor.undelivered, Descriptor.settleCopy_otherSlot _ _ hq, Descriptor.dropMark, PerPort.get_modify_other _ _ hq] at hdue

theorem State.teardownStart_noNewDue (s : State) (p : Port) : s.NoNewDue (s.teardownStart p) := by
  have hmark : s.NoNewDue (s.modPort p (PortState.markTearingDown true)) := State.modPort_noNewDue (.of_eq rfl rfl rfl rfl)
  have hdiscard := hmark.trans (State.modPort_noNewDue (p := p) (PortState.discardNotices_noNewDue _ _))
  exact hdiscard.trans (.of_eq ⟨rfl, rfl, rfl⟩ rfl rfl)

theorem State.endInbound_noNewDue (s : State) (p : Port) : s.NoNewDue (s.endInbound p) := by
  obtain ⟨-, h⟩ | ⟨d, -, h⟩ := s.endInbound_cases p <;> rw [h]
  · exact .refl s
  · exact (State.modPort_noNewDue (PortState.idleLane_noNewDue _ _)).trans (State.abandon_noNewDue _ d)

theorem State.teardownCopies_noNewDue (s : State) (p : Port) : s.NoNewDue (s.teardownCopies p) := by
  have hundeliver : ∀ (ds : List DescNo) (u : State), u.NoNewDue (u.undeliverAll ds p) :=
    State.foldl_noNewDue fun t d => t.undeliver_noNewDue d p
  exact (((hundeliver _ s).trans (State.modPort_noNewDue (PortState.dropTakes_noNewDue _ _))).trans (hundeliver _ _)).trans
    (State.modPort_noNewDue (.of_eq rfl rfl rfl rfl))

theorem State.teardown_noNewDue (s : State) (p : Port) : s.NoNewDue (s.teardown p) := by
  rw [State.teardown_eq]
  exact ((((s.teardownStart_noNewDue p).trans (State.endInbound_noNewDue _ p)).trans (State.teardownCopies_noNewDue _ p)).trans
    (State.foldl_noNewDue State.settleIfDone_noNewDue _ _)).trans (State.modPort_noNewDue (.of_eq rfl rfl rfl rfl))

theorem State.lapse_noNewDue (s : State) (p : Port) : s.NoNewDue (s.lapse p) := by
  rw [State.lapse_eq]
  exact ((State.modPort_noNewDue (.of_eq rfl rfl rfl rfl)).trans (State.teardown_noNewDue _ p)).trans
    (State.modPort_noNewDue (.of_eq rfl rfl rfl rfl))

/-! ### Completion -/

/-- A slot whose deadline is not now comes due by no change of its state. -/
theorem State.setSlotState_noNewDue (h : (s.slot d p).deadline ≠ some s.tickCount) (x : SlotState) :
    s.NoNewDue (s.modSlot d p (fun sl => { sl with state := x })) :=
  State.modSlot_noNewDue fun hdue => absurd hdue.1 h

theorem State.newCopy_deadline (s : State) (d : DescNo) (q : Port) : ((s.newCopy d q).slot d q).deadline = (s.desc d).holdDeadline := by
  rw [State.newCopy, State.modSlot_slot_same]

theorem State.bindCopy_noNewDue {f : TakeFields} (h : (s.slot d p).deadline ≠ some s.tickCount) : s.NoNewDue (s.bindCopy p f d) :=
  ((State.setSlotState_noNewDue h .bound).trans (State.modPort_noNewDue (.of_eq rfl rfl rfl rfl))).trans
    (State.modPort_noNewDue (PortState.append_noNewDue _ _ _))

/-- A copy is made with a deadline by the message's hold (R7). -/
theorem State.matchCopy_noNewDue (h : (s.desc d).holdDeadline ≠ some s.tickCount) (q : Port) : s.NoNewDue (s.matchCopy d q) := by
  have hdeadline : ((s.newCopy d q).slot d q).deadline ≠ some s.tickCount := by rwa [State.newCopy_deadline]
  have hnew : s.NoNewDue (s.newCopy d q) := State.modSlot_noNewDue fun hdue => absurd hdue.1 h
  obtain ⟨-, hm⟩ | ⟨-, ⟨ahead, t, behind, hposted, -, -, hm⟩ | ⟨-, ⟨-, hm⟩ | ⟨-, hm⟩⟩⟩ := s.matchCopy_cases d q <;> rw [hm]
  · exact hnew.trans (State.settleCopy_noNewDue _ d q _)
  · refine (hnew.trans (State.modPort_noNewDue ?_)).trans (State.bindCopy_noNewDue hdeadline)
    refine ⟨rfl, fun v hv => ?_, fun _ h => h, id, id⟩
    show v ∈ (s.port q).takes.posted
    rw [hposted]
    exact (List.sublist_cons_self t behind).append_left ahead |>.subset hv
  · have hlisted := hnew.trans (State.modPort_noNewDue (p := q) (f := fun x => { x with unclaimed := x.unclaimed ++ [d] })
      (.of_eq rfl rfl rfl rfl))
    refine hlisted.trans (State.setSlotState_noNewDue ?_ .waiting)
    exact hdeadline
  · exact hnew.trans (State.settleCopy_noNewDue _ d q _)

theorem Descriptor.settleCopy_holdDeadline (x : Descriptor) (p : Port) (o : CopyOutcome) :
    (x.settleCopy p o).holdDeadline = x.holdDeadline := by
  unfold Descriptor.settleCopy
  split <;> rfl

theorem State.matchCopy_holdDeadline (s : State) (d : DescNo) (q : Port) :
    ((s.matchCopy d q).desc d).holdDeadline = (s.desc d).holdDeadline := by
  have hslot : ∀ (u : State) (f : CopySlot → CopySlot), ((u.modSlot d q f).desc d).holdDeadline = (u.desc d).holdDeadline := fun u f => by
    rw [State.modSlot, State.modDesc_desc_same]
    rfl
  have hnew : ((s.newCopy d q).desc d).holdDeadline = (s.desc d).holdDeadline := hslot s _
  obtain ⟨-, hm⟩ | ⟨-, ⟨ahead, t, behind, -, -, -, hm⟩ | ⟨-, ⟨-, hm⟩ | ⟨-, hm⟩⟩⟩ := s.matchCopy_cases d q <;> rw [hm]
  · rw [State.settleCopy_desc_same, Descriptor.settleCopy_holdDeadline, hnew]
  · rw [State.bindCopy_desc, hslot]
    exact hnew
  · rw [hslot]
    exact hnew
  · rw [State.settleCopy_desc_same, Descriptor.settleCopy_holdDeadline, hnew]

/-- A message completed now has its holds end later, if they fit their field (R2, R7). -/
theorem Descriptor.holdDeadline_stamped_ne {x : Descriptor} (h : x.hold < 65536) (now : Tick) :
    Descriptor.holdDeadline { x with completionTick := now } ≠ some now := by
  unfold Descriptor.holdDeadline
  split
  · next hpos => exact fun heq => deadlineAfter_ne now hpos (h.trans (by decide)) (Option.some.inj heq)
  · exact fun heq => nomatch heq

theorem State.complete_noNewDue (h : (s.desc d).hold < 65536) : s.NoNewDue (s.complete d) := by
  have hstamped : s.NoNewDue (s.stamped d) := State.modDesc_noNewDue fun _ h => h
  have hmatched := State.foldl_matchCopy (d := d)
    (P := fun t => s.NoNewDue t ∧ (t.desc d).holdDeadline = ((s.stamped d).desc d).holdDeadline)
    (fun t q ⟨ht, hhold⟩ => by
      refine ⟨ht.trans (State.matchCopy_noNewDue ?_ q), (t.matchCopy_holdDeadline d q).trans hhold⟩
      rw [hhold, ht.clock.tickCount, State.stamped_desc]
      exact Descriptor.holdDeadline_stamped_ne h s.tickCount)
    ((s.stamped d).recipients d) _ ⟨hstamped, rfl⟩
  rw [State.complete_eq]
  split
  · exact hmatched.1.trans (State.modDesc_noNewDue fun _ h => h)
  · exact hmatched.1.trans (State.settleDescriptor_noNewDue _ d)

/-! ### Grants -/

/-- A lane that goes on with its transfer after a grant (R162). -/
theorem PortState.afterGrant_noNewDue (now : Tick) (fifo : List Byte) (n : Nat) (x : PortState) :
    x.NoNewDue now (x.modLane (Lane.afterGrant fifo n)) :=
  ⟨rfl, fun _ ht => ht, fun _ h => h, fun h => h, fun h => nomatch h⟩

theorem State.chunkStored_noNewDue (s : State) (p : Port) (d : DescNo) (n : Nat) : s.NoNewDue (s.chunkStored p d n) := by
  have hdesc : s.NoNewDue (s.modDesc d (fun x => { x with bytesInPool := x.bytesInPool + n })) := State.modDesc_noNewDue fun _ h => h
  have hlane := hdesc.trans (State.modPort_noNewDue (p := p) (PortState.afterGrant_noNewDue _ ((s.port p).lane.fifo.drop n) n _))
  exact hlane.trans (.of_eq ⟨rfl, rfl, rfl⟩ rfl rfl)

theorem State.grantTo_noNewDue (hholds : ∀ d, (s.desc d).hold < 65536) (p : Port) : s.NoNewDue (s.grantTo p) := by
  cases howner : (s.port p).lane.owner with
  | idle =>
    simp only [State.grantTo, howner]
    exact .refl s
  | outbound d =>
    simp only [State.grantTo, howner, State.grantOutbound]
    have hpointer : s.NoNewDue { s with pointer := p } := .of_eq ⟨rfl, rfl, rfl⟩ rfl rfl
    exact hpointer.trans (State.modPort_noNewDue (PortState.afterGrant_noNewDue _ _ _ _))
  | inbound d =>
    rw [State.grantTo_inbound howner]
    split
    · refine ((s.chunkStored_noNewDue p d _).trans (State.complete_noNewDue ?_)).trans (State.returnLane_noNewDue _ p)
      rw [State.chunkStored_desc]
      exact hholds d
    · exact s.chunkStored_noNewDue p d _

theorem State.grantTo_sameClock (s : State) (p : Port) : s.SameClock (s.grantTo p) := by
  cases howner : (s.port p).lane.owner with
  | idle =>
    simp only [State.grantTo, howner]
    exact ⟨rfl, rfl, rfl⟩
  | outbound d =>
    simp only [State.grantTo, howner]
    exact ⟨rfl, rfl, rfl⟩
  | inbound d =>
    rw [State.grantTo_inbound howner]
    have hstored : ∀ n, s.SameClock (s.chunkStored p d n) := fun n => ⟨rfl, rfl, rfl⟩
    split
    · rw [State.returnLane_spec]
      exact ((hstored _).trans (State.complete_sameFloor _ d).sameClock).trans (State.modPort_sameFloor _ p _).sameClock
    · exact hstored _

theorem State.moverTurn_cases (s : State) : (s.grantTarget = none ∧ s.moverTurn = s) ∨
    ∃ p, s.grantTarget = some p ∧ s.moverTurn = s.grantTo p := by
  unfold State.moverTurn
  split
  · next h => exact .inl ⟨h, rfl⟩
  · next p h => exact .inr ⟨p, h, rfl⟩

theorem State.moverTurn_sameClock (s : State) : s.SameClock s.moverTurn := by
  obtain ⟨-, h⟩ | ⟨p, -, h⟩ := s.moverTurn_cases <;> rw [h]
  · exact ⟨rfl, rfl, rfl⟩
  · exact s.grantTo_sameClock p

theorem State.moverTurn_noNewDue (hholds : ∀ d, (s.desc d).hold < 65536) : s.NoNewDue s.moverTurn := by
  obtain ⟨-, h⟩ | ⟨p, -, h⟩ := s.moverTurn_cases <;> rw [h]
  · exact .refl s
  · exact State.grantTo_noNewDue hholds p

/-! ### The rows that test a deadline -/

theorem State.expireTakes_noNewDue (s : State) (p : Port) : s.NoNewDue (s.expireTakes p) := by
  obtain ⟨-, h⟩ | ⟨-, h⟩ := s.expireTakes_cases p <;> rw [h]
  · exact .refl s
  · have hfilter : (s.port p).NoNewDue s.tickCount { s.port p with takes := { (s.port p).takes with
        posted := (s.port p).takes.posted.filter (fun t => !t.reached s.tickCount) } } :=
      ⟨rfl, fun _ ht => (List.mem_filter.mp ht).1, fun _ h => h, id, id⟩
    exact State.modPort_noNewDue (hfilter.trans (PortState.append_noNewDue _ _ _))

theorem State.expireHolds_noNewDue (s : State) (p : Port) : s.NoNewDue (s.expireHolds p) := by
  unfold State.expireHolds
  split
  · exact State.foldl_noNewDue (fun t d => State.endCopy_noNewDue (.of_eq rfl rfl rfl rfl) d .expired) _ s
  · exact .refl s

theorem Descriptor.markPassed_due {now now' : Tick} {p q : Port} {x : Descriptor} (h : ((x.markPassed now p).slots.get q).Due now') :
    (x.slots.get q).Due now' := by
  unfold Descriptor.markPassed at h
  split at h
  · by_cases hq : q = p
    · subst hq
      rw [PerPort.get_modify_same] at h
      obtain ⟨hd, hw | ⟨-, hp⟩⟩ := h
      · exact ⟨hd, .inl hw⟩
      · cases hp
    · rwa [PerPort.get_modify_other _ _ hq] at h
  · exact h

theorem State.markHolds_ports (s : State) (p : Port) : (s.markHolds p).ports = s.ports := by
  unfold State.markHolds
  split <;> rfl

theorem State.markHolds_noNewDue (s : State) (p : Port) : s.NoNewDue (s.markHolds p) := by
  refine ⟨?_, fun q => ?_, fun d q hdue => ?_⟩
  · unfold State.markHolds
    split <;> exact ⟨rfl, rfl, rfl⟩
  · have hport : (s.markHolds p).port q = s.port q := by rw [State.port, State.markHolds_ports, State.port]
    rw [hport]
    exact .refl _ _
  · rw [State.slot, State.markHolds_desc] at hdue
    split at hdue
    · exact Descriptor.markPassed_due hdue
    · exact hdue

theorem State.testByteDeadline_noNewDue (s : State) (p : Port) : s.NoNewDue (s.testByteDeadline p) := by
  unfold State.testByteDeadline
  split
  · exact s.lapse_noNewDue p
  · exact .refl s

theorem State.testAnswerDeadline_noNewDue (s : State) (p : Port) : s.NoNewDue (s.testAnswerDeadline p) := by
  unfold State.testAnswerDeadline
  split
  · exact s.lapse_noNewDue p
  · exact .refl s

theorem State.stallInbound_noNewDue (s : State) (p : Port) : s.NoNewDue (s.stallInbound p) := by
  unfold State.stallInbound
  split
  · split
    · exact s.abandonTransfer_noNewDue p _
    · exact .refl s
  · exact .refl s
  · exact .refl s

theorem State.stallOutbound_noNewDue (s : State) (p : Port) : s.NoNewDue (s.stallOutbound p) := by
  unfold State.stallOutbound
  split
  · split
    · exact (s.endDelivery_noNewDue p _ .stopped).trans (State.lapse_noNewDue _ p)
    · exact .refl s
  · exact .refl s
  · exact .refl s

end States

end Sys2Proof.Machine
end

