-- ==== Sys2Proof/Proofs/CatchUp.lean ====
section
/-! PROOFS. TICK: what is still due before it is taken row by row, and in a sound state nothing is left (O42). -/

namespace Sys2Proof.Machine

/-! ### What is due, as propositions -/

section Due

variable {s t : State} {p : Port}

theorem State.framingDue_iff (s : State) (p : Port) :
    s.isDue (.framing p) = true ↔ (s.port p).outbound.tx.deadline = some s.tickCount := by
  simp only [State.isDue, Bool.or_eq_true, State.byteDeadlineReached_iff, State.answerDeadlineReached_iff]
  cases (s.port p).outbound.tx <;> simp [Transmission.deadline]

theorem State.laneDue_iff (s : State) (p : Port) : s.isDue (.lane p) = true ↔ (s.port p).lane.Stalled s.tickCount := by
  simp [State.isDue, Lane.Stalled, State.stallReached]

theorem State.takesDue_iff (s : State) (p : Port) :
    s.isDue (.takes p) = true ↔ ∃ t ∈ (s.port p).takes.posted, t.deadline = some s.tickCount := by
  simp [State.isDue, PostedTake.reached]

theorem State.grantDue_iff (s : State) : s.isDue .grant = true ↔ ∃ p, (s.port p).lane.grantDue = true := by
  simp [State.isDue, Port.mem_all]

theorem CopySlot.markDue_iff (now : Tick) (x : CopySlot) :
    x.markDue now = true ↔ ((x.state = .bound ∨ x.state = .moving) ∧ x.passed = false) ∧ x.deadline = some now := by
  simp [CopySlot.markDue, and_assoc, and_comm]

/-- A list happening is due as the list and the slots stand. -/
theorem State.listDue_iff_list (s : State) (p : Port) : s.isDue (.list p) = true ↔ (s.port p).isOpen = true ∧
    ((∃ d ∈ (s.port p).unclaimed, (s.slot d p).deadline = some s.tickCount) ∨ ∃ d, (s.slot d p).markDue s.tickCount = true) := by
  simp [State.isDue, State.listDue, State.holdReached]

/-- A sound port that is not OPEN has no live copy (R172). -/
theorem State.sound.open_of_live (hs : s.sound) {d : DescNo} (hl : (s.slot d p).state.live = true) : (s.port p).isOpen = true := by
  by_contra hopen
  obtain ⟨-, -, -, -, hclosed⟩ := hs.sessions p
  obtain ⟨⟨-, hmatched, hlist, -⟩, -⟩ := hclosed (by simpa using hopen)
  have hmem := (hs.copies.live_iff p d).mp hl
  simp [PortState.liveCopies, hmatched, hlist] at hmem

/-- In a sound state a list happening is due exactly when a copy is. -/
theorem State.sound.listDue_iff (hs : s.sound) : s.isDue (.list p) = true ↔ ∃ d, (s.slot d p).Due s.tickCount := by
  rw [State.listDue_iff_list]
  constructor
  · rintro ⟨-, ⟨d, hd, hdeadline⟩ | ⟨d, hmark⟩⟩
    · exact ⟨d, hdeadline, .inl ((hs.copies.waiting_iff d p).mpr hd)⟩
    · obtain ⟨hstate, hdeadline⟩ := (CopySlot.markDue_iff _ _).mp hmark
      exact ⟨d, hdeadline, .inr hstate⟩
  · rintro ⟨d, hdue⟩
    have hlive : (s.slot d p).state.live = true := by
      by_contra hdead
      exact CopySlot.not_due_of_not_live (by simpa using hdead) hdue
    obtain ⟨hdeadline, hwaiting | hstate⟩ := hdue
    · exact ⟨hs.open_of_live hlive, .inl ⟨d, (hs.copies.waiting_iff d p).mp hwaiting, hdeadline⟩⟩
    · exact ⟨hs.open_of_live hlive, .inr ⟨d, (CopySlot.markDue_iff _ _).mpr ⟨hstate, hdeadline⟩⟩⟩

/-- A deadline by the answer limit of a sound port is not now (R170). -/
theorem State.sound.answerDeadline_ne (hs : s.sound) (p : Port) : (s.port p).answerDeadlineFrom s.tickCount ≠ s.tickCount := by
  obtain ⟨-, -, hlow, hhigh, -⟩ := hs.sessions p
  exact deadlineAfter_ne _ (by omega) (by omega)

/-- What is not due in a sound state stays so. -/
theorem State.NoNewDue.isDue (h : s.NoNewDue t) (hs : s.sound) (ht : t.sound) {x : DueHappening} (hx : t.isDue x = true) :
    s.isDue x = true := by
  have htick := h.clock.tickCount
  cases x with
  | takes p =>
    obtain ⟨v, hv, hdeadline⟩ := (t.takesDue_iff p).mp hx
    exact (s.takesDue_iff p).mpr ⟨v, (h.ports p).posted v hv, htick ▸ hdeadline⟩
  | list p =>
    obtain ⟨d, hdue⟩ := ht.listDue_iff.mp hx
    exact hs.listDue_iff.mpr ⟨d, h.slots d p (htick ▸ hdue)⟩
  | framing p =>
    have hdeadline := (t.framingDue_iff p).mp hx
    exact (s.framingDue_iff p).mpr ((h.ports p).framing (hs.answerDeadline_ne p) (htick ▸ hdeadline))
  | lane p =>
    have hstalled := (t.laneDue_iff p).mp hx
    exact (s.laneDue_iff p).mpr ((h.ports p).lane (htick ▸ hstalled))
  | grant =>
    obtain ⟨p, hp⟩ := t.grantDue_iff.mp hx
    exact s.grantDue_iff.mpr ⟨p, (h.ports p).grant hp⟩

theorem mem_allDue (h : DueHappening) : h ∈ allDue := by
  cases h <;> simp [allDue, Port.mem_all]

/-- Nothing is left of the present tick exactly when no happening is due. -/
theorem State.nothingDue_iff (s : State) : s.NothingDue ↔ ∀ h, s.isDue h = false := by
  simp only [← Bool.not_eq_true]
  constructor
  · intro hn h
    cases h with
    | takes p =>
      rw [State.takesDue_iff]
      rintro ⟨v, hv, hdeadline⟩
      exact hn.takes p v hv hdeadline
    | list p =>
      rw [State.listDue_iff_list]
      rintro ⟨hopen, ⟨d, hd, hdeadline⟩ | ⟨d, hmark⟩⟩
      · exact hn.holds p (by simpa [PortState.isOpen] using hopen) d hd hdeadline
      · obtain ⟨⟨hstate, hpassed⟩, hdeadline⟩ := (CopySlot.markDue_iff _ _).mp hmark
        simp [hn.marks p d (by simpa [PortState.isOpen] using hopen) hstate hdeadline] at hpassed
    | framing p =>
      obtain ⟨hdata, hlength, hanswer⟩ := hn.framing p
      rw [State.framingDue_iff]
      intro hdeadline
      cases htx : (s.port p).outbound.tx <;> simp_all [Transmission.deadline]
    | lane p =>
      rw [State.laneDue_iff]
      exact fun hstalled => hn.lanes p hstalled.1 hstalled.2
    | grant =>
      rw [State.grantDue_iff]
      rintro ⟨p, hp⟩
      simp [hn.grants p] at hp
  · intro hnone
    refine ⟨fun p v hv hdeadline => ?_, fun p hopen d hd hdeadline => ?_, fun p d hopen hstate hdeadline => ?_, fun p => ?_,
      fun p howner hstall => ?_, fun p => ?_⟩
    · exact hnone (.takes p) ((s.takesDue_iff p).mpr ⟨v, hv, hdeadline⟩)
    · exact hnone (.list p) ((s.listDue_iff_list p).mpr ⟨by simp [PortState.isOpen, hopen], .inl ⟨d, hd, hdeadline⟩⟩)
    · by_contra hpassed
      exact hnone (.list p) ((s.listDue_iff_list p).mpr ⟨by simp [PortState.isOpen, hopen],
        .inr ⟨d, (CopySlot.markDue_iff _ _).mpr ⟨⟨hstate, by simpa using hpassed⟩, hdeadline⟩⟩⟩)
    · have hframing := mt (s.framingDue_iff p).mpr (hnone (.framing p))
      exact ⟨fun n htx => hframing (by rw [htx]; rfl), fun htx => hframing (by rw [htx]; rfl), fun htx => hframing (by rw [htx]; rfl)⟩
    · exact hnone (.lane p) ((s.laneDue_iff p).mpr ⟨howner, hstall⟩)
    · by_contra hp
      exact hnone .grant (s.grantDue_iff.mpr ⟨p, by simpa using hp⟩)

end Due

/-! ### Taking one due happening -/

/-- What taking a due happening does. -/
def State.dueEffect (s : State) (h : DueHappening) : State :=
  match h with
  | .takes p => s.expireTakes p
  | .list p => (s.expireHolds p).markHolds p
  | .framing p => (s.testByteDeadline p).testAnswerDeadline p
  | .lane p => (s.stallInbound p).stallOutbound p
  | .grant => s.moverTurn

section TakeDue

variable {s t : State} {p : Port} {h : DueHappening}

theorem State.takeDue_eq (s : State) (h : DueHappening) : s.takeDue h = if s.isDue h = true then s.dueEffect h else s := by
  cases h <;> rfl

theorem State.takeDue_of_not_due (hnot : s.isDue h = false) : s.takeDue h = s := by
  rw [State.takeDue_eq, if_neg (by simp [hnot])]

/-- A grant may complete a message, whose hold must fit its field; the others ask for nothing. -/
theorem State.dueEffect_noNewDue (hholds : h = .grant → ∀ d, (s.desc d).hold < 65536) : s.NoNewDue (s.dueEffect h) := by
  cases h with
  | takes p => exact s.expireTakes_noNewDue p
  | list p => exact (s.expireHolds_noNewDue p).trans (State.markHolds_noNewDue _ p)
  | framing p => exact (s.testByteDeadline_noNewDue p).trans (State.testAnswerDeadline_noNewDue _ p)
  | lane p => exact (s.stallInbound_noNewDue p).trans (State.stallOutbound_noNewDue _ p)
  | grant => exact State.moverTurn_noNewDue (hholds rfl)

theorem State.takeDue_noNewDue (hholds : ∀ d, (s.desc d).hold < 65536) (h : DueHappening) : s.NoNewDue (s.takeDue h) := by
  rw [State.takeDue_eq]
  split
  · exact State.dueEffect_noNewDue fun _ => hholds
  · exact .refl s

theorem State.takeDue_sameClock (s : State) (h : DueHappening) : s.SameClock (s.takeDue h) := by
  rw [State.takeDue_eq]
  split
  · by_cases hgrant : h = .grant
    · subst hgrant
      exact s.moverTurn_sameClock
    · exact (State.dueEffect_noNewDue fun hg => absurd hg hgrant).clock
  · exact ⟨rfl, rfl, rfl⟩

theorem State.Happenings.sound (hrun : s.Happenings t) (hs : s.sound) : t.sound := hrun.keeps (fun _ _ hstep => hstep.sound) hs

theorem State.takeDue_sound (hs : s.sound) (h : DueHappening) : (s.takeDue h).sound := (s.takeDue_happenings h).sound hs

end TakeDue

/-! ### The rows it amounts to -/

/-- The rows that take a due happening. -/
def dueRows (h : DueHappening) : List Instr :=
  match h with
  | .takes p => [.takeDeadline p]
  | .list p => [.holdExpiry p, .holdDeadlineMark p]
  | .framing p => [.byteDeadline p, .answerDeadline p]
  | .lane p => [.inboundStall p, .outboundStall p]
  | .grant => [.grant]

/-- A row that TICK may give: a grant, or a row that tests a deadline. -/
def IsCatchUpRow (c : Instr) : Prop := c = .grant ∨ ∃ p, c ∈ deadlineRows p

theorem dueRows_isCatchUpRow (h : DueHappening) : ∀ c ∈ dueRows h, IsCatchUpRow c := by
  intro c hc
  cases h with
  | grant => exact .inl (List.mem_singleton.mp hc)
  | takes p | list p | framing p | lane p =>
    refine .inr ⟨p, ?_⟩
    simp only [dueRows, List.mem_cons, List.not_mem_nil, or_false] at hc
    simp only [deadlineRows, List.mem_cons]
    tauto

section Rows

variable {s t : State} {h : DueHappening}

theorem State.after_of_released {c : Instr} (hrun : s.resetAsserted = false) (hc : exec c s = .next (s.unlessInReset t)) :
    s.after c = t := by
  rw [State.after, hc]
  exact s.unlessInReset_released t hrun

/-- Two rows one after the other, the first keeping the pin released. -/
theorem State.afterAll_pair {c c' : Instr} {u : State} (hrun : s.resetAsserted = false) (hc : exec c s = .next (s.unlessInReset t))
    (hclock : s.SameClock t) (hc' : exec c' t = .next (t.unlessInReset u)) : State.afterAll [c, c'] s = u := by
  show (s.after c).after c' = u
  rw [State.after_of_released hrun hc, State.after_of_released (hclock.resetAsserted.trans hrun) hc']

/-- What a due happening does is what its rows do, one after another. -/
theorem State.afterAll_dueRows (hrun : s.resetAsserted = false) (h : DueHappening) :
    State.afterAll (dueRows h) s = s.dueEffect h := by
  cases h with
  | takes p => exact State.after_of_released (c := .takeDeadline p) hrun rfl
  | list p => exact State.afterAll_pair hrun rfl (s.expireHolds_noNewDue p).clock rfl
  | framing p => exact State.afterAll_pair hrun rfl (s.testByteDeadline_noNewDue p).clock rfl
  | lane p => exact State.afterAll_pair hrun rfl (s.stallInbound_noNewDue p).clock rfl
  | grant => exact State.after_of_released (c := .grant) hrun rfl

/-- Happenings taken one after another, each if it is due, are rows given one after another. -/
theorem State.takeAllDue_rows (hs : List DueHappening) : ∀ s : State, s.resetAsserted = false →
    ∃ cs : List Instr, (∀ c ∈ cs, IsCatchUpRow c) ∧ s.takeAllDue hs = State.afterAll cs s := by
  induction hs with
  | nil => exact fun s _ => ⟨[], by simp, rfl⟩
  | cons h hs ih =>
    intro s hrun
    obtain ⟨cs, hcs, hrest⟩ := ih (s.takeDue h) ((s.takeDue_sameClock h).resetAsserted.trans hrun)
    have hcons : s.takeAllDue (h :: hs) = State.afterAll cs (s.takeDue h) := hrest
    by_cases hdue : s.isDue h = true
    · refine ⟨dueRows h ++ cs, fun c hc => (List.mem_append.mp hc).elim (dueRows_isCatchUpRow h c) (hcs c), ?_⟩
      rw [hcons, State.takeDue_eq, if_pos hdue, ← State.afterAll_dueRows hrun]
      exact List.foldl_append.symm
    · exact ⟨cs, hcs, by rw [hcons, State.takeDue_of_not_due (by simpa using hdue)]⟩

theorem State.takeAllDue_sameClock (hs : List DueHappening) : ∀ s : State, s.SameClock (s.takeAllDue hs) := by
  induction hs with
  | nil => exact fun s => ⟨rfl, rfl, rfl⟩
  | cons h hs ih => exact fun s => (s.takeDue_sameClock h).trans (ih (s.takeDue h))

end Rows

/-! ### A happening taken is no longer due -/

section Cleared

variable {s : State} {p : Port}

theorem State.expireTakes_clears (s : State) (p : Port) : (s.expireTakes p).isDue (.takes p) = false := by
  rw [← Bool.not_eq_true, State.takesDue_iff, (s.expireTakes_noNewDue p).clock.tickCount]
  rintro ⟨t, ht, hdeadline⟩
  have hreached : t.reached s.tickCount = true := by simp [PostedTake.reached, hdeadline]
  obtain ⟨hnone, h⟩ | ⟨-, h⟩ := s.expireTakes_cases p <;> rw [h] at ht
  · exact List.filter_eq_nil_iff.mp hnone t ht hreached
  · rw [State.modPort_port_same, (PortState.append_onlyNotices _ _ _).takes] at ht
    simp [hreached] at ht

/-- After a hold expiry no copy of an OPEN port's list has its deadline now (R46). -/
theorem State.expireHolds_clears (hs : s.copiesSound) (hopen : (s.port p).isOpen = true) {d : DescNo}
    (hd : d ∈ ((s.expireHolds p).port p).unclaimed) : ((s.expireHolds p).slot d p).deadline ≠ some s.tickCount := by
  have hexpired := State.foldl_expireCopy p ((s.port p).unclaimed.filter (fun d => s.holdReached d p)) s hs
    ((hs.list_nodup p).filter _) (fun d hd => (List.mem_filter.mp hd).1)
  have hfold : s.expireHolds p = ((s.port p).unclaimed.filter (fun d => s.holdReached d p)).foldl (fun t d => t.expireCopy p d) s :=
    if_pos hopen
  rw [← hfold] at hexpired
  rw [hexpired.port, if_pos rfl, (PortState.receive_onlyNotices _ _ _).unclaimed, PortState.withoutCopies, List.mem_filter] at hd
  obtain ⟨hmem, hkept⟩ := hd
  have hnot : d ∉ (s.port p).unclaimed.filter (fun d => s.holdReached d p) := fun hin => by
    rw [List.contains_iff_mem.mpr hin] at hkept
    cases hkept
  rw [State.slot, hexpired.desc, if_neg hnot]
  intro hdeadline
  exact hnot (List.mem_filter.mpr ⟨hmem, by simpa [State.holdReached, State.slot] using hdeadline⟩)

/-- After the marks of an OPEN port no BOUND or MOVING copy waits for one, and the deadlines are as they were (R47). -/
theorem State.markHolds_slot (hopen : (s.port p).isOpen = true) (d : DescNo) :
    ((s.markHolds p).slot d p).deadline = (s.slot d p).deadline ∧
      ((s.markHolds p).slot d p).markDue s.tickCount = false := by
  rw [State.slot, State.markHolds_desc, if_pos hopen, Descriptor.markPassed]
  split
  · rw [PerPort.get_modify_same]
    exact ⟨rfl, by simp [CopySlot.markDue]⟩
  · next h => exact ⟨rfl, by simpa using h⟩

theorem State.listEffect_clears (hs : s.sound) (hopen : (s.port p).isOpen = true) :
    ((s.expireHolds p).markHolds p).isDue (.list p) = false := by
  have htick : (s.expireHolds p).tickCount = s.tickCount := (s.expireHolds_noNewDue p).clock.tickCount
  have hmarktick : ((s.expireHolds p).markHolds p).tickCount = s.tickCount :=
    (State.markHolds_noNewDue _ p).clock.tickCount.trans htick
  have hport : ((s.expireHolds p).markHolds p).port p = (s.expireHolds p).port p := by
    rw [State.port, State.markHolds_ports, State.port]
  rw [← Bool.not_eq_true, State.listDue_iff_list, hport, hmarktick]
  rintro ⟨hopen', ⟨d, hd, hdeadline⟩ | ⟨d, hmark⟩⟩
  · obtain ⟨hsame, -⟩ := State.markHolds_slot hopen' d
    exact State.expireHolds_clears hs.copies hopen hd (hsame ▸ hdeadline)
  · obtain ⟨-, hmarked⟩ := State.markHolds_slot hopen' d
    rw [← htick, hmarked] at hmark
    cases hmark

theorem State.lapse_own (s : State) (p : Port) :
    ((s.lapse p).port p).outbound.tx = .idle ∧ ((s.lapse p).port p).lane.owner = .idle := by
  rw [(s.lapse_spec p).2]
  obtain ⟨-, -, -, -, -, -, howner, -⟩ := (s.port p).tornDown_sessionless
  exact ⟨rfl, howner⟩

theorem State.lapse_framing_clears (s : State) (p : Port) : (s.lapse p).isDue (.framing p) = false := by
  rw [← Bool.not_eq_true, State.framingDue_iff, (s.lapse_own p).1]
  simp [Transmission.deadline]

theorem State.testByteDeadline_clears (s : State) (p : Port) : (s.testByteDeadline p).byteDeadlineReached p = false := by
  unfold State.testByteDeadline
  split
  · exact (Bool.or_eq_false_iff.mp (s.lapse_framing_clears p)).1
  · next h => simpa using h

theorem State.framingEffect_clears (s : State) (p : Port) :
    ((s.testByteDeadline p).testAnswerDeadline p).isDue (.framing p) = false := by
  unfold State.testAnswerDeadline
  split
  · exact State.lapse_framing_clears _ p
  · next h => exact Bool.or_eq_false_iff.mpr ⟨s.testByteDeadline_clears p, by simpa using h⟩

theorem State.not_laneDue_of_idle (h : (s.port p).lane.owner = .idle) : s.isDue (.lane p) = false := by
  rw [← Bool.not_eq_true, State.laneDue_iff]
  exact fun hstalled => hstalled.1 h

/-- A stall that is reached ends the transfer, and the lane is IDLE (R166). -/
theorem State.laneEffect_clears (s : State) (p : Port) : ((s.stallInbound p).stallOutbound p).isDue (.lane p) = false := by
  cases hreached : s.stallReached p with
  | false =>
    rw [State.stallInbound_of_not (.inl hreached), State.stallOutbound_of_not (.inl hreached), ← Bool.not_eq_true, State.laneDue_iff]
    rintro ⟨-, hstall⟩
    simp [State.stallReached, hstall] at hreached
  | true =>
    cases howner : (s.port p).lane.owner with
    | idle =>
      rw [State.stallInbound_of_not (.inr fun d => by simp [howner]), State.stallOutbound_of_not (.inr fun d => by simp [howner])]
      exact State.not_laneDue_of_idle howner
    | inbound d =>
      have hin : s.stallInbound p = s.abandonTransfer p d := by
        simp only [State.stallInbound, howner, hreached, if_true]
      have hidle : ((s.abandonTransfer p d).port p).lane.owner = .idle := by
        obtain ⟨-, -, hlane⟩ := s.abandonTransfer_spec p d
        rw [hlane, PortState.idleLane_owner]
      rw [hin, State.stallOutbound_of_not (.inr fun e => by simp [hidle])]
      exact State.not_laneDue_of_idle hidle
    | outbound d =>
      have hout : s.stallOutbound p = (s.endDelivery p d .stopped).lapse p := by
        simp only [State.stallOutbound, howner, hreached, if_true]
      rw [State.stallInbound_of_not (.inr fun e => by simp [howner]), hout]
      exact State.not_laneDue_of_idle (State.lapse_own _ p).2

/-- What a happening other than a grant was due for is over once it is taken. -/
theorem State.takeDue_clears (hs : s.sound) {h : DueHappening} (hgrant : h ≠ .grant) : (s.takeDue h).isDue h = false := by
  cases hdue : s.isDue h with
  | false => rw [State.takeDue_of_not_due hdue, hdue]
  | true =>
    rw [State.takeDue_eq, if_pos hdue]
    cases h with
    | takes p => exact s.expireTakes_clears p
    | list p => exact State.listEffect_clears hs ((s.listDue_iff_list p).mp hdue).1
    | framing p => exact s.framingEffect_clears p
    | lane p => exact s.laneEffect_clears p
    | grant => exact absurd rfl hgrant

end Cleared

/-! ### Four grants serve every lane that is owed one -/

/-- The place of a port in the rotation: how many lanes the mover tries before it (R160). -/
def rotationPlace (pointer p : Port) : Nat := (rotationFrom pointer).idxOf p

theorem mem_rotationFrom (pointer p : Port) : p ∈ rotationFrom pointer := by
  cases pointer <;> cases p <;> decide

theorem rotationPlace_lt (pointer p : Port) : rotationPlace pointer p < 4 := List.idxOf_lt_length_of_mem (mem_rotationFrom pointer p)

/-- A port behind another in the rotation is nearer once the pointer names that other. -/
theorem rotationPlace_lt_of_served {pointer q r : Port} (h : rotationPlace pointer q < rotationPlace pointer r) :
    rotationPlace q r < rotationPlace pointer r := by
  have hall : ∀ x ∈ Port.all, ∀ q ∈ Port.all, ∀ r ∈ Port.all,
      rotationPlace x q < rotationPlace x r → rotationPlace q r < rotationPlace x r := by decide
  exact hall pointer pointer.mem_all q q.mem_all r r.mem_all h

/-- Every lane that is owed a grant is among the first `n` of the rotation. -/
def State.OwedWithin (s : State) (n : Nat) : Prop := ∀ p, (s.port p).lane.grantDue = true → rotationPlace s.pointer p < n

theorem State.owedWithin_four (s : State) : s.OwedWithin 4 := fun p _ => rotationPlace_lt s.pointer p

theorem State.not_grantDue_of_owedWithin_zero {s : State} (h : s.OwedWithin 0) : s.isDue .grant = false := by
  rw [← Bool.not_eq_true, State.grantDue_iff]
  rintro ⟨p, hp⟩
  exact Nat.not_lt_zero _ (h p hp)

section Grants

variable {s : State} {p : Port}

/-- The mover's target is the first eligible lane of the rotation (R160). -/
theorem State.grantTarget_spec (h : s.grantTarget = some p) : (s.port p).lane.eligible = true ∧
    ∀ q, q ≠ p → (s.port q).lane.eligible = true → rotationPlace s.pointer p < rotationPlace s.pointer q := by
  obtain ⟨hp, ahead, behind, hrot, hahead⟩ := List.find?_eq_some_iff_append.mp h
  have hnot : ∀ q, (s.port q).lane.eligible = true → q ∉ ahead := fun q hq hmem => by simpa [hq] using hahead q hmem
  refine ⟨hp, fun q hqp hq => ?_⟩
  rw [rotationPlace, rotationPlace, hrot, List.idxOf_append_of_notMem (hnot p hp), List.idxOf_append_of_notMem (hnot q hq),
    List.idxOf_cons_self, List.idxOf_cons_ne _ hqp.symm]
  omega

/-- A grant makes good what the lane was owed, and the pointer names it (R160). -/
theorem State.grantTo_served (howner : (s.port p).lane.owner ≠ .idle) :
    (s.grantTo p).pointer = p ∧ ((s.grantTo p).port p).lane.grantDue = false := by
  cases howner' : (s.port p).lane.owner with
  | idle => exact absurd howner' howner
  | outbound d =>
    simp only [State.grantTo, howner', State.grantOutbound]
    rw [State.modPort_port_same]
    exact ⟨rfl, rfl⟩
  | inbound d =>
    rw [State.grantTo_inbound howner']
    have hstored : ∀ n, ((s.chunkStored p d n).port p).lane.grantDue = false := fun n => by
      rw [State.chunkStored, State.port, State.putPort, PerPort.get_set_same]
      rfl
    split
    · refine ⟨(State.modPort_sameFloor _ p _).pointer.trans (State.complete_sameFloor _ d).pointer, ?_⟩
      rw [State.returnLane_lane]
      rfl
    · exact ⟨rfl, hstored _⟩

/-- A turn of the mover brings every lane that is still owed a grant one place nearer. -/
theorem State.takeGrant_owedWithin (hs : s.sound) {n : Nat} (h : s.OwedWithin (n + 1)) : (s.takeDue .grant).OwedWithin n := by
  have heligible : ∀ p, (s.port p).lane.grantDue = true → (s.port p).lane.eligible = true := fun p => by
    obtain ⟨⟨-, hdue, -⟩, -⟩ := hs.lanes p
    exact hdue
  cases hdue : s.isDue .grant with
  | false =>
    rw [State.takeDue_of_not_due hdue]
    exact fun p hp => absurd (s.grantDue_iff.mpr ⟨p, hp⟩) (by simp [hdue])
  | true =>
    have hnew := State.takeDue_noNewDue hs.holds .grant
    rw [State.takeDue_eq, if_pos hdue] at hnew ⊢
    obtain ⟨p₀, hp₀⟩ := s.grantDue_iff.mp hdue
    obtain ⟨hnone, -⟩ | ⟨q, htarget, hturn⟩ := s.moverTurn_cases
    · have := List.find?_eq_none.mp hnone p₀ (mem_rotationFrom _ _)
      exact absurd (heligible p₀ hp₀) this
    · obtain ⟨hq, hfirst⟩ := State.grantTarget_spec htarget
      have howner : (s.port q).lane.owner ≠ .idle := fun hidle => by simp [Lane.eligible, hidle] at hq
      obtain ⟨hpointer, hserved⟩ := State.grantTo_served howner
      intro r hr
      have hrs : (s.port r).lane.grantDue = true := (hnew.ports r).grant hr
      have hrq : r ≠ q := fun heq => by
        subst heq
        rw [State.dueEffect, hturn, hserved] at hr
        cases hr
      have hnearer := rotationPlace_lt_of_served (hfirst r hrq (heligible r hrs))
      have hbefore := h r hrs
      rw [State.dueEffect, hturn, hpointer]
      omega

end Grants

/-! ### Taking all of them -/

section TakeAll

variable {s : State}

theorem State.takeAllDue_append (hs hs' : List DueHappening) (s : State) :
    s.takeAllDue (hs ++ hs') = (s.takeAllDue hs).takeAllDue hs' := List.foldl_append

theorem State.takeAllDue_sound (hs : s.sound) (hl : List DueHappening) : (s.takeAllDue hl).sound :=
  (State.foldl_happenings State.takeDue_happenings hl s).sound hs

/-- What is due after some happenings have been taken was due before. -/
theorem State.due_of_takeAllDue {h : DueHappening} (hl : List DueHappening) :
    ∀ s : State, s.sound → (s.takeAllDue hl).isDue h = true → s.isDue h = true := by
  induction hl with
  | nil => exact fun _ _ hdue => hdue
  | cons x hl ih =>
    intro s hs hdue
    have hx := State.takeDue_sound hs x
    exact (State.takeDue_noNewDue hs.holds x).isDue hs hx (ih _ hx hdue)

/-- A happening other than a grant that is among those taken is not due after them. -/
theorem State.takeAllDue_clears {h : DueHappening} (hgrant : h ≠ .grant) (hl : List DueHappening) (hmem : h ∈ hl) :
    ∀ s : State, s.sound → (s.takeAllDue hl).isDue h = false := by
  intro s hs
  obtain ⟨before, after, rfl⟩ := List.append_of_mem hmem
  have hbefore := State.takeAllDue_sound hs before
  have hcleared := State.takeDue_clears hbefore hgrant
  rw [← Bool.not_eq_true, State.takeAllDue_append]
  intro hdue
  have := State.due_of_takeAllDue after _ (State.takeDue_sound hbefore h) hdue
  simp [hcleared] at this

/-- As many grants as there are places serve every lane that is owed one. -/
theorem State.takeGrants_owedWithin (n : Nat) : ∀ s : State, s.sound → s.OwedWithin n →
    (s.takeAllDue (List.replicate n .grant)).isDue .grant = false := by
  induction n with
  | zero => exact fun _ _ h => State.not_grantDue_of_owedWithin_zero h
  | succ n ih => exact fun s hs h => ih _ (State.takeDue_sound hs .grant) (State.takeGrant_owedWithin hs h)

/-- Four grants at the end leave no lane owed one. -/
theorem State.takeFourGrants_clears (hs : s.sound) (before : List DueHappening) :
    (s.takeAllDue (before ++ List.replicate 4 .grant)).isDue .grant = false := by
  rw [State.takeAllDue_append]
  exact State.takeGrants_owedWithin 4 _ (State.takeAllDue_sound hs before) (State.owedWithin_four _)

/-- What TICK takes in the free order: all happenings at least once, and four grants last (assumption log 8). -/
theorem freeOrder_eq (n : Nat) : ∃ before, Config.tickOrder n ++ allDue ++ List.replicate 3 .grant = before ++ List.replicate 4 .grant :=
  ⟨Config.tickOrder n ++ Port.all.flatMap (fun p => [.takes p, .list p, .framing p, .lane p]), by simp [allDue]⟩

/-- What TICK finds outstanding: nothing, one happening, or several (assumption log 8). -/
theorem State.catchUp_cases (s : State) : (s.dueNow = [] ∧ s.catchUp = s) ∨
    (∃ h, s.dueNow = [h] ∧ s.catchUp = s.takeAllDue (List.replicate 4 h)) ∨
    (s.dueNow ≠ [] ∧ s.catchUp = ({ s with draws := s.draws + 1 } : State).takeAllDue
      (Config.tickOrder s.draws ++ allDue ++ List.replicate 3 .grant)) := by
  unfold State.catchUp
  split
  · next h => exact .inl ⟨h, rfl⟩
  · next x h => exact .inr (.inl ⟨x, h, rfl⟩)
  · next h _ => exact .inr (.inr ⟨h, rfl⟩)

theorem State.mem_dueNow (h : DueHappening) : h ∈ s.dueNow ↔ s.isDue h = true := by
  rw [State.dueNow, List.mem_filter]
  exact and_iff_right (mem_allDue h)

/-- In a sound state the catch-up leaves nothing due. -/
theorem State.catchUp_nothingDue (hs : s.sound) : s.catchUp.NothingDue := by
  rw [State.nothingDue_iff]
  intro h
  obtain ⟨hnone, hcatch⟩ | ⟨x, hone, hcatch⟩ | ⟨-, hcatch⟩ := s.catchUp_cases <;> rw [hcatch]
  · rw [← Bool.not_eq_true, ← State.mem_dueNow, hnone]
    exact List.not_mem_nil
  · by_cases hx : h = x
    · subst hx
      by_cases hgrant : h = .grant
      · subst hgrant
        exact State.takeFourGrants_clears hs []
      · exact State.takeAllDue_clears hgrant _ (by simp) s hs
    · rw [← Bool.not_eq_true]
      intro hdue
      have hmem := (State.mem_dueNow h).mpr (State.due_of_takeAllDue _ s hs hdue)
      rw [hone] at hmem
      exact hx (List.mem_singleton.mp hmem)
  · have hdrawn : ({ s with draws := s.draws + 1 } : State).sound :=
      (Happening.idle (s := s) { s with draws := s.draws + 1 } rfl rfl rfl rfl).sound hs
    by_cases hgrant : h = .grant
    · subst hgrant
      obtain ⟨before, hbefore⟩ := freeOrder_eq s.draws
      rw [hbefore]
      exact State.takeFourGrants_clears hdrawn before
    · exact State.takeAllDue_clears hgrant _ (by simp [mem_allDue]) _ hdrawn

/-- With nothing due the catch-up does nothing. -/
theorem State.catchUp_of_nothingDue (h : s.NothingDue) : s.catchUp = s := by
  have hnone : s.dueNow = [] := List.eq_nil_iff_forall_not_mem.mpr fun x hx => by
    have := (State.mem_dueNow x).mp hx
    simp [s.nothingDue_iff.mp h x] at this
  rw [State.catchUp, hnone]

/-- The catch-up is rows given one after another, after at most one draw of a free order; the count does not rise. -/
theorem State.catchUp_rows (hrun : s.resetAsserted = false) :
    (s.catchUp.draws = s.draws ∨ s.catchUp.draws = s.draws + 1) ∧ s.catchUp.tickCount = s.tickCount ∧
      ∃ cs : List Instr, (∀ c ∈ cs, IsCatchUpRow c) ∧ s.catchUp = State.afterAll cs { s with draws := s.catchUp.draws } := by
  obtain ⟨-, hcatch⟩ | ⟨x, -, hcatch⟩ | ⟨-, hcatch⟩ := s.catchUp_cases <;> rw [hcatch]
  · exact ⟨.inl rfl, rfl, [], by simp, rfl⟩
  · obtain ⟨htick, hdraws, -⟩ := s.takeAllDue_sameClock (List.replicate 4 x)
    rw [hdraws]
    exact ⟨.inl rfl, htick, s.takeAllDue_rows _ hrun⟩
  · obtain ⟨htick, hdraws, -⟩ := ({ s with draws := s.draws + 1 } : State).takeAllDue_sameClock
      (Config.tickOrder s.draws ++ allDue ++ List.replicate 3 .grant)
    rw [hdraws]
    exact ⟨.inr rfl, htick, State.takeAllDue_rows _ _ hrun⟩

end TakeAll

/-- Settles O42: the state before the count rises is the catch-up. -/
theorem tickRaisesTheCount : Obligations.TickRaisesTheCount := by
  intro s hrun
  obtain ⟨hdraws, htick, cs, hcs, hrows⟩ := State.catchUp_rows hrun
  refine ⟨s.catchUp, cs, hcs, hrows, hdraws, htick, State.catchUp_of_nothingDue, State.catchUp_nothingDue, ?_⟩
  show Host.Outcome.next (s.unlessInReset s.catchUp.advance) = _
  rw [State.unlessInReset_released s _ hrun, State.advance, htick]
  rfl

end Sys2Proof.Machine
end

