-- ==== Sys2Proof/Proofs/HoldMarks.lean ====
section
/-! PROOFS. The mark on a copy whose hold deadline passes while it is BOUND or MOVING (O45). -/

namespace Sys2Proof.Machine

/-- The port's copy is BOUND or MOVING and its deadline is the tick count, marked before or not (R47). -/
def Descriptor.HoldPasses (now : Tick) (p : Port) (x : Descriptor) : Prop :=
  ((x.slots.get p).state = .bound ∨ (x.slots.get p).state = .moving) ∧ (x.slots.get p).deadline = some now

/-- The descriptor with the mark on the port's copy and nothing else changed. -/
def Descriptor.withMark (p : Port) (x : Descriptor) : Descriptor :=
  { x with slots := x.slots.set p { x.slots.get p with passed := true } }

/-- A copy that carries the mark gains nothing from a second one. -/
theorem Descriptor.withMark_of_passed {p : Port} {x : Descriptor} (h : (x.slots.get p).passed = true) : x.withMark p = x := by
  have hslot : { x.slots.get p with passed := true } = x.slots.get p := by rw [← h]
  rw [Descriptor.withMark, hslot, PerPort.set_get]

theorem Descriptor.markPassed_of_holdPasses {now : Tick} {p : Port} {x : Descriptor} (h : x.HoldPasses now p) :
    x.markPassed now p = x.withMark p := by
  obtain ⟨hlive, hdeadline⟩ := h
  cases hpassed : (x.slots.get p).passed with
  | false =>
    have hdue := (CopySlot.markDue_iff now _).mpr ⟨⟨hlive, hpassed⟩, hdeadline⟩
    rw [Descriptor.markPassed, if_pos hdue]
    rfl
  | true =>
    have hnot : ¬ (x.slots.get p).markDue now = true := fun hdue => by
      obtain ⟨⟨-, hfresh⟩, -⟩ := (CopySlot.markDue_iff now _).mp hdue
      simp [hpassed] at hfresh
    rw [Descriptor.markPassed, if_neg hnot, Descriptor.withMark_of_passed hpassed]

theorem Descriptor.markPassed_of_not_holdPasses {now : Tick} {p : Port} {x : Descriptor} (h : ¬ x.HoldPasses now p) :
    x.markPassed now p = x := by
  have hnot : ¬ (x.slots.get p).markDue now = true := fun hdue => by
    obtain ⟨⟨hlive, -⟩, hdeadline⟩ := (CopySlot.markDue_iff now _).mp hdue
    exact h ⟨hlive, hdeadline⟩
  rw [Descriptor.markPassed, if_neg hnot]

/-- The marks stand in the descriptors; the rest of the part is as it was. -/
theorem State.markHolds_eq_withDescs (s : State) (p : Port) : ∃ marked, s.markHolds p = { s with descs := marked } := by
  unfold State.markHolds
  split
  · exact ⟨_, rfl⟩
  · exact ⟨s.descs, rfl⟩

theorem State.exec_holdDeadlineMark {s : State} (hrun : s.resetAsserted = false) (p : Port) :
    exec (.holdDeadlineMark p) s = .next (s.markHolds p) := by
  show Host.Outcome.next (s.unlessInReset (s.markHolds p)) = _
  rw [State.unlessInReset_released s _ hrun]

/-- Settles O45, descriptor by descriptor: at a port that is not OPEN none is marked, and at an OPEN one the copies
whose hold passes are. -/
theorem holdDeadlineMarksBoundCopies : Obligations.HoldDeadlineMarksBoundCopies := by
  intro s p hrun
  obtain ⟨marked, hmarked⟩ := s.markHolds_eq_withDescs p
  have hexec := State.exec_holdDeadlineMark hrun p
  have hdesc := s.markHolds_desc p
  rw [hmarked] at hexec hdesc
  refine ⟨_, hexec, rfl, rfl, rfl, rfl, rfl, rfl, rfl, rfl, fun d => ?_⟩
  rw [hdesc]
  by_cases hopen : (s.port p).session.state = .opened
  · rw [if_pos (by simp [PortState.isOpen, hopen])]
    by_cases hpasses : (s.desc d).HoldPasses s.tickCount p
    · rw [Descriptor.markPassed_of_holdPasses hpasses]
      exact (if_pos ⟨hopen, hpasses⟩).symm
    · rw [Descriptor.markPassed_of_not_holdPasses hpasses]
      exact (if_neg fun ⟨_, h⟩ => hpasses h).symm
  · rw [if_neg (by simp [PortState.isOpen, hopen])]
    exact (if_neg fun ⟨h, _⟩ => hopen h).symm

end Sys2Proof.Machine
end

