-- ==== Sys2Proof/Proofs/SessionsAndOutbound.lean ====
section
/-! PROOFS. Ports without a session, the LAPSED cause and the outbound sides over every step (O59). -/

namespace Sys2Proof.Machine

section

variable {s : State} (h : s.IsReset)
include h

/-- After a hard reset no port has a session, a membership or a pending cause (R60, R170). -/
theorem State.IsReset.sessionsSound : s.sessionsSound := by
  intro q
  obtain ⟨w, hw⟩ := h.port q
  simp [hw, PortState.sessionless, PortState.reset, SessionControl.reset, Lane.reset, h.members]

/-- After a hard reset every framing unit is IDLE and every queue empty (R134). -/
theorem State.IsReset.outboundSound : s.outboundSound := by
  intro q
  obtain ⟨w, hw⟩ := h.port q
  rw [hw]
  exact PortState.outboundSound_of_empty rfl rfl

end

/-- Settles O59: a step is a run of changes of the port columns, each of which keeps its column's session law, or a
hard reset, which ends every session. -/
theorem stepKeepsSessionsAndOutboundSidesSound : Obligations.StepKeepsSessionsAndOutboundSidesSound := by
  intro s t hsessions hout hstep
  obtain hrun | ⟨straps, rest, hreset⟩ := State.step_happenings hstep
  · exact hrun.changes.sessionsSound hsessions hout
  · obtain ⟨hisReset, -⟩ := execHardReset_isReset hreset
    exact ⟨hisReset.sessionsSound, hisReset.outboundSound⟩

end Sys2Proof.Machine
end

