-- ==== Sys2Proof/Proofs/Memberships.lean ====
section
/-! PROOFS. JOIN and LEAVE: one member set changes, and the answer is posted (O14). -/

namespace Sys2Proof.Machine

/-- A group's number, as a block carries it, names the group (R95). -/
theorem groupOfByte_ofNat (g : GroupNo) : groupOfByte (BitVec.ofNat 8 g.val) = some g := by
  have hval : (BitVec.ofNat 8 g.val).toNat = g.val := Nat.mod_eq_of_lt (by omega)
  simp [groupOfByte, hval]

section

variable {s : State} {p : Port} {group : Byte} {g : GroupNo}
variable (hgroup : groupOfByte group = some g) (hopen : (s.port p).session.state = .opened)
include hgroup hopen

/-- A port outside the group joins it (R61). -/
theorem State.acceptJoin_of_not_member (hout : (s.members g).get p = false) :
    s.acceptJoin p group = .ok (s.modGroup g (fun m => m.set p true)) := by
  simp [State.acceptJoin, hgroup, sessionRefusal_eq_none.mpr hopen, hout]

/-- A member leaves its group (R62). -/
theorem State.acceptLeave_of_member (hin : (s.members g).get p = true) :
    s.acceptLeave p group = .ok (s.modGroup g (fun m => m.set p false)) := by
  simp [State.acceptLeave, hgroup, sessionRefusal_eq_none.mpr hopen, hin]

end

/-- Settles O14. -/
theorem joinAndLeaveChangeOneMembership : Obligations.JoinAndLeaveChangeOneMembership := by
  intro s p g hrun hopen
  have hgroup := groupOfByte_ofNat g
  refine ⟨fun hout => ?_, fun hin => ?_⟩
  · show Host.Outcome.next (s.unlessInReset (s.answerRequest p (s.acceptJoin p _))) = _
    rw [State.unlessInReset_released s _ hrun, State.acceptJoin_of_not_member hgroup hopen hout]
    rfl
  · show Host.Outcome.next (s.unlessInReset (s.answerRequest p (s.acceptLeave p _))) = _
    rw [State.unlessInReset_released s _ hrun, State.acceptLeave_of_member hgroup hopen hin]
    rfl

end Sys2Proof.Machine
end

