-- ==== Sys2Proof/Proofs/GroupCompletion.lean ====
section
/-! PROOFS. The completion of a message to a group whose members have no take for it and room in their lists (O19). -/

namespace Sys2Proof

/-! ### A change at several ports -/

/-- `m` with the values at the ports of a set changed by `f`. -/
def PerPort.modifyWhere {α : Type} (r : Port → Bool) (f : α → α) (m : PerPort α) : PerPort α :=
  ⟨if r .a then f m.a else m.a, if r .b then f m.b else m.b, if r .c then f m.c else m.c, if r .d then f m.d else m.d⟩

theorem PerPort.get_modifyWhere {α : Type} (r : Port → Bool) (f : α → α) (m : PerPort α) (q : Port) :
    (m.modifyWhere r f).get q = if r q then f (m.get q) else m.get q := by
  cases q <;> rfl

/-- Changing the values one port after another changes them at all ports of the set. -/
theorem PerPort.foldl_modify_filter {α : Type} (r : Port → Bool) (f : α → α) (m : PerPort α) :
    (Port.all.filter r).foldl (fun m q => m.modify q f) m = m.modifyWhere r f := by
  have hset : ∀ (m : PerPort α) (q : Port),
      (if r q = true then m.modify q f else m) = m.set q (if r q then f (m.get q) else m.get q) := fun m q => by
    split
    · rfl
    · exact (m.set_get q).symm
  rw [List.foldl_filter]
  simp only [hset]
  rfl

namespace Machine

/-! ### One copy waits -/

/-- The slot of a WAITING copy (R7). -/
def waitingSlot (deadline : Option Tick) : CopySlot := { state := .waiting, deadline := deadline, passed := false }

/-- `ps` with descriptor `d` at the tail of its list (R44). -/
def PortState.listed (d : DescNo) (ps : PortState) : PortState := { ps with unclaimed := ps.unclaimed ++ [d] }

/-- The copy of descriptor `d` for port `q` goes to the tail of the list, with its deadline (R44). -/
def State.waitAt (d : DescNo) (deadline : Option Tick) (s : State) (q : Port) : State :=
  (s.modSlot d q (fun _ => waitingSlot deadline)).modPort q (PortState.listed d)

/-- A copy of descriptor `d` made now at port `q` finds no take and room in the list (R28, R44). -/
structure State.WouldWait (s : State) (d : DescNo) (q : Port) : Prop where
  isOpen : (s.port q).isOpen = true
  noTake : ∀ u ∈ (s.port q).takes.posted, u.fields.accepts (s.desc d) = false
  room : (s.port q).unclaimed.length < 32

theorem State.matchCopy_eq_waitAt {s : State} {d : DescNo} {q : Port} (h : s.WouldWait d q) :
    s.matchCopy d q = s.waitAt d (s.desc d).holdDeadline q := by
  have haccepts : ∀ f : TakeFields, f.accepts ((s.newCopy d q).desc d) = f.accepts (s.desc d) := fun f => by
    rw [State.newCopy, State.modSlot, State.modDesc_desc_same]
    rfl
  rw [State.matchCopy_of_room h.isOpen (fun u hu => (haccepts _).trans (h.noTake u hu)) h.room]
  simp only [State.newCopy, State.waitAt, State.modSlot, State.modPort_modDesc, State.modDesc_modDesc, PerPort.modify,
    PerPort.set_set, PerPort.get_set_same]
  rfl

theorem State.waitAt_desc (s : State) (d : DescNo) (deadline : Option Tick) (q : Port) :
    (s.waitAt d deadline q).desc d = { s.desc d with slots := (s.desc d).slots.set q (waitingSlot deadline) } :=
  State.modDesc_desc_same s d (fun x => { x with slots := x.slots.modify q (fun _ => waitingSlot deadline) })

/-- A copy that waits at one port takes no place at another. -/
theorem State.WouldWait.after_waitAt {s : State} {d : DescNo} {q r : Port} (h : s.WouldWait d r) (hr : r ≠ q)
    (deadline : Option Tick) : (s.waitAt d deadline q).WouldWait d r := by
  have hport : (s.waitAt d deadline q).port r = s.port r := State.modPort_port_other _ _ hr
  refine ⟨hport ▸ h.isOpen, fun u hu => ?_, hport ▸ h.room⟩
  rw [State.waitAt_desc]
  exact h.noTake u (hport ▸ hu)

/-! ### All copies wait -/

/-- At ports that have no take for the message and room, matching lets each copy wait. -/
theorem State.foldl_matchCopy_eq_waitAt {d : DescNo} (qs : List Port) :
    ∀ s : State, qs.Nodup → (∀ q ∈ qs, s.WouldWait d q) →
      qs.foldl (fun t q => t.matchCopy d q) s = qs.foldl (State.waitAt d (s.desc d).holdDeadline) s := by
  induction qs with
  | nil => exact fun _ _ _ => rfl
  | cons q qs ih =>
    intro s hnodup hwait
    obtain ⟨hq, hqs⟩ := List.nodup_cons.mp hnodup
    have hdeadline : ((s.waitAt d (s.desc d).holdDeadline q).desc d).holdDeadline = (s.desc d).holdDeadline := by
      rw [State.waitAt_desc]
      rfl
    have hrest := ih (s.waitAt d (s.desc d).holdDeadline q) hqs fun r hr =>
      (hwait r (List.mem_cons_of_mem q hr)).after_waitAt (fun h => hq (by rwa [← h])) _
    rw [List.foldl_cons, State.matchCopy_eq_waitAt (hwait q List.mem_cons_self), hrest, hdeadline, List.foldl_cons]

/-- A copy of descriptor `d` waits at each port of a set. -/
def State.waitWhere (s : State) (d : DescNo) (deadline : Option Tick) (r : Port → Bool) : State :=
  { s.modDesc d (fun x => { x with slots := x.slots.modifyWhere r (fun _ => waitingSlot deadline) }) with
    ports := s.ports.modifyWhere r (PortState.listed d) }

/-- Copies that wait one after another change the descriptor's slots and the port columns apart from each other. -/
theorem State.foldl_waitAt (d : DescNo) (deadline : Option Tick) (qs : List Port) :
    ∀ s : State, qs.foldl (State.waitAt d deadline) s =
      { s.modDesc d (fun x => { x with slots := qs.foldl (fun m q => m.modify q (fun _ => waitingSlot deadline)) x.slots }) with
        ports := qs.foldl (fun m q => m.modify q (PortState.listed d)) s.ports } := by
  induction qs with
  | nil =>
    intro s
    exact (congrArg (fun v => { s with descs := v }) (Vector.set_getElem_self d.isLt)).symm
  | cons q qs ih =>
    intro s
    rw [List.foldl_cons, ih, State.waitAt, State.modSlot, State.modPort_modDesc, State.modDesc_modDesc]
    rfl

theorem State.foldl_waitAt_filter (s : State) (d : DescNo) (deadline : Option Tick) (r : Port → Bool) :
    (Port.all.filter r).foldl (State.waitAt d deadline) s = s.waitWhere d deadline r := by
  rw [State.foldl_waitAt]
  simp only [PerPort.foldl_modify_filter]
  rfl

theorem State.waitWhere_modDesc (s : State) (d : DescNo) (deadline : Option Tick) (r : Port → Bool)
    (f : Descriptor → Descriptor) :
    (s.waitWhere d deadline r).modDesc d f =
      { s.modDesc d (fun x => f { x with slots := x.slots.modifyWhere r (fun _ => waitingSlot deadline) }) with
        ports := s.ports.modifyWhere r (PortState.listed d) } :=
  congrArg (fun u : State => { u with ports := s.ports.modifyWhere r (PortState.listed d) }) (s.modDesc_modDesc d _ f)

theorem State.waitWhere_desc (s : State) (d : DescNo) (deadline : Option Tick) (r : Port → Bool) :
    (s.waitWhere d deadline r).desc d = { s.desc d with
      slots := (s.desc d).slots.modifyWhere r (fun _ => waitingSlot deadline) } :=
  State.modDesc_desc_same s d (fun x => { x with slots := x.slots.modifyWhere r (fun _ => waitingSlot deadline) })

/-- A message whose recipients are a set of ports, each with room and no take for it, is HELD with a copy waiting at each
(R4, R65, R66). -/
theorem State.complete_of_waiting {s : State} {d : DescNo} {r : Port → Bool}
    (hrec : (s.stamped d).recipients d = Port.all.filter r) (hsome : ∃ q, r q = true)
    (hwait : ∀ q, r q = true → (s.stamped d).WouldWait d q) :
    s.complete d = ((s.stamped d).waitWhere d ((s.stamped d).desc d).holdDeadline r).modDesc d
      (fun x => { x with state := .held }) := by
  have hmatched : s.matched d = (s.stamped d).waitWhere d ((s.stamped d).desc d).holdDeadline r := by
    have hnodup := hrec ▸ (s.stamped d).recipients_nodup d
    rw [State.matched, hrec, State.foldl_matchCopy_eq_waitAt _ _ hnodup fun q hq => hwait q (List.mem_filter.mp hq).2,
      State.foldl_waitAt_filter]
  have hlive : 0 < ((s.matched d).desc d).liveCount := by
    obtain ⟨q, hq⟩ := hsome
    refine (Descriptor.liveCount_pos_iff _).mpr ⟨q, ?_⟩
    rw [hmatched, State.waitWhere_desc, PerPort.get_modifyWhere, if_pos hq]
    rfl
  rw [State.complete_eq, if_pos hlive, hmatched]

/-- Settles O19. -/
theorem groupMessageWaitsAtEveryMember : Obligations.GroupMessageWaitsAtEveryMember := by
  intro s d g hdst hslots x recipient hsome hwait slotAt portAt
  have hdesc : (s.stamped d).desc d = x := State.modDesc_desc_same s d _
  have hrec : (s.stamped d).recipients d = Port.all.filter recipient := by
    rw [State.recipients, hdesc, show x.destination = .group g from hdst]
    rfl
  have hwould : ∀ q, recipient q = true → (s.stamped d).WouldWait d q := fun q hq => by
    obtain ⟨hopen, hroom, hnone⟩ := hwait q hq
    exact ⟨beq_iff_eq.mpr hopen, hdesc ▸ hnone, hroom⟩
  have hslotAt : (s.desc d).slots.modifyWhere recipient (fun _ => waitingSlot x.holdDeadline) =
      ⟨slotAt .a, slotAt .b, slotAt .c, slotAt .d⟩ := by
    rw [hslots, deadline_of_hold]
    rfl
  rw [State.complete_of_waiting hrec hsome hwould, hdesc, State.waitWhere_modDesc, State.stamped, State.modDesc_modDesc,
    State.modDesc_eq_putDesc, hslotAt]
  rfl

end Machine

end Sys2Proof
end

