-- ==== Sys2Proof/Proofs/ZeroLengthSend.lean ====
section
/-! PROOFS. A SEND of length 0: its acceptance is the allocation and the completion of the message (O9). -/

namespace Sys2Proof

/-- Values at two ports may be replaced in either order. -/
theorem PerPort.set_comm {α : Type} (m : PerPort α) {p q : Port} (h : q ≠ p) (x y : α) :
    (m.set q x).set p y = (m.set p y).set q x := by
  refine PerPort.ext_get fun r => ?_
  rw [PerPort.get_set, PerPort.get_set, PerPort.get_set, PerPort.get_set]
  by_cases hp : r = p
  · rw [if_pos hp, if_neg (fun hq => h (hq.symm.trans hp)), if_pos hp]
  · rw [if_neg hp, if_neg hp]

namespace Machine

section

variable {s : State} {p : Port} {d : DescNo}

/-! ### The acceptance -/

/-- The descriptor of a message of length 0 right after its allocation (R2). -/
def State.sentDesc (s : State) (p : Port) (f : SendFields) (d : DescNo) : Descriptor :=
  (s.desc d).allocated p (s.port p).session.epoch f []

/-- The state in which an accepted SEND of length 0 completes: its descriptor is allocated, and a slot booked for a wanted
RECEIPT (R105). -/
def State.emptySent (s : State) (p : Port) (f : SendFields) (d : DescNo) : State :=
  (s.putDesc d (s.sentDesc p f d)).modPort p (PortState.bookIf f.receiptWanted)

@[simp] theorem State.emptySent_desc (f : SendFields) : (s.emptySent p f d).desc d = s.sentDesc p f d := State.putDesc_desc s d _

/-- A SEND of length 0 changes no port column but for one queue. -/
theorem State.emptySent_port (s : State) (p : Port) (f : SendFields) (d : DescNo) (q : Port) :
    ∃ queue, (s.emptySent p f d).port q = { s.port q with queue := queue } := by
  by_cases hq : q = p
  · subst hq
    exact ⟨_, State.modPort_port_same _ _ _⟩
  · exact ⟨_, State.modPort_port_other _ _ hq⟩

/-- A message of length 0 takes a descriptor and perhaps a slot, and no segment (R74, R105). -/
theorem State.allotted_of_length_zero {f : SendFields} (hlength : f.length = 0) : s.allotted p f d = s.emptySent p f d := by
  have hpool : Pool.reserveSegments p 0 s.pool = s.pool := by
    simp [Pool.reserveSegments, PerPort.modify]
  rw [State.allotted_eq, hlength]
  exact congrArg (fun x : Pool => State.emptySent { s with pool := x } p f d) hpool

/-- A SEND whose checks pass comes from an OPEN port and names no closed one (R96, R104). -/
theorem State.opened_of_send_checks {destination channel : Byte} {length hold label : Half} {options : Byte}
    (hpass : firstFailure (s.checks p (.send destination channel length hold label options)) = none) :
    (s.port p).session.state = .opened ∧ s.namesClosedPort destination = false := by
  have hall := firstFailure_eq_none.mp hpass
  simp only [State.checks, List.forall_mem_append, List.forall_mem_cons, failsIf] at hall
  obtain ⟨⟨-, hsession⟩, -, -, -, -, -, hclosed, -⟩ := hall
  exact ⟨State.sessionChecks_pass hsession, hclosed⟩

section

variable {destination channel : Byte} {hold label : Half} {options : Byte} {dst : Destination}

/-- An accepted SEND of length 0 is the completion of the allocated message (R67, R106). -/
theorem exec_send_of_length_zero (hrun : s.resetAsserted = false)
    (hpass : firstFailure (s.checks p (.send destination channel 0 hold label options)) = none)
    (hdst : destinationOfByte destination = some dst) (hd : (s.desc d).state = .free)
    (hbelow : ∀ e, e < d → (s.desc e).state ≠ .free) :
    exec (.send p destination channel 0 hold label options) s = .next
      (((s.emptySent p (sendFieldsOf dst channel 0 hold label options) d).complete d).modPort p (PortState.answered none)) := by
  have hsend := s.doSend_eq p (sendFieldsOf dst channel 0 hold label options) d
  show Host.Outcome.next (s.unlessInReset (s.answerRequest p (s.acceptSend p destination channel 0 hold label options))) = _
  rw [State.unlessInReset_released s _ hrun, State.acceptSend_of_checks hpass hdst hd hbelow, hsend,
    State.allotted_of_length_zero rfl]
  rfl

end

/-! ### No recipient -/

/-- A message without a recipient is settled as it completes (R67). -/
theorem State.complete_of_no_recipient (hrec : (s.stamped d).recipients d = [])
    (hslots : (s.desc d).slots = PerPort.replicate CopySlot.empty) : s.complete d = (s.stamped d).settleDescriptor d := by
  have hlive : ¬ 0 < ((s.stamped d).desc d).liveCount := by
    rw [Descriptor.liveCount_pos_iff]
    rintro ⟨q, hq⟩
    rw [State.stamped_desc] at hq
    simp [hslots, CopySlot.empty, SlotState.live] at hq
  rw [State.complete_eq, State.matched, hrec, List.foldl_nil, if_neg hlive]

/-- An empty chain leaves the pool as it is (R80). -/
theorem State.releaseChain_of_no_chain (hchain : (s.desc d).chain = []) : s.releaseChain d = s := by
  simp [State.releaseChain, State.modPool, Pool.release, releaseSegments, hchain, PerPort.modify]

/-- A descriptor without segments that is settled with its RECEIPT due gives back nothing to the pool (R9, R11). -/
theorem State.settleDescriptor_of_receipt (hchain : (s.desc d).chain = []) (hcheck : s.receiptCheck d = true) :
    s.settleDescriptor d = (s.modPort (s.desc d).sender (PortState.appendReceipt s.tickCount (s.desc d).closingReceipt)).modDesc d
      Descriptor.freed := by
  have hqueue : s.queueReceipt d .complete (s.desc d).settledCount (s.desc d).tally =
      s.modPort (s.desc d).sender (PortState.appendReceipt s.tickCount (s.desc d).closingReceipt) := if_pos hcheck
  show (State.releaseChain (s.queueReceipt d _ _ _) d).modDesc d _ = _
  rw [hqueue, State.releaseChain_of_no_chain (s := s.modPort _ _) hchain]

/-- The RECEIPT of a message that reached no one counts no copy (R11). -/
theorem Descriptor.closingReceipt_of_empty {x : Descriptor} (h : x.slots = PerPort.replicate CopySlot.empty) :
    x.closingReceipt = { senderLabel := x.label, status := .complete, copiesMade := 0, tally := x.tally } := by
  have hcount : x.settledCount = 0 := by
    rw [Descriptor.settledCount, h]
    rfl
  rw [Descriptor.closingReceipt, hcount]

/-- A message without segments to a group with no recipient: its RECEIPT is queued and its descriptor is FREE (R67). -/
theorem State.complete_of_empty_group {g : GroupNo} (hdst : (s.desc d).destination = .group g) (hsender : (s.desc d).sender = p)
    (hmembers : ∀ q, q ≠ p → (s.members g).get q = false) (hslots : (s.desc d).slots = PerPort.replicate CopySlot.empty)
    (hchain : (s.desc d).chain = []) (hcheck : s.receiptCheck d = true) :
    s.complete d = (s.modPort p (PortState.appendReceipt s.tickCount
      { senderLabel := (s.desc d).label, status := .complete, copiesMade := 0, tally := (s.desc d).tally })).modDesc d
        (fun x => Descriptor.freed { x with completionTick := s.tickCount }) := by
  have hrec : (s.stamped d).recipients d = [] := by
    simp only [State.recipients, State.stamped_desc, hdst, hsender]
    refine List.filter_eq_nil_iff.mpr fun q _ hq => ?_
    obtain ⟨hmember, hother⟩ := Bool.and_eq_true_iff.mp hq
    have hout : ((s.stamped d).members g).get q = false := hmembers q (by simpa using hother)
    exact absurd (hmember.symm.trans hout) (by simp)
  have hcheck' : (s.stamped d).receiptCheck d = true := by
    rw [State.receiptCheck_iff] at hcheck ⊢
    rw [State.stamped_desc]
    exact hcheck
  have hreceipt : ((s.stamped d).desc d).closingReceipt =
      { senderLabel := (s.desc d).label, status := .complete, copiesMade := 0, tally := (s.desc d).tally } := by
    rw [State.stamped_desc]
    exact Descriptor.closingReceipt_of_empty hslots
  rw [State.complete_of_no_recipient hrec hslots, State.settleDescriptor_of_receipt (by rw [State.stamped_desc, hchain]) hcheck',
    hreceipt, State.modPort_modDesc, State.stamped, State.modDesc_modDesc, State.modDesc_desc_same, hsender]
  rfl

/-- The RECEIPT comes from the slot just booked for it (R118, R120). -/
theorem PortState.appendReceipt_bookIf (now : Tick) (r : Receipt) (ps : PortState) :
    (ps.bookIf true).appendReceipt now r = PortState.append now [.receipt r] ps.bookSlot :=
  if_pos (Nat.succ_pos _)

/-! ### The port that waits is the sender's or another -/

/-- Changes of two port columns may change places, if they do so in one column. -/
theorem State.modPort_comm {q : Port} {f g : PortState → PortState} (h : ∀ ps, f (g ps) = g (f ps)) :
    (s.modPort q f).modPort p g = (s.modPort p g).modPort q f := by
  by_cases hq : q = p
  · subst hq
    simp only [State.modPort_modPort, h]
  · simp only [State.modPort, PerPort.get_set_other _ _ hq, PerPort.get_set_other _ _ (Ne.symm hq), PerPort.set_comm _ hq]

/-! ### The two worked-out cases -/

/-- To a group with no recipient: the descriptor is FREE again, and its RECEIPT takes the slot booked for it (R67, R106). -/
theorem State.complete_emptySent_nowhere {f : SendFields} {g : GroupNo} (hdst : f.destination = .group g)
    (hwanted : f.receiptWanted = true) (hmembers : ∀ q, q ≠ p → (s.members g).get q = false)
    (hopen : (s.port p).session.state = .opened) (htearing : (s.port p).session.tearingDown = false) :
    (s.emptySent p f d).complete d =
      (s.putDesc d (Descriptor.freed { s.sentDesc p f d with completionTick := s.tickCount })).modPort p (fun ps =>
        PortState.append s.tickCount
          [.receipt { senderLabel := f.label, status := .complete, copiesMade := 0, tally := Tally.zero }] ps.bookSlot) := by
  have hdesc := s.emptySent_desc (p := p) (d := d) f
  have hsender : ((s.emptySent p f d).desc d).sender = p := congrArg Descriptor.sender hdesc
  have hcheck : (s.emptySent p f d).receiptCheck d = true := by
    obtain ⟨queue, hport⟩ := s.emptySent_port p f d p
    rw [State.receiptCheck_iff, hsender, hdesc, hport]
    exact ⟨hwanted, hopen, htearing, rfl⟩
  rw [State.complete_of_empty_group (s := s.emptySent p f d) (hdesc ▸ hdst) hsender hmembers
    (congrArg Descriptor.slots hdesc) (congrArg Descriptor.chain hdesc) hcheck, hdesc, State.modPort_modDesc, State.emptySent,
    hwanted, State.modPort_modDesc, State.modPort_modPort, ← State.modDesc_eq_putDesc s d (fun _ => s.sentDesc p f d),
    State.modDesc_modDesc]
  simp only [PortState.appendReceipt_bookIf]
  rfl

/-- To a port with no take for it and room in its list: the copy waits there (R44, R106). -/
theorem State.complete_emptySent_waits {f : SendFields} {q : Port} (hdst : f.destination = .port q)
    (hopen : (s.port q).isOpen = true) (hnone : ∀ u ∈ (s.port q).takes.posted, u.fields.accepts (s.sentDesc p f d) = false)
    (hroom : (s.port q).unclaimed.length < 32) :
    (s.emptySent p f d).complete d =
      ((s.putDesc d { s.sentDesc p f d with
          state := .held, completionTick := s.tickCount,
          slots := (PerPort.replicate CopySlot.empty).set q
            (waitingSlot (if f.hold = 0 then none else some (s.tickCount + BitVec.ofNat 32 f.hold))) }).modPort p
        (PortState.bookIf f.receiptWanted)).modPort q (PortState.listed d) := by
  have hdesc := s.emptySent_desc (p := p) (d := d) f
  obtain ⟨queue, hport⟩ := s.emptySent_port p f d q
  rw [State.complete_unicast_waits (s := s.emptySent p f d) (q := q) (hdesc ▸ hdst) (congrArg Descriptor.slots hdesc)
    (by rw [hport]; exact hopen) (by rw [hport, hdesc]; exact hnone) (by rw [hport]; exact hroom), State.madeDesc, State.madeSlot,
    hdesc, ← State.modDesc_eq_putDesc _ d (fun _ => _), State.emptySent, State.modPort_modDesc,
    ← State.modDesc_eq_putDesc s d (fun _ => s.sentDesc p f d), State.modDesc_modDesc]
  rfl

end

/-- Settles O9: either worked-out case is one completion of the allocated message. -/
theorem zeroLengthSendCompletesAtOnce : Obligations.ZeroLengthSendCompletesAtOnce := by
  refine ⟨fun s p destination channel hold label options dst d hrun hpass hdst hd hbelow => ?_,
    fun s p destination channel hold label d hrun hpass hd hbelow => ?_⟩
  · intro n allocated
    have hbook : PortState.bookIf (options == 1) (s.port p) = { s.port p with queue := { (s.port p).queue with
        reserved := (s.port p).queue.reserved + n, receiptReserved := (s.port p).queue.receiptReserved + n } } := by
      simp only [PortState.bookIf, beq_iff_eq, n]
    have hallocated : s.emptySent p (sendFieldsOf dst channel 0 hold label options) d = allocated :=
      congrArg (State.putPort _ p) hbook
    rw [exec_send_of_length_zero hrun hpass hdst hd hbelow, hallocated]
  · intro x booked
    obtain ⟨hopen, hnamed⟩ := State.opened_of_send_checks hpass
    refine ⟨fun g hdst hmembers htearing => ?_, fun q hdst hnone hroom => ?_⟩
    · rw [exec_send_of_length_zero hrun hpass hdst hd hbelow, State.complete_emptySent_nowhere rfl rfl hmembers hopen htearing,
        State.modPort_modPort]
      rfl
    · have hq : (s.port q).isOpen = true := by
        simpa [State.destinationClosed] using State.destinationClosed_of_checks hdst hnamed
      have hwaits := State.complete_emptySent_waits (p := p) (d := d) (f := sendFieldsOf (.port q) channel 0 hold label 1) rfl hq
        hnone hroom
      rw [exec_send_of_length_zero hrun hpass hdst hd hbelow, hwaits,
        State.modPort_comm (f := PortState.listed d) (g := PortState.answered none) fun _ => rfl, State.modPort_modPort]
      have hzero : hold.toNat = 0 ↔ hold = 0 := (BitVec.toNat_eq (y := 0)).symm
      simp only [sendFieldsOf, BitVec.ofNat_toNat, hzero]
      rfl

end Machine

end Sys2Proof
end

