-- ==== Sys2Proof/Proofs/Reserves.lean ====
section
/-! PROOFS. The free segments cover the unmet reserves after every step, whatever else the state is like (O57), and the part
right after a hard reset obeys every law (O53). -/

namespace Sys2Proof.Machine

section

variable {s t : State} {p : Port} {d : DescNo}

/-! ### Happenings -/

theorem State.OnlyFrees.covered {P : DescState → Prop} (h : s.OnlyFrees P t) (hs : s.pool.covered) : t.pool.covered := by
  induction h with
  | start => exact hs
  | quiet _ hq ih => exact hq.covered ih
  | freed d _ _ hf ih => exact hf.covered ih

/-- A completion frees the message or leaves the pool as it is, whatever state the message was in (R4). -/
theorem State.complete_covered (hs : s.pool.covered) (d : DescNo) : (s.complete d).pool.covered := by
  have hmatched : (s.matched d).pool.covered := (s.matched_frees d).covered hs
  rw [State.complete_eq]
  split
  · exact hmatched
  · exact (State.settleDescriptor_freed _ d).covered hmatched

theorem State.doSend_covered {f : SendFields} (hcheck : s.checkSend p f = .ok d) (hs : s.pool.covered) :
    (s.doSend p f d).pool.covered := by
  have hallotted := State.allotted_covered hcheck hs
  rw [State.doSend_eq]
  split
  · exact hallotted
  · exact State.complete_covered hallotted d

theorem State.grantTo_covered (hs : s.pool.covered) (p : Port) : (s.grantTo p).pool.covered := by
  cases howner : (s.port p).lane.owner with
  | idle | outbound d =>
    simp only [State.grantTo, howner]
    exact hs
  | inbound d =>
    have hstored := fun n => (s.chunkStored_sameAllocation p d n).covered hs
    rw [State.grantTo_inbound howner]
    split
    · exact State.complete_covered (hstored _) d
    · exact hstored _

/-- Every happening keeps the free segments at or above the unmet reserves, in every state. -/
theorem State.Happening.covered (h : s.Happening t) (hs : s.pool.covered) : t.pool.covered := by
  cases h with
  | idle t hports hdescs hgroups hpool => exact hpool ▸ hs
  | advance | quiet | membership => exact hs
  | configure reserve ceiling stallLimit hlegal => exact Pool.configLegal_covered hlegal
  | send p f d hopen hhold hcheck => exact State.doSend_covered hcheck hs
  | take p f => exact (s.doTake_frees p f).covered hs
  | answer p accepted => exact (s.answerNotice_frees p accepted).covered hs
  | abandon p d f => exact (State.abandonTransfer_frees _ p d).covered hs
  | endDelivery p d o f => exact (State.endDelivery_onlyFrees (P := fun _ => True) trivial _ p d o).covered hs
  | expireHolds p => exact (s.expireHolds_frees p).covered hs
  | markHolds p => exact (s.markHolds_frees p).covered hs
  | endSession p cause x =>
    exact (State.teardown_onlyFrees (P := fun _ => True) trivial (s.modPort p (PortState.setLapsedCause cause)) p
      fun _ _ => trivial).covered hs
  | grant p => exact State.grantTo_covered hs p

/-! ### The hard reset -/

/-- The segments' bytes are no part of what a hard reset sets (R182). -/
theorem State.IsReset.withMemory (h : s.IsReset) (m : Memory) : State.IsReset { s with pool := { s.pool with mem := m } } where
  port := h.port
  desc := h.desc
  members := h.members
  pool := by rw [h.pool]

theorem State.IsReset.covered (h : s.IsReset) : s.pool.covered := ((h.withMemory []).books rfl).covered

theorem State.IsReset.ledger (h : s.IsReset) : s.Ledger := by
  obtain ⟨hperm, hrising, hlength, hheld⟩ := ((h.withMemory []).books rfl).ledger
  exact ⟨hperm, hrising, hlength, hheld⟩

theorem State.reset_isReset : State.reset.IsReset where
  port q := ⟨.bits8, PerPort.get_replicate _ q⟩
  desc d := by simp [State.desc, State.reset]
  members g q := by simp [State.members, State.reset]
  pool := rfl

end

/-- Settles O53: the part right after reset is one after a hard reset, its memory empty. -/
theorem resetIsSound : Obligations.ResetIsSound := State.reset_isReset.sound rfl

/-- Settles O57: a step is a run of happenings, each of which keeps the reserves covered, or a hard reset. -/
theorem stepKeepsReservesCovered : Obligations.StepKeepsReservesCovered := by
  intro s t hs hstep
  obtain hrun | ⟨straps, rest, hreset⟩ := State.step_happenings hstep
  · exact hrun.keeps (P := fun u => u.pool.covered) (fun _ _ h => h.covered) hs
  · exact (execHardReset_isReset hreset).1.covered

end Sys2Proof.Machine
end

