-- ==== Sys2Proof/Proofs/Limits.lean ====
section
/-! PROOFS. A SEND within its port's reserve, and the CONFIGURE that sets the limits (O10, O16). -/

namespace Sys2Proof.Machine

/-! ### A SEND within its port's reserve -/

section

variable {s : State} {p : Port}

/-- A reason posted is that of the check that failed (R142). -/
theorem State.answerRequest_reason {verdict : Except Reason State} {r : Reason}
    (h : ((s.answerRequest p verdict).port p).inbound.reason = some r) : verdict = .error r := by
  cases verdict with
  | ok t => simp [State.answerRequest, State.post, InboundSide.post] at h
  | error r' => simpa [State.answerRequest, State.post, InboundSide.post] using h

theorem PortState.sessionRefusal_eq_some {ps : PortState} {r : Reason} (h : ps.sessionRefusal = some r) :
    r = .notOpen ∨ r = .lapsed := by
  unfold PortState.sessionRefusal at h
  split at h <;> cases h
  · exact .inl rfl
  · exact .inr rfl

/-- A reserve that is covered leaves its port both its quota and the segments that its own reserve and the others' ask
for (R79). -/
theorem Pool.covered.within {x : Pool} (hx : x.covered) {n : Nat} (hn : x.held.get p + n ≤ x.reserve.get p) :
    x.held.get p + n ≤ x.ceiling.get p ∧ n + x.othersUnmet p ≤ x.free.length := by
  obtain ⟨hranges, -, -, hsum⟩ := hx
  obtain ⟨-, -, -, hreserve⟩ := hranges p
  have hunmet : n ≤ x.unmet p := by
    unfold Pool.unmet
    omega
  rw [Pool.unmet_sum _ p] at hsum
  exact ⟨hn.trans hreserve, by omega⟩

/-- Within the port's reserve a SEND's own checks fail for another reason than the segments. -/
theorem State.checkSend_within {f : SendFields} {r : Reason} (hs : s.pool.covered)
    (hn : s.pool.held.get p + segmentsNeeded f.length ≤ s.pool.reserve.get p) (h : s.checkSend p f = .error r) :
    r ≠ .poolFull ∧ r ≠ .quota := by
  obtain ⟨hquota, hfull⟩ := hs.within hn
  unfold State.checkSend at h
  split at h
  · cases h
    decide
  · split at h
    · cases h
      decide
    · split_ifs at h with hslot hover hshort hclosed
      · cases h
        decide
      · exact absurd hquota (by omega)
      · exact absurd hfull (by omega)
      · cases h
        decide

theorem State.acceptSend_within {destination channel : Byte} {length hold label : Half} {options : Byte} {r : Reason}
    (hs : s.pool.covered) (hn : s.pool.held.get p + segmentsNeeded length.toNat ≤ s.pool.reserve.get p)
    (h : s.acceptSend p destination channel length hold label options = .error r) : r ≠ .poolFull ∧ r ≠ .quota := by
  unfold State.acceptSend at h
  split at h
  · cases h
    decide
  · split at h
    · cases h
      decide
    · split at h
      · next hrefusal =>
        cases h
        obtain rfl | rfl := PortState.sessionRefusal_eq_some hrefusal <;> decide
      · dsimp only at h
        split at h
        · next hcheck =>
          cases h
          exact State.checkSend_within hs hn hcheck
        · cases h

end

/-- Settles O10: the reason posted is that of the SEND's failed check, and neither check of the segments fails. -/
theorem sendWithinTheReserveIsNotRefusedForSegments : Obligations.SendWithinTheReserveIsNotRefusedForSegments := by
  intro s p destination channel length hold label options hrun hs hn
  refine ⟨_, rfl, ?_⟩
  rw [State.unlessInReset_released s _ hrun]
  exact ⟨fun h => (State.acceptSend_within hs hn (State.answerRequest_reason h)).1 rfl,
    fun h => (State.acceptSend_within hs hn (State.answerRequest_reason h)).2 rfl⟩

/-! ### CONFIGURE -/

section

variable {s : State} {p : Port} {reserve ceiling : PerPort Byte} {stallLimit : Half}

/-- The values of a CONFIGURE are legal as a whole when none of them is bad (R83). -/
theorem State.configLegal_eq_not_badConfig (s : State) (reserve ceiling : PerPort Byte) (stallLimit : Half) :
    s.pool.configLegal (reserve.map BitVec.toNat) (ceiling.map BitVec.toNat) stallLimit.toNat =
      !s.badConfig reserve ceiling stallLimit := by
  rw [Bool.eq_iff_iff]
  simp [Pool.configLegal, State.badConfig, Nat.one_le_iff_ne_zero, and_assoc]

theorem State.acceptConfigure_of_good (hopen : (s.port p).session.state = .opened) (hsetup : p = s.setupPort)
    (hgood : s.badConfig reserve ceiling stallLimit = false) : s.acceptConfigure p reserve ceiling stallLimit =
      .ok (s.modPool (fun x => { x with
        reserve := reserve.map BitVec.toNat, ceiling := ceiling.map BitVec.toNat, stallLimit := stallLimit.toNat })) := by
  rw [State.acceptConfigure, sessionRefusal_eq_none.mpr hopen]
  simp [hsetup, State.configLegal_eq_not_badConfig, hgood]

end

/-- Settles O16: the values that are not bad are legal, and the request is accepted. -/
theorem configureReplacesTheLimits : Obligations.ConfigureReplacesTheLimits := by
  intro s p reserve ceiling stallLimit hrun hopen hsetup hgood
  show Host.Outcome.next (s.unlessInReset (s.answerRequest p (s.acceptConfigure p reserve ceiling stallLimit))) = _
  rw [State.unlessInReset_released s _ hrun, State.acceptConfigure_of_good hopen hsetup hgood]
  rfl

end Sys2Proof.Machine
end

