-- ==== Sys2Proof/Proofs/Gathering.lean ====
section
/-! PROOFS. The messages of INBOUND lanes: every happening keeps each GATHERING and its port's own (R16, R105, R154,
R163). -/

namespace Sys2Proof.Machine

/-- From `s` to `t` no lane becomes INBOUND, and every message being gathered, but for those in `ended`, goes on as its
sender's (R154). -/
structure State.KeepsGathering (ended : DescNo → Prop) (s t : State) : Prop where
  owner : ∀ q e, (t.port q).lane.owner = .inbound e → (s.port q).lane.owner = .inbound e
  gathering : ∀ e, ¬ ended e → (s.desc e).state = .gathering →
    (t.desc e).state = .gathering ∧ (t.desc e).sender = (s.desc e).sender

/-- The same, and no message ends. -/
abbrev State.KeepsInbound (s t : State) : Prop := s.KeepsGathering (fun _ => False) t

/-- The lanes' part of `State.segmentsSound` (R154). -/
def State.InboundGathers (s : State) : Prop :=
  ∀ p d, (s.port p).lane.owner = .inbound d → (s.desc d).state = .gathering ∧ (s.desc d).sender = p

/-- The column's lane is INBOUND only for the message that it was INBOUND for before. -/
def PortState.KeepsOwner (ps ps' : PortState) : Prop := ∀ e, ps'.lane.owner = .inbound e → ps.lane.owner = .inbound e

section

variable {s t u : State} {p q : Port} {d : DescNo} {ended : DescNo → Prop}

/-! ### One change, and several -/

theorem State.KeepsGathering.trans (h : s.KeepsGathering ended t) (h' : t.KeepsGathering ended u) : s.KeepsGathering ended u where
  owner q e hu := h.owner q e (h'.owner q e hu)
  gathering e he hs := by
    obtain ⟨ht, hsender⟩ := h.gathering e he hs
    obtain ⟨hu, hsender'⟩ := h'.gathering e he ht
    exact ⟨hu, hsender'.trans hsender⟩

theorem State.KeepsGathering.of_eq (hports : t.ports = s.ports) (hdescs : t.descs = s.descs) : s.KeepsGathering ended t where
  owner q e h := by rwa [State.port, hports] at h
  gathering e _ h := by
    rw [State.desc, hdescs]
    exact ⟨h, rfl⟩

theorem State.KeepsGathering.refl (s : State) : s.KeepsGathering ended s := .of_eq rfl rfl

theorem State.foldl_keepsGathering {α : Type} {f : State → α → State} (hf : ∀ s a, State.KeepsGathering ended s (f s a))
    (as : List α) : ∀ s : State, s.KeepsGathering ended (as.foldl f s) := by
  induction as with
  | nil => exact State.KeepsGathering.refl
  | cons a as ih => exact fun s => (hf s a).trans (ih (f s a))

theorem PortState.KeepsOwner.of_eq {ps ps' : PortState} (h : ps'.lane.owner = ps.lane.owner) : ps.KeepsOwner ps' :=
  fun _ he => h ▸ he

theorem PortState.KeepsOwner.of_not_inbound {ps ps' : PortState} (h : ∀ e, ps'.lane.owner ≠ .inbound e) : ps.KeepsOwner ps' :=
  fun e he => absurd he (h e)

theorem PortState.OnlyNotices.keepsOwner {ps ps' : PortState} (h : ps.OnlyNotices ps') : ps.KeepsOwner ps' :=
  .of_eq (by rw [h.lane])

theorem State.modPort_keepsGathering {f : PortState → PortState} (h : (s.port p).KeepsOwner (f (s.port p))) :
    s.KeepsGathering ended (s.modPort p f) where
  owner q e he := by
    by_cases hq : q = p
    · subst hq
      rw [State.modPort_port_same] at he
      exact h e he
    · rwa [State.modPort_port_other s f hq] at he
  gathering _ _ h := ⟨h, rfl⟩

theorem State.modDesc_keepsGathering {f : Descriptor → Descriptor}
    (h : ended d ∨ ((f (s.desc d)).state = (s.desc d).state ∧ (f (s.desc d)).sender = (s.desc d).sender)) :
    s.KeepsGathering ended (s.modDesc d f) where
  owner _ _ he := he
  gathering e he hg := by
    by_cases hed : e = d
    · subst hed
      obtain ⟨hstate, hsender⟩ := h.resolve_left he
      rw [State.modDesc_desc_same]
      exact ⟨hstate.trans hg, hsender⟩
    · rw [State.modDesc_desc_other s f hed]
      exact ⟨hg, rfl⟩

theorem State.modSlot_keepsGathering (s : State) (d : DescNo) (p : Port) (f : CopySlot → CopySlot) :
    s.KeepsGathering ended (s.modSlot d p f) := State.modDesc_keepsGathering (.inr ⟨rfl, rfl⟩)

/-- A descriptor freed ends its message, if it was being gathered. -/
theorem State.Freed.keepsGathering (h : s.Freed d t) (hd : ended d ∨ (s.desc d).state ≠ .gathering) :
    s.KeepsGathering ended t where
  owner q _ he := (h.ports q).keepsOwner _ he
  gathering e he hg := by
    have hed : e ≠ d := fun hed => hd.elim (hed ▸ he) (hed ▸ not_not_intro hg)
    rw [h.others e hed]
    exact ⟨hg, rfl⟩

/-! ### What the law needs -/

theorem State.KeepsGathering.inboundGathers (h : s.KeepsGathering ended t)
    (hended : ∀ q e, (t.port q).lane.owner = .inbound e → ¬ ended e) (hs : s.InboundGathers) : t.InboundGathers := by
  intro q e he
  obtain ⟨hstate, hsender⟩ := hs q e (h.owner q e he)
  obtain ⟨hstate', hsender'⟩ := h.gathering e (hended q e he) hstate
  exact ⟨hstate', hsender'.trans hsender⟩

theorem State.KeepsInbound.inboundGathers (h : s.KeepsInbound t) (hs : s.InboundGathers) : t.InboundGathers :=
  State.KeepsGathering.inboundGathers h (fun _ _ _ h => h) hs

/-- A message that ends is the one of a lane that is no longer INBOUND, since every INBOUND lane's message is its own. -/
theorem State.KeepsGathering.inboundGathers_of_idle (h : s.KeepsGathering (fun e => (s.port p).lane.owner = .inbound e) t)
    (hidle : (t.port p).lane.owner = .idle) (hs : s.InboundGathers) : t.InboundGathers :=
  h.inboundGathers (fun q e he hp => by
    have hq : q = p := (hs q e (h.owner q e he)).2.symm.trans (hs p e hp).2
    rw [hq, hidle] at he
    cases he) hs

/-! ### Copies that end -/

theorem Descriptor.settleCopy_state (x : Descriptor) (p : Port) (o : CopyOutcome) : (x.settleCopy p o).state = x.state := by
  unfold Descriptor.settleCopy
  split <;> rfl

theorem State.settleCopy_keepsGathering (s : State) (d : DescNo) (p : Port) (o : CopyOutcome) :
    s.KeepsGathering ended (s.settleCopy d p o) :=
  State.modDesc_keepsGathering (.inr ⟨Descriptor.settleCopy_state _ p o, ((s.desc d).settleCopy_sameAllocation p o).sender⟩)

/-- A settlement frees a HELD message, which none gathers (R9). -/
theorem State.settleIfDone_keepsGathering (s : State) (d : DescNo) : s.KeepsGathering ended (s.settleIfDone d) := by
  obtain ⟨⟨hheld, -⟩, h⟩ | ⟨-, h⟩ := s.settleIfDone_cases d <;> rw [h]
  · exact (s.settleDescriptor_freed d).keepsGathering (.inr (by simp [hheld]))
  · exact .refl s

theorem State.endCopy_keepsGathering {f : PortState → PortState} (h : (s.port p).KeepsOwner (f (s.port p))) (d : DescNo)
    (o : CopyOutcome) : s.KeepsGathering ended (s.endCopy p d o f) :=
  ((State.modPort_keepsGathering h).trans (State.settleCopy_keepsGathering _ d p o)).trans (State.settleIfDone_keepsGathering _ d)

theorem State.offer_keepsGathering (s : State) (p : Port) : s.KeepsGathering ended (s.offer p) :=
  State.modPort_keepsGathering (PortState.offer_onlyNotices _ _).keepsOwner

theorem PortState.idleLane_keepsOwner (ps : PortState) : ps.KeepsOwner ps.idleLane := .of_not_inbound (by simp)

theorem State.returnLane_keepsGathering (s : State) (p : Port) : s.KeepsGathering ended (s.returnLane p) :=
  (State.modPort_keepsGathering (PortState.idleLane_keepsOwner _)).trans (State.offer_keepsGathering _ p)

theorem State.endDelivery_keepsGathering (s : State) (p : Port) (d : DescNo) (o : CopyOutcome) :
    s.KeepsGathering ended (s.endDelivery p d o) := by
  rw [State.endDelivery_eq]
  exact (State.endCopy_keepsGathering (f := PortState.endTransfer d) ((s.port p).endTake d).idleLane_keepsOwner d o).trans
    (State.offer_keepsGathering _ p)

theorem State.expireHolds_keepsGathering (s : State) (p : Port) : s.KeepsGathering ended (s.expireHolds p) := by
  unfold State.expireHolds
  split
  · exact State.foldl_keepsGathering (fun t d => State.endCopy_keepsGathering (.of_eq rfl) d .expired) _ s
  · exact .refl s

theorem State.markHolds_keepsGathering (s : State) (p : Port) : s.KeepsGathering ended (s.markHolds p) where
  owner q e he := by rwa [State.port, State.markHolds_ports] at he
  gathering e _ hg := by
    have hmark : ((s.markHolds p).desc e).state = (s.desc e).state := by
      rw [State.markHolds_desc]
      split
      · unfold Descriptor.markPassed
        split <;> rfl
      · rfl
    exact ⟨hmark.trans hg, (s.markHolds_frees p).keepsAllocation.sender e⟩

/-! ### Matching and completion -/

theorem State.bindCopy_keepsGathering (s : State) (p : Port) (f : TakeFields) (d : DescNo) :
    s.KeepsGathering ended (s.bindCopy p f d) :=
  ((s.modSlot_keepsGathering d p _).trans (State.modPort_keepsGathering (.of_eq rfl))).trans
    (State.modPort_keepsGathering (PortState.append_onlyNotices _ _ _).keepsOwner)

theorem State.matchCopy_keepsGathering (s : State) (d : DescNo) (q : Port) : s.KeepsGathering ended (s.matchCopy d q) := by
  have hnew : s.KeepsGathering ended (s.newCopy d q) := s.modSlot_keepsGathering d q _
  obtain ⟨-, h⟩ | ⟨-, ⟨ahead, t, behind, -, -, -, h⟩ | ⟨-, ⟨-, h⟩ | ⟨-, h⟩⟩⟩ := s.matchCopy_cases d q <;> rw [h]
  · exact hnew.trans (State.settleCopy_keepsGathering _ d q _)
  · exact (hnew.trans (State.modPort_keepsGathering (.of_eq rfl))).trans (State.bindCopy_keepsGathering _ q _ d)
  · exact (hnew.trans (State.modPort_keepsGathering (.of_eq rfl))).trans (State.modSlot_keepsGathering _ d q _)
  · exact hnew.trans (State.settleCopy_keepsGathering _ d q _)

/-- A completed message is gathered no more (R4). -/
theorem State.complete_keepsGathering (hd : ended d) (s : State) : s.KeepsGathering ended (s.complete d) := by
  have hstamped : s.KeepsGathering ended (s.stamped d) := State.modDesc_keepsGathering (.inl hd)
  have hmatched : s.KeepsGathering ended (s.matched d) :=
    hstamped.trans (State.foldl_keepsGathering (fun t q => t.matchCopy_keepsGathering d q) _ _)
  rw [State.complete_eq]
  split
  · exact hmatched.trans (State.modDesc_keepsGathering (.inl hd))
  · exact hmatched.trans ((State.settleDescriptor_freed _ d).keepsGathering (.inl hd))

/-! ### Requests and answers -/

theorem State.doTake_keepsGathering (s : State) (p : Port) (f : TakeFields) : s.KeepsGathering ended (s.doTake p f) := by
  have hbooked : s.KeepsGathering ended (s.modPort p PortState.bookSlot) := State.modPort_keepsGathering (.of_eq rfl)
  unfold State.doTake
  dsimp only
  split
  · exact (hbooked.trans (State.modPort_keepsGathering (.of_eq rfl))).trans (State.bindCopy_keepsGathering _ p f _)
  · exact hbooked.trans (State.modPort_keepsGathering (.of_eq rfl))

theorem State.returnCopy_keepsGathering (s : State) (p : Port) (d : DescNo) : s.KeepsGathering ended (s.returnCopy p d) := by
  have hsettled := fun o => (s.settleCopy_keepsGathering (ended := ended) d p o).trans (State.settleIfDone_keepsGathering _ d)
  obtain ⟨-, h⟩ | ⟨-, -, h⟩ | ⟨-, -, h⟩ := s.returnCopy_cases p d <;> rw [h]
  · exact hsettled .expired
  · exact hsettled .dropped
  · exact (State.modPort_keepsGathering (.of_eq rfl)).trans (State.modSlot_keepsGathering _ d p _)

theorem State.answerOwner_keepsGathering (s : State) (p : Port) (accepted : Bool) (n : Notice) :
    s.KeepsGathering ended (s.answerOwner p accepted n) := by
  cases n with
  | takeEnded | receipt | report => exact .refl s
  | arrival a =>
    cases accepted with
    | true =>
      simp only [State.answerOwner, if_true, State.acceptArrival]
      split
      · exact .refl s
      · split
        · exact (s.modSlot_keepsGathering _ p _).trans (State.modPort_keepsGathering (.of_not_inbound fun _ h => nomatch h))
        · exact ((s.settleCopy_keepsGathering _ p _).trans (State.modPort_keepsGathering (.of_eq rfl))).trans
            (State.settleIfDone_keepsGathering _ _)
    | false =>
      simp only [State.answerOwner, Bool.false_eq_true, if_false, State.refuseArrival]
      split
      · exact .refl s
      · exact (State.modPort_keepsGathering (.of_eq rfl)).trans (State.returnCopy_keepsGathering _ p _)

theorem State.answerNotice_keepsGathering (s : State) (p : Port) (accepted : Bool) :
    s.KeepsGathering ended (s.answerNotice p accepted) := by
  have hremoved : s.KeepsGathering ended (s.modPort p PortState.removeHead) := State.modPort_keepsGathering (.of_eq rfl)
  unfold State.answerNotice
  split
  · exact (hremoved.trans (State.answerOwner_keepsGathering _ p accepted _)).trans (State.offer_keepsGathering _ p)
  · exact .refl s

/-- A descriptor that is FREE is no lane's. -/
theorem State.InboundGathers.owner_ne (hs : s.InboundGathers) (hfree : (s.desc d).state = .free) (q : Port) :
    (s.port q).lane.owner ≠ .inbound d := fun h => by
  have hstate := (hs q d h).1
  rw [hfree] at hstate
  cases hstate

theorem State.allotted_keepsGathering (s : State) (p : Port) (f : SendFields) (d : DescNo) :
    s.KeepsGathering (· = d) (s.allotted p f d) where
  owner q e he := by rwa [State.allotted_lane] at he
  gathering e he hg := by
    rw [State.allotted_desc_other he]
    exact ⟨hg, rfl⟩

/-- A SEND claims the lane for the message it starts, or completes the message at once (R105, R106). -/
theorem State.doSend_inboundGathers {f : SendFields} (hcheck : s.checkSend p f = .ok d) (hs : s.InboundGathers) :
    (s.doSend p f d).InboundGathers := by
  have hnone := hs.owner_ne (State.checkSend_allocation hcheck).1
  have hallotted := s.allotted_keepsGathering p f d
  rw [State.doSend_eq]
  split
  · intro q e he
    by_cases hq : q = p
    · subst hq
      rw [State.claimLane_lane] at he
      cases he
      show ((s.allotted q f d).desc d).state = .gathering ∧ ((s.allotted q f d).desc d).sender = q
      rw [State.allotted_desc_same]
      exact ⟨rfl, rfl⟩
    · rw [State.claimLane, State.modPort_port_other _ _ hq, State.allotted_lane] at he
      have hed : e ≠ d := fun hed => hnone q (hed ▸ he)
      show ((s.allotted p f d).desc e).state = .gathering ∧ ((s.allotted p f d).desc e).sender = q
      rw [State.allotted_desc_other hed]
      exact hs q e he
  · have hdone := hallotted.trans (State.complete_keepsGathering (ended := (· = d)) rfl _)
    exact hdone.inboundGathers (fun q e he hed => hnone q (hed ▸ hdone.owner q e he)) hs

/-! ### Transfers and sessions that end, grants -/

/-- An INBOUND transfer that ends without completing ends its own message, and the lane is IDLE (R12, R157). -/
theorem State.abandonTransfer_inboundGathers {f : Lane → Lane} (howner : (s.port p).lane.owner = .inbound d)
    (hsame : (s.port p).SameTransfers ((s.port p).modLane f)) (hs : s.InboundGathers) :
    ((s.modPort p (PortState.modLane f)).abandonTransfer p d).InboundGathers := by
  have hflags := State.modPort_keepsGathering (ended := fun e => (s.port p).lane.owner = .inbound e) (f := PortState.modLane f)
    (.of_eq hsame.owner)
  have hend := (hflags.trans ((State.abandon_freed _ d).keepsGathering (.inl howner))).trans (State.returnLane_keepsGathering _ p)
  refine hend.inboundGathers_of_idle ?_ hs
  rw [State.returnLane_lane]
  rfl

theorem PortState.dropTakes_keepsOwner (ps : PortState) : ps.KeepsOwner ps.dropTakes := by
  unfold PortState.dropTakes
  split
  · exact .of_not_inbound fun _ h => nomatch h
  · exact .of_eq rfl
  · exact .of_eq rfl

theorem State.undeliver_keepsGathering (s : State) (d : DescNo) (p : Port) : s.KeepsGathering ended (s.undeliver d p) :=
  (State.modDesc_keepsGathering (f := Descriptor.dropMark p) (.inr ⟨rfl, rfl⟩)).trans (State.settleCopy_keepsGathering _ d p _)

theorem State.teardownCopies_keepsGathering (s : State) (p : Port) : s.KeepsGathering ended (s.teardownCopies p) := by
  have hundeliver : ∀ (ds : List DescNo) (u : State), u.KeepsGathering ended (u.undeliverAll ds p) :=
    State.foldl_keepsGathering fun t d => t.undeliver_keepsGathering d p
  exact (((hundeliver _ s).trans (State.modPort_keepsGathering (PortState.dropTakes_keepsOwner _))).trans (hundeliver _ _)).trans
    (State.modPort_keepsGathering (.of_eq rfl))

/-- A teardown ends no message but that of its port's INBOUND lane (R16). -/
theorem State.teardown_keepsGathering (s : State) (p : Port) :
    s.KeepsGathering (fun e => (s.port p).lane.owner = .inbound e) (s.teardown p) := by
  have hmarked : s.KeepsGathering (fun e => (s.port p).lane.owner = .inbound e) (s.modPort p (PortState.markTearingDown true)) :=
    State.modPort_keepsGathering (.of_eq rfl)
  have hstart : s.KeepsGathering (fun e => (s.port p).lane.owner = .inbound e) (s.teardownStart p) :=
    (hmarked.trans (State.modPort_keepsGathering (p := p) (f := PortState.discardNotices) (.of_eq rfl))).trans (.of_eq rfl rfl)
  have hin : s.KeepsGathering (fun e => (s.port p).lane.owner = .inbound e) ((s.teardownStart p).endInbound p) := by
    obtain ⟨-, h⟩ | ⟨d, howner, h⟩ := (s.teardownStart p).endInbound_cases p <;> rw [h]
    · exact hstart
    · rw [State.teardownStart_port_same] at howner
      exact (hstart.trans (State.modPort_keepsGathering (PortState.idleLane_keepsOwner _))).trans
        ((State.abandon_freed _ d).keepsGathering (.inl howner))
  rw [State.teardown_eq]
  exact ((hin.trans (State.teardownCopies_keepsGathering _ p)).trans
    (State.foldl_keepsGathering (fun t d => t.settleIfDone_keepsGathering d) _ _)).trans
      (State.modPort_keepsGathering (.of_eq rfl))

/-- The end of a session leaves its port's lane IDLE (R169, R177). -/
theorem State.endSession_inboundGathers {cause : Bool} {x : SessionState}
    (hlapsed : (s.port p).session.causeSound → (cause = true ↔ x = .lapsed)) (hs : s.InboundGathers) :
    (((s.modPort p (PortState.setLapsedCause cause)).teardown p).modPort p (PortState.setSession x)).InboundGathers := by
  have hcause : (s.modPort p (PortState.setLapsedCause cause)).InboundGathers :=
    State.KeepsInbound.inboundGathers (State.modPort_keepsGathering (.of_eq rfl)) hs
  have hend := (State.teardown_keepsGathering (s.modPort p (PortState.setLapsedCause cause)) p).trans
    (State.modPort_keepsGathering (p := p) (f := PortState.setSession x) (.of_eq rfl))
  refine hend.inboundGathers_of_idle ?_ hcause
  rw [State.modPort_port_same, (State.teardown_tornDown _ p).own, State.modPort_port_same]
  exact ((s.port p).tornDown_ended hlapsed).owner

theorem State.chunkStored_keepsGathering (s : State) (p : Port) (d : DescNo) (n : Nat) :
    s.KeepsGathering ended (s.chunkStored p d n) := by
  have hdesc : s.KeepsGathering ended (s.modDesc d (fun x => { x with bytesInPool := x.bytesInPool + n })) :=
    State.modDesc_keepsGathering (.inr ⟨rfl, rfl⟩)
  have hlane := hdesc.trans (State.modPort_keepsGathering (p := p)
    (f := PortState.modLane (Lane.afterGrant ((s.port p).lane.fifo.drop n) n)) (.of_eq rfl))
  exact hlane.trans (.of_eq rfl rfl)

/-- A grant goes on with its lane's message, or completes it and returns the lane (R162, R163). -/
theorem State.grantTo_inboundGathers (hs : s.InboundGathers) (p : Port) : (s.grantTo p).InboundGathers := by
  cases howner : (s.port p).lane.owner with
  | idle => simpa only [State.grantTo, howner] using hs
  | outbound d =>
    simp only [State.grantTo, howner, State.grantOutbound]
    have hpointer : s.KeepsInbound { s with pointer := p } := .of_eq rfl rfl
    exact State.KeepsInbound.inboundGathers (hpointer.trans (State.modPort_keepsGathering (.of_eq rfl))) hs
  | inbound d =>
    rw [State.grantTo_inbound howner]
    split
    · refine State.KeepsGathering.inboundGathers_of_idle (((s.chunkStored_keepsGathering p d _).trans
        (State.complete_keepsGathering howner _)).trans (State.returnLane_keepsGathering _ p)) ?_ hs
      rw [State.returnLane_lane]
      rfl
    · exact State.KeepsInbound.inboundGathers (s.chunkStored_keepsGathering p d _) hs

/-! ### Every happening -/

/-- Every happening keeps each INBOUND lane's message GATHERING and its port's own. -/
theorem State.Happening.inboundGathers (h : s.Happening t) (hs : s.InboundGathers) : t.InboundGathers := by
  have hkept : ∀ {t : State}, s.KeepsInbound t → t.InboundGathers := fun h => h.inboundGathers hs
  cases h with
  | idle t hports hdescs => exact hkept (.of_eq hports hdescs)
  | advance =>
    refine hkept ⟨fun q e he => ?_, fun e _ hg => ⟨hg, rfl⟩⟩
    have hport : s.advance.port q = (s.port q).oweGrant := PerPort.get_map _ _ _
    rwa [hport] at he
  | quiet p f hchange hsame => exact hkept (State.modPort_keepsGathering (.of_eq hsame.owner))
  | membership | configure => exact hkept (.of_eq rfl rfl)
  | send p f d hopen hhold hcheck => exact State.doSend_inboundGathers hcheck hs
  | take p f => exact hkept (s.doTake_keepsGathering p f)
  | answer p accepted => exact hkept (s.answerNotice_keepsGathering p accepted)
  | abandon p d f howner hsame => exact State.abandonTransfer_inboundGathers howner hsame hs
  | endDelivery p d o f howner hsame =>
    exact hkept ((State.modPort_keepsGathering (.of_eq hsame.owner)).trans (State.endDelivery_keepsGathering _ p d o))
  | expireHolds p => exact hkept (s.expireHolds_keepsGathering p)
  | markHolds p => exact hkept (s.markHolds_keepsGathering p)
  | endSession p cause x hlapsed => exact State.endSession_inboundGathers hlapsed hs
  | grant p => exact State.grantTo_inboundGathers hs p

end

end Sys2Proof.Machine
end

