-- ==== Sys2Proof/Proofs/Segments.lean ====
section
/-! PROOFS. Every segment free or in one chain, and the held counts, over every step (O56). -/

namespace Sys2Proof.Machine

section

variable {s t : State}

theorem State.segmentsSound_iff (s : State) : s.segmentsSound ↔ s.Ledger ∧ s.InboundGathers :=
  ⟨fun ⟨hperm, hrising, hlength, hheld, hinbound⟩ => ⟨⟨hperm, hrising, hlength, hheld⟩, hinbound⟩,
    fun ⟨⟨hperm, hrising, hlength, hheld⟩, hinbound⟩ => ⟨hperm, hrising, hlength, hheld, hinbound⟩⟩

theorem State.OnlyFrees.ledger {P : DescState → Prop} (h : s.OnlyFrees P t) (hs : s.Ledger) : t.Ledger := by
  induction h with
  | start => exact hs
  | quiet _ hq ih => exact hq.ledger ih
  | freed d _ _ hf ih => exact hf.ledger ih

/-- Every change of the ledger keeps it true, whatever the limits are. -/
theorem State.Allocates.ledger (h : s.Allocates t) (hs : s.Ledger) : t.Ledger := by
  cases h with
  | frees h => exact h.ledger hs
  | allot p f d hhold hcheck => exact State.allotted_ledger hcheck hs
  | limits => exact ⟨hs.perm, hs.rising, hs.length, hs.held⟩

/-- Every happening keeps the ledger and the INBOUND lanes' messages. -/
theorem State.Happening.segmentsSound (h : s.Happening t) (hs : s.segmentsSound) : t.segmentsSound := by
  obtain ⟨hledger, hinbound⟩ := s.segmentsSound_iff.mp hs
  refine t.segmentsSound_iff.mpr ⟨?_, h.inboundGathers hinbound⟩
  have hchanges : s.Allocations t := h.allocations fun p d howner hfree => hinbound.owner_ne hfree p howner
  clear h hs hinbound
  induction hchanges with
  | refl => exact hledger
  | tail _ hstep ih => exact hstep.ledger ih

theorem State.IsReset.inboundGathers (h : s.IsReset) : s.InboundGathers := fun q e howner => by
  obtain ⟨w, hw⟩ := h.port q
  rw [hw] at howner
  cases howner

end

/-- Settles O56: a step is a run of happenings, each of which keeps the ledger and the INBOUND lanes' messages, or a
hard reset, which makes every segment free. -/
theorem stepKeepsSegmentsSound : Obligations.StepKeepsSegmentsSound := by
  intro s t hs hstep
  obtain hrun | ⟨straps, rest, hreset⟩ := State.step_happenings hstep
  · exact hrun.keeps (fun _ _ h => h.segmentsSound) hs
  · have hisReset := (execHardReset_isReset hreset).1
    exact t.segmentsSound_iff.mpr ⟨hisReset.ledger, hisReset.inboundGathers⟩

end Sys2Proof.Machine
end

