-- ==== Sys2Proof/Proofs/RequestBlocks.lean ====
section
/-! PROOFS. Request blocks: the decoder reads each as its request, and no other bytes as one (O25). -/

namespace Sys2Proof.Machine

/-! ### Fields of two bytes -/

theorem halfOf_toNat (lo hi : Byte) : (halfOf lo hi).toNat = 256 * hi.toNat + lo.toNat := by
  have happend : (halfOf lo hi).toNat = hi.toNat <<< 8 ||| lo.toNat := BitVec.toNat_append hi lo
  rw [happend, ← Nat.shiftLeft_add_eq_or_of_lt lo.isLt, Nat.shiftLeft_eq, Nat.mul_comm]

theorem lowByte_toNat (h : Half) : (lowByte h).toNat = h.toNat % 256 := BitVec.toNat_setWidth 8 h

theorem highByte_toNat (h : Half) : (highByte h).toNat = h.toNat / 256 := by
  rw [highByte, BitVec.toNat_setWidth, BitVec.toNat_ushiftRight, Nat.shiftRight_eq_div_pow]
  omega

theorem halfOf_lowByte_highByte (h : Half) : halfOf (lowByte h) (highByte h) = h := by
  apply BitVec.eq_of_toNat_eq
  rw [halfOf_toNat, lowByte_toNat, highByte_toNat]
  omega

@[simp] theorem lowByte_halfOf (lo hi : Byte) : lowByte (halfOf lo hi) = lo := by
  apply BitVec.eq_of_toNat_eq
  rw [lowByte_toNat, halfOf_toNat]
  omega

@[simp] theorem highByte_halfOf (lo hi : Byte) : highByte (halfOf lo hi) = hi := by
  apply BitVec.eq_of_toNat_eq
  rw [highByte_toNat, halfOf_toNat]
  omega

@[simp] theorem halfBytes_halfOf (lo hi : Byte) : halfBytes (halfOf lo hi) = [lo, hi] := by simp [halfBytes]

/-! ### Blocks read back -/

/-- A request's code and data are read as that request (R189). -/
theorem parseRequest_code_data (r : Request) : parseRequest r.code r.data = .ok r := by
  cases r <;>
    simp [parseRequest, Request.code, Request.data, halfBytes, halfOf_lowByte_highByte]

/-- Each request's data have the length fixed for its code (R94). -/
theorem requestLength_code (r : Request) : requestLength r.code = some r.data.length := by cases r <;> rfl

/-- Bytes that are read as a request are that request's code and data. -/
theorem parseRequest_eq_ok {code : Byte} {data : List Byte} {r : Request} (h : parseRequest code data = .ok r) :
    code = r.code ∧ data = r.data := by
  unfold parseRequest at h
  split at h
  case h_10 => cases h
  all_goals
    next hcode =>
    split at h <;> cases h
    exact ⟨BitVec.eq_of_toNat_eq hcode, by simp [Request.data]⟩

/-! ### Blocks refused -/

theorem mem_requestCodes_iff (code : Byte) :
    code ∈ requestCodes ↔ code.toNat ∈ [0x10, 0x11, 0x20, 0x28, 0x29, 0x30, 0x31, 0x38, 0x3C] := by
  simp [requestCodes, BitVec.toNat_eq]

/-- A code of the nine names a request, or its data length is wrong (R93, R94). -/
theorem parseRequest_of_mem {code : Byte} (h : code ∈ requestCodes) (data : List Byte) :
    parseRequest code data = .error .framing ∨ ∃ r, parseRequest code data = .ok r := by
  rw [mem_requestCodes_iff] at h
  unfold parseRequest
  split
  case h_10 => simp_all
  all_goals
    split
    · exact .inr ⟨_, rfl⟩
    · exact .inl rfl

/-- Any other code names no request (R93). -/
theorem parseRequest_of_not_mem {code : Byte} (h : code ∉ requestCodes) (data : List Byte) :
    parseRequest code data = .error .unknownCode := by
  rw [mem_requestCodes_iff] at h
  unfold parseRequest
  split
  case h_10 => rfl
  all_goals simp_all

/-- Settles O25: a code of the nine with data that are not refused belongs to a request, whose length is its own. -/
theorem requestBlocksDecodeAsEncoded : Obligations.RequestBlocksDecodeAsEncoded := by
  refine ⟨fun r => ⟨parseRequest_code_data r, requestLength_code r⟩, fun _ _ _ => parseRequest_eq_ok,
    fun code data hcode hlength => ?_, fun _ data hcode => parseRequest_of_not_mem hcode data⟩
  obtain hframing | ⟨r, hr⟩ := parseRequest_of_mem hcode data
  · exact hframing
  · obtain ⟨rfl, rfl⟩ := parseRequest_eq_ok hr
    exact absurd (requestLength_code r) hlength

end Sys2Proof.Machine
end

