-- ==== Sys2Proof/Proofs/Verdicts.lean ====
section
/-! PROOFS. What a request leaves of every framing unit's inbound side, and the decoder's verdict: the first check that
fails, or acceptance (O4, O5, O15). -/

namespace Sys2Proof.Machine

/-! ### Operations that leave the inbound sides alone -/

/-- From `s` to `t` no port's inbound side changes. -/
def State.SameInbound (s t : State) : Prop := ∀ q, (t.port q).inbound = (s.port q).inbound

section

variable {s t u : State} {p : Port}

theorem State.SameInbound.refl (s : State) : s.SameInbound s := fun _ => rfl

theorem State.SameInbound.trans (h : s.SameInbound t) (h' : t.SameInbound u) : s.SameInbound u :=
  fun q => (h' q).trans (h q)

theorem State.SameInbound.of_onlyNotices (h : ∀ q, (s.port q).OnlyNotices (t.port q)) : s.SameInbound t :=
  fun q => (h q).inbound

theorem State.modPort_sameInbound {f : PortState → PortState} (h : (f (s.port p)).inbound = (s.port p).inbound) :
    s.SameInbound (s.modPort p f) := fun q => by
  by_cases hq : q = p
  · rw [hq, State.modPort_port_same, h]
  · rw [State.modPort_port_other s f hq]

theorem State.modSlot_sameInbound (s : State) (d : DescNo) (p : Port) (f : CopySlot → CopySlot) : s.SameInbound (s.modSlot d p f) :=
  fun _ => rfl

theorem State.appendNotice_sameInbound (s : State) (p : Port) (n : Notice) : s.SameInbound (s.appendNotice p n) :=
  State.modPort_sameInbound (PortState.append_onlyNotices _ _ _).inbound

theorem State.bindCopy_sameInbound (s : State) (p : Port) (f : TakeFields) (d : DescNo) : s.SameInbound (s.bindCopy p f d) :=
  ((s.modSlot_sameInbound d p _).trans (State.modPort_sameInbound rfl)).trans (State.appendNotice_sameInbound _ p _)

theorem State.matchCopy_sameInbound (s : State) (d : DescNo) (q : Port) : s.SameInbound (s.matchCopy d q) := by
  have hnew : s.SameInbound (s.newCopy d q) := s.modSlot_sameInbound d q _
  obtain ⟨-, h⟩ | ⟨-, ⟨ahead, t, behind, -, -, -, h⟩ | ⟨-, ⟨-, h⟩ | ⟨-, h⟩⟩⟩ := s.matchCopy_cases d q <;> rw [h]
  · exact .refl s
  · exact (hnew.trans (State.modPort_sameInbound rfl)).trans (State.bindCopy_sameInbound _ q _ d)
  · exact (hnew.trans (State.modPort_sameInbound rfl)).trans (State.modSlot_sameInbound _ d q _)
  · exact .refl s

theorem State.complete_sameInbound (s : State) (d : DescNo) : s.SameInbound (s.complete d) := by
  have hmatched : s.SameInbound (s.matched d) :=
    State.foldl_matchCopy (P := s.SameInbound) (fun t q h => h.trans (t.matchCopy_sameInbound d q)) _ _ (.refl s)
  rw [State.complete_eq]
  split
  · exact hmatched
  · exact hmatched.trans (.of_onlyNotices ((s.matched d).settleDescriptor_freed d).ports)

theorem State.doSend_sameInbound (s : State) (p : Port) (f : SendFields) (d : DescNo) : s.SameInbound (s.doSend p f d) := by
  have hallotted : s.SameInbound (s.allotted p f d) := by
    rw [State.allotted_eq]
    exact State.modPort_sameInbound (s := (s.modDesc d _).modPool _) rfl
  rw [State.doSend_eq]
  split
  · exact hallotted.trans (State.modPort_sameInbound rfl)
  · exact hallotted.trans (State.complete_sameInbound _ d)

theorem State.doTake_sameInbound (s : State) (p : Port) (f : TakeFields) : s.SameInbound (s.doTake p f) := by
  have hbook : s.SameInbound (s.modPort p PortState.bookSlot) := State.modPort_sameInbound rfl
  unfold State.doTake
  split
  · exact (hbook.trans (State.modPort_sameInbound rfl)).trans (State.bindCopy_sameInbound _ p f _)
  · exact hbook.trans (State.modPort_sameInbound rfl)

theorem State.TornDown.sameInbound (h : s.TornDown p t) : s.SameInbound t := fun q => by
  by_cases hq : q = p
  · rw [hq, h.own]
    rfl
  · obtain ⟨rs, hrs⟩ := h.others q hq
    rw [hrs, (PortState.receive_onlyNotices _ rs _).inbound]

theorem State.teardownIfOpen_sameInbound (s : State) (p : Port) : s.SameInbound (s.teardownIfOpen p) := by
  unfold State.teardownIfOpen
  split
  · exact (s.teardown_tornDown p).sameInbound
  · exact .refl s

end

/-! ### The first check that fails -/

theorem firstFailure_cons (b : Bool) (r : Reason) (cs : List Check) :
    firstFailure (failsIf b r :: cs) = if b then some r else firstFailure cs := by
  cases b <;> rfl

/-- Two checks with one reason are one check. -/
theorem firstFailure_merge (b b' : Bool) (r : Reason) (cs : List Check) :
    firstFailure (failsIf b r :: failsIf b' r :: cs) = firstFailure (failsIf (b || b') r :: cs) := by
  cases b <;> rfl

/-- The session check comes before the checks behind it (R92, R96). -/
theorem State.firstFailure_session (s : State) (p : Port) (cs : List Check) :
    firstFailure (s.sessionChecks p ++ cs) = (s.port p).sessionRefusal.or (firstFailure cs) := by
  simp only [State.sessionChecks, List.cons_append, List.nil_append, firstFailure_cons, PortState.sessionRefusal]
  cases (s.port p).session.state <;> rfl

/-! ### Verdicts -/

/-- A verdict is a refusal with the reason `failure`, or, where that is none, an acceptance with a result that `P` holds of. -/
def Verdict {α : Type} (P : α → Prop) (failure : Option Reason) (verdict : Except Reason α) : Prop :=
  match verdict with
  | .error r => failure = some r
  | .ok t => failure = none ∧ P t

section

variable {α : Type} {P : α → Prop} {v : Except Reason α} {b : Bool} {r : Reason} {cs : List Check}

/-- A check that fails refuses the request. -/
theorem Verdict.failed (hb : b = true) : Verdict P (firstFailure (failsIf b r :: cs)) (.error r) := by
  show _ = some r
  rw [firstFailure_cons, if_pos hb]

/-- A check that passes leaves the verdict to the checks behind it. -/
theorem Verdict.passed (hb : b = false) (h : Verdict P (firstFailure cs) v) : Verdict P (firstFailure (failsIf b r :: cs)) v := by
  rwa [firstFailure_cons, hb, if_neg Bool.false_ne_true]

/-- One check, as the model tests it. -/
theorem Verdict.check {c : Prop} [Decidable c] (hb : b = true ↔ c) (h : Verdict P (firstFailure cs) v) :
    Verdict P (firstFailure (failsIf b r :: cs)) (if c then .error r else v) := by
  split
  · next hc => exact .failed (hb.mpr hc)
  · next hc => exact .passed (by simpa using mt hb.mp hc) h

/-- The decoder accepts once no check is left. -/
theorem Verdict.accepted {t : α} (h : P t) : Verdict P (firstFailure []) (.ok t) := ⟨rfl, h⟩

theorem Verdict.session_refused {s : State} {p : Port} (h : (s.port p).sessionRefusal = some r) :
    Verdict P (firstFailure (s.sessionChecks p ++ cs)) (.error r) := by
  show _ = some r
  rw [State.firstFailure_session, h]
  rfl

theorem Verdict.session_open {s : State} {p : Port} (h : (s.port p).sessionRefusal = none) (hv : Verdict P (firstFailure cs) v) :
    Verdict P (firstFailure (s.sessionChecks p ++ cs)) v := by
  rwa [State.firstFailure_session, h, Option.none_or]

end

/-! ### Operands and checks -/

theorem portOfByte_isNone (b : Byte) : (portOfByte b).isNone = !decide (b.toNat ≤ 3) := by
  unfold portOfByte
  split
  case h_5 hne0 hne1 hne2 hne3 =>
    have hbig : ¬ b.toNat ≤ 3 := by
      rw [imp_false] at hne0 hne1 hne2 hne3
      omega
    simp [hbig]
  all_goals
    next h => simp [h]

theorem destinationOfByte_isNone (b : Byte) :
    (destinationOfByte b).isNone = !(decide (b.toNat ≤ 3) || (decide (0x10 ≤ b.toNat) && decide (b.toNat ≤ 0x17))) := by
  have hport := portOfByte_isNone b
  unfold destinationOfByte
  split
  · next p hp =>
    have hle : b.toNat ≤ 3 := by simpa [hp] using hport
    simp [hle]
  · next hp =>
    have hbig : ¬ b.toNat ≤ 3 := by simpa [hp] using hport
    rw [decide_eq_false hbig, ← Bool.decide_and]
    split
    · next h => rw [decide_eq_true h]; rfl
    · next h => rw [decide_eq_false h]; rfl

theorem sourceOfByte_isNone (b : Byte) : (sourceOfByte b).isNone = !(decide (b.toNat ≤ 3) || b.toNat == 0xFF) := by
  have hany : (b.toNat == 0xFF) = (b == 0xFF) := by
    rw [Bool.eq_iff_iff, beq_iff_eq, beq_iff_eq]
    exact (BitVec.toNat_eq (y := 0xFF#8)).symm
  rw [hany]
  unfold sourceOfByte
  split
  · next h => simp [h]
  · next h => rw [Option.isNone_map, portOfByte_isNone, beq_eq_false_iff_ne.mpr h, Bool.or_false]

theorem groupOfByte_isNone (b : Byte) : (groupOfByte b).isNone = decide (7 < b.toNat) := by
  unfold groupOfByte
  split <;> simp <;> omega

/-- A byte that names a group carries its number (R95). -/
theorem groupOfByte_eq_some {b : Byte} {g : GroupNo} (h : groupOfByte b = some g) : b.toNat = g.val := by
  unfold groupOfByte at h
  split at h <;> cases h
  rfl

theorem State.isMember_val (s : State) (p : Port) (g : GroupNo) : s.isMember p g.val = (s.members g).get p := by
  rw [Bool.eq_iff_iff]
  simp [State.isMember, ← Fin.ext_iff]

theorem destinationOfByte_group {b : Byte} {g : GroupNo} (h : destinationOfByte b = some (.group g)) : 3 < b.toNat := by
  unfold destinationOfByte at h
  split at h
  · cases h
  · next hp =>
    have hport := portOfByte_isNone b
    simpa [hp] using hport

theorem portNumber_le (q : Port) : q.number ≤ 3 := by cases q <;> decide

theorem portNumber_inj {q q' : Port} : q.number = q'.number ↔ q = q' := by cases q <;> cases q' <;> decide

/-- The destination check of the statements is the model's (R104). -/
theorem State.namesClosedPort_eq {s : State} {destination : Byte} {dst : Destination}
    (h : destinationOfByte destination = some dst) : s.namesClosedPort destination = s.destinationClosed dst := by
  rw [Bool.eq_iff_iff]
  cases dst with
  | port q =>
    simp [State.namesClosedPort, State.destinationClosed, PortState.isOpen, destinationOfByte_port h, portNumber_inj, Port.mem_all]
  | group g =>
    have hgroup := destinationOfByte_group h
    have hne : ∀ q : Port, destination.toNat ≠ q.number := fun q => by
      have := portNumber_le q
      omega
    simp [State.namesClosedPort, State.destinationClosed, hne]

/-! ### The verdict on each request -/

section

variable (s : State) (p : Port)

theorem State.acceptOpen_verdict (limit : Half) :
    Verdict s.SameInbound (firstFailure (s.checks p (.openPort limit))) (s.acceptOpen p limit) :=
  .check Iff.rfl (.accepted ((s.teardownIfOpen_sameInbound p).trans (State.modPort_sameInbound rfl)))

theorem State.acceptClose_verdict : Verdict s.SameInbound (firstFailure (s.checks p .closePort)) (s.acceptClose p) :=
  .check beq_iff_eq (.accepted ((s.teardownIfOpen_sameInbound p).trans (State.modPort_sameInbound rfl)))

/-- A SEND's own checks, in the order of R103 and R104. -/
theorem State.checkSend_verdict {destination channel : Byte} {length hold label : Half} {options : Byte} {dst : Destination}
    (hdst : destinationOfByte destination = some dst) :
    Verdict (fun _ => True) (firstFailure
      [failsIf ((s.port p).lane.owner != .idle || (s.port p).headIsArrival) .laneBusy,
        failsIf ((List.finRange 64).all (fun d => (s.desc d).state != .free)) .noDescriptor,
        failsIf (options == 1 && 24 ≤ (s.port p).queue.reserved) .noSlot,
        failsIf (s.pool.ceiling.get p < s.pool.held.get p + (length.toNat + 255) / 256) .quota,
        failsIf (s.pool.free.length < (length.toNat + 255) / 256 + s.reservedForOthers p) .poolFull,
        failsIf (s.namesClosedPort destination) .destClosed])
      (s.checkSend p (sendFieldsOf dst channel length hold label options)) := by
  refine .check Iff.rfl ?_
  split
  · next hnone =>
    exact .failed (by simpa [State.freeDescriptor] using hnone)
  · next d hsome =>
    have hfree : (s.desc d).state = .free := by simpa using List.find?_some hsome
    refine .passed (List.all_eq_false.mpr ⟨d, List.mem_finRange d, by simp [hfree]⟩) ?_
    exact .check Iff.rfl (.check decide_eq_true_iff (.check decide_eq_true_iff
      (.check (by rw [State.namesClosedPort_eq hdst]; rfl) (.accepted trivial))))

theorem State.acceptSend_verdict (destination channel : Byte) (length hold label : Half) (options : Byte) :
    Verdict s.SameInbound (firstFailure (s.checks p (.send destination channel length hold label options)))
      (s.acceptSend p destination channel length hold label options) := by
  simp only [State.checks, List.cons_append, List.nil_append]
  unfold State.acceptSend
  split
  · next hnone => exact .failed (by rw [← destinationOfByte_isNone, hnone]; rfl)
  · next dst hdst =>
    refine .passed (by rw [← destinationOfByte_isNone, hdst]; rfl) ?_
    rw [firstFailure_merge]
    refine .check Iff.rfl ?_
    split
    · next hr => exact .session_refused hr
    · next hopen =>
      refine .session_open hopen ?_
      have hown := s.checkSend_verdict p (channel := channel) (length := length) (hold := hold) (label := label)
        (options := options) hdst
      simp only [byte_toNat_beq_one]
      split
      · next hcheck =>
        rw [sendFieldsOf, hcheck] at hown
        exact hown
      · next hcheck =>
        rw [sendFieldsOf, hcheck] at hown
        exact ⟨hown.1, s.doSend_sameInbound p _ _⟩

theorem State.acceptTake_verdict (label : Half) (source value mask : Byte) (capacity timeout : Half) :
    Verdict s.SameInbound (firstFailure (s.checks p (.take label source value mask capacity timeout)))
      (s.acceptTake p label source value mask capacity timeout) := by
  simp only [State.checks, List.cons_append, List.nil_append]
  unfold State.acceptTake
  split
  · next hnone => exact .failed (by rw [← sourceOfByte_isNone, hnone]; rfl)
  · next src hsrc =>
    refine .passed (by rw [← sourceOfByte_isNone, hsrc]; rfl) (.check decide_eq_true_iff ?_)
    split
    · next hr => exact .session_refused hr
    · next hopen =>
      exact .session_open hopen (.check decide_eq_true_iff (.check (by rw [PortState.labelLive_eq])
        (.check Iff.rfl (.accepted (s.doTake_sameInbound p _)))))

theorem State.acceptCancel_verdict (label : Half) :
    Verdict s.SameInbound (firstFailure (s.checks p (.cancel label))) (s.acceptCancel p label) := by
  rw [State.checks]
  unfold State.acceptCancel
  split
  · next hr => exact .session_refused hr
  · next hopen =>
    exact .session_open hopen (.check (by rw [PortState.labelLive_eq]) (.check Iff.rfl
      (.accepted ((State.modPort_sameInbound rfl).trans (State.appendNotice_sameInbound _ p _)))))

theorem State.acceptJoin_verdict (group : Byte) :
    Verdict s.SameInbound (firstFailure (s.checks p (.join group))) (s.acceptJoin p group) := by
  simp only [State.checks, List.cons_append, List.nil_append]
  unfold State.acceptJoin
  split
  · next hnone => exact .failed (by rw [← groupOfByte_isNone, hnone]; rfl)
  · next g hg =>
    refine .passed (by rw [← groupOfByte_isNone, hg]; rfl) ?_
    split
    · next hr => exact .session_refused hr
    · next hopen =>
      exact .session_open hopen (.check (by rw [groupOfByte_eq_some hg, State.isMember_val]) (.accepted (fun _ => rfl)))

theorem State.acceptLeave_verdict (group : Byte) :
    Verdict s.SameInbound (firstFailure (s.checks p (.leave group))) (s.acceptLeave p group) := by
  simp only [State.checks, List.cons_append, List.nil_append]
  unfold State.acceptLeave
  split
  · next hnone => exact .failed (by rw [← groupOfByte_isNone, hnone]; rfl)
  · next g hg =>
    refine .passed (by rw [← groupOfByte_isNone, hg]; rfl) ?_
    split
    · next hr => exact .session_refused hr
    · next hopen =>
      refine .session_open hopen ?_
      rw [groupOfByte_eq_some hg, State.isMember_val]
      split
      · next hin => exact .passed (by simp [hin]) (.accepted (fun _ => rfl))
      · next hout => exact .failed (by simpa using hout)

theorem State.acceptQuery_verdict : Verdict s.SameInbound (firstFailure (s.checks p .query)) (s.acceptQuery p) := by
  rw [State.checks]
  unfold State.acceptQuery
  split
  · next hr => exact .session_refused hr
  · next hopen =>
    exact .session_open hopen (.check Iff.rfl
      (.accepted ((State.modPort_sameInbound rfl).trans (State.appendNotice_sameInbound _ p _))))

theorem State.acceptConfigure_verdict (reserve ceiling : PerPort Byte) (stallLimit : Half) :
    Verdict s.SameInbound (firstFailure (s.checks p (.configure reserve ceiling stallLimit)))
      (s.acceptConfigure p reserve ceiling stallLimit) := by
  rw [State.checks]
  unfold State.acceptConfigure
  split
  · next hr => exact .session_refused hr
  · next hopen =>
    exact .session_open hopen (.check bne_iff_ne (.check (by rw [State.configLegal_eq_not_badConfig, Bool.not_not])
      (.accepted (fun _ => rfl))))

/-- The decoder refuses a request with the reason of its first check that fails, and accepts it when none does (R92). -/
theorem State.acceptRequest_verdict (r : Request) :
    Verdict s.SameInbound (firstFailure (s.checks p r)) (s.acceptRequest p r) := by
  cases r with
  | openPort limit => exact s.acceptOpen_verdict p limit
  | closePort => exact s.acceptClose_verdict p
  | send => exact s.acceptSend_verdict p ..
  | take => exact s.acceptTake_verdict p ..
  | cancel label => exact s.acceptCancel_verdict p label
  | join group => exact s.acceptJoin_verdict p group
  | leave group => exact s.acceptLeave_verdict p group
  | query => exact s.acceptQuery_verdict p
  | configure => exact s.acceptConfigure_verdict p ..

end

/-! ### Requests as commands -/

theorem State.putPort_port_same (s : State) (p : Port) (ps : PortState) : (s.putPort p ps).port p = ps :=
  PerPort.get_set_same _ _ _

section

variable {s : State} {p : Port}

/-- A request row is the decoder's verdict and the posting of its answer (R91, R142). -/
theorem State.exec_request (hrun : s.resetAsserted = false) (r : Request) :
    exec (r.command p) s = .next (s.answerRequest p (s.acceptRequest p r)) := by
  cases r <;> exact congrArg Host.Outcome.next (State.unlessInReset_released s _ hrun)

/-- Posting an answer, in the words of the statements (R142). -/
theorem State.post_eq_putPort (s : State) (p : Port) (reason : Option Reason) :
    s.post p reason = s.putPort p ((s.port p).answered reason) := by
  cases reason <;> rfl

theorem State.post_inbound (s : State) (p : Port) (reason : Option Reason) :
    ((s.post p reason).port p).inbound = (s.port p).inbound.answered reason := by
  rw [State.post_eq_putPort, State.putPort_port_same]
  rfl

/-- What a request does: a refusal posted with the reason of the first check that fails, or its effect and ACCEPTED. -/
theorem State.answerRequest_cases (s : State) (p : Port) (r : Request) :
    (∃ reason, firstFailure (s.checks p r) = some reason ∧ s.answerRequest p (s.acceptRequest p r) = s.post p (some reason)) ∨
    (firstFailure (s.checks p r) = none ∧
      ∃ t, s.SameInbound t ∧ s.answerRequest p (s.acceptRequest p r) = t.post p none) := by
  have hverdict := s.acceptRequest_verdict p r
  cases hv : s.acceptRequest p r with
  | error reason =>
    rw [hv] at hverdict
    exact .inl ⟨reason, hverdict, rfl⟩
  | ok t =>
    rw [hv] at hverdict
    obtain ⟨hpass, hsame⟩ := hverdict
    exact .inr ⟨hpass, t, hsame, rfl⟩

/-- The inbound side after a request: answered, and otherwise as it was (R142). -/
theorem State.answerRequest_inbound (s : State) (p : Port) (r : Request) :
    ((s.answerRequest p (s.acceptRequest p r)).port p).inbound =
      (s.port p).inbound.answered (firstFailure (s.checks p r)) := by
  obtain ⟨reason, hfail, h⟩ | ⟨hpass, t, hsame, h⟩ := s.answerRequest_cases p r
  · rw [h, hfail, State.post_inbound]
  · rw [h, hpass, State.post_inbound, hsame p]

end

/-- Settles O4. -/
theorem firstFailedCheckRefusesARequest : Obligations.FirstFailedCheckRefusesARequest := by
  intro s p r hrun
  have hinbound := s.answerRequest_inbound p r
  rw [State.exec_request hrun]
  obtain ⟨reason, hfail, h⟩ | ⟨hpass, -⟩ := s.answerRequest_cases p r
  · rw [hfail, h, State.post_eq_putPort]
  · rw [hpass] at hinbound ⊢
    exact ⟨_, rfl, hinbound⟩

/-- Settles O5. -/
theorem openStartsASession : Obligations.OpenStartsASession := by
  intro s p limit hrun hfree hlimit
  rw [State.exec_openPort hrun hlimit, State.openSession, State.teardownIfOpen_of_not_open hfree, State.modPort_modPort]
  rfl

/-- Settles O15. -/
theorem queryAppendsAReport : Obligations.QueryAppendsAReport := by
  intro s p hrun hopen hroom ps
  have hslot : (s.port p).noSlot = false := by simpa [PortState.noSlot] using hroom
  have haccept : s.acceptQuery p = .ok ((s.modPort p PortState.bookSlot).appendNotice p
      (.report ((s.modPort p PortState.bookSlot).reportOf p))) := by
    simp [State.acceptQuery, sessionRefusal_eq_none.mpr hopen, hslot]
  refine (State.exec_request hrun .query).trans ?_
  show Host.Outcome.next (s.answerRequest p (s.acceptQuery p)) = _
  rw [haccept]
  show Host.Outcome.next (State.post _ p none) = _
  rw [State.post, State.appendNotice, State.modPort_modPort, State.modPort_modPort]
  simp only [State.reportOf, State.modPort_port_same]
  rfl

end Sys2Proof.Machine
end

