-- ==== Sys2Proof/Proofs/ClosedBlocks.lean ====
section
/-! PROOFS. The closing of a whole block: what it hands to the decoder, and what comes of it (O24, O26). -/

namespace Sys2Proof.Machine

/-! ### Cutting the block -/

section

variable {s : State} {p : Port} {data : Half} {before rest : List Byte} {code len : Byte}

/-- A closing byte that fits the bytes placed and the block's own length cuts a whole block (R140, R141). -/
theorem InboundSide.wholeBlock_of_split {x : InboundSide} {n : Nat} (hring : x.ring = before ++ code :: len :: rest)
    (hn : rest.length + 2 = n) (hlen : len.toNat = rest.length) (h64 : n ≤ 64) (hgathered : n ≤ x.gathered) :
    x.wholeBlock n = some (code, rest) := by
  have hrange : (n < 2 || 64 < n || x.gathered < n) = false := by
    simp only [Bool.or_eq_false_iff, decide_eq_false_iff_not]
    omega
  have hcut : x.block n = code :: len :: rest := by
    have hbefore : x.ring.length - n = before.length := by
      simp only [hring, List.length_append, List.length_cons]
      omega
    rw [InboundSide.block, hbefore, hring, List.drop_left]
  have hfits : len.toNat = n - 2 := by omega
  simp only [InboundSide.wholeBlock, hrange, Bool.false_eq_true, if_false, hcut, hfits, if_true]

/-- The framing unit's part of a closing that cuts a block of total length `n` (R140, R141). -/
def InboundSide.closed (n : Nat) (x : InboundSide) : InboundSide :=
  { x with closingMark := false, answer := .none, answerPosted := false, stray := min 63 (x.gathered - n + x.overflow) }

/-- `s` with the framing unit's part of a closing done at `p`. -/
def State.withClosed (s : State) (p : Port) (n : Nat) : State :=
  s.putPort p { s.port p with inbound := (s.port p).inbound.closed n }

/-- The model takes the framing unit's part in two steps. -/
theorem State.withClosed_eq (s : State) (p : Port) (n : Nat) :
    (s.modInbound p InboundSide.beginClosing).modInbound p
      (InboundSide.setStray ((s.port p).inbound.gathered - n + (s.port p).inbound.overflow)) = s.withClosed p n :=
  s.modPort_modPort p _ _

/-- A closing of a whole block does the framing unit's part and hands the block to the decoder (R140 to R142). -/
theorem State.exec_closingWrite_of_block (hrun : s.resetAsserted = false) (hmark : (s.port p).inbound.closingMark = true)
    {body : List Byte} {n : Nat} (hn : (lowByte data).toNat = n)
    (hblock : (s.port p).inbound.wholeBlock n = some (code, body)) :
    exec (.closingWrite p data) s =
      .next ((s.withClosed p n).answerRequest p ((s.withClosed p n).decodeBlock p code body)) := by
  subst hn
  show Host.Outcome.next (s.unlessInReset (s.writeCommandByte p data)) = _
  rw [State.unlessInReset_released s _ hrun, State.writeCommandByte, if_pos hmark, State.closeBlock]
  simp only [hblock, State.withClosed_eq]

theorem State.decodeBlock_of_unknown (hcode : code ∉ requestCodes) (s : State) (p : Port) (body : List Byte) :
    s.decodeBlock p code body = .error .unknownCode := by
  rw [State.decodeBlock, parseRequest_of_not_mem hcode]

theorem State.decodeBlock_of_request (s : State) (p : Port) (r : Request) :
    s.decodeBlock p r.code r.data = s.acceptRequest p r := by
  rw [State.decodeBlock, parseRequest_code_data]

end

/-! ### The checks do not see the inbound side -/

theorem State.putPort_putPort (s : State) (p : Port) (ps ps' : PortState) : (s.putPort p ps).putPort p ps' = s.putPort p ps' := by
  simp [State.putPort]

theorem State.withClosed_namesClosedPort (s : State) (p : Port) (n : Nat) (destination : Byte) :
    (s.withClosed p n).namesClosedPort destination = s.namesClosedPort destination := by
  have hsession : ∀ q, ((s.withClosed p n).port q).session = (s.port q).session := fun q => by
    by_cases hq : q = p
    · rw [hq, State.withClosed, State.putPort_port_same]
    · exact congrArg PortState.session (PerPort.get_set_other _ _ hq)
  simp only [State.namesClosedPort, hsession]

theorem State.withClosed_checks (s : State) (p : Port) (n : Nat) (r : Request) :
    (s.withClosed p n).checks p r = s.checks p r := by
  have hport : (s.withClosed p n).port p = { s.port p with inbound := (s.port p).inbound.closed n } :=
    State.putPort_port_same s p _
  cases r with
  | openPort | closePort | query => simp only [State.checks, State.sessionChecks, hport]
  | send =>
    simp only [State.checks, State.sessionChecks, hport, State.withClosed_namesClosedPort]
    rfl
  | take | cancel | join | leave | configure =>
    simp only [State.checks, State.sessionChecks, hport]
    rfl

/-! ### Outcomes -/

theorem Request.data_length_lt (r : Request) : r.data.length < 11 := by
  cases r <;> simp [Request.data, halfBytes]

/-- Settles O24: the decoder finds no request and posts the refusal over the framing unit's part. -/
theorem unknownCodeIsRefused : Obligations.UnknownCodeIsRefused := by
  intro s p data before rest code len hrun x total hmark hring hn hlen h64 hgathered hcode
  have hblock := InboundSide.wholeBlock_of_split hring hn hlen h64 hgathered
  rw [State.exec_closingWrite_of_block hrun hmark rfl hblock, State.decodeBlock_of_unknown hcode]
  show Host.Outcome.next (State.post _ p (some .unknownCode)) = _
  rw [State.post_eq_putPort, State.withClosed, State.putPort_port_same, State.putPort_putPort]
  rfl

/-- Settles O26: the block cut is decoded as its request, which runs on the framing unit's part as its own row does. -/
theorem closedBlockRunsItsRequest : Obligations.ClosedBlockRunsItsRequest := by
  intro s p data before r hrun x y hmark hring hgathered hn
  have hsmall := r.data_length_lt
  have hlen : (natByte r.data.length).toNat = r.data.length := Nat.mod_eq_of_lt (by omega)
  have hblock := InboundSide.wholeBlock_of_split hring rfl hlen (show r.data.length + 2 ≤ 64 by omega) hgathered
  have hclosed : exec (.closingWrite p data) s = .next
      ((s.withClosed p r.block.length).answerRequest p ((s.withClosed p r.block.length).acceptRequest p r)) := by
    rw [State.exec_closingWrite_of_block hrun hmark hn hblock, State.decodeBlock_of_request]
  refine ⟨_, hclosed, State.exec_request (s := s.withClosed p r.block.length) hrun r, ?_⟩
  rw [State.answerRequest_inbound, State.withClosed_checks, State.withClosed, State.putPort_port_same]
  rfl

end Sys2Proof.Machine
end

