-- ==== Sys2Proof/Proofs/LaneAgreement.lean ====
section
/-! PROOFS. The lanes' counts and FIFOs, and the lane IDLE under an ARRIVAL that is handed over, over every step (O55). -/

namespace Sys2Proof.Machine

theorem Lane.reset_idle : Lane.reset.Idle := ⟨rfl, rfl, rfl, rfl, rfl, rfl⟩

/-- After a hard reset every lane is IDLE and no notice is in transmission (R144, R154). -/
theorem State.IsReset.lanesSound {s : State} (h : s.IsReset) : s.lanesSound := by
  intro q
  obtain ⟨w, hw⟩ := h.port q
  rw [hw]
  exact ⟨Lane.reset_idle.sound, fun htx => absurd rfl htx⟩

/-- Settles O55: a step is a run of changes of the port columns, each of which keeps its column's lane law, or a hard
reset, which leaves every lane IDLE. -/
theorem stepKeepsLanesSound : Obligations.StepKeepsLanesSound := by
  intro s t hout hs hstep
  obtain hrun | ⟨straps, rest, hreset⟩ := State.step_happenings hstep
  · exact hrun.changes.lanesSound hout hs
  · exact (execHardReset_isReset hreset).1.lanesSound

end Sys2Proof.Machine
end

