-- ==== Sys2Proof/Proofs/OutboundQueue.lean ====
section
/-! PROOFS. The head of the notice queue: when an append hands it over, and what the host's answer does with it (O29, O30,
O33). -/

namespace Sys2Proof.Machine

/-! ### Offers -/

section Offer

variable {now : Tick} {ps : PortState}

theorem PortState.laneIdle_iff : ps.laneIdle = true ↔ ps.lane.owner = .idle := by
  simp [PortState.laneIdle]

/-- A notice in transmission leaves no place for another (R126). -/
theorem PortState.offer_of_transmitting (htx : ps.outbound.tx ≠ .idle) : ps.offer now = ps := by
  obtain h | ⟨_, _, hidle, -⟩ := PortState.offer_cases now ps
  · exact h
  · exact absurd hidle htx

/-- An ARRIVAL is held back while the lane is in use (R127). -/
theorem PortState.offer_of_heldBack (hhead : ps.headIsArrival = true) (hlane : ps.lane.owner ≠ .idle) : ps.offer now = ps := by
  obtain h | ⟨n, rest, -, hq, hfree, -⟩ := PortState.offer_cases now ps
  · exact h
  · have harrival : n.isArrival = true := by
      rwa [PortState.headIsArrival, hq] at hhead
    exact absurd (PortState.laneIdle_iff.mp (hfree harrival)) hlane

/-- An IDLE framing unit takes any other head at once, with a byte deadline (R126, R145). -/
theorem PortState.offer_of_free {n : Notice} {rest : List Notice} (htx : ps.outbound.tx = .idle)
    (hq : ps.queue.notices = n :: rest) (hfree : n.isArrival = false ∨ ps.lane.owner = .idle) :
    ps.offer now = { ps with outbound := { ps.outbound with
      byte := some n.code, tx := .data 1 (now + BitVec.ofNat 32 ps.session.answerLimit) } } := by
  have hgo : ¬ (n.isArrival && !ps.laneIdle) = true := by
    obtain h | h := hfree
    · simp [h]
    · simp [PortState.laneIdle_iff.mpr h]
  rw [PortState.offer, htx, hq]
  exact if_neg hgo

end Offer

/-- Settles O29: the four clauses are the offers of an appended queue. -/
theorem newHeadIsTransmittedAtOnce : Obligations.NewHeadIsTransmittedAtOnce := by
  intro now ps n queued
  refine ⟨fun hempty htx hfree => ?_, fun hempty harrival hlane => ?_, fun htx => ?_, fun hhead hlane => ?_⟩
  · have hq : queued.queue.notices = [n] := congrArg (· ++ [n]) hempty
    exact PortState.offer_of_free (ps := queued) htx hq hfree
  · have hhead : queued.headIsArrival = true := by
      simpa [PortState.headIsArrival, queued, hempty] using harrival
    exact PortState.offer_of_heldBack (ps := queued) hhead hlane
  · exact PortState.offer_of_transmitting (ps := queued) htx
  · have hkept : queued.headIsArrival = true := by
      cases hq : ps.queue.notices with
      | nil => simp [PortState.headIsArrival, hq] at hhead
      | cons m rest => simpa [PortState.headIsArrival, queued, hq] using hhead
    exact PortState.offer_of_heldBack (ps := queued) hkept hlane

/-! ### Answers -/

section Answer

variable {s : State} {p : Port}

theorem PortState.removeHead_of_cons {ps : PortState} {n : Notice} {rest : List Notice} (hq : ps.queue.notices = n :: rest) :
    ps.removeHead = { ps with
      outbound := { ps.outbound with tx := .idle },
      queue := { ps.queue with notices := rest, reserved := ps.queue.reserved - 1 } } := by
  rw [PortState.removeHead, hq]
  rfl

/-- Outside ANSWER the marks write is ignored (R147). -/
theorem State.answerNotice_of_not_answer (accepted : Bool) (htx : ∀ t, (s.port p).outbound.tx ≠ .answer t) :
    s.answerNotice p accepted = s := by
  unfold State.answerNotice
  split
  · next t _ _ hanswer _ => exact absurd hanswer (htx t)
  · rfl

/-- The owners of a TAKE_ENDED, a RECEIPT and a REPORT do nothing on an answer (R132). -/
theorem State.answerOwner_of_not_arrival (accepted : Bool) {n : Notice} (hn : n.isArrival = false) :
    s.answerOwner p accepted n = s := by
  cases n with
  | arrival a => simp [Notice.isArrival] at hn
  | takeEnded | receipt | report => rfl

/-- The answer to a notice that is no ARRIVAL removes it and offers the next head (R128, R147). -/
theorem State.answerNotice_of_not_arrival (accepted : Bool) {t : Tick} {n : Notice} {rest : List Notice}
    (htx : (s.port p).outbound.tx = .answer t) (hq : (s.port p).queue.notices = n :: rest) (hn : n.isArrival = false) :
    s.answerNotice p accepted = s.putPort p (PortState.offer s.tickCount (s.port p).removeHead) := by
  have hanswer : s.answerNotice p accepted = ((s.modPort p PortState.removeHead).answerOwner p accepted n).offer p := by
    unfold State.answerNotice
    rw [htx, hq]
  rw [hanswer, State.answerOwner_of_not_arrival accepted hn, State.offer, State.modPort_modPort]
  exact s.modPort_eq_putPort p _

/-- ACCEPT of an ARRIVAL of some bytes makes the copy MOVING and claims the lane for them (R129, R155). -/
theorem State.acceptArrival_of_bytes {a : Arrival} {m : MatchedTake} (htake : (s.port p).matchedTake a.takeLabel = some m)
    (hpos : 0 < m.delivered) :
    (s.modPort p PortState.removeHead).acceptArrival p a =
      ((s.modPort p PortState.removeHead).modSlot m.bound p (fun sl => { sl with state := .moving })).claimLane p
        (.outbound m.bound) m.delivered := by
  rw [State.acceptArrival, State.removeHead_matchedTake htake]
  exact if_pos hpos

end Answer

/-- Settles O30: the claim and the offer are changes of one column, made beside the change of the copy. -/
theorem acceptStartsADelivery : Obligations.AcceptStartsADelivery := by
  intro s p a rest t ahead behind m hrun ps x htx hq hmatched hlabel hahead hpos
  have hrest : ps.queue.notices.tail = rest := congrArg List.tail hq
  rw [State.exec_accept hrun, State.answerNotice_arrival true htx hq, if_pos rfl,
    State.acceptArrival_of_bytes (PortState.matchedTake_of_split hmatched hlabel hahead) hpos, ← hrest]
  simp only [State.claimLane, State.offer, State.modSlot, State.modPort_modDesc, State.modPort_modPort]
  rfl

/-- Settles O33: in ANSWER the head alone leaves, for its owner does nothing; outside it the answer is ignored. -/
theorem otherAnswersOnlyRemoveTheNotice : Obligations.OtherAnswersOnlyRemoveTheNotice := by
  intro s p hrun ps
  rw [State.exec_accept hrun, State.exec_refuse hrun]
  refine ⟨fun t n rest htx hq hn => ?_, fun htx => ?_⟩
  · rw [State.answerNotice_of_not_arrival true htx hq hn, State.answerNotice_of_not_arrival false htx hq hn,
      PortState.removeHead_of_cons hq]
    exact ⟨rfl, rfl⟩
  · rw [State.answerNotice_of_not_answer true htx, State.answerNotice_of_not_answer false htx]
    exact ⟨rfl, rfl⟩

end Sys2Proof.Machine
end

