-- ==== Sys2Proof/Proofs/InboundSides.lean ====
section
/-! PROOFS. The inbound side of a framing unit: the gathering write, the closing byte that cuts no block, and its ranges
over every step (O21, O23, O58). -/

namespace Sys2Proof.Machine

/-! ### Gathering -/

section

variable {s : State} {p : Port} {data : Half}

/-- Both rows of a write of offset 0 are the one write, whose meaning the host closing mark decides (R138, R140). -/
theorem State.exec_gatheringWrite (hrun : s.resetAsserted = false) :
    exec (.gatheringWrite p data) s = .next (s.writeCommandByte p data) := by
  show Host.Outcome.next (s.unlessInReset (s.writeCommandByte p data)) = _
  rw [State.unlessInReset_released s _ hrun]

theorem State.exec_closingWrite (hrun : s.resetAsserted = false) :
    exec (.closingWrite p data) s = .next (s.writeCommandByte p data) := State.exec_gatheringWrite hrun

theorem State.writeCommandByte_of_clear (hmark : (s.port p).inbound.closingMark = false) :
    s.writeCommandByte p data = s.modInbound p (InboundSide.gather (lowByte data)) := by
  rw [State.writeCommandByte, hmark]
  rfl

theorem State.writeCommandByte_of_marked (hmark : (s.port p).inbound.closingMark = true) :
    s.writeCommandByte p data = s.closeBlock p (lowByte data) := if_pos hmark

/-- A full ring loses its oldest byte, and any other keeps all of its bytes (R138). -/
theorem ring_afterLoss (ring : List Byte) :
    (if 64 ≤ ring.length then ring.drop 1 else ring) = if ring.length < 64 then ring else ring.tail := by
  by_cases h : ring.length < 64
  · rw [if_neg (by omega), if_pos h]
  · rw [if_pos (by omega), if_neg h, List.drop_one]

end

/-- Settles O21. -/
theorem gatheringWriteTakesTheByte : Obligations.GatheringWriteTakesTheByte := by
  intro s p data hrun hmark x t
  rw [State.exec_gatheringWrite hrun, State.writeCommandByte_of_clear hmark, State.modInbound, State.modPort_eq_putPort,
    InboundSide.gather, ring_afterLoss, hmark]
  rfl

/-! ### A closing byte that cuts no block -/

/-- A closing byte out of range or above the gathered count cuts no block (R141). -/
theorem InboundSide.wholeBlock_of_outOfRange {x : InboundSide} {n : Nat} (h : n < 2 ∨ 64 < n ∨ x.gathered < n) :
    x.wholeBlock n = none := by
  refine if_pos ?_
  simpa [or_assoc] using h

/-- The block a closing cuts is the end of the ring (R141). -/
theorem InboundSide.block_of_split {x : InboundSide} {n : Nat} {before cut : List Byte} (hring : x.ring = before ++ cut)
    (hn : cut.length = n) : x.block n = cut := by
  have hbefore : x.ring.length - n = before.length := by
    rw [hring, List.length_append]
    omega
  rw [InboundSide.block, hbefore, hring, List.drop_left]

/-- A closing byte at odds with the data length in the block's second byte cuts no block (R140). -/
theorem InboundSide.wholeBlock_of_badLength {x : InboundSide} {n : Nat} {before rest : List Byte} {code len : Byte}
    (hring : x.ring = before ++ code :: len :: rest) (hn : rest.length + 2 = n) (hlen : len.toNat ≠ n - 2) :
    x.wholeBlock n = none := by
  unfold InboundSide.wholeBlock
  split
  · rfl
  · rw [InboundSide.block_of_split hring hn]
    exact if_neg hlen

/-- A closing that cuts no block is refused FRAMING, every byte of the attempt stray (R140, R142). -/
theorem State.closeBlock_of_noBlock {s : State} {p : Port} {b : Byte} (h : (s.port p).inbound.wholeBlock b.toNat = none) :
    s.closeBlock p b = ((s.modInbound p InboundSide.beginClosing).modInbound p (InboundSide.setStray
      ((s.port p).inbound.gathered + (s.port p).inbound.overflow))).post p (some .framing) := by
  simp only [State.closeBlock, h]

/-- Settles O23: such a byte cuts no block, whichever of the four faults it has. -/
theorem badClosingByteIsFraming : Obligations.BadClosingByteIsFraming := by
  intro s p data hrun x total hmark hbad
  have hblock : x.wholeBlock total = none := by
    obtain h | h | h | ⟨before, rest, code, len, hring, hn, hlen⟩ := hbad
    · exact InboundSide.wholeBlock_of_outOfRange (.inl h)
    · exact InboundSide.wholeBlock_of_outOfRange (.inr (.inl h))
    · exact InboundSide.wholeBlock_of_outOfRange (.inr (.inr h))
    · exact InboundSide.wholeBlock_of_badLength hring hn hlen
  rw [State.exec_closingWrite hrun, State.writeCommandByte_of_marked hmark, State.closeBlock_of_noBlock hblock]
  simp only [State.post, State.modInbound, State.modPort_modPort]
  rfl

/-! ### Every step -/

/-- Settles O58: a step is a run of changes of the port columns, each of which keeps its column's inbound side sound, or
a hard reset, which empties every inbound side. -/
theorem stepKeepsInboundSidesSound : Obligations.StepKeepsInboundSidesSound := by
  intro s t hs hstep
  obtain hrun | ⟨straps, rest, hreset⟩ := State.step_happenings hstep
  · exact hrun.changes.inbound hs
  · intro q
    obtain ⟨w, hw⟩ := (execHardReset_isReset hreset).1.port q
    rw [hw]
    exact InboundSide.reset_sound

end Sys2Proof.Machine
end

