-- ==== Sys2Proof/Proofs/InboundKept.lean ====
section
/-! PROOFS. The inbound sides are the framing units' own: lanes, answers, deadlines, the tick and the mover leave them all
alone, and what is written at one port is seen at no other. -/

namespace Sys2Proof.Machine

section

variable {s t : State} {p q : Port}

/-! ### Operations that leave every inbound side alone -/

theorem State.SameInbound.unlessInReset (h : s.SameInbound t) : s.SameInbound (s.unlessInReset t) := by
  unfold State.unlessInReset
  split
  · exact .refl s
  · exact h

theorem State.SameInbound.readUnlessInReset (h : s.SameInbound t) : s.SameInbound (s.readUnlessInReset p t) := by
  unfold State.readUnlessInReset
  split
  · exact State.modPort_sameInbound rfl
  · exact h

theorem State.foldl_sameInbound {α : Type} {f : State → α → State} (hf : ∀ s a, State.SameInbound s (f s a)) (as : List α) :
    ∀ s : State, s.SameInbound (as.foldl f s) := by
  induction as with
  | nil => exact fun s => .refl s
  | cons a as ih => exact fun s => (hf s a).trans (ih (f s a))

theorem State.modLane_sameInbound (s : State) (p : Port) (f : Lane → Lane) :
    s.SameInbound (s.modPort p (PortState.modLane f)) := State.modPort_sameInbound rfl

theorem State.offer_sameInbound (s : State) (p : Port) : s.SameInbound (s.offer p) :=
  State.modPort_sameInbound (PortState.offer_onlyNotices _ _).inbound

theorem State.settleIfDone_sameInbound (s : State) (d : DescNo) : s.SameInbound (s.settleIfDone d) :=
  .of_onlyNotices (s.settleIfDone_port d)

/-! ### Transfers -/

theorem State.returnLane_sameInbound (s : State) (p : Port) : s.SameInbound (s.returnLane p) :=
  State.SameInbound.trans (t := s.modPort p PortState.idleLane) (State.modPort_sameInbound rfl) (State.offer_sameInbound _ p)

theorem State.abandonTransfer_sameInbound (s : State) (p : Port) (d : DescNo) : s.SameInbound (s.abandonTransfer p d) :=
  (State.SameInbound.of_onlyNotices (s.abandon_freed d).ports).trans (State.returnLane_sameInbound _ p)

theorem State.endDelivery_sameInbound (s : State) (p : Port) (d : DescNo) (o : CopyOutcome) :
    s.SameInbound (s.endDelivery p d o) := by
  have htake : s.SameInbound ((s.settleCopy d p o).modPort p (PortState.endTake d)) :=
    State.modPort_sameInbound (s := s.settleCopy d p o) rfl
  exact ((htake.trans (State.modPort_sameInbound (f := PortState.idleLane) rfl)).trans
    (State.settleIfDone_sameInbound _ d)).trans (State.offer_sameInbound _ p)

theorem State.restartStall_sameInbound (s : State) (p : Port) : s.SameInbound (s.restartStall p) := s.modLane_sameInbound p _

theorem State.setOverrun_sameInbound (s : State) (p : Port) : s.SameInbound (s.setOverrun p) := s.modLane_sameInbound p _

theorem State.setUnderrun_sameInbound (s : State) (p : Port) : s.SameInbound (s.setUnderrun p) := State.modPort_sameInbound rfl

theorem State.writeLane_sameInbound (s : State) (p : Port) (data : Half) : s.SameInbound (s.writeLane p data) := by
  have hoverrun := s.setOverrun_sameInbound p
  have hrestart := hoverrun.trans (State.restartStall_sameInbound _ p)
  unfold State.writeLane
  simp only
  split
  · exact hoverrun
  · exact hrestart
  · split
    · exact hrestart
    · split
      · exact (s.modLane_sameInbound p _).trans (State.restartStall_sameInbound _ p)
      · exact hoverrun.trans (State.abandonTransfer_sameInbound _ p _)

theorem State.readLane_sameInbound (s : State) (p : Port) : s.SameInbound (s.readLane p) := by
  have hunderrun := s.setUnderrun_sameInbound p
  have hrestart := hunderrun.trans (State.restartStall_sameInbound _ p)
  unfold State.readLane
  simp only
  split
  · exact hunderrun
  · exact hrestart
  · split
    · have hgiven := State.SameInbound.trans (s := s) (State.modPort_sameInbound rfl) (State.restartStall_sameInbound
        (s.modPort p fun x => { (x.modLane (Lane.giveOut (s.port p).accessSize)) with
          readData := laneReadValue ((s.port p).lane.fifo.take (s.port p).accessSize) }) p)
      split
      · exact hgiven.trans (State.endDelivery_sameInbound _ p _ _)
      · exact hgiven
    · exact hrestart

theorem State.purgeLane_sameInbound (s : State) (p : Port) : s.SameInbound (s.purgeLane p) := by
  unfold State.purgeLane
  simp only
  split
  · exact s.modLane_sameInbound p _
  · exact (s.modLane_sameInbound p _).trans (State.abandonTransfer_sameInbound _ p _)
  · exact (s.modLane_sameInbound p _).trans (State.endDelivery_sameInbound _ p _ _)

/-! ### Answers -/

theorem State.acceptArrival_sameInbound (s : State) (p : Port) (n : Arrival) : s.SameInbound (s.acceptArrival p n) := by
  unfold State.acceptArrival
  split
  · exact .refl s
  · next m _ =>
    split
    · exact (s.modSlot_sameInbound m.bound p _).trans (State.modPort_sameInbound rfl)
    · exact (State.modPort_sameInbound (s := s.settleCopy m.bound p _) rfl).trans (State.settleIfDone_sameInbound _ m.bound)

theorem State.returnCopy_sameInbound (s : State) (p : Port) (d : DescNo) : s.SameInbound (s.returnCopy p d) := by
  obtain ⟨-, h⟩ | ⟨-, -, h⟩ | ⟨-, -, h⟩ := s.returnCopy_cases p d <;> rw [h]
  · exact State.settleIfDone_sameInbound (s.settleCopy d p _) d
  · exact State.settleIfDone_sameInbound (s.settleCopy d p _) d
  · exact (State.modPort_sameInbound rfl).trans (State.modSlot_sameInbound _ d p _)

theorem State.refuseArrival_sameInbound (s : State) (p : Port) (n : Arrival) : s.SameInbound (s.refuseArrival p n) := by
  unfold State.refuseArrival
  split
  · exact .refl s
  · exact (State.modPort_sameInbound rfl).trans (State.returnCopy_sameInbound _ p _)

theorem State.answerOwner_sameInbound (s : State) (p : Port) (accepted : Bool) (n : Notice) :
    s.SameInbound (s.answerOwner p accepted n) := by
  cases n with
  | takeEnded | receipt | report => exact .refl s
  | arrival a =>
    cases accepted with
    | true => exact s.acceptArrival_sameInbound p a
    | false => exact s.refuseArrival_sameInbound p a

theorem State.answerNotice_sameInbound (s : State) (p : Port) (accepted : Bool) : s.SameInbound (s.answerNotice p accepted) := by
  have hpop : s.SameInbound (s.modPort p PortState.removeHead) := State.modPort_sameInbound rfl
  unfold State.answerNotice
  split
  · exact (hpop.trans (State.answerOwner_sameInbound _ p accepted _)).trans (State.offer_sameInbound _ p)
  · exact .refl s

theorem State.readCommandByte_sameInbound (s : State) (p : Port) : s.SameInbound (s.readCommandByte p) :=
  State.modPort_sameInbound rfl

/-! ### Deadlines and the tick -/

theorem State.lapse_sameInbound (s : State) (p : Port) : s.SameInbound (s.lapse p) := by
  have hcause : s.SameInbound (s.modPort p (PortState.setLapsedCause true)) := State.modPort_sameInbound rfl
  exact (hcause.trans (State.teardown_tornDown _ p).sameInbound).trans (State.modPort_sameInbound rfl)

theorem State.testByteDeadline_sameInbound (s : State) (p : Port) : s.SameInbound (s.testByteDeadline p) := by
  unfold State.testByteDeadline
  split
  · exact s.lapse_sameInbound p
  · exact .refl s

theorem State.testAnswerDeadline_sameInbound (s : State) (p : Port) : s.SameInbound (s.testAnswerDeadline p) := by
  unfold State.testAnswerDeadline
  split
  · exact s.lapse_sameInbound p
  · exact .refl s

theorem State.stallInbound_sameInbound (s : State) (p : Port) : s.SameInbound (s.stallInbound p) := by
  unfold State.stallInbound
  split
  · split
    · exact s.abandonTransfer_sameInbound p _
    · exact .refl s
  · exact .refl s
  · exact .refl s

theorem State.stallOutbound_sameInbound (s : State) (p : Port) : s.SameInbound (s.stallOutbound p) := by
  unfold State.stallOutbound
  split
  · split
    · exact (s.endDelivery_sameInbound p _ _).trans (State.lapse_sameInbound _ p)
    · exact .refl s
  · exact .refl s
  · exact .refl s

theorem State.expireTakes_sameInbound (s : State) (p : Port) : s.SameInbound (s.expireTakes p) := by
  obtain ⟨-, h⟩ | ⟨-, h⟩ := s.expireTakes_cases p <;> rw [h]
  · exact .refl s
  · exact State.modPort_sameInbound (PortState.append_onlyNotices _ _ _).inbound

theorem State.expireCopy_sameInbound (s : State) (p : Port) (d : DescNo) : s.SameInbound (s.expireCopy p d) := by
  have hleave : s.SameInbound (s.modPort p (fun ps => { ps with unclaimed := ps.unclaimed.erase d })) :=
    State.modPort_sameInbound rfl
  exact hleave.trans (State.settleIfDone_sameInbound (State.settleCopy _ d p .expired) d)

theorem State.expireHolds_sameInbound (s : State) (p : Port) : s.SameInbound (s.expireHolds p) := by
  unfold State.expireHolds
  split
  · exact State.foldl_sameInbound (fun t d => t.expireCopy_sameInbound p d) _ s
  · exact .refl s

theorem State.markHolds_sameInbound (s : State) (p : Port) : s.SameInbound (s.markHolds p) := fun q => by
  rw [State.port, State.markHolds_ports, State.port]

theorem State.grantTo_sameInbound (s : State) (p : Port) : s.SameInbound (s.grantTo p) := by
  cases howner : (s.port p).lane.owner with
  | idle =>
    simp only [State.grantTo, howner]
    exact .refl s
  | outbound d =>
    simp only [State.grantTo, howner]
    exact State.modLane_sameInbound { s with pointer := p } p _
  | inbound d =>
    have hstored : ∀ n, s.SameInbound (s.chunkStored p d n) := fun n => s.modLane_sameInbound p _
    rw [State.grantTo_inbound howner]
    split
    · exact ((hstored _).trans (State.complete_sameInbound _ d)).trans (State.returnLane_sameInbound _ p)
    · exact hstored _

theorem State.moverTurn_sameInbound (s : State) : s.SameInbound s.moverTurn := by
  unfold State.moverTurn
  split
  · exact .refl s
  · exact s.grantTo_sameInbound _

theorem State.takeDue_sameInbound (s : State) (h : DueHappening) : s.SameInbound (s.takeDue h) := by
  rw [State.takeDue_eq]
  split
  · cases h with
    | takes p => exact s.expireTakes_sameInbound p
    | list p => exact (s.expireHolds_sameInbound p).trans (State.markHolds_sameInbound _ p)
    | framing p => exact (s.testByteDeadline_sameInbound p).trans (State.testAnswerDeadline_sameInbound _ p)
    | lane p => exact (s.stallInbound_sameInbound p).trans (State.stallOutbound_sameInbound _ p)
    | grant => exact s.moverTurn_sameInbound
  · exact .refl s

theorem State.catchUp_sameInbound (s : State) : s.SameInbound s.catchUp := by
  have hall : ∀ (hs : List DueHappening) (u : State), u.SameInbound (u.takeAllDue hs) :=
    State.foldl_sameInbound State.takeDue_sameInbound
  unfold State.catchUp
  split
  · exact .refl s
  · exact hall _ s
  · exact hall _ { s with draws := s.draws + 1 }

theorem State.advance_sameInbound (s : State) : s.SameInbound s.advance := fun q => by
  have hport : s.advance.port q = (s.port q).oweGrant := PerPort.get_map _ _ _
  rw [hport]
  rfl

/-! ### Requests and closings at one port -/

theorem State.acceptRequest_sameInbound {r : Request} (h : s.acceptRequest p r = .ok t) : s.SameInbound t := by
  have hverdict := s.acceptRequest_verdict p r
  rw [h] at hverdict
  exact hverdict.2

theorem State.decodeBlock_sameInbound {code : Byte} {data : List Byte} (h : s.decodeBlock p code data = .ok t) : s.SameInbound t := by
  unfold State.decodeBlock at h
  split at h
  · cases h
  · exact State.acceptRequest_sameInbound h

/-- An answer posted at `p` is seen at no other port. -/
theorem State.answerRequest_inbound_other {v : Except Reason State} (hv : ∀ t, v = .ok t → s.SameInbound t) (hq : q ≠ p) :
    ((s.answerRequest p v).port q).inbound = (s.port q).inbound := by
  cases v with
  | ok t => exact (congrArg PortState.inbound (State.modPort_port_other t _ hq)).trans (hv t rfl q)
  | error r => exact congrArg PortState.inbound (State.modPort_port_other s _ hq)

/-- A posted answer clears the host closing mark (R142). -/
theorem State.post_closingMark (s : State) (p : Port) (reason : Option Reason) :
    ((s.post p reason).port p).inbound.closingMark = false := by
  rw [State.post_inbound]
  rfl

theorem State.answerRequest_closingMark (s : State) (p : Port) (v : Except Reason State) :
    ((s.answerRequest p v).port p).inbound.closingMark = false := by
  cases v with
  | ok t => exact t.post_closingMark p none
  | error r => exact s.post_closingMark p (some r)

theorem State.modInbound_port_other (s : State) (f : InboundSide → InboundSide) (hq : q ≠ p) :
    (s.modInbound p f).port q = s.port q := State.modPort_port_other s _ hq

theorem State.closeBlock_inbound_other (s : State) (b : Byte) (hq : q ≠ p) :
    ((s.closeBlock p b).port q).inbound = (s.port q).inbound := by
  unfold State.closeBlock
  simp only
  split
  · simp only [State.post, State.modPort_port_other _ _ hq, State.modInbound_port_other _ _ hq]
  · rw [State.answerRequest_inbound_other (fun _ => State.decodeBlock_sameInbound) hq, State.modInbound_port_other _ _ hq,
      State.modInbound_port_other _ _ hq]

/-- Every closing clears the mark, whatever it cuts (R139, R140). -/
theorem State.closeBlock_closingMark (s : State) (p : Port) (b : Byte) :
    ((s.closeBlock p b).port p).inbound.closingMark = false := by
  unfold State.closeBlock
  simp only
  split
  · exact State.post_closingMark _ p _
  · exact State.answerRequest_closingMark _ p _

theorem State.writeCommandByte_inbound_other (s : State) (data : Half) (hq : q ≠ p) :
    ((s.writeCommandByte p data).port q).inbound = (s.port q).inbound := by
  unfold State.writeCommandByte
  split
  · exact s.closeBlock_inbound_other _ hq
  · rw [State.modInbound_port_other s _ hq]

theorem State.resetPort_inbound_other (s : State) (hq : q ≠ p) : ((s.resetPort p).port q).inbound = (s.port q).inbound := by
  have hpurged : s.SameInbound (((s.teardownIfOpen p).modPort p fun ps => (ps.setSession .closed).setLapsedCause false).purgeLane p) :=
    ((s.teardownIfOpen_sameInbound p).trans (State.modPort_sameInbound rfl)).trans (State.purgeLane_sameInbound _ p)
  exact (congrArg PortState.inbound (State.modPort_port_other _ _ hq)).trans (hpurged q)

theorem State.resetPort_closingMark (s : State) (p : Port) : ((s.resetPort p).port p).inbound.closingMark = false := by
  simp only [State.resetPort, State.modPort_port_same]
  rfl

end

end Sys2Proof.Machine
end

