-- ==== Sys2Proof/Proofs/ClosingMark.lean ====
section
/-! PROOFS. The host closing mark over every command: it stays until its closing, a port reset or a hard reset (O22). -/

namespace Sys2Proof.Machine

/-! ### The commands addressed to an inbound side -/

/-- The port whose framing unit a command is addressed to by its inbound side: the writes of offset 0, SET_CLOSING_MARK,
the requests and PORT_RESET. -/
def inboundPort (c : Instr) : Option Port :=
  match c with
  | .gatheringWrite p _ | .closingWrite p _ | .setClosingMark p | .portReset p => some p
  | .openPort p _ | .closePort p | .send p _ _ _ _ _ _ | .take p _ _ _ _ _ _ | .cancel p _ | .join p _ | .leave p _
  | .query p | .configure p _ _ _ => some p
  | .accept _ | .refuse _ | .outboundByteRead _ | .laneWrite _ _ | .laneRead _ | .writeEnables _ _ | .doneClear _
  | .clearLaneFlags _ | .purge _ | .undecodedWrite _ _ _ | .tick | .takeDeadline _ | .holdExpiry _ | .holdDeadlineMark _
  | .byteDeadline _ | .answerDeadline _ | .inboundStall _ | .outboundStall _ | .grant | .hardReset _ => none

/-- The commands that clear the host closing mark of `p` (R139). -/
def ClearsMark (p : Port) (c : Instr) : Prop :=
  (∃ data, c = .gatheringWrite p data ∨ c = .closingWrite p data) ∨ (∃ r : Request, c = r.command p)
    ∨ c = .portReset p ∨ ∃ straps, c = .hardReset straps

/-- Of the commands addressed to the inbound side of `p`, SET_CLOSING_MARK alone does not clear its mark. -/
theorem setClosingMark_or_clearsMark {p : Port} {c : Instr} (h : inboundPort c = some p) :
    c = .setClosingMark p ∨ ClearsMark p c := by
  cases c with
  | setClosingMark => cases h; exact .inl rfl
  | gatheringWrite _ data => cases h; exact .inr (.inl ⟨data, .inl rfl⟩)
  | closingWrite _ data => cases h; exact .inr (.inl ⟨data, .inr rfl⟩)
  | portReset => cases h; exact .inr (.inr (.inr (.inl rfl)))
  | openPort _ limit => cases h; exact .inr (.inr (.inl ⟨.openPort limit, rfl⟩))
  | closePort => cases h; exact .inr (.inr (.inl ⟨.closePort, rfl⟩))
  | send _ dst ch len hold label opt => cases h; exact .inr (.inr (.inl ⟨.send dst ch len hold label opt, rfl⟩))
  | take _ label src v m cap timeout => cases h; exact .inr (.inr (.inl ⟨.take label src v m cap timeout, rfl⟩))
  | cancel _ label => cases h; exact .inr (.inr (.inl ⟨.cancel label, rfl⟩))
  | join _ g => cases h; exact .inr (.inr (.inl ⟨.join g, rfl⟩))
  | leave _ g => cases h; exact .inr (.inr (.inl ⟨.leave g, rfl⟩))
  | query => cases h; exact .inr (.inr (.inl ⟨.query, rfl⟩))
  | configure _ r c stall => cases h; exact .inr (.inr (.inl ⟨.configure r c stall, rfl⟩))
  | _ => cases h

/-! ### Every command -/

section

variable {s t : State} {p q : Port} {c : Instr}

/-- A command that is not addressed to an inbound side leaves all of them alone, unless it is a hard reset. -/
theorem State.exec_sameInbound (h : exec c s = .next t) (hc : inboundPort c = none) (hreset : ∀ straps, c ≠ .hardReset straps) :
    s.SameInbound t := by
  cases c with
  | hardReset straps => exact absurd rfl (hreset straps)
  | accept p => cases h; exact (s.answerNotice_sameInbound p true).unlessInReset
  | refuse p => cases h; exact (s.answerNotice_sameInbound p false).unlessInReset
  | outboundByteRead p => cases h; exact (s.readCommandByte_sameInbound p).readUnlessInReset
  | laneWrite p data => cases h; exact (s.writeLane_sameInbound p data).unlessInReset
  | laneRead p => cases h; exact (s.readLane_sameInbound p).readUnlessInReset
  | writeEnables p e => cases h; exact (State.modPort_sameInbound rfl).unlessInReset
  | doneClear p | clearLaneFlags p => cases h; exact (s.modLane_sameInbound p _).unlessInReset
  | purge p => cases h; exact (s.purgeLane_sameInbound p).unlessInReset
  | undecodedWrite p address data =>
    simp only [exec, execUndecodedWrite] at h
    split at h <;> cases h
    exact .refl s
  | tick => cases h; exact (s.catchUp_sameInbound.trans (State.advance_sameInbound _)).unlessInReset
  | takeDeadline p => cases h; exact (s.expireTakes_sameInbound p).unlessInReset
  | holdExpiry p => cases h; exact (s.expireHolds_sameInbound p).unlessInReset
  | holdDeadlineMark p => cases h; exact (s.markHolds_sameInbound p).unlessInReset
  | byteDeadline p => cases h; exact (s.testByteDeadline_sameInbound p).unlessInReset
  | answerDeadline p => cases h; exact (s.testAnswerDeadline_sameInbound p).unlessInReset
  | inboundStall p => cases h; exact (s.stallInbound_sameInbound p).unlessInReset
  | outboundStall p => cases h; exact (s.stallOutbound_sameInbound p).unlessInReset
  | grant => cases h; exact s.moverTurn_sameInbound.unlessInReset
  | _ => cases hc

variable (hrun : s.resetAsserted = false)
include hrun

theorem State.exec_setClosingMark (p : Port) :
    exec (.setClosingMark p) s = .next (s.modInbound p (fun x => { x with closingMark := true })) := by
  show Host.Outcome.next (s.unlessInReset _) = _
  rw [State.unlessInReset_released s _ hrun]

/-- A command addressed to one port's inbound side leaves every other's alone. -/
theorem State.exec_inbound_other (h : exec c s = .next t) (hp : inboundPort c = some p) (hq : q ≠ p) :
    (t.port q).inbound = (s.port q).inbound := by
  obtain rfl | ⟨data, rfl | rfl⟩ | ⟨r, rfl⟩ | rfl | ⟨straps, rfl⟩ := setClosingMark_or_clearsMark hp
  · cases (State.exec_setClosingMark hrun p).symm.trans h
    rw [State.modInbound_port_other s _ hq]
  · cases (State.exec_gatheringWrite hrun).symm.trans h
    exact s.writeCommandByte_inbound_other data hq
  · cases (State.exec_closingWrite hrun).symm.trans h
    exact s.writeCommandByte_inbound_other data hq
  · cases (State.exec_request hrun r).symm.trans h
    exact State.answerRequest_inbound_other (fun _ => State.acceptRequest_sameInbound) hq
  · cases (State.exec_portReset hrun p).symm.trans h
    exact s.resetPort_inbound_other hq
  · cases hp

variable (hmark : (s.port p).inbound.closingMark = true)
include hmark

/-- The closings, a port reset of the port and a hard reset clear a set mark (R139). -/
theorem ClearsMark.clears (hc : ClearsMark p c) (h : exec c s = .next t) : (t.port p).inbound.closingMark = false := by
  obtain ⟨data, rfl | rfl⟩ | ⟨r, rfl⟩ | rfl | ⟨straps, rfl⟩ := hc
  · cases (State.exec_gatheringWrite hrun).symm.trans h
    rw [State.writeCommandByte_of_marked hmark]
    exact s.closeBlock_closingMark p _
  · cases (State.exec_closingWrite hrun).symm.trans h
    rw [State.writeCommandByte_of_marked hmark]
    exact s.closeBlock_closingMark p _
  · cases (State.exec_request hrun r).symm.trans h
    exact s.answerRequest_closingMark p _
  · cases (State.exec_portReset hrun p).symm.trans h
    exact s.resetPort_closingMark p
  · obtain ⟨w, hw⟩ := (execHardReset_isReset h).1.port p
    rw [hw]
    rfl

/-- Every other command leaves a set mark set (R139). -/
theorem State.exec_keeps_closingMark (hc : ¬ ClearsMark p c) (h : exec c s = .next t) : (t.port p).inbound.closingMark = true := by
  have hreset : ∀ straps, c ≠ .hardReset straps := fun straps hs => hc (.inr (.inr (.inr ⟨straps, hs⟩)))
  cases hport : inboundPort c with
  | none => rwa [State.exec_sameInbound h hport hreset p]
  | some q =>
    by_cases hq : p = q
    · subst hq
      obtain rfl := (setClosingMark_or_clearsMark hport).resolve_right hc
      cases (State.exec_setClosingMark hrun p).symm.trans h
      rw [State.modInbound, State.modPort_port_same]
    · rwa [State.exec_inbound_other hrun h hport hq]

end

/-- Settles O22: a command either clears the mark or leaves it as it is. -/
theorem closingMarkStaysUntilItsClosing : Obligations.ClosingMarkStaysUntilItsClosing := by
  intro s p hrun
  refine ⟨State.exec_setClosingMark hrun p, fun hmark c t h => ?_⟩
  show _ ↔ ClearsMark p c
  refine ⟨fun hclear => ?_, fun hc => hc.clears hrun hmark h⟩
  by_contra hc
  simp [State.exec_keeps_closingMark hrun hmark hc h] at hclear

end Sys2Proof.Machine
end

