-- ==== Sys2Proof/Proofs/OutboundReads.lean ====
section
/-! PROOFS. Host reads of offset 0: the next byte presented, and a notice read whole (O27, O28). -/

namespace Sys2Proof.Machine

/-! ### One read -/

section Column

variable {now t : Tick} {ps : PortState} {b : Byte} {n : Notice} {rest : List Notice} {position : Nat}

/-- In DATA a read returns the byte presented and places the next one (R146). -/
theorem PortState.readByte_of_data (htx : ps.outbound.tx = .data position t) (hbyte : ps.outbound.byte = some b)
    (hq : ps.queue.notices = n :: rest) (h : position < n.bytes.length) :
    ps.readByte now = ({ ps.outbound with byte := some n.bytes[position], tx := .data (position + 1) (ps.answerDeadlineFrom now) },
      inLowHalf b) := by
  simp only [PortState.readByte, htx, hbyte, hq, List.getElem?_eq_getElem h]

/-- After the last byte the length byte is placed, under the closing mark (R145, R146). -/
theorem PortState.readByte_of_data_end (htx : ps.outbound.tx = .data position t) (hbyte : ps.outbound.byte = some b)
    (hq : ps.queue.notices = n :: rest) (h : n.bytes.length ≤ position) :
    ps.readByte now = ({ byte := some n.totalLength, closingMark := true, tx := .length (ps.answerDeadlineFrom now) },
      inLowHalf b) := by
  simp only [PortState.readByte, htx, hbyte, hq, List.getElem?_eq_none h]

/-- In LENGTH a read returns the length byte, and the notice awaits its answer (R146). -/
theorem PortState.readByte_of_length (htx : ps.outbound.tx = .length t) (hbyte : ps.outbound.byte = some b) :
    ps.readByte now = ({ byte := none, closingMark := false, tx := .answer (ps.answerDeadlineFrom now) }, inLowHalf b) := by
  simp only [PortState.readByte, htx, hbyte]

/-- In IDLE and ANSWER nothing is presented, and a read returns 0 (R146). -/
theorem PortState.readByte_of_idle_or_answer (htx : ps.outbound.tx = .idle ∨ ∃ t, ps.outbound.tx = .answer t) :
    ps.readByte now = (ps.outbound, 0) := by
  obtain htx | ⟨t, htx⟩ := htx <;> simp only [PortState.readByte, htx]

end Column

/-- `s` after port `p` has read the value `r`, its outbound side then being `x`. -/
def State.afterRead (s : State) (p : Port) (x : OutboundSide) (r : Half) : State :=
  s.putPort p { s.port p with outbound := x, readData := r }

section Read

variable {s : State} {p : Port} {x : OutboundSide} {r : Half}

/-- OUTBOUND_BYTE_READ is the read of the column (R146). -/
theorem State.exec_outboundByteRead (hrun : s.resetAsserted = false) (h : (s.port p).readByte s.tickCount = (x, r)) :
    exec (.outboundByteRead p) s = .next (s.afterRead p x r) := by
  show Host.Outcome.next (s.readUnlessInReset p (s.readCommandByte p)) = _
  rw [State.readUnlessInReset_released s p _ hrun, State.readCommandByte, State.modPort_eq_putPort, h]
  rfl

end Read

/-- Settles O27. -/
theorem outboundReadPresentsTheNextByte : Obligations.OutboundReadPresentsTheNextByte := by
  intro s p hrun ps deadline answers
  refine ⟨fun position t b n rest htx hbyte hq => ⟨fun h => ?_, fun h => ?_⟩, fun t b htx hbyte => ?_, fun htx => ?_⟩
  · exact State.exec_outboundByteRead hrun (PortState.readByte_of_data htx hbyte hq h)
  · exact State.exec_outboundByteRead hrun (PortState.readByte_of_data_end htx hbyte hq h)
  · exact State.exec_outboundByteRead hrun (PortState.readByte_of_length htx hbyte)
  · exact State.exec_outboundByteRead hrun (PortState.readByte_of_idle_or_answer htx)

/-! ### One read after another -/

theorem State.afterTimes_succ (s : State) (c : Instr) (n : Nat) : s.afterTimes c (n + 1) = (s.afterTimes c n).after c := by
  induction n generalizing s with
  | zero => rfl
  | succ n ih => exact ih (s.after c)

theorem State.after_of_exec {s t : State} {c : Instr} (h : exec c s = .next t) : s.after c = t := by
  rw [State.after, h]

@[simp] theorem State.afterRead_port (s : State) (p : Port) (x : OutboundSide) (r : Half) :
    (s.afterRead p x r).port p = { s.port p with outbound := x, readData := r } := State.putPort_port_same s p _

/-- A later read takes the place of an earlier one. -/
theorem State.afterRead_afterRead (s : State) (p : Port) (x y : OutboundSide) (r r' : Half) :
    (s.afterRead p x r).afterRead p y r' = s.afterRead p y r' := by
  rw [State.afterRead, State.afterRead_port, State.afterRead, State.putPort_putPort]
  rfl

theorem State.afterRead_self (s : State) (p : Port) : s.afterRead p (s.port p).outbound (s.port p).readData = s := by
  show { s with ports := s.ports.set p (s.ports.get p) } = s
  rw [PerPort.set_get]

/-- The outbound side with byte `k` of a notice presented, under the deadline `t` (R144). -/
def OutboundSide.presenting (x : OutboundSide) (n : Notice) (k : Nat) (h : k < n.bytes.length) (t : Tick) : OutboundSide :=
  { x with byte := some n.bytes[k], tx := .data (k + 1) t }

/-- A notice whose code has been placed presents its first byte (R145). -/
theorem OutboundSide.presenting_code {x : OutboundSide} {n : Notice} {t : Tick} (hbyte : x.byte = some n.code)
    (htx : x.tx = .data 1 t) : x.presenting n 0 (Nat.succ_pos _) t = x := by
  cases x
  subst hbyte htx
  rfl

/-- The outbound side with the length byte of a notice presented (R145). -/
def OutboundSide.presentingLength (n : Notice) (t : Tick) : OutboundSide :=
  { byte := some n.totalLength, closingMark := true, tx := .length t }

section Notice

variable {s : State} {p : Port} {n : Notice} {rest : List Notice} {x : OutboundSide}
variable (hrun : s.resetAsserted = false)
include hrun

/-- A read that follows another one is a read of what that one has left. -/
theorem State.after_afterRead {y : OutboundSide} {r r' : Half}
    (h : PortState.readByte s.tickCount { s.port p with outbound := x, readData := r } = (y, r')) :
    (s.afterRead p x r).after (.outboundByteRead p) = s.afterRead p y r' := by
  rw [← State.afterRead_port] at h
  rw [State.after_of_exec (State.exec_outboundByteRead (s := s.afterRead p x r) hrun h), State.afterRead_afterRead]

/-- After the length byte the notice awaits its answer (R146). -/
theorem State.after_presentingLength (t : Tick) (r : Half) :
    (s.afterRead p (OutboundSide.presentingLength n t) r).after (.outboundByteRead p) =
      s.afterRead p { byte := none, closingMark := false, tx := .answer ((s.port p).answerDeadlineFrom s.tickCount) }
        (inLowHalf n.totalLength) :=
  State.after_afterRead hrun (PortState.readByte_of_length rfl rfl)

variable (hq : (s.port p).queue.notices = n :: rest)
include hq

/-- The read of any byte but the last places the next (R146). -/
theorem State.after_presenting {k : Nat} (h : k + 1 < n.bytes.length) (t : Tick) (r : Half) :
    (s.afterRead p (x.presenting n k (by omega) t) r).after (.outboundByteRead p) =
      s.afterRead p (x.presenting n (k + 1) h ((s.port p).answerDeadlineFrom s.tickCount)) (inLowHalf n.bytes[k]) :=
  State.after_afterRead hrun (PortState.readByte_of_data
    (ps := { s.port p with outbound := x.presenting n k (by omega) t, readData := r }) rfl rfl hq h)

/-- The read of the last byte places the length byte (R145, R146). -/
theorem State.after_presenting_last {k : Nat} (h : k + 1 = n.bytes.length) (t : Tick) (r : Half) :
    (s.afterRead p (x.presenting n k (by omega) t) r).after (.outboundByteRead p) =
      s.afterRead p (OutboundSide.presentingLength n ((s.port p).answerDeadlineFrom s.tickCount)) (inLowHalf n.bytes[k]) :=
  State.after_afterRead hrun (PortState.readByte_of_data_end rfl rfl hq h.ge)

variable {t : Tick} (htx : (s.port p).outbound.tx = .data 1 t) (hbyte : (s.port p).outbound.byte = some n.code)
include htx hbyte

/-- After `k` reads, not yet as many as the notice has bytes, byte `k` is presented (R146). -/
theorem State.reads_present (k : Nat) (h : k < n.bytes.length) : ∃ t' r,
    s.afterTimes (.outboundByteRead p) k = s.afterRead p ((s.port p).outbound.presenting n k h t') r := by
  induction k with
  | zero => exact ⟨t, (s.port p).readData, by rw [OutboundSide.presenting_code hbyte htx, State.afterRead_self]; rfl⟩
  | succ k ih =>
    obtain ⟨t', r, hk⟩ := ih (by omega)
    exact ⟨_, _, by rw [State.afterTimes_succ, hk, State.after_presenting hrun hq h]⟩

/-- Read `k + 1` returns byte `k` (R146). -/
theorem State.reads_return (k : Nat) (h : k < n.bytes.length) :
    ((s.afterTimes (.outboundByteRead p) (k + 1)).port p).readData = inLowHalf n.bytes[k] := by
  obtain ⟨t', r, hk⟩ := State.reads_present hrun hq htx hbyte k h
  rw [State.afterTimes_succ, hk]
  obtain hnext | hlast : k + 1 < n.bytes.length ∨ k + 1 = n.bytes.length := by omega
  · rw [State.after_presenting hrun hq hnext, State.afterRead_port]
  · rw [State.after_presenting_last hrun hq hlast, State.afterRead_port]

/-- One read more than the notice has bytes returns its length and leaves it awaiting its answer (R145, R146). -/
theorem State.reads_end : s.afterTimes (.outboundByteRead p) (n.bytes.length + 1) =
    s.afterRead p { byte := none, closingMark := false, tx := .answer ((s.port p).answerDeadlineFrom s.tickCount) }
      (inLowHalf n.totalLength) := by
  obtain ⟨k, hlast⟩ : ∃ k, k + 1 = n.bytes.length := ⟨_, rfl⟩
  obtain ⟨t', r, hk⟩ := State.reads_present hrun hq htx hbyte k (by omega)
  rw [← hlast, State.afterTimes_succ, State.afterTimes_succ, hk, State.after_presenting_last hrun hq hlast,
    State.after_presentingLength hrun]

end Notice

/-- Settles O28: each read presents the next byte to the read after it. -/
theorem noticeIsReadWholeInOrder : Obligations.NoticeIsReadWholeInOrder := by
  intro s p n rest t hrun hq htx hbyte
  exact ⟨State.reads_return hrun hq htx hbyte, State.reads_end hrun hq htx hbyte⟩

end Sys2Proof.Machine
end

