-- ==== Sys2Proof/Proofs/WindowAccesses.lean ====
section
/-! PROOFS. The enables and the lane's clear controls, and the commands a host access at the window amounts to (O39). -/

namespace Sys2Proof.Machine

/-! ### Fields of a control and of a marks write -/

/-- The commands of a list whose bits are set. -/
def chosen (cs : List (Bool × Instr)) : List Instr := cs.filterMap (fun x => if x.1 then some x.2 else none)

theorem chosen_cons (b : Bool) (c : Instr) (cs : List (Bool × Instr)) :
    chosen ((b, c) :: cs) = (if b then [c] else []) ++ chosen cs := by
  cases b <;> rfl

/-- The actions of a control write are those whose bits are set, in the order of R185. -/
theorem actionsOf_eq_chosen (p : Port) (b : Byte) : actionsOf p b = chosen
    [(b.getLsbD 0, .doneClear p), (b.getLsbD 1, .clearLaneFlags p), (b.getLsbD 2, .purge p), (b.getLsbD 3, .portReset p)] := by
  have hnil : chosen [] = [] := rfl
  simp only [actionsOf, chosen_cons, hnil, List.append_assoc, List.append_nil]

theorem two_bits_eq_one_iff : ∀ v : BitVec 2, v = 1 ↔ (v.getLsbD 0 && !v.getLsbD 1) = true := by decide

theorem two_bits_eq_two_iff : ∀ v : BitVec 2, v = 2 ↔ (!v.getLsbD 0 && v.getLsbD 1) = true := by decide

/-- The answer field of a marks write is bits 1 and 2 (R186). -/
theorem answerField_bits (h : Half) :
    (h.extractLsb' 1 2).getLsbD 0 = h.getLsbD 1 ∧ (h.extractLsb' 1 2).getLsbD 1 = h.getLsbD 2 := by
  simp

/-- A marks write is the mark, and then the answer of its field (R186). -/
theorem marksOf_eq (p : Port) (data : Half) : marksOf p data = (if data.getLsbD 0 then [.setClosingMark p] else []) ++
    (if data.extractLsb' 1 2 = 1 then [.accept p] else if data.extractLsb' 1 2 = 2 then [.refuse p] else []) := by
  obtain ⟨h1, h2⟩ := answerField_bits data
  simp only [marksOf, two_bits_eq_one_iff, two_bits_eq_two_iff, h1, h2]
  cases data.getLsbD 1 <;> cases data.getLsbD 2 <;> simp

/-! ### Accesses -/

section

variable {s : State} {p : Port} (hrun : s.resetAsserted = false)
include hrun

theorem State.commandsOf_dmaRead : s.commandsOf p .dmaRead = [.laneRead p] := by
  simp [State.commandsOf, hrun]

theorem State.commandsOf_dmaWrite (data : Half) : s.commandsOf p (.dmaWrite data) = [.laneWrite p data] := by
  simp [State.commandsOf, hrun]

theorem State.commandsOf_read_bits16 (hw : (s.port p).width = .bits16) (address : BitVec 3) : s.commandsOf p (.read address) =
    match address.toNat / 2 with
    | 0 => [.outboundByteRead p]
    | 1 => [.laneRead p]
    | _ => [] := by
  simp only [State.commandsOf, hrun, hw, Bool.false_eq_true, if_false] <;> rfl

theorem State.commandsOf_write_bits16 (hw : (s.port p).width = .bits16) (address : BitVec 3) (data : Half) :
    s.commandsOf p (.write address data) = s.locationWrite p (2 * (address.toNat / 2)) data := by
  simp [State.commandsOf, hrun, hw]

theorem State.commandsOf_read_bits8 (hw : (s.port p).width = .bits8) (address : BitVec 3) : s.commandsOf p (.read address) =
    match address.toNat with
    | 0 => [.outboundByteRead p]
    | 2 => [.laneRead p]
    | _ => [] := by
  simp only [State.commandsOf, hrun, hw, Bool.false_eq_true, if_false] <;> rfl

theorem State.commandsOf_write_bits8 (hw : (s.port p).width = .bits8) (address : BitVec 3) (data : Half) :
    s.commandsOf p (.write address data) = s.byteWrite p address data := by
  simp [State.commandsOf, hrun, hw]

end

/-! ### Controls -/

section

variable {s : State} (hrun : s.resetAsserted = false) (p : Port)
include hrun

theorem State.exec_writeEnables (e : Enables) :
    exec (.writeEnables p e) s = .next (s.modPort p (fun ps => { ps with enables := e })) := by
  show Host.Outcome.next (s.unlessInReset _) = _
  rw [State.unlessInReset_released s _ hrun]

theorem State.exec_doneClear : exec (.doneClear p) s = .next (s.modPort p (PortState.modLane Lane.clearDone)) := by
  show Host.Outcome.next (s.unlessInReset _) = _
  rw [State.unlessInReset_released s _ hrun]

theorem State.exec_clearLaneFlags :
    exec (.clearLaneFlags p) s = .next (s.modPort p (PortState.modLane Lane.clearFlags)) := by
  show Host.Outcome.next (s.unlessInReset _) = _
  rw [State.unlessInReset_released s _ hrun]

end

/-- Settles O39: the controls change one column, and an access is the list its width and its address select. -/
theorem controlsChangeWhatTheyName : Obligations.ControlsChangeWhatTheyName := by
  intro s p hrun
  refine ⟨fun e => ⟨State.exec_writeEnables hrun p e, State.exec_doneClear hrun p, State.exec_clearLaneFlags hrun p⟩,
    fun x => rfl, State.commandsOf_dmaRead hrun, fun data => ?_⟩
  intro command enables actions marks
  have hactions : ∀ b, actionsOf p b = actions b := actionsOf_eq_chosen p
  have hmarks : marksOf p data = marks := marksOf_eq p data
  refine ⟨State.commandsOf_dmaWrite hrun data, fun hw address => ?_, fun hw => ?_⟩
  · rw [State.commandsOf_read_bits16 hrun hw, State.commandsOf_write_bits16 hrun hw]
    refine ⟨?_, ?_, ?_, ?_⟩
    · rintro (rfl | rfl) <;> exact ⟨rfl, rfl⟩
    · rintro (rfl | rfl) <;> exact ⟨rfl, rfl⟩
    · rw [← hactions]
      rintro (rfl | rfl) <;> exact ⟨rfl, rfl⟩
    · rw [← hmarks]
      rintro (rfl | rfl) <;> exact ⟨rfl, rfl⟩
  · simp only [State.commandsOf_read_bits8 hrun hw, State.commandsOf_write_bits8 hrun hw, ← hactions, ← hmarks]
    refine ⟨⟨rfl, rfl⟩, ⟨rfl, rfl⟩, ⟨rfl, rfl⟩, ⟨rfl, rfl⟩, ⟨rfl, rfl⟩, ?_⟩
    rintro address (rfl | rfl | rfl) <;> exact ⟨rfl, rfl⟩

end Sys2Proof.Machine
end

