-- ==== Sys2Proof/Proofs/LaneAccesses.lean ====
section
/-! PROOFS. The host's accesses of a data lane, and its purge (O34, O36, O38). -/

namespace Sys2Proof.Machine

/-! ### The size of an access -/

/-- A lane access carries two bytes on a 16-bit port, but one where a single byte is left, and one on an 8-bit port
(R156). -/
theorem PortState.accessSize_eq (ps : PortState) :
    ps.accessSize = if ps.width = .bits16 ∧ ps.lane.hostCount ≠ 1 then 2 else 1 := by
  unfold PortState.accessSize laneAccessSize
  cases ps.width <;> by_cases hone : ps.lane.hostCount = 1 <;> simp [hone]

/-- The bytes a lane write carries, the low half first (R156). -/
theorem PortState.laneWriteBytes_accessSize (ps : PortState) (data : Half) : laneWriteBytes ps.accessSize data =
    if ps.width = .bits16 ∧ ps.lane.hostCount ≠ 1 then [data.setWidth 8, (data >>> 8).setWidth 8] else [data.setWidth 8] := by
  rw [ps.accessSize_eq]
  split <;> rfl

theorem PortState.laneWriteBytes_length (ps : PortState) (data : Half) :
    (laneWriteBytes ps.accessSize data).length = ps.accessSize :=
  Machine.laneWriteBytes_length ((laneAccessSize_cases _ _).imp_right And.left) data

section

variable {s : State} {p : Port} {d : DescNo}

/-! ### Writes -/

theorem State.exec_laneWrite (hrun : s.resetAsserted = false) (p : Port) (data : Half) :
    exec (.laneWrite p data) s = .next (s.writeLane p data) :=
  congrArg Host.Outcome.next (State.unlessInReset_released s _ hrun)

/-- Bytes that are owed and have room join the FIFO (R157). -/
theorem State.writeLane_of_room (data : Half) (howner : (s.port p).lane.owner = .inbound d)
    (hcount : 0 < (s.port p).lane.hostCount) (hroom : (s.port p).lane.fifo.length + (s.port p).accessSize ≤ 32) :
    s.writeLane p data =
      (s.modPort p (PortState.modLane (Lane.takeIn (laneWriteBytes (s.port p).accessSize data)))).restartStall p := by
  simp only [State.writeLane, howner, Nat.pos_iff_ne_zero.mp hcount, hroom, if_true, if_false]

/-- A write of a lane in use that no byte is owed to sets OVERRUN (R157). -/
theorem State.writeLane_of_unowed (data : Half)
    (howner : ((s.port p).lane.owner = .inbound d ∧ (s.port p).lane.hostCount = 0) ∨ (s.port p).lane.owner = .outbound d) :
    s.writeLane p data = (s.setOverrun p).restartStall p := by
  obtain ⟨howner, hcount⟩ | howner := howner
  · simp only [State.writeLane, howner, hcount, if_true]
  · simp only [State.writeLane, howner]

theorem State.writeLane_of_idle (data : Half) (howner : (s.port p).lane.owner = .idle) :
    s.writeLane p data = s.setOverrun p := by
  simp only [State.writeLane, howner]

/-! ### Reads -/

/-- A read that leaves the host more to read takes the oldest bytes (R158). -/
theorem State.readLane_of_more (howner : (s.port p).lane.owner = .outbound d)
    (hready : (s.port p).accessSize ≤ (s.port p).lane.fifo.length)
    (hmore : (s.port p).accessSize < (s.port p).lane.hostCount) :
    s.readLane p = (s.modPort p (fun x => { (x.modLane (Lane.giveOut (s.port p).accessSize)) with
      readData := laneReadValue ((s.port p).lane.fifo.take (s.port p).accessSize) })).restartStall p := by
  simp only [State.readLane, howner, hready, if_true, if_neg (Nat.sub_ne_zero_of_lt hmore)]

/-- A read of a lane in use without bytes enough sets UNDERRUN (R158). -/
theorem State.readLane_of_too_few
    (howner : ((s.port p).lane.owner = .outbound d ∧ (s.port p).lane.fifo.length < (s.port p).accessSize) ∨
      (s.port p).lane.owner = .inbound d) :
    s.readLane p = (s.setUnderrun p).restartStall p := by
  obtain ⟨howner, hfew⟩ | howner := howner
  · simp only [State.readLane, howner, if_neg (Nat.not_le.mpr hfew)]
  · simp only [State.readLane, howner]

theorem State.readLane_of_idle (howner : (s.port p).lane.owner = .idle) : s.readLane p = s.setUnderrun p := by
  simp only [State.readLane, howner]

/-! ### The purge -/

theorem State.exec_purge (hrun : s.resetAsserted = false) (p : Port) : exec (.purge p) s = .next (s.purgeLane p) :=
  congrArg Host.Outcome.next (State.unlessInReset_released s _ hrun)

/-- What a purge does to the lane before its transfer ends (R164). -/
def Lane.purged (l : Lane) : Lane := { l with fifo := [], overrun := false, underrun := false }

theorem State.purgeLane_of_idle (howner : (s.port p).lane.owner = .idle) :
    s.purgeLane p = s.modPort p (PortState.modLane Lane.purged) := by
  simp only [State.purgeLane, howner]
  rfl

/-- An abandonment that leaves the lane as `l` does not depend on the lane before it, but for its owner. -/
theorem State.afterAbandonment_modLane {f : Lane → Lane} (hf : (f (s.port p).lane).owner = (s.port p).lane.owner)
    (d : DescNo) (l : Lane) :
    (s.modPort p (PortState.modLane f)).afterAbandonment p d l = s.afterAbandonment p d l := by
  have hport : (s.modPort p (PortState.modLane f)).port p = { s.port p with lane := f (s.port p).lane } :=
    State.modPort_port_same s p _
  have hcheck : (s.modPort p (PortState.modLane f)).receiptCheck d = s.receiptCheck d := by
    refine State.receiptCheck_congr rfl ?_
    by_cases h : (s.desc d).sender = p
    · rw [h, hport]
    · rw [State.modPort_port_other s _ h]
  have hset : ∀ ps : PortState, (s.modPort p (PortState.modLane f)).ports.set p ps = s.ports.set p ps :=
    fun ps => PerPort.set_set _ _ _ _
  have hreceipt := fun r => PortState.appendReceipt_withLane s.tickCount r (s.port p) hf
  unfold State.afterAbandonment
  simp only [hcheck, hset, hport, State.modPort_tickCount, hreceipt]
  cases s.receiptCheck d <;> rfl

/-- The purge of an INBOUND lane abandons its message (R164). -/
theorem State.purgeLane_of_inbound (howner : (s.port p).lane.owner = .inbound d) (hsender : (s.desc d).sender = p) :
    s.purgeLane p = s.afterAbandonment p d { (s.port p).lane.ended with overrun := false, underrun := false } := by
  have hpurge : s.purgeLane p = (s.modPort p (PortState.modLane Lane.purged)).abandonTransfer p d := by
    simp only [State.purgeLane, howner]
    rfl
  rw [hpurge, State.abandonTransfer_eq (s := s.modPort p _) hsender, State.modPort_port_same, State.afterAbandonment_modLane rfl]
  rfl

/-- The purge of an OUTBOUND lane ends its delivery STOPPED (R164). -/
theorem State.purgeLane_of_outbound (howner : (s.port p).lane.owner = .outbound d) :
    s.purgeLane p =
      (s.endCopy p d .stopped (fun ps => (ps.modLane Lane.purged).endTransfer d)).offer p := by
  simp only [State.purgeLane, howner, State.endDelivery_eq, State.endCopy, State.modPort_modPort]
  rfl

/-- A purge that ends the delivery of a take leaves the other takes, and the lane ended with its flags clear (R164). -/
theorem PortState.endTransfer_purged {ps : PortState} {ahead behind : List MatchedTake} {m : MatchedTake}
    (hmatched : ps.takes.matched = ahead ++ m :: behind) (hothers : ∀ u ∈ ahead ++ behind, u.bound ≠ m.bound) :
    (ps.modLane Lane.purged).endTransfer m.bound = { ps with
      takes := { ps.takes with matched := ahead ++ behind },
      lane := { ps.lane.ended with overrun := false, underrun := false } } := by
  rw [PortState.endTransfer, PortState.endTake_of_split (ps := ps.modLane Lane.purged) hmatched hothers]
  rfl

end

/-- Settles O34: a write with room, one that is owed nothing, and one of an IDLE lane. -/
theorem laneWriteEntersTheFifo : Obligations.LaneWriteEntersTheFifo := by
  intro s p data hrun ps l bytes stall leaves
  have hbytes : laneWriteBytes ps.accessSize data = bytes := ps.laneWriteBytes_accessSize data
  have hlength : bytes.length = ps.accessSize := hbytes ▸ ps.laneWriteBytes_length data
  simp only [leaves, State.exec_laneWrite hrun]
  refine ⟨fun d howner hcount hroom => ?_, fun d howner => ?_, fun howner => ?_⟩
  · rw [State.writeLane_of_room data howner hcount (by rwa [hlength] at hroom), hbytes, State.restartStall,
      State.modPort_modPort, State.modPort_eq_putPort]
    have hdone : (l.done || l.hostCount - bytes.length == 0) = if l.hostCount - bytes.length = 0 then true else l.done := by
      by_cases h : l.hostCount - bytes.length = 0 <;> simp [h]
    rw [← hdone]
    rfl
  · rw [State.writeLane_of_unowed data howner, State.restartStall, State.setOverrun, State.modPort_modPort]
    rfl
  · rw [State.writeLane_of_idle data howner]
    rfl

/-- Settles O36: a read with more to come, one with too few bytes, and one of an IDLE lane. -/
theorem laneReadTakesTheOldestBytes : Obligations.LaneReadTakesTheOldestBytes := by
  intro s p hrun ps l size stall answers
  have hsize : ps.accessSize = size := ps.accessSize_eq
  simp only [answers, State.exec_laneRead hrun]
  refine ⟨fun d howner hmore => ?_, fun d howner => ?_, fun howner => ?_⟩
  · have hread : size ≤ l.fifo.length → s.readLane p = s.putPort p { ps with
        lane := { l with
          fifo := l.fifo.drop size, hostCount := l.hostCount - size, stall := stall },
        readData := laneReadValue (l.fifo.take size) } := fun hready => by
      have hdone : (l.done || l.hostCount - size == 0) = l.done := by simp [Nat.sub_ne_zero_of_lt hmore]
      rw [State.readLane_of_more howner (hsize ▸ hready) (hsize ▸ hmore), hsize, State.restartStall, State.modPort_modPort,
        State.modPort_eq_putPort, ← hdone]
      rfl
    refine ⟨fun lo hi rest htwo hfifo => ?_, fun b rest hone hfifo => ?_⟩
    · rw [hread (by simp [htwo, hfifo]), htwo, hfifo]
      rfl
    · rw [hread (by simp [hone, hfifo]), hone, hfifo]
      rfl
  · rw [State.readLane_of_too_few (hsize ▸ howner), State.restartStall, State.setUnderrun, State.modPort_modPort]
    rfl
  · rw [State.readLane_of_idle howner]
    rfl

/-- Settles O38: the lane is emptied and its flags cleared, and the transfer ends by its owner state. -/
theorem purgeEndsTheTransfer : Obligations.PurgeEndsTheTransfer := by
  intro s p hrun ps purged
  simp only [State.exec_purge hrun]
  refine ⟨fun howner => ?_, fun d howner hsender => ?_, fun d ahead behind m howner hmatched hbound hothers hmoving => ?_⟩
  · rw [State.purgeLane_of_idle howner]
    rfl
  · rw [State.purgeLane_of_inbound howner hsender]
  · subst hbound
    have hlive : (s.slot m.bound p).state.live = true := by
      rw [State.slot, hmoving]
      rfl
    rw [State.purgeLane_of_outbound howner, State.endCopy_eq _ _ hlive, PortState.endTransfer_purged hmatched hothers]

end Sys2Proof.Machine
end

