-- ==== Sys2Proof/Proofs/MoverGrants.lean ====
section
/-! PROOFS. A grant that moves a chunk, and the rotation that serves every eligible lane (O48, O50). -/

namespace Sys2Proof.Machine

section

variable {s : State} {p : Port}

/-! ### One grant -/

theorem State.exec_grant (hrun : s.resetAsserted = false) : exec .grant s = .next s.moverTurn :=
  congrArg Host.Outcome.next (State.unlessInReset_released s _ hrun)

/-- With no eligible lane the mover grants nothing (R160). -/
theorem State.moverTurn_of_none (h : ∀ q, (s.port q).lane.eligible = false) : s.moverTurn = s := by
  have hnone : s.grantTarget = none := List.find?_eq_none.mpr fun q _ => by simp [h q]
  rw [State.moverTurn, hnone]

theorem State.moverTurn_of_target (h : s.grantTarget = some p) : s.moverTurn = s.grantTo p := by
  rw [State.moverTurn, h]

/-- An INBOUND chunk that is not the message's last is stored, and nothing else happens (R162). -/
theorem State.grantTo_inbound_of_more {d : DescNo} (howner : (s.port p).lane.owner = .inbound d) {n : Nat}
    (hn : chunkSize (s.port p).lane.poolCount (s.desc d).bytesInPool (s.port p).lane.fifo.length = n)
    (hmore : n < (s.port p).lane.poolCount) : s.grantTo p = s.chunkStored p d n := by
  refine (State.grantTo_inbound howner).trans ?_
  rw [hn, if_neg (Nat.sub_ne_zero_of_lt hmore)]

/-- A grant to an OUTBOUND lane loads the bytes after those already moved, of the length its take fixed (R27, R162). -/
theorem State.grantTo_outbound {ahead behind : List MatchedTake} {m : MatchedTake}
    (howner : (s.port p).lane.owner = .outbound m.bound) (hmatched : (s.port p).takes.matched = ahead ++ m :: behind)
    (hahead : ∀ u ∈ ahead, u.bound ≠ m.bound) :
    let l := (s.port p).lane
    let moved := m.delivered - l.poolCount
    let n := chunkSize l.poolCount moved (32 - l.fifo.length)
    s.grantTo p = { s.putPort p { s.port p with
      lane := l.afterGrant (l.fifo ++ s.pool.mem.loadPayload (s.desc m.bound).chain moved n) n } with pointer := p } := by
  intro l moved n
  have hdelivered : (s.port p).deliveredLength m.bound = m.delivered := by
    have hfind : (s.port p).takes.matched.find? (fun t => t.bound == m.bound) = some m :=
      List.find?_eq_some_iff_append.mpr ⟨by simp, ahead, behind, hmatched, fun u hu => by simpa using hahead u hu⟩
    rw [PortState.deliveredLength, hfind]
  simp only [n, moved, l, ← hdelivered, State.grantTo, howner]
  rfl

end

/-- Settles O48: the lane served is the first eligible one, and its grant is a chunk stored or a chunk loaded. -/
theorem grantMovesAChunk : Obligations.GrantMovesAChunk := by
  intro s hrun ready granted
  have hready : ∀ q, ¬ ready q → (s.port q).lane.eligible = false := fun q hq => by
    simpa [ready] using mt (Lane.eligible_iff _).mp hq
  simp only [State.exec_grant hrun]
  refine ⟨fun hnone => ?_, fun p ahead behind hrot hahead hp => ?_⟩
  · rw [State.moverTurn_of_none fun q => hready q (hnone q)]
  · have htarget : s.grantTarget = some p :=
      State.grantTarget_eq_some hrot (fun q hq => hready q (hahead q hq)) ((Lane.eligible_iff _).mpr hp)
    rw [State.moverTurn_of_target htarget]
    refine ⟨fun d howner hmore => ?_, fun d before after m howner hmatched hbound hbefore => ?_⟩
    · rw [State.grantTo_inbound_of_more howner rfl hmore]
      rfl
    · subst hbound
      rw [State.grantTo_outbound howner hmatched hbefore]
      rfl

/-! ### One grant after another -/

section

variable {s : State} {p : Port}

theorem State.after_grant (hrun : s.resetAsserted = false) : s.after .grant = s.moverTurn :=
  State.after_of_released hrun rfl

/-- The lane served is the pointer's (R160). -/
theorem State.moverTurn_pointer (h : s.grantTarget = some p) : s.moverTurn.pointer = p := by
  have howner : (s.port p).lane.owner ≠ .idle := fun hidle => by
    have heligible := (State.grantTarget_spec h).1
    simp [Lane.eligible, hidle] at heligible
  rw [State.moverTurn_of_target h]
  exact (State.grantTo_served howner).1

/-- An eligible lane is served by the next grant, or is nearer in the rotation after it (R160). -/
theorem State.served_or_nearer (heligible : (s.port p).lane.eligible = true) :
    s.grantTarget = some p ∨ rotationPlace s.moverTurn.pointer p < rotationPlace s.pointer p := by
  cases htarget : s.grantTarget with
  | none => exact absurd heligible (List.find?_eq_none.mp htarget p (mem_rotationFrom _ _))
  | some q =>
    by_cases hqp : q = p
    · exact .inl (congrArg some hqp)
    · rw [State.moverTurn_pointer htarget]
      exact .inr (rotationPlace_lt_of_served ((State.grantTarget_spec htarget).2 p (Ne.symm hqp) heligible))

/-- A lane among the first `n` of the rotation that stays eligible is served within `n` grants, by induction on `n`. -/
theorem State.served_within (n : Nat) : ∀ s : State, s.resetAsserted = false → rotationPlace s.pointer p < n →
    (∀ k, k < n → ((s.afterTimes .grant k).port p).lane.eligible = true) →
    ∃ k, k < n ∧ (s.afterTimes .grant k).grantTarget = some p ∧ (s.afterTimes .grant (k + 1)).pointer = p := by
  induction n with
  | zero => exact fun s _ hplace => absurd hplace (Nat.not_lt_zero _)
  | succ n ih =>
    intro s hrun hplace heligible
    have hafter : s.after .grant = s.moverTurn := State.after_grant hrun
    obtain htarget | hnearer := State.served_or_nearer (heligible 0 (Nat.succ_pos n))
    · exact ⟨0, Nat.succ_pos n, htarget, (congrArg State.pointer hafter).trans (State.moverTurn_pointer htarget)⟩
    · have hrun' : (s.after .grant).resetAsserted = false := by
        rw [hafter, s.moverTurn_sameClock.resetAsserted, hrun]
      have hplace' : rotationPlace (s.after .grant).pointer p < n := by
        rw [hafter]
        exact Nat.lt_of_lt_of_le hnearer (Nat.le_of_lt_succ hplace)
      obtain ⟨k, hk, htarget, hpointer⟩ := ih (s.after .grant) hrun' hplace'
        (fun k hk => heligible (k + 1) (Nat.succ_lt_succ hk))
      exact ⟨k + 1, Nat.succ_lt_succ hk, htarget, hpointer⟩

end

/-- Settles O50: every lane is among the four of the rotation. -/
theorem eligibleLaneIsServedWithinFourGrants : Obligations.EligibleLaneIsServedWithinFourGrants :=
  fun s p hrun heligible => State.served_within 4 s hrun (rotationPlace_lt s.pointer p) heligible

end Sys2Proof.Machine
end

