-- ==== Sys2Proof/Proofs/StatusReads.lean ====
section
/-! PROOFS. The status word, the reason register and the lines, and what a read returns (O41). -/

namespace Sys2Proof.Machine

/-! ### Fields of a 16-bit word -/

/-- A bit is read off the word's value. -/
theorem half_getLsbD_of_toNat {w : Half} {i : Nat} {b : Bool} (h : w.toNat / 2 ^ i % 2 = b.toNat) : w.getLsbD i = b := by
  rw [BitVec.getLsbD, Nat.testBit_eq_decide_div_mod_eq, h]
  cases b <;> rfl

/-- So is a field of two bits. -/
theorem half_extract_of_toNat {w : Half} {i c : Nat} (h : w.toNat / 2 ^ i % 4 = c) : w.extractLsb' i 2 = BitVec.ofNat 2 c := by
  refine BitVec.eq_of_toNat_eq ?_
  rw [BitVec.extractLsb'_toNat, Nat.shiftRight_eq_div_pow, BitVec.toNat_ofNat, ← h]
  omega

/-! ### Indications -/

section

variable (ps : PortState)

/-- Lane ready, by the owner state: the next access would move bytes (R158). -/
theorem PortState.laneReady_iff : ps.laneReady = true ↔
    (∃ d, ps.lane.owner = .inbound d ∧ 0 < ps.lane.hostCount ∧ ps.lane.fifo.length + ps.accessSize ≤ 32) ∨
      (∃ d, ps.lane.owner = .outbound d ∧ ps.accessSize ≤ ps.lane.fifo.length) := by
  unfold PortState.laneReady
  cases h : ps.lane.owner <;> simp

/-- The interrupt line follows the causes whose enables are set (R187). -/
theorem PortState.interruptRaised_iff : ps.interruptRaised = true ↔
    (ps.outbound.byte.isSome = true ∧ ps.enables.noticeByte = true)
      ∨ (ps.inbound.answerPosted = true ∧ ps.enables.answerPosted = true)
      ∨ (ps.lane.done = true ∧ ps.enables.laneDone = true)
      ∨ (ps.session.lapsedCause = true ∧ ps.enables.lapsed = true) := by
  simp only [PortState.interruptRaised, PortState.byteFull, Bool.or_eq_true, Bool.and_eq_true, or_assoc]

theorem PortState.awaitingAnswer_iff : ps.awaitingAnswer = true ↔ ∃ t, ps.outbound.tx = .answer t := by
  unfold PortState.awaitingAnswer
  cases h : ps.outbound.tx <;> simp

/-! ### The status word -/

theorem SessionState.code_le (x : SessionState) : x.code ≤ 2 := by cases x <;> decide

theorem InboundAnswer.code_le (x : InboundAnswer) : x.code ≤ 2 := by cases x <;> decide

theorem LaneOwner.code_le (x : LaneOwner) : x.code ≤ 2 := by cases x <;> simp [LaneOwner.code]

/-- The fields of the status word, each where R184 puts it. -/
structure PortState.StatusFields (w : Half) : Prop where
  session : w.extractLsb' 0 2 = BitVec.ofNat 2 ps.session.state.code
  answer : w.extractLsb' 2 2 = BitVec.ofNat 2 ps.inbound.answer.code
  byteFull : w.getLsbD 4 = ps.byteFull
  closingMark : w.getLsbD 5 = ps.outbound.closingMark
  awaitingAnswer : w.getLsbD 6 = ps.awaitingAnswer
  answerPosted : w.getLsbD 7 = ps.inbound.answerPosted
  owner : w.extractLsb' 8 2 = BitVec.ofNat 2 ps.lane.owner.code
  laneReady : w.getLsbD 10 = ps.laneReady
  done : w.getLsbD 11 = ps.lane.done
  overrun : w.getLsbD 12 = ps.lane.overrun
  underrun : w.getLsbD 13 = ps.lane.underrun
  lapsedCause : w.getLsbD 14 = ps.session.lapsedCause
  interrupt : w.getLsbD 15 = ps.interruptRaised

/-- No field of the status word reaches into the next, since each fits its place. -/
theorem PortState.statusWord_fields : ps.StatusFields ps.statusWord := by
  have hsession := ps.session.state.code_le
  have hanswer := ps.inbound.answer.code_le
  have howner := ps.lane.owner.code_le
  have hfull := Bool.toNat_le ps.byteFull
  have hmark := Bool.toNat_le ps.outbound.closingMark
  have hawaiting := Bool.toNat_le ps.awaitingAnswer
  have hposted := Bool.toNat_le ps.inbound.answerPosted
  have hready := Bool.toNat_le ps.laneReady
  have hdone := Bool.toNat_le ps.lane.done
  have hoverrun := Bool.toNat_le ps.lane.overrun
  have hunderrun := Bool.toNat_le ps.lane.underrun
  have hlapsed := Bool.toNat_le ps.session.lapsedCause
  have hline := Bool.toNat_le ps.interruptRaised
  have hword : ps.statusWord.toNat = ps.session.state.code + 4 * ps.inbound.answer.code + 16 * ps.byteFull.toNat
      + 32 * ps.outbound.closingMark.toNat + 64 * ps.awaitingAnswer.toNat
      + 128 * ps.inbound.answerPosted.toNat + 256 * ps.lane.owner.code + 1024 * ps.laneReady.toNat
      + 2048 * ps.lane.done.toNat + 4096 * ps.lane.overrun.toNat + 8192 * ps.lane.underrun.toNat
      + 16384 * ps.session.lapsedCause.toNat + 32768 * ps.interruptRaised.toNat := by
    rw [PortState.statusWord, BitVec.toNat_ofNat, Nat.mod_eq_of_lt (by omega)]
  constructor
  case session | answer | owner => exact half_extract_of_toNat (by rw [hword]; omega)
  all_goals exact half_getLsbD_of_toNat (by rw [hword]; omega)

end

/-! ### The reason register -/

/-- A reason's code is its place in the table of R189, counted from 1. -/
theorem Reason.code_eq (r : Reason) : r.code = reasonsByCode.idxOf r + 1 := by cases r <;> rfl

theorem InboundSide.reasonCode_lt (x : InboundSide) : x.reasonCode < 256 := by
  unfold InboundSide.reasonCode
  split
  · decide
  · next r _ => cases r <;> decide

theorem PortState.reasonWord_low (ps : PortState) : ps.reasonWord.setWidth 8 = BitVec.ofNat 8 ps.inbound.reasonCode := by
  refine BitVec.eq_of_toNat_eq ?_
  simp only [PortState.reasonWord, BitVec.toNat_setWidth, BitVec.toNat_ofNat]
  omega

theorem PortState.reasonWord_high (ps : PortState) (h : ps.inbound.stray ≤ 63) :
    (ps.reasonWord.extractLsb' 8 8).toNat = ps.inbound.stray := by
  have hcode := ps.inbound.reasonCode_lt
  simp only [PortState.reasonWord, BitVec.extractLsb'_toNat, BitVec.toNat_ofNat, Nat.shiftRight_eq_div_pow]
  omega

/-! ### Reads -/

section

variable {s : State} {p : Port}

theorem State.readValue_asserted (h : s.resetAsserted = true) (address : BitVec 3) : s.readValue p address = 0 := by
  rw [State.readValue, if_pos h]

/-- A 16-bit port does not use A0 (R183). -/
theorem State.readValue_location (hwidth : (s.port p).width = .bits16) {address address' : BitVec 3}
    (h : address.toNat / 2 = address'.toNat / 2) : s.readValue p address = s.readValue p address' := by
  simp only [State.readValue, hwidth, h]

section

variable (hrun : s.resetAsserted = false)
include hrun

/-- A read of offset 0 returns the outbound byte, at either width (R146, R183). -/
theorem State.readValue_zero : s.readValue p 0 = s.commandValue p := by
  rw [State.readValue, hrun]
  cases (s.port p).width <;> rfl

/-- A read of offset 2 returns the lane's bytes, at either width (R158, R183). -/
theorem State.readValue_two : s.readValue p 2 = (s.port p).laneValue := by
  rw [State.readValue, hrun]
  cases (s.port p).width <;> rfl

theorem State.readValue_bits16 (hwidth : (s.port p).width = .bits16) :
    s.readValue p 4 = (s.port p).statusWord ∧ s.readValue p 6 = (s.port p).reasonWord := by
  rw [State.readValue, State.readValue, hrun, hwidth]
  exact ⟨rfl, rfl⟩

theorem State.readValue_bits8 (hwidth : (s.port p).width = .bits8) :
    s.readValue p 4 = inLowHalf (lowByte (s.port p).statusWord) ∧ s.readValue p 5 = inLowHalf (highByte (s.port p).statusWord) ∧
      s.readValue p 6 = inLowHalf (lowByte (s.port p).reasonWord) ∧
      s.readValue p 1 = 0 ∧ s.readValue p 3 = 0 ∧ s.readValue p 7 = 0 := by
  simp only [State.readValue, hrun, hwidth]
  exact ⟨rfl, rfl, rfl, rfl, rfl, rfl⟩

end

/-- What a delivery's end leaves of the value read. -/
theorem State.endDelivery_readData (s : State) (p : Port) (d : DescNo) (o : CopyOutcome) :
    ((s.endDelivery p d o).port p).readData = (s.port p).readData := by
  rw [State.endDelivery_eq, State.offer, State.modPort_port_same, (PortState.offer_onlyNotices _ _).readData, State.endCopy,
    (State.settleIfDone_port _ d p).readData, State.settleCopy_port, State.modPort_port_same]
  rfl

@[simp] theorem State.restartStall_readData (s : State) (p : Port) : ((s.restartStall p).port p).readData = (s.port p).readData := by
  rw [State.restartStall, State.modPort_port_same]
  rfl

@[simp] theorem State.setUnderrun_readData (s : State) (p : Port) : ((s.setUnderrun p).port p).readData = 0 := by
  rw [State.setUnderrun, State.modPort_port_same]

/-- LANE_READ leaves in the column the value that the read returns (R158). -/
theorem State.readLane_readData (s : State) (p : Port) : ((s.readLane p).port p).readData = (s.port p).laneValue := by
  cases howner : (s.port p).lane.owner with
  | idle => simp [State.readLane_of_idle howner, PortState.laneValue, howner]
  | inbound d => simp [State.readLane_of_too_few (.inr howner), PortState.laneValue, howner]
  | outbound d =>
    by_cases hready : (s.port p).accessSize ≤ (s.port p).lane.fifo.length
    · have hvalue : (s.port p).laneValue = laneReadValue ((s.port p).lane.fifo.take (s.port p).accessSize) := by
        simp only [PortState.laneValue, howner, hready, if_true]
      simp only [State.readLane, howner, hready, if_true, hvalue]
      split <;> simp [State.endDelivery_readData]
    · simp [State.readLane_of_too_few (.inl ⟨howner, Nat.not_le.mp hready⟩), PortState.laneValue, howner, hready]

end

/-- Settles O41: the lines and the reads by the reset pin and the port's width, the status word field by field. -/
theorem statusShowsTheFields : Obligations.StatusShowsTheFields := by
  intro s p ps w size ready interrupt reason
  have hsize : ps.accessSize = size := ps.accessSize_eq
  have hready : ps.laneReady = true ↔ ready := by
    rw [ps.laneReady_iff, hsize]
    simp only [ready]
    cases ps.lane.owner <;> simp
  have hinterrupt : ps.interruptRaised = true ↔ interrupt := ps.interruptRaised_iff
  have hreason : ps.reasonWord.setWidth 8 = reason := by
    rw [ps.reasonWord_low, InboundSide.reasonCode]
    simp only [reason]
    cases ps.inbound.reason with
    | none => rfl
    | some r => simp only [r.code_eq]
  obtain ⟨hsession, hanswer, hfull, hmark, hawaiting, hposted, howner, hlane, hdone, hoverrun, hunderrun, hlapsed, hline⟩ :=
    ps.statusWord_fields
  refine ⟨fun hrst => ?_, fun hrun => ?_, ?_, ?_, hfull, hmark, ?_, hposted, ?_, ?_, hdone, hoverrun, hunderrun, hlapsed, ?_⟩
  · refine ⟨?_, ?_, State.readValue_asserted hrst, fun x => ?_⟩
    · simp [State.interruptLine, hrst]
    · simp [State.dmaRequest, hrst]
    · simp [State.commandsOf, hrst]
  · refine ⟨?_, ?_, ⟨_, State.exec_outboundByteRead hrun rfl, ?_⟩, ⟨_, State.exec_laneRead hrun p, ?_⟩, fun hwidth => ?_,
      fun hwidth => ?_⟩
    · simpa [State.interruptLine, hrun] using hinterrupt
    · simp only [State.dmaRequest, PortState.dmaRaised, hrun, Bool.not_false, Bool.true_and, Bool.and_eq_true]
      exact and_congr_right fun _ => hready
    · rw [State.readValue_zero hrun, State.afterRead_port]
      rfl
    · rw [State.readValue_two hrun, State.readLane_readData]
    · obtain ⟨hstatus, hword⟩ := State.readValue_bits16 hrun hwidth
      have hlocation : ∀ a : BitVec 3, (a ||| 1).toNat / 2 = (a &&& 6).toNat / 2 := by decide
      rw [hstatus, hword]
      exact ⟨rfl, hreason, ps.reasonWord_high, fun address => State.readValue_location hwidth (hlocation address)⟩
    · obtain ⟨hlow, hhigh, hword, hundecoded⟩ := State.readValue_bits8 hrun hwidth
      rw [hlow, hhigh, hword]
      exact ⟨rfl, rfl, congrArg inLowHalf hreason, hundecoded⟩
  · rw [hsession]
    cases ps.session.state <;> rfl
  · rw [hanswer]
    cases ps.inbound.answer <;> rfl
  · rw [hawaiting, ps.awaitingAnswer_iff]
  · rw [howner]
    cases ps.lane.owner <;> rfl
  · rw [hlane, hready]
  · rw [hline, hinterrupt]

end Sys2Proof.Machine
end

