-- ==== Sys2Proof/Proofs/HardReset.lean ====
section
/-! PROOFS. What HARD_RESET leaves: every block at its hard-reset values, the straps sampled (O52). -/

namespace Sys2Proof.Machine

/-- Strap 1 is the high bit of the setup port's number (R188). -/
theorem setupOfStraps_number (setup1 setup0 : Bool) :
    (setupOfStraps setup1 setup0).number = 2 * setup1.toNat + setup0.toNat := by
  cases setup1 <;> cases setup0 <;> rfl

section

variable {s t : State} {straps : Straps} (h : execHardReset straps s = .next t)
include h

/-- Each column is at its hard-reset values, as wide as its own strap says (R188). -/
theorem execHardReset_port (p : Port) : t.port p = PortState.reset (widthOfStrap (straps.width.get p)) := by
  cases h
  exact PerPort.get_map _ _ _

theorem execHardReset_setupPort : t.setupPort = setupOfStraps straps.setup1 straps.setup0 := by
  cases h
  rfl

/-- The time base and the mover's pointer start anew, and the pin is released (R160, R182, R188). -/
theorem execHardReset_clock : t.tickCount = 0 ∧ t.pointer = .d ∧ t.resetAsserted = false := by
  cases h
  exact ⟨rfl, rfl, rfl⟩

/-- The model's own counter and queue stay (assumption log 11). -/
theorem execHardReset_keeps : t.draws = s.draws ∧ t.pending = s.pending := by
  cases h
  exact ⟨rfl, rfl⟩

end

/-- Settles O52: the state after is a reset state, with the straps sampled and the segments' bytes, the counter and the
queue kept. -/
theorem hardResetSetsEveryBlock : Obligations.HardResetSetsEveryBlock := by
  intro s straps
  obtain ⟨t, ht⟩ : ∃ t, execHardReset straps s = .next t := ⟨_, rfl⟩
  obtain ⟨hisReset, hmem⟩ := execHardReset_isReset ht
  obtain ⟨htick, hpointer, hpin⟩ := execHardReset_clock ht
  obtain ⟨hdraws, hpending⟩ := execHardReset_keeps ht
  refine ⟨t, ht, htick, hpointer, ?_, hpin, fun d => ?_, hisReset.members, ?_, fun p => ?_, hdraws, hpending⟩
  · rw [execHardReset_setupPort ht, setupOfStraps_number]
  · rw [hisReset.desc d]
    exact ⟨rfl, rfl, rfl, rfl, rfl⟩
  · rw [hisReset.pool, hmem]
    rfl
  · rw [execHardReset_port ht p]
    rfl

end Sys2Proof.Machine
end

