-- ==== Sys2Proof/Proofs/Straps.lean ====
section
/-! PROOFS. What the straps selected, the reset pin and the queue of commands: every operation of the part leaves them alone
(R188). -/

namespace Sys2Proof.Machine

/-- The widths and the setup port, the reset pin and the queue of commands are as they were. -/
structure State.SameStraps (s t : State) : Prop where
  setupPort : t.setupPort = s.setupPort
  resetAsserted : t.resetAsserted = s.resetAsserted
  pending : t.pending = s.pending
  width : ∀ q, (t.port q).width = (s.port q).width

section

variable {s t u : State} {p : Port} {d : DescNo}

theorem State.SameStraps.refl (s : State) : s.SameStraps s := ⟨rfl, rfl, rfl, fun _ => rfl⟩

theorem State.SameStraps.trans (h : s.SameStraps t) (h' : t.SameStraps u) : s.SameStraps u :=
  ⟨h'.setupPort.trans h.setupPort, h'.resetAsserted.trans h.resetAsserted, h'.pending.trans h.pending,
    fun q => (h'.width q).trans (h.width q)⟩

theorem State.SameFloor.sameStraps (h : s.SameFloor t) (hwidth : ∀ q, (t.port q).width = (s.port q).width) : s.SameStraps t :=
  ⟨h.setupPort, h.resetAsserted, h.pending, hwidth⟩

theorem State.Freed.sameStraps (h : s.Freed d t) : s.SameStraps t := h.floor.sameStraps fun q => (h.ports q).width

theorem State.foldl_sameStraps {α : Type} {f : State → α → State} (hf : ∀ s a, State.SameStraps s (f s a)) (as : List α) :
    ∀ s : State, s.SameStraps (as.foldl f s) := by
  induction as with
  | nil => exact State.SameStraps.refl
  | cons a as ih => exact fun s => (hf s a).trans (ih (f s a))

/-! ### Blocks of the state -/

theorem State.modPort_sameStraps {f : PortState → PortState} (h : (f (s.port p)).width = (s.port p).width) :
    s.SameStraps (s.modPort p f) := by
  refine (s.modPort_sameFloor p f).sameStraps fun q => ?_
  by_cases hq : q = p
  · rw [hq, State.modPort_port_same, h]
  · rw [State.modPort_port_other s f hq]

theorem State.modLane_sameStraps (s : State) (p : Port) (f : Lane → Lane) : s.SameStraps (s.modPort p (PortState.modLane f)) :=
  State.modPort_sameStraps rfl

theorem State.modInbound_sameStraps (s : State) (p : Port) (f : InboundSide → InboundSide) : s.SameStraps (s.modInbound p f) :=
  State.modPort_sameStraps rfl

theorem State.modDesc_sameStraps (s : State) (d : DescNo) (f : Descriptor → Descriptor) : s.SameStraps (s.modDesc d f) :=
  (s.modDesc_sameFloor d f).sameStraps fun _ => rfl

theorem State.modSlot_sameStraps (s : State) (d : DescNo) (p : Port) (f : CopySlot → CopySlot) : s.SameStraps (s.modSlot d p f) :=
  s.modDesc_sameStraps d _

theorem State.modPool_sameStraps (s : State) (f : Pool → Pool) : s.SameStraps (s.modPool f) := ⟨rfl, rfl, rfl, fun _ => rfl⟩

theorem State.modGroup_sameStraps (s : State) (g : GroupNo) (f : PerPort Bool → PerPort Bool) : s.SameStraps (s.modGroup g f) :=
  ⟨rfl, rfl, rfl, fun _ => rfl⟩

theorem State.offer_sameStraps (s : State) (p : Port) : s.SameStraps (s.offer p) :=
  State.modPort_sameStraps (PortState.offer_onlyNotices _ _).width

theorem State.appendNotice_sameStraps (s : State) (p : Port) (n : Notice) : s.SameStraps (s.appendNotice p n) :=
  State.modPort_sameStraps (PortState.append_onlyNotices _ _ _).width

/-! ### Copies and messages -/

theorem State.settleCopy_sameStraps (s : State) (d : DescNo) (p : Port) (o : CopyOutcome) : s.SameStraps (s.settleCopy d p o) :=
  s.modDesc_sameStraps d _

theorem State.settleIfDone_sameStraps (s : State) (d : DescNo) : s.SameStraps (s.settleIfDone d) :=
  (s.settleIfDone_sameFloor d).sameStraps fun q => (s.settleIfDone_port d q).width

theorem State.bindCopy_sameStraps (s : State) (p : Port) (f : TakeFields) (d : DescNo) : s.SameStraps (s.bindCopy p f d) :=
  ((s.modSlot_sameStraps d p _).trans (State.modPort_sameStraps rfl)).trans (State.appendNotice_sameStraps _ p _)

theorem State.matchCopy_sameStraps (s : State) (d : DescNo) (q : Port) : s.SameStraps (s.matchCopy d q) := by
  have hnew : s.SameStraps (s.newCopy d q) := s.modSlot_sameStraps d q _
  obtain ⟨-, h⟩ | ⟨-, ⟨ahead, t, behind, -, -, -, h⟩ | ⟨-, ⟨-, h⟩ | ⟨-, h⟩⟩⟩ := s.matchCopy_cases d q <;> rw [h]
  · exact hnew.trans (State.settleCopy_sameStraps _ d q _)
  · exact (hnew.trans (State.modPort_sameStraps rfl)).trans (State.bindCopy_sameStraps _ q _ d)
  · exact (hnew.trans (State.modPort_sameStraps rfl)).trans (State.modSlot_sameStraps _ d q _)
  · exact hnew.trans (State.settleCopy_sameStraps _ d q _)

theorem State.complete_sameStraps (s : State) (d : DescNo) : s.SameStraps (s.complete d) := by
  have hmatched : s.SameStraps (s.matched d) :=
    State.foldl_matchCopy (P := s.SameStraps) (fun t q h => h.trans (t.matchCopy_sameStraps d q)) _ _ (s.modDesc_sameStraps d _)
  rw [State.complete_eq]
  split
  · exact hmatched.trans (State.modDesc_sameStraps _ d _)
  · exact hmatched.trans (State.settleDescriptor_freed _ d).sameStraps

/-! ### Ends of transfers and sessions -/

theorem State.returnLane_sameStraps (s : State) (p : Port) : s.SameStraps (s.returnLane p) :=
  State.SameStraps.trans (t := s.modPort p PortState.idleLane) (State.modPort_sameStraps rfl) (State.offer_sameStraps _ p)

theorem State.abandonTransfer_sameStraps (s : State) (p : Port) (d : DescNo) : s.SameStraps (s.abandonTransfer p d) :=
  (s.abandon_freed d).sameStraps.trans (State.returnLane_sameStraps _ p)

theorem State.endDelivery_sameStraps (s : State) (p : Port) (d : DescNo) (o : CopyOutcome) : s.SameStraps (s.endDelivery p d o) := by
  have htake : s.SameStraps ((s.settleCopy d p o).modPort p (PortState.endTake d)) :=
    (s.settleCopy_sameStraps d p o).trans (State.modPort_sameStraps rfl)
  exact ((htake.trans (State.modPort_sameStraps (f := PortState.idleLane) rfl)).trans
    (State.settleIfDone_sameStraps _ d)).trans (State.offer_sameStraps _ p)

theorem State.TornDown.sameStraps (h : s.TornDown p t) : s.SameStraps t := by
  refine ⟨h.setupPort, h.resetAsserted, h.pending, fun q => ?_⟩
  by_cases hq : q = p
  · rw [hq, h.own]
    rfl
  · obtain ⟨rs, hrs⟩ := h.others q hq
    rw [hrs, (PortState.receive_onlyNotices _ rs _).width]

theorem State.teardownIfOpen_sameStraps (s : State) (p : Port) : s.SameStraps (s.teardownIfOpen p) := by
  unfold State.teardownIfOpen
  split
  · exact (s.teardown_tornDown p).sameStraps
  · exact .refl s

theorem State.lapse_sameStraps (s : State) (p : Port) : s.SameStraps (s.lapse p) := by
  have hcause : s.SameStraps (s.modPort p (PortState.setLapsedCause true)) := State.modPort_sameStraps rfl
  exact (hcause.trans (State.teardown_tornDown _ p).sameStraps).trans (State.modPort_sameStraps rfl)

/-! ### Requests -/

theorem State.openSession_sameStraps (s : State) (p : Port) (limit : Nat) : s.SameStraps (s.openSession p limit) :=
  (s.teardownIfOpen_sameStraps p).trans (State.modPort_sameStraps rfl)

theorem State.closeSession_sameStraps (s : State) (p : Port) : s.SameStraps (s.closeSession p) :=
  (s.teardownIfOpen_sameStraps p).trans (State.modPort_sameStraps rfl)

theorem PortState.bookIf_width (b : Bool) (ps : PortState) : (PortState.bookIf b ps).width = ps.width := by
  cases b <;> rfl

theorem State.doSend_sameStraps (s : State) (p : Port) (f : SendFields) (d : DescNo) : s.SameStraps (s.doSend p f d) := by
  have hallotted : s.SameStraps (s.allotted p f d) := by
    rw [State.allotted_eq]
    exact ((s.modDesc_sameStraps d _).trans (State.modPool_sameStraps _ _)).trans
      (State.modPort_sameStraps (PortState.bookIf_width _ _))
  rw [State.doSend_eq]
  split
  · exact hallotted.trans (State.modPort_sameStraps rfl)
  · exact hallotted.trans (State.complete_sameStraps _ d)

theorem State.doTake_sameStraps (s : State) (p : Port) (f : TakeFields) : s.SameStraps (s.doTake p f) := by
  have hbook : s.SameStraps (s.modPort p PortState.bookSlot) := State.modPort_sameStraps rfl
  unfold State.doTake
  split
  · exact (hbook.trans (State.modPort_sameStraps rfl)).trans (State.bindCopy_sameStraps _ p f _)
  · exact hbook.trans (State.modPort_sameStraps rfl)

theorem State.acceptSend_sameStraps {destination channel : Byte} {length hold label : Half} {options : Byte}
    (h : s.acceptSend p destination channel length hold label options = .ok t) : s.SameStraps t := by
  unfold State.acceptSend at h
  split at h
  · cases h
  · split_ifs at h
    split at h
    · cases h
    · simp only at h
      split at h <;> cases h
      exact s.doSend_sameStraps p _ _

theorem State.acceptTake_sameStraps {label : Half} {source value mask : Byte} {capacity timeout : Half}
    (h : s.acceptTake p label source value mask capacity timeout = .ok t) : s.SameStraps t := by
  unfold State.acceptTake at h
  split at h
  · cases h
  · split at h
    · cases h
    · split at h
      · cases h
      · split_ifs at h
        cases h
        exact s.doTake_sameStraps p _

/-- The effect of an accepted request (R92). -/
theorem State.acceptRequest_sameStraps {r : Request} (h : s.acceptRequest p r = .ok t) : s.SameStraps t := by
  cases r with
  | openPort limit =>
    simp only [State.acceptRequest, State.acceptOpen] at h
    split_ifs at h
    cases h
    exact s.openSession_sameStraps p _
  | closePort =>
    simp only [State.acceptRequest, State.acceptClose] at h
    split_ifs at h
    cases h
    exact s.closeSession_sameStraps p
  | send => exact State.acceptSend_sameStraps h
  | take => exact State.acceptTake_sameStraps h
  | cancel | query =>
    simp only [State.acceptRequest, State.acceptCancel, State.acceptQuery] at h
    split at h
    · cases h
    · split_ifs at h
      cases h
      exact State.SameStraps.trans (State.modPort_sameStraps rfl) (State.appendNotice_sameStraps (s.modPort p _) p _)
  | join group | leave group =>
    simp only [State.acceptRequest, State.acceptJoin, State.acceptLeave] at h
    split at h
    · cases h
    · split at h
      · cases h
      · split_ifs at h
        cases h
        exact s.modGroup_sameStraps _ _
  | configure =>
    simp only [State.acceptRequest, State.acceptConfigure] at h
    split at h
    · cases h
    · split_ifs at h
      cases h
      exact s.modPool_sameStraps _

theorem State.post_sameStraps (s : State) (p : Port) (r : Option Reason) : s.SameStraps (s.post p r) :=
  State.modPort_sameStraps rfl

theorem State.answerRequest_sameStraps {v : Except Reason State} (hv : ∀ t, v = .ok t → s.SameStraps t) :
    s.SameStraps (s.answerRequest p v) := by
  cases v with
  | ok t => exact (hv t rfl).trans (t.post_sameStraps p none)
  | error r => exact s.post_sameStraps p (some r)

theorem State.request_sameStraps (s : State) (p : Port) (r : Request) : s.SameStraps (s.answerRequest p (s.acceptRequest p r)) :=
  State.answerRequest_sameStraps fun _ => State.acceptRequest_sameStraps

/-! ### The framing unit -/

theorem State.closeBlock_sameStraps (s : State) (p : Port) (b : Byte) : s.SameStraps (s.closeBlock p b) := by
  have hstray : ∀ n, s.SameStraps ((s.modInbound p InboundSide.beginClosing).modInbound p (InboundSide.setStray n)) := fun n =>
    (s.modInbound_sameStraps p _).trans (State.modInbound_sameStraps _ p _)
  unfold State.closeBlock
  simp only
  split
  · exact (hstray _).trans (State.post_sameStraps _ p _)
  · refine (hstray _).trans (State.answerRequest_sameStraps fun t ht => ?_)
    unfold State.decodeBlock at ht
    split at ht
    · cases ht
    · exact State.acceptRequest_sameStraps ht

theorem State.writeCommandByte_sameStraps (s : State) (p : Port) (data : Half) : s.SameStraps (s.writeCommandByte p data) := by
  unfold State.writeCommandByte
  split
  · exact s.closeBlock_sameStraps p _
  · exact s.modInbound_sameStraps p _

theorem State.readCommandByte_sameStraps (s : State) (p : Port) : s.SameStraps (s.readCommandByte p) :=
  State.modPort_sameStraps rfl

theorem State.acceptArrival_sameStraps (s : State) (p : Port) (n : Arrival) : s.SameStraps (s.acceptArrival p n) := by
  unfold State.acceptArrival
  split
  · exact .refl s
  · next m _ =>
    split
    · exact (s.modSlot_sameStraps m.bound p _).trans (State.modPort_sameStraps rfl)
    · exact ((s.settleCopy_sameStraps m.bound p _).trans (State.modPort_sameStraps rfl)).trans
        (State.settleIfDone_sameStraps _ m.bound)

theorem State.returnCopy_sameStraps (s : State) (p : Port) (d : DescNo) : s.SameStraps (s.returnCopy p d) := by
  have hsettled : ∀ o, s.SameStraps ((s.settleCopy d p o).settleIfDone d) := fun o =>
    (s.settleCopy_sameStraps d p o).trans (State.settleIfDone_sameStraps _ d)
  obtain ⟨-, h⟩ | ⟨-, -, h⟩ | ⟨-, -, h⟩ := s.returnCopy_cases p d <;> rw [h]
  · exact hsettled _
  · exact hsettled _
  · exact (State.modPort_sameStraps rfl).trans (State.modSlot_sameStraps _ d p _)

theorem State.refuseArrival_sameStraps (s : State) (p : Port) (n : Arrival) : s.SameStraps (s.refuseArrival p n) := by
  unfold State.refuseArrival
  split
  · exact .refl s
  · exact (State.modPort_sameStraps rfl).trans (State.returnCopy_sameStraps _ p _)

theorem State.answerOwner_sameStraps (s : State) (p : Port) (accepted : Bool) (n : Notice) :
    s.SameStraps (s.answerOwner p accepted n) := by
  cases n with
  | takeEnded | receipt | report => exact .refl s
  | arrival a =>
    cases accepted with
    | true => exact s.acceptArrival_sameStraps p a
    | false => exact s.refuseArrival_sameStraps p a

theorem State.answerNotice_sameStraps (s : State) (p : Port) (accepted : Bool) : s.SameStraps (s.answerNotice p accepted) := by
  have hpop : s.SameStraps (s.modPort p PortState.removeHead) := State.modPort_sameStraps rfl
  unfold State.answerNotice
  split
  · exact (hpop.trans (State.answerOwner_sameStraps _ p accepted _)).trans (State.offer_sameStraps _ p)
  · exact .refl s

theorem State.testByteDeadline_sameStraps (s : State) (p : Port) : s.SameStraps (s.testByteDeadline p) := by
  unfold State.testByteDeadline
  split
  · exact s.lapse_sameStraps p
  · exact .refl s

theorem State.testAnswerDeadline_sameStraps (s : State) (p : Port) : s.SameStraps (s.testAnswerDeadline p) := by
  unfold State.testAnswerDeadline
  split
  · exact s.lapse_sameStraps p
  · exact .refl s

/-! ### The lane -/

theorem State.setOverrun_sameStraps (s : State) (p : Port) : s.SameStraps (s.setOverrun p) := s.modLane_sameStraps p _

theorem State.setUnderrun_sameStraps (s : State) (p : Port) : s.SameStraps (s.setUnderrun p) := State.modPort_sameStraps rfl

theorem State.restartStall_sameStraps (s : State) (p : Port) : s.SameStraps (s.restartStall p) := s.modLane_sameStraps p _

theorem State.writeLane_sameStraps (s : State) (p : Port) (data : Half) : s.SameStraps (s.writeLane p data) := by
  have hoverrun := s.setOverrun_sameStraps p
  have hrestart := hoverrun.trans (State.restartStall_sameStraps _ p)
  unfold State.writeLane
  simp only
  split
  · exact hoverrun
  · exact hrestart
  · split_ifs
    · exact hrestart
    · exact (s.modLane_sameStraps p _).trans (State.restartStall_sameStraps _ p)
    · exact hoverrun.trans (State.abandonTransfer_sameStraps _ p _)

theorem State.readLane_sameStraps (s : State) (p : Port) : s.SameStraps (s.readLane p) := by
  have hunderrun := s.setUnderrun_sameStraps p
  have hrestart := hunderrun.trans (State.restartStall_sameStraps _ p)
  have hgiven : ∀ f : PortState → PortState, (f (s.port p)).width = (s.port p).width →
      s.SameStraps ((s.modPort p f).restartStall p) := fun f hf =>
    (State.modPort_sameStraps hf).trans (State.restartStall_sameStraps _ p)
  unfold State.readLane
  simp only
  split
  · exact hunderrun
  · exact hrestart
  · split_ifs
    · exact (hgiven _ rfl).trans (State.endDelivery_sameStraps _ p _ _)
    · exact hgiven _ rfl
    · exact hrestart

theorem State.purgeLane_sameStraps (s : State) (p : Port) : s.SameStraps (s.purgeLane p) := by
  have hempty := s.modLane_sameStraps p (fun l => { l with fifo := [], overrun := false, underrun := false })
  unfold State.purgeLane
  simp only
  split
  · exact hempty
  · exact hempty.trans (State.abandonTransfer_sameStraps _ p _)
  · exact hempty.trans (State.endDelivery_sameStraps _ p _ _)

theorem State.resetPort_sameStraps (s : State) (p : Port) : s.SameStraps (s.resetPort p) := by
  have hclosed : s.SameStraps ((s.teardownIfOpen p).modPort p fun ps => (ps.setSession .closed).setLapsedCause false) :=
    (s.teardownIfOpen_sameStraps p).trans (State.modPort_sameStraps rfl)
  exact (hclosed.trans (State.purgeLane_sameStraps _ p)).trans (State.modPort_sameStraps rfl)

theorem State.stallInbound_sameStraps (s : State) (p : Port) : s.SameStraps (s.stallInbound p) := by
  unfold State.stallInbound
  split
  · split
    · exact s.abandonTransfer_sameStraps p _
    · exact .refl s
  · exact .refl s
  · exact .refl s

theorem State.stallOutbound_sameStraps (s : State) (p : Port) : s.SameStraps (s.stallOutbound p) := by
  unfold State.stallOutbound
  split
  · split
    · exact (s.endDelivery_sameStraps p _ _).trans (State.lapse_sameStraps _ p)
    · exact .refl s
  · exact .refl s
  · exact .refl s

/-! ### Takes, holds and the mover -/

theorem State.expireTakes_sameStraps (s : State) (p : Port) : s.SameStraps (s.expireTakes p) := by
  obtain ⟨-, h⟩ | ⟨-, h⟩ := s.expireTakes_cases p <;> rw [h]
  · exact .refl s
  · exact State.modPort_sameStraps (PortState.append_onlyNotices _ _ _).width

theorem State.expireCopy_sameStraps (s : State) (p : Port) (d : DescNo) : s.SameStraps (s.expireCopy p d) := by
  have hleave : s.SameStraps (s.modPort p (fun ps => { ps with unclaimed := ps.unclaimed.erase d })) :=
    State.modPort_sameStraps rfl
  exact (hleave.trans (State.settleCopy_sameStraps _ d p _)).trans (State.settleIfDone_sameStraps _ d)

theorem State.expireHolds_sameStraps (s : State) (p : Port) : s.SameStraps (s.expireHolds p) := by
  unfold State.expireHolds
  split
  · exact State.foldl_sameStraps (fun t d => t.expireCopy_sameStraps p d) _ s
  · exact .refl s

theorem State.markHolds_sameStraps (s : State) (p : Port) : s.SameStraps (s.markHolds p) := by
  unfold State.markHolds
  split
  · exact ⟨rfl, rfl, rfl, fun _ => rfl⟩
  · exact .refl s

theorem State.chunkStored_sameStraps (s : State) (p : Port) (d : DescNo) (n : Nat) : s.SameStraps (s.chunkStored p d n) := by
  refine ⟨rfl, rfl, rfl, fun q => ?_⟩
  obtain ⟨lane, hport⟩ := s.chunkStored_port p d n q
  rw [hport]

theorem State.grantTo_sameStraps (s : State) (p : Port) : s.SameStraps (s.grantTo p) := by
  cases howner : (s.port p).lane.owner with
  | idle =>
    simp only [State.grantTo, howner]
    exact .refl s
  | outbound d =>
    simp only [State.grantTo, howner]
    exact State.SameStraps.trans (t := { s with pointer := p }) ⟨rfl, rfl, rfl, fun _ => rfl⟩ (State.modLane_sameStraps _ p _)
  | inbound d =>
    have hstored := s.chunkStored_sameStraps p d
    rw [State.grantTo_inbound howner]
    split
    · exact ((hstored _).trans (State.complete_sameStraps _ d)).trans (State.returnLane_sameStraps _ p)
    · exact hstored _

theorem State.moverTurn_sameStraps (s : State) : s.SameStraps s.moverTurn := by
  unfold State.moverTurn
  split
  · exact .refl s
  · exact s.grantTo_sameStraps _

/-! ### The tick -/

theorem State.takeDue_sameStraps (s : State) (h : DueHappening) : s.SameStraps (s.takeDue h) := by
  rw [State.takeDue_eq]
  split
  · cases h with
    | takes p => exact s.expireTakes_sameStraps p
    | list p => exact (s.expireHolds_sameStraps p).trans (State.markHolds_sameStraps _ p)
    | framing p => exact (s.testByteDeadline_sameStraps p).trans (State.testAnswerDeadline_sameStraps _ p)
    | lane p => exact (s.stallInbound_sameStraps p).trans (State.stallOutbound_sameStraps _ p)
    | grant => exact s.moverTurn_sameStraps
  · exact .refl s

theorem State.catchUp_sameStraps (s : State) : s.SameStraps s.catchUp := by
  have hall : ∀ (hs : List DueHappening) (u : State), u.SameStraps (u.takeAllDue hs) :=
    State.foldl_sameStraps State.takeDue_sameStraps
  unfold State.catchUp
  split
  · exact .refl s
  · exact hall _ s
  · exact State.SameStraps.trans (t := { s with draws := s.draws + 1 }) ⟨rfl, rfl, rfl, fun _ => rfl⟩ (hall _ _)

theorem State.advance_sameStraps (s : State) : s.SameStraps s.advance := by
  refine ⟨rfl, rfl, rfl, fun q => ?_⟩
  have hport : s.advance.port q = (s.port q).oweGrant := PerPort.get_map _ _ _
  rw [hport]
  rfl

end

end Sys2Proof.Machine
end

