-- ==== Sys2Proof/Proofs/CommandOutcomes.lean ====
section
/-! PROOFS. What each command answers: a next state, with the straps, the reset pin and the queue kept and nothing done under
the pin (O2), and the one fault of UNDECODED_WRITE (O3). -/

namespace Sys2Proof.Machine

/-! ### The writes of undecoded addresses -/

theorem undecodedAddress_iff (address : BitVec 3) : undecodedAddress address = true ↔ address = 1 ∨ address = 3 ∨ address = 7 := by
  simp [undecodedAddress, or_assoc]

/-- UNDECODED_WRITE stops with a fault exactly where its operands name no write of R183. -/
theorem State.exec_undecodedWrite (s : State) (p : Port) (address : BitVec 3) (data : Byte) :
    exec (.undecodedWrite p address data) s =
      if undecodedAddress address = true ∧ (s.port p).width = .bits8 then .next s else .fault .noUndecodedAddress := by
  simp [exec, execUndecodedWrite]

/-- Settles O3. -/
theorem undecodedWriteChangesNothing : Obligations.UndecodedWriteChangesNothing := by
  intro s p address data
  rw [State.exec_undecodedWrite]
  refine ⟨fun ⟨hwidth, haddress⟩ => if_pos ⟨(undecodedAddress_iff address).mpr haddress, hwidth⟩, fun h => if_neg ?_⟩
  rintro ⟨hundecoded, hwidth⟩
  obtain hwide | ⟨h1, h3, h7⟩ := h
  · exact hwide hwidth
  · exact ((undecodedAddress_iff address).mp hundecoded).elim h1 (Or.elim · h3 h7)

/-! ### The rows that read, and the others -/

section

variable {s t : State} {p : Port} {c : Instr}

theorem State.SameStraps.unlessInReset (h : s.SameStraps t) : s.SameStraps (s.unlessInReset t) := by
  unfold State.unlessInReset
  split
  · exact .refl s
  · exact h

theorem State.SameStraps.readUnlessInReset (h : s.SameStraps t) : s.SameStraps (s.readUnlessInReset p t) := by
  unfold State.readUnlessInReset
  split
  · exact State.modPort_sameStraps rfl
  · exact h

/-- The rows that return a value to the host (R146, R158). -/
def ReadsAt (p : Port) (c : Instr) : Prop := c = .outboundByteRead p ∨ c = .laneRead p

/-- A read at another port is another command. -/
theorem ReadsAt.port_eq {q : Port} (h : ReadsAt p c) (h' : ReadsAt q c) : q = p := by
  obtain rfl | rfl := h <;> obtain h' | h' := h' <;> cases h' <;> rfl

/-- A read keeps the straps, and under the reset pin it returns 0 (R188). -/
theorem ReadsAt.exec_readUnlessInReset (h : ReadsAt p c) : ∃ t, s.SameStraps t ∧ exec c s = .next (s.readUnlessInReset p t) := by
  obtain rfl | rfl := h
  · exact ⟨_, s.readCommandByte_sameStraps p, rfl⟩
  · exact ⟨_, s.readLane_sameStraps p, rfl⟩

/-- Every command but the reads, UNDECODED_WRITE and HARD_RESET keeps the straps, and does nothing under the reset pin
(R188). -/
theorem State.exec_unlessInReset (hwrite : ∀ p a b, c ≠ .undecodedWrite p a b) (hread : ∀ p, ¬ ReadsAt p c)
    (hreset : ∀ straps, c ≠ .hardReset straps) : ∃ t, s.SameStraps t ∧ exec c s = .next (s.unlessInReset t) := by
  cases c with
  | hardReset straps => exact absurd rfl (hreset straps)
  | undecodedWrite p address data => exact absurd rfl (hwrite p address data)
  | outboundByteRead p => exact absurd (.inl rfl) (hread p)
  | laneRead p => exact absurd (.inr rfl) (hread p)
  | gatheringWrite p data | closingWrite p data => exact ⟨_, s.writeCommandByte_sameStraps p data, rfl⟩
  | openPort p limit => exact ⟨_, s.request_sameStraps p (.openPort limit), rfl⟩
  | closePort p => exact ⟨_, s.request_sameStraps p .closePort, rfl⟩
  | send p dst ch len hold label opt => exact ⟨_, s.request_sameStraps p (.send dst ch len hold label opt), rfl⟩
  | take p label src v m cap timeout => exact ⟨_, s.request_sameStraps p (.take label src v m cap timeout), rfl⟩
  | cancel p label => exact ⟨_, s.request_sameStraps p (.cancel label), rfl⟩
  | join p group => exact ⟨_, s.request_sameStraps p (.join group), rfl⟩
  | leave p group => exact ⟨_, s.request_sameStraps p (.leave group), rfl⟩
  | query p => exact ⟨_, s.request_sameStraps p .query, rfl⟩
  | configure p reserve ceiling stall => exact ⟨_, s.request_sameStraps p (.configure reserve ceiling stall), rfl⟩
  | setClosingMark p => exact ⟨_, s.modInbound_sameStraps p _, rfl⟩
  | accept p => exact ⟨_, s.answerNotice_sameStraps p true, rfl⟩
  | refuse p => exact ⟨_, s.answerNotice_sameStraps p false, rfl⟩
  | laneWrite p data => exact ⟨_, s.writeLane_sameStraps p data, rfl⟩
  | writeEnables p enables => exact ⟨_, State.modPort_sameStraps (f := fun ps => { ps with enables := enables }) rfl, rfl⟩
  | doneClear p | clearLaneFlags p => exact ⟨_, s.modLane_sameStraps p _, rfl⟩
  | purge p => exact ⟨_, s.purgeLane_sameStraps p, rfl⟩
  | portReset p => exact ⟨_, s.resetPort_sameStraps p, rfl⟩
  | tick => exact ⟨_, s.catchUp_sameStraps.trans (State.advance_sameStraps _), rfl⟩
  | takeDeadline p => exact ⟨_, s.expireTakes_sameStraps p, rfl⟩
  | holdExpiry p => exact ⟨_, s.expireHolds_sameStraps p, rfl⟩
  | holdDeadlineMark p => exact ⟨_, s.markHolds_sameStraps p, rfl⟩
  | byteDeadline p => exact ⟨_, s.testByteDeadline_sameStraps p, rfl⟩
  | answerDeadline p => exact ⟨_, s.testAnswerDeadline_sameStraps p, rfl⟩
  | inboundStall p => exact ⟨_, s.stallInbound_sameStraps p, rfl⟩
  | outboundStall p => exact ⟨_, s.stallOutbound_sameStraps p, rfl⟩
  | grant => exact ⟨_, s.moverTurn_sameStraps, rfl⟩

end

/-- Settles O2: HARD_RESET answers a state with the same queue; a read, and every other command, answers its effect or, under
the reset pin, what R188 leaves of it. -/
theorem commandsCompleteAndKeepTheStraps : Obligations.CommandsCompleteAndKeepTheStraps := by
  intro c s hwrite
  by_cases hreset : ∃ straps, c = .hardReset straps
  · obtain ⟨straps, rfl⟩ := hreset
    exact ⟨_, rfl, (execHardReset_keeps rfl).2, fun h => absurd rfl (h straps)⟩
  by_cases hread : ∃ p, ReadsAt p c
  · obtain ⟨p, hp⟩ := hread
    obtain ⟨u, hu, hexec⟩ := hp.exec_readUnlessInReset (s := s)
    have hkept := hu.readUnlessInReset (p := p)
    refine ⟨_, hexec, hkept.pending, fun _ => ⟨hkept.setupPort, hkept.resetAsserted, hkept.width, fun hpin => ⟨?_, ?_⟩⟩⟩
    · intro q hq
      rw [hp.port_eq hq]
      exact State.readUnlessInReset_asserted s p u hpin
    · exact fun hnot => absurd hp (not_or.mpr (hnot p))
  · obtain ⟨u, hu, hexec⟩ := State.exec_unlessInReset (s := s) hwrite (not_exists.mp hread) (not_exists.mp hreset)
    have hkept := hu.unlessInReset
    refine ⟨_, hexec, hkept.pending, fun _ => ⟨hkept.setupPort, hkept.resetAsserted, hkept.width, fun hpin => ⟨?_, ?_⟩⟩⟩
    · exact fun q hq => absurd ⟨q, hq⟩ hread
    · exact fun _ => State.unlessInReset_asserted s u hpin

end Sys2Proof.Machine
end

