-- ==== Sys2Proof/Proofs/StepOfQueue.lean ====
section
/-! PROOFS. One step by the queue it meets: a command in front, or none (O1). -/

namespace Sys2Proof.Machine

section

variable {s : State}

theorem step_of_pending_cons {c : Instr} {rest : List Instr} (hqueue : s.pending = c :: rest) :
    step s = exec c { s with pending := rest } := by
  rw [step, hqueue]

theorem step_of_pending_nil (hqueue : s.pending = []) : step s = .next s := by
  rw [step, hqueue]

end

/-- Settles O1: the two equations of `step`, one for each shape of the queue. -/
theorem stepTakesTheFrontCommand : Obligations.StepTakesTheFrontCommand :=
  ⟨fun _ _ _ => step_of_pending_cons, fun _ => step_of_pending_nil⟩

end Sys2Proof.Machine
end
